-- ==== Sys2Proof/Word.lean ====
section
/-! DEFINITION. The word types of the Umzil 940 and nothing else: 8-, 16-, 32- and 64-bit words, the 32-lane mask, the lane number. -/

namespace Sys2Proof

/-- One byte, the addressable unit (R3). -/
abbrev Byte := BitVec 8

/-- The 16-bit content of an index register lane (R10). -/
abbrev Half := BitVec 16

/-- One lane of a vector register (R10). -/
abbrev Word := BitVec 32

/-- A scalar register, an address, an instruction word (R10, R69, R137). -/
abbrev Dword := BitVec 64

/-- One bit per lane of a group (R21). -/
abbrev Mask := BitVec 32

/-- A lane number, 0 to 31 (R8, R9). -/
abbrev Lane := Fin 32

/-- The 32 lane values of one vector register row (R10). -/
abbrev Lanes := Vector Word 32

end Sys2Proof
end

