-- ==== Sys2Proof/Machine/Bits.lean ====
section
/-! DEFINITION. Bit fields, byte order and extension: the helpers every other file cuts words apart with. -/

namespace Sys2Proof

/-- Bits hi:lo of a word, as the spec writes x<hi:lo>, both inclusive, bit 0 the least significant (R3). -/
def field {n : Nat} (w : BitVec n) (hi lo : Nat) : BitVec (hi - lo + 1) := w.extractLsb' lo (hi - lo + 1)

/-- Bits hi:lo of a word as a number (R3). -/
def fieldN {n : Nat} (w : BitVec n) (hi lo : Nat) : Nat := (w.extractLsb' lo (hi - lo + 1)).toNat

/-- Bit i of a word. -/
def bitAt {n : Nat} (w : BitVec n) (i : Nat) : Bool := w.getLsbD i

/-- Bits hi:lo of a word are zero. -/
def zeroAt {n : Nat} (w : BitVec n) (hi lo : Nat) : Bool := fieldN w hi lo == 0

/-- A word with bits hi:lo replaced by the low bits of v. -/
def putField {n : Nat} (w : BitVec n) (hi lo : Nat) (v : Nat) : BitVec n :=
  let mask : BitVec n := BitVec.ofNat n (2 ^ (hi + 1) - 2 ^ lo)
  (w &&& ~~~ mask) ||| (BitVec.ofNat n (v * 2 ^ lo) &&& mask)

/-- The `n` bytes of a number, least significant first (R3). -/
def leBytes : Nat → Nat → List Byte
  | 0, _ => []
  | n + 1, v => BitVec.ofNat 8 v :: leBytes n (v / 256)

/-- The number a byte string holds, least significant byte first (R3). -/
def ofLe : List Byte → Nat
  | [] => 0
  | b :: bs => b.toNat + 256 * ofLe bs

/-- The unsigned number that bytes lo..lo+n-1 of a byte string hold (R3). -/
def leAt (bs : List Byte) (lo n : Nat) : Nat := ofLe ((bs.drop lo).take n)

/-- The 64-bit word at byte offset lo of a byte string (R3). -/
def dwordAt (bs : List Byte) (lo : Nat) : Dword := BitVec.ofNat 64 (leAt bs lo 8)

/-- The bytes from lo up to hi of a byte string are zero. -/
def zeroBytes (bs : List Byte) (lo hi : Nat) : Bool := ((bs.drop lo).take (hi - lo)).all (· == 0)

/-- Overwrite the bytes of a string from offset lo on. -/
def spliceBytes (bs : List Byte) (lo : Nat) (new : List Byte) : List Byte :=
  bs.take lo ++ new ++ bs.drop (lo + new.length)

/-- The lane numbers in increasing order. -/
def lanesUp : List Nat := List.range 32

/-- The lanes of a mask, in increasing order. -/
def maskLanes (m : Mask) : List Nat := lanesUp.filter (m.getLsbD ·)

/-- Number of lanes of a mask. -/
def maskCount (m : Mask) : Nat := (maskLanes m).length

/-- The mask of the lanes that satisfy a test. -/
def maskOf (f : Nat → Bool) : Mask :=
  lanesUp.foldl (fun m i => if f i then m ||| (1#32 <<< i) else m) 0#32

/-- The lowest lane of a mask. -/
def lowestLane (m : Mask) : Option Nat := lanesUp.find? (m.getLsbD ·)

/-- Lane i of a vector register's values; the number of a lane is below 32. -/
def laneOf {α : Type} (v : Vector α 32) (i : Nat) : α := v.getD i (v[0])

/-- A vector with entries by lane number. -/
def lanesOf {α : Type} (f : Nat → α) : Vector α 32 := Vector.ofFn fun i => f i.val

/-- New lane values where the mask is set, the old ones elsewhere (R126). -/
def blend {α : Type} (m : Mask) (new old : Vector α 32) : Vector α 32 :=
  Vector.ofFn fun i => if m.getLsbD i.val then new[i] else old[i]

/-- Exact signed value (R119). -/
def sgn {n : Nat} (w : BitVec n) : Int := w.toInt

/-- `wrap`, `sats` and `satu` of R120, as n-bit words. -/
def wrapTo (n : Nat) (x : Int) : BitVec n := BitVec.ofInt n x
def satsTo (n : Nat) (x : Int) : BitVec n := BitVec.ofInt n (min (max x (-(2 ^ (n - 1)))) (2 ^ (n - 1) - 1))
def satuTo (n : Nat) (x : Int) : BitVec n := BitVec.ofInt n (min (max x 0) (2 ^ n - 1))

/-- Leading zero bits of an n-bit word (R180, R190). -/
def leadingZeros {n : Nat} (w : BitVec n) : Nat := if w = 0 then n else n - 1 - w.toNat.log2

/-- Set bits of an n-bit word. -/
def popCount {n : Nat} (w : BitVec n) : Nat := ((List.range n).filter (w.getLsbD ·)).length

end Sys2Proof
end

