-- ==== Sys2Proof/Config.lean ====
section
/-! DEFINITION. What an implementation fixes and what the manual leaves free. A free value is an opaque constant without a body,
so that no proof can use a value of it; a fact about it holds whatever it is (log 3). -/

namespace Sys2Proof.Config

/-- Free value number n: what an "undefined" register, element or memory word of R7 holds. The argument is the counter
`freeCtr` of the state, advanced at each use (log 3). -/
opaque freeWord : Nat → BitVec 64

/-- What the compare of monitor entry number n reads of a frame that two running partitions map, when the free counter stands at the second number: undefined (R7, R371, log 53). -/
opaque sharedWord : Nat → Nat → BitVec 64

/-- The value of a special function (R199: 0 exp2, 1 log2, 2 sin, 3 cos) on the encoded operand, used only where the model's interval
arithmetic does not separate the two neighbouring encodings at its last precision (log 4). -/
opaque functionValue : Nat → Nat → Word

/-- Byte i of the 48 that the identity circuit yields at every power-up (R424): the seeds SK.seed, SK.prf and PK.seed, 16 bytes each. The spec gives no value of a device's. -/
opaque identityByte : Nat → Byte

/-- The 48 bytes of the identity circuit (R424). -/
def identity : List Byte := (List.range 48).map identityByte

/-- Byte i of PK.root, which key generation derives from the seeds (R424): FIPS 205 is not restated by the spec, so it is free (log 89). -/
opaque keyRoot : List Byte → Nat → Byte

/-- The device's 32-byte public identity key, which its 48 bytes fix (R424): PK.seed and PK.root. -/
def publicKey : List Byte := identity.drop 32 ++ (List.range 16).map (keyRoot identity)

/-- The SLH-DSA-SHA2-128f signature of a byte string (the second) under the key that seeds (the first) generate (R424, R425): FIPS 205 is not restated by the spec, so the 17,088 bytes
are free (log 89). Byte i of the signature. -/
opaque signature : List Byte → List Byte → Nat → Byte

/-- The CODE of CMDERR in a status record (R86): the list of R348 gives it none, so it is free (log 75). -/
opaque cmdErrCode : BitVec 16

/-- Byte i of the 64-byte header of a quote, which holds the device serial, the mask and the meridian time at places the spec does not give (R425). -/
opaque quoteHeader : BitVec 56 → BitVec 8 → BitVec 64 → Nat → Byte

/-- The device serial number carried in quotes and fix images (R418, R425). -/
opaque deviceSerial : BitVec 56

/-- The device's own Ferzu node number (R409, R420). -/
opaque ferzuNode : BitVec 24

/-- Cores exposed per cluster (R1, R9). -/
def coresPerCluster : Nat := 256

/-- Clusters per die (R1, R9). -/
def clustersPerDie : Nat := 16

/-- Dies per package (R1, R9). -/
def dies : Nat := 4

/-- Group slots per core (R10). -/
def slotsPerCore : Nat := 48

/-- Register rows per core (R10). -/
def rowsPerCore : Nat := 512

/-- Scratch rows per core (R10). -/
def scratchRowsPerCore : Nat := 512

/-- Tile units per core (R10). -/
def tilesPerCore : Nat := 16

/-- L1 data cache lines per core: 32 KiB of 128 bytes (R10). -/
def l1Lines : Nat := 256

/-- L1 instruction cache lines per core: 16 KiB of 128 bytes (R10). -/
def icacheLines : Nat := 128

/-- Partitions per package (R1). -/
def partitions : Nat := 40

/-- Holding entries of a weir port (R232). -/
def weirEntries : Nat := 64

/-- Record cache entries of a cluster (R263). -/
def recordEntries : Nat := 64

/-- Chain heads a copy channel queues (R266). -/
def chainHeads : Nat := 16

/-- Forwarding stubs a device holds at most (R423). -/
def maxStubs : Nat := 4096

end Sys2Proof.Config
end

