-- ==== Sys2Proof/Machine/Types.lean ====
section
/-! DEFINITION. The records the machine's state is made of, each plain data. Field comments cite the rule of spec/ that names the field. -/

namespace Sys2Proof

/-- The in-flight paths of a group (R82), with the codes of `waitc` (R223). -/
inductive Path | asy | trv | cis | qnt
  deriving DecidableEq, Repr

/-- Scopes of R94, in the order of their codes (R144). -/
inductive Scope | group | block | die | device | system
  deriving DecidableEq, Repr

/-- The three windows of R69. -/
inductive Space | global | scratch | cistern
  deriving DecidableEq, Repr

/-- Format tags of a vector register row (R125). -/
inductive Tag | raw | i32 | f32 | bf16x2 | f16x2 | i8x4 | d2p8x4 | blk
  deriving DecidableEq, Repr

/-- Precise traps (R278). -/
inductive Cause
  | illop | splitfull | regbound | emptyreg | tagmismatch | align | access | poison | gangerr | matrixerr | softtrap | bkpt | watch | step
  deriving DecidableEq, Repr

/-- Causes of an engine command's CMDERR (R258). -/
inductive EngCause
  | malformed | shape | elemSize | translation | outside | misaligned | check | scaleFF | poisoned
  deriving DecidableEq, Repr

/-- Reduction operations (R134, R225, R234). -/
inductive RedOp | add | min | max | minu | maxu | and | or | xor
  deriving DecidableEq, Repr

/-- Element formats of a reduction (R134); `i64` is FMT 0b00 with W = 1 (R225). -/
inductive RedFmt | i32 | f32 | bf16x2 | f16x2 | i64
  deriving DecidableEq, Repr

/-- Conditions of R170, codes 0 to 7. -/
inductive Cond | eq | ne | lt | le | gt | ge | num | nan
  deriving DecidableEq, Repr

/-- One vector register row: 32 lanes, tag, full/empty bit and poison mark (R10, R125, R214, R215). -/
structure VRow where
  lanes  : Lanes
  tag    : Tag
  full   : Bool
  poison : Bool
  deriving DecidableEq, Repr

/-- STATE of a split-table entry (R23). -/
inductive SplitState | free | runnable | joinPark | barPark | waitPark | gangPark
  deriving DecidableEq, Repr

/-- Why a parked split waits, with what its completion needs. `rem` counts the cycles of residence still to pass (R428). -/
inductive Wait
  | none
  | bar (n : Nat) (lanes : Mask)                                   -- R48
  | waitc (path : Path) (limit : Dword)                            -- R85
  | fence (scope : Option Scope)                                   -- R237, none is .full
  | stepAdv (sd : Nat) (imm : Dword)                               -- R245
  | opfence                                                        -- R115
  | mmwait (one : Bool)                                            -- R256
  | mwait (sd : Nat) (mon : Nat) (acq : Option Scope) (rem : Option Nat) -- R242
  | waitm (sd : Nat) (mon : Option Nat) (deadline : Dword)         -- R243
  | tbar (sd : Nat) (mon : Nat) (phase : Bool) (rem : Option Nat)  -- R240
  | slwait (line : Nat)                                            -- R272
  | sleep (rem : Nat)                                              -- R166
  | xpair (sd : Nat) (partner : Nat) (rem : Option Nat)            -- R209
  | rolesw (sd : Option Nat) (role : Nat) (grow : Bool)            -- R34, R274
  | mma (word : Dword)                                             -- R252, parked at the rendezvous
  | stepg (sd : Nat)                                               -- R286, until the target has issued
  | watchset (sd : Nat)                                            -- R287
  deriving DecidableEq, Repr

/-- A split-table entry (R23) with the reason of its park, the word fetched for it and not yet issued (R137, R394), the lanes that were active in the word whose STEP is due when
it becomes runnable (R279), whether it passes its next turn (R165), and its partition's issue turns since it last issued (R42). -/
structure Entry where
  pc      : Dword
  state   : SplitState
  rpc     : Dword
  rv      : Bool
  own     : Mask
  ex      : Mask
  rmask   : Mask
  age     : BitVec 16
  wait    : Wait
  ibuf    : Option Dword
  stepDue : Option Mask
  passed  : Bool
  turns   : Nat
  deriving DecidableEq, Repr

/-- An unmatched `xshuf` of a group (R210). -/
structure XShuf where
  dst    : Nat
  xtag   : Byte
  active : Mask
  val    : Lanes
  vtag   : Tag
  deriving DecidableEq, Repr

/-- One of the ASY and TRV paths of a group: the number of the open batch, its OPEN count, and the numbers of the sealed unfinished batches in order (R84). -/
structure PathCtl where
  seq    : Nat
  count  : Nat
  closed : List Nat
  deriving DecidableEq, Repr

/-- Why a whole group stands parked: no reason, a translation fault (R213, R385), or a write to a page still marked COW (R417). -/
inductive Park | none | fault | cow (page : Nat)
  deriving DecidableEq, Repr

/-- A consumer that waits for a pulse of a sluice line, in the order it began to wait (R271). -/
inductive SlWaiter | split (gid : Nat) (k : Nat) | asy (id : Nat) | trav (id : Nat) | mma (id : Nat)
  deriving DecidableEq, Repr

/-- A sluice line (R269 to R272): configuring group, configuration bits 19:0, COUNT, waiting consumers. -/
structure SluiceLine where
  core    : Nat
  line    : Nat
  owner   : Option Nat
  cfg     : BitVec 20
  count   : BitVec 16
  waiters : List SlWaiter
  deriving DecidableEq, Repr

/-- A step asked of a halted group (R286, R362): the entry, or 4 for a choice by R41; the group, split and scalar that wait for it, or none for GSTEP. -/
structure StepReq where
  entry : Nat
  by_   : Option (Nat × Nat × Nat)
  deriving DecidableEq, Repr

/-- A backsight region that a rewound group runs again (R326, R328): START, END, recipe and the recipe's end; whether a rule of R328 is broken; the registers written there so far, by save
code and lanes, and the places stored to (space, ATTR, address, bytes); and the registers that a word of it will write when its split's wait ends. -/
structure Rerun where
  start  : Nat
  stop   : Nat
  recipe : Nat
  rstop  : Nat
  broken : Bool
  regs   : List (Nat × Mask)
  stores : List (Space × Nat × Nat × Nat)
  late   : List (Nat × Nat)
  deriving DecidableEq, Repr

/-- A resident group (R10, R11, R18, R21, R33, R82, R248, R258, R277). `holds` are the returns its acquires wait for (R217); `since` and `scrSince` are the rows and the
scratch rows written since its last `opfence` (R114). `lines` holds the sluice lines it configured while it is saved (R290),
`rewind` the save codes when its image is a rewound one (R325). `hurt` lists the scalar, index and predicate registers that a restore has marked poisoned, by save code (R322, R388);
`region` holds, for each backsight region that splits of it stand in, the START and whether rules 1 to 3 have held there, and `rerun` the region that it runs again (R328). `preHalt` says that it stood halted before its partition's HALT (R324, R386). -/
structure Group where
  gid       : Nat
  lid       : Nat
  bid       : Nat
  part      : Nat
  core      : Nat
  slot      : Nat
  span      : Nat
  block     : Nat
  group     : Nat
  ngroups   : Nat
  nblocks   : Nat
  nspans    : Nat
  rows      : List (Nat × VRow)
  s         : Vector Dword 64
  x         : Vector (Vector Half 32) 8
  pr        : Vector Mask 8
  split     : Vector Entry 4
  live      : Mask
  helpers   : Mask
  role      : Nat
  prio      : Nat
  allot     : Nat
  gang      : Dword
  engerr    : Dword
  errAsy    : Bool
  errTrv    : Bool
  errCis    : Bool
  errQnt    : Bool
  asy       : PathCtl
  trv       : PathCtl
  cisq      : List (Nat × Bool)
  qntq      : List (Nat × Bool)
  trapbase  : Dword
  trapcause : Dword
  traplanes : Dword
  trappc    : Dword
  trapinfo  : Dword
  hsave     : Vector Dword 4
  ss        : Bool
  hmode     : Bool
  stopped   : BitVec 4
  halt      : Bool
  halt280   : Bool
  preHalt   : Bool
  park      : Park
  pair      : Option Nat
  xshufs    : List XShuf
  tileBase  : Nat
  tileCnt   : Nat
  mmas      : List Nat
  matErr    : List (Nat × Nat)
  begun     : Bool
  holds     : List Nat
  since     : List Nat
  scrSince  : List Nat
  stepReq   : Option StepReq
  lines     : List SluiceLine
  rewind    : Option (List Nat)
  hurt      : List Nat
  region    : List (Nat × Bool)
  rerun     : Option Rerun
  deriving DecidableEq, Repr

/-- One of the 16 barriers of a block (R48, R50, R389), whose arrived lanes the parked splits hold: armed by a first arrival, cycles since it, the limit that applies to the phase, and
whether BARSTALL has been raised for the phase. -/
structure Bar where
  armed   : Bool
  age     : Nat
  limit   : Word
  stalled : Bool
  deriving DecidableEq, Repr

/-- What is left of the ASY and TRV paths of a group that has exited: its slot and core, and its batches, whose completions still reach sluice lines (R15, R271). -/
structure Orphan where
  gid  : Nat
  core : Nat
  slot : Nat
  asy  : PathCtl
  trv  : PathCtl
  deriving DecidableEq, Repr

/-- A resident (or swapped, or saved) block (R29, R48, R49, R351, R392). `cluster` is die * 16 + cluster; `gids` pairs each group number whose group has not ended with its
group's number in the model; `pools` holds the free rows of the block's register pool on
each core of its run; `image` is the partition-physical address of its image while it is swapped out or saved. -/
structure Block where
  bid         : Nat
  lid         : Nat
  part        : Nat
  span        : Nat
  block       : Nat
  cluster     : Nat
  firstCore   : Nat
  ncores      : Nat
  gids        : List (Nat × Nat)
  bars        : List Bar
  barlimit    : Word
  pools       : List Nat
  poolRows    : List Nat
  scratchRow  : Nat
  scratchRows : Nat
  tilesPer    : Nat
  placedAt    : Dword
  image       : Option Nat
  swapped     : Bool
  deriving DecidableEq, Repr

/-- A role of a launch (R32, R350). -/
structure RoleDecl where
  entry   : Dword
  prio    : Nat
  movable : Bool
  regs    : Nat
  groups  : Nat
  deriving DecidableEq, Repr

/-- The values of a LAUNCH packet (R349, R350). -/
structure LaunchParams where
  nspans    : Nat
  nblocks   : Nat
  ngroups   : Nat
  threads   : Nat
  data      : Dword
  args      : Dword
  tiles     : Nat
  scratch   : Nat
  roles     : List RoleDecl
  stages    : List (Nat × Nat)
  trap      : Dword
  barlimit  : Word
  backsight : Dword
  start     : Option Dword
  deriving DecidableEq, Repr

/-- OP of a completion signal (R346, R347). -/
inductive SigOp | set | add | sub | arrive
  deriving DecidableEq, Repr

/-- A completion signal (R346, R347). -/
structure SignalRec where
  addr    : Dword
  operand : Dword
  op      : SigOp
  deriving DecidableEq, Repr

/-- A watched word of a WAIT, COND or LOOP (R346); `timeout` in µs, 0 none. -/
structure WatchRec where
  addr     : Dword
  operand  : Dword
  cond     : Cond
  uns      : Bool
  timeout  : Nat
  deriving DecidableEq, Repr

/-- The values of a FIX packet (R415). -/
structure FixParams where
  n      : Dword
  byTime : Bool
  when_  : Option Dword
  list   : Dword
  ranges : Nat
  node   : BitVec 24
  offset : Dword
  rate   : Nat
  deriving DecidableEq, Repr

/-- What a packet of R344 asks for. -/
inductive PacketBody
  | launch (l : LaunchParams)
  | signal
  | wait (w : WatchRec)
  | cond (w : WatchRec) (skip : Nat)
  | loop (w : WatchRec) (body : Nat) (count : Nat)
  | graph (nodes : Dword) (count : Nat)
  | fence
  | fix (f : FixParams)
  | migrate (node : BitVec 24) (part : Nat)
  deriving DecidableEq, Repr

/-- A validated packet (R341 to R344). -/
structure Packet where
  seq    : Word
  after  : Bool
  signal : Option SignalRec
  body   : PacketBody
  deriving DecidableEq, Repr

/-- A launch that has started or waits for its spans to be placed (R335, R345, R353). `node` names the graph run and node it belongs to; `waved` says that it has had its one
migration wave (R38); `gids` lists every group it has had, for the commands of groups that have ended (R15). -/
structure Launch where
  lid      : Nat
  part     : Nat
  q        : Nat
  seq      : Word
  pk       : Nat
  params   : LaunchParams
  nextSpan : Nat
  killed   : Bool
  late     : Bool
  waved    : Bool
  signal   : Option SignalRec
  node     : Option (Nat × Nat)
  gids     : List Nat
  deriving DecidableEq, Repr

/-- L1 states of R75; U holds partial values of one operation and format. -/
inductive CState | m | o | e | s | i | u (op : RedOp) (fmt : RedFmt)
  deriving DecidableEq, Repr

/-- The content of a 128-byte line or row with its generation (R368) and the poison marks of its four 32-byte units (R413). -/
structure LineVal where
  bytes : List Byte
  gen   : Nat
  pois  : BitVec 4
  deriving DecidableEq, Repr

/-- Whom a directory tracks (R76, R77): an L1 (by package-wide core number), a requester-side slice (by die), the cores of a cluster that a broadcast reaches and that do not hold
the line, the Binnacle's coherent agents. -/
inductive Agent | l1 (core : Nat) | slice (die : Nat) | rest (cluster : Nat) | binnacle
  deriving DecidableEq, Repr

/-- A switch port of R427: a local crossbar's uplink, a central port toward a slice, a central port toward the link to another die. -/
inductive Port
  | uplink (die : Nat) (xbar : Nat)
  | toSlice (die : Nat) (slice : Nat)
  | toDie (die : Nat) (dest : Nat)
  deriving DecidableEq, Repr

/-- Where a message of the network starts or ends (R73): a core, an L2 slice of a die, a cluster that a probe is broadcast to, the Binnacle, a scratchpad, a bank of a die, a switch port that
answers a weir operation. -/
inductive EndPoint | core (c : Nat) | slice (die : Nat) (index : Nat) | cluster (c : Nat) | binnacle | pad (n : Nat) | bank (n : Nat) | port (p : Port)
  deriving DecidableEq, Repr

/-- A directory: the home slice of the line, or the requester-side slice of a die (R76, R77). -/
inductive Node | home | slice (die : Nat)
  deriving DecidableEq, Repr

/-- A line held in an L1 (R75, R92). `line` is PA<40:7>. -/
structure L1Line where
  core : Nat
  line : Nat
  st   : CState
  val  : LineVal
  prio : Nat
  deriving DecidableEq, Repr

/-- A code line held in a core's L1 instruction cache (R10, R282). -/
structure CodeLine where
  core : Nat
  line : Nat
  val  : LineVal
  deriving DecidableEq, Repr

/-- A line held in a requester-side slice (R77). -/
structure SliceLine where
  die  : Nat
  line : Nat
  st   : CState
  val  : LineVal
  deriving DecidableEq, Repr

/-- A directory entry (R76): owner core when some cache holds the line in M, O or E, and 20 sharer bits (16 clusters, 3 other dies, the Binnacle). -/
structure DirEntry where
  node    : Node
  line    : Nat
  st      : Option CState
  owner   : Option Agent
  sharers : BitVec 20
  deriving DecidableEq, Repr

/-- An L2 data way that holds a line (R375, R376): die, line, way, dirty against the tier, priority (R92), the partition that filled it. -/
structure L2Way where
  die   : Nat
  line  : Nat
  way   : Nat
  dirty : Bool
  prio  : Nat
  part  : Nat
  deriving DecidableEq, Repr

/-- One atomic of `atom`, `cas` or a `red` to scratch (R226 to R228). `op = none` is exchange; `ret` is the outstanding return it answers. -/
structure AtomOp where
  lane : Nat
  ret  : Option Nat
  w64  : Bool
  cas  : Bool
  op   : Option RedOp
  fmt  : RedFmt
  b    : Dword
  c    : Dword
  deriving DecidableEq, Repr

/-- What a request asks of a directory or of the home (R77, R79, R81, R90). -/
inductive ReqKind
  | getS
  | getM
  | getU (op : RedOp) (fmt : RedFmt)
  | store (off : Nat) (bytes : List Byte)
  | atom (off : Nat) (a : AtomOp)
  deriving DecidableEq, Repr

/-- A request in flight to a directory, in the request class (R73), for group `gid`. `seen` are the groups that have read a store before it is performed (R116);
`again` says that a word of a region that runs again has sent it (R328). -/
structure Req where
  id   : Nat
  gid  : Nat
  line : Nat
  src  : Agent
  node : Node
  gen  : Nat
  part : Nat
  prio : Nat
  kind : ReqKind
  seen : List Nat := []
  again : Bool := false
  deriving DecidableEq, Repr

/-- A request a directory has taken up and that waits for probe answers (R81), or for the slice's own copy from the home (R77). -/
structure Txn where
  node   : Node
  req    : Req
  left   : List Agent
  wantUp : Bool
  deriving DecidableEq, Repr

/-- A probe toward a cache (R74, R76): `inval` takes the copy away, otherwise an owner is asked to share. `held` while a fill of the line is outstanding. -/
structure Probe where
  id    : Nat
  line  : Nat
  node  : Node
  dest  : Agent
  inval : Bool
  held  : Bool
  deriving DecidableEq, Repr

/-- A probe answer, or an owner's eviction (`wb`), on its way to a directory (R74, R77): the data when it is dirty, whether the copy stays. -/
structure Answer where
  id   : Nat
  line : Nat
  node : Node
  src  : Agent
  val  : Option LineVal
  kept : Bool
  wb   : Bool
  deriving DecidableEq, Repr

/-- A reply that carries a line to a cache (R74, R77). -/
structure Fill where
  id   : Nat
  line : Nat
  node : Node
  dest : Agent
  st   : CState
  val  : LineVal
  deriving DecidableEq, Repr

/-- A U line on its way home after its eviction from an L1 (R80). -/
structure UEvict where
  id   : Nat
  core : Nat
  line : Nat
  op   : RedOp
  fmt  : RedFmt
  val  : LineVal
  deriving DecidableEq, Repr

/-- What an access that waits for its line in an L1 does once the line is there. `width` in bytes; `sign` extends. -/
inductive PendAct
  | load (ret : Nat) (lane : Nat) (off : Nat) (width : Nat) (sign : Bool)
  | store (off : Nat) (bytes : List Byte) (pois : Bool)
  | red (op : RedOp) (fmt : RedFmt) (off : Nat) (b : Word)
  | warm
  deriving DecidableEq, Repr

/-- An access of a group that waits in its core's L1 for a line, in the order of issue. `seen` names the groups that have read a store before it was performed (R78, R116);
`again` is as in `Req`. -/
structure Pend where
  core : Nat
  line : Nat
  gid  : Nat
  seen : List Nat
  gen  : Nat
  part : Nat
  prio : Nat
  act  : PendAct
  again : Bool := false
  deriving DecidableEq, Repr

/-- An operand of one element of a `cis` (R235). -/
structure CisElem where
  lane : Nat
  addr : Nat
  b    : Word
  c    : Word
  deriving DecidableEq, Repr

/-- Operations of a cistern bank (R135, R234). -/
inductive CisOp | red (op : RedOp) | exch | fma
  deriving DecidableEq, Repr

/-- What a request to a scratchpad or a cistern bank does there (R72, R226, R235). -/
inductive NearAct
  | load (ret : Nat) (lanes : Mask) (width : Nat) (sign : Bool)
  | store (bytes : List Byte)
  | atom (a : AtomOp)
  | cis (op : CisOp) (fmt : RedFmt) (ret : Option Nat) (elems : List CisElem)
  deriving DecidableEq, Repr

/-- A request in flight to a scratchpad or a bank, in order from its core (R72, R73). `addr` is the key of the byte in its storage: package cluster number * 2^24 + offset for
scratch, die * 2^25 + offset for the cistern; `again` is as in `Req`. -/
structure NearReq where
  id    : Nat
  space : Space
  core  : Nat
  gid   : Nat
  gen   : Nat
  addr  : Nat
  act   : NearAct
  again : Bool := false
  deriving DecidableEq, Repr

/-- A reply on its way to a core (R73): the lanes whose values it carries, its sender, and its place in the order of sending. -/
structure Reply where
  lanes : Mask
  src   : EndPoint
  dest  : Nat
  seq   : Nat
  deriving DecidableEq, Repr

/-- An outstanding return to vector rows (R214): first row, row count, lanes active at issue, tag, and the lanes whose values have been sent (lane, row words from the low row up,
poison), with the replies that carry them. `again` says that a word of a region that runs again has opened it, `loose` that its values are undefined (R328). -/
structure Ret where
  id    : Nat
  gid   : Nat
  row   : Nat
  count : Nat
  lanes : Mask
  tag   : Tag
  cis   : Bool
  weir  : Bool
  acq   : Bool
  vals  : List (Nat × BitVec 128 × Bool)
  sent  : List Reply := []
  again : Bool := false
  loose : Bool := false
  deriving DecidableEq, Repr

/-- KIND of a weir object (R229). -/
inductive WeirKind | stack | pool | queue
  deriving DecidableEq, Repr

/-- A weir operation in flight (R232): the ports still ahead of it, the cycles left while a port holds it. `ret` and `lane` name the answer's place. -/
structure WeirReq where
  id    : Nat
  gid   : Nat
  core  : Nat
  ret   : Nat
  lane  : Nat
  push  : Bool
  part  : Nat
  gen   : Nat
  attr  : Nat
  pa    : Nat
  limit : Nat
  kind  : WeirKind
  value : Dword
  check : BitVec 16
  ports : List Port
  held  : Option Nat
  deriving DecidableEq, Repr

/-- One lane of an `ald` or `ast` (R220, R221): the global virtual address and the place it had at issue, the scratch key, and the bytes read. -/
structure AsyElem where
  lane  : Nat
  va    : Dword
  attr  : Nat
  pa    : Nat
  addr  : Nat
  bytes : List Byte
  pois  : Bool
  deriving DecidableEq, Repr

/-- An `ald` (`fill`) or `ast` in flight (R221), in batch `batch` of its group, with the priority of its hint (R220); `gates` names the sluice lines that have not released it (R271), and
`read` says that its source bytes have been read. -/
structure AsyOp where
  id    : Nat
  gid   : Nat
  part  : Nat
  core  : Nat
  batch : Nat
  fill  : Bool
  prio  : Nat
  size  : Nat
  read  : Bool
  elems : List AsyElem
  gates : List Nat
  deriving DecidableEq, Repr

/-- A traverse command (R262); `recs` are the source and destination records as it found them when it began. -/
structure TravCmd where
  id      : Nat
  gid     : Nat
  part    : Nat
  core    : Nat
  batch   : Nat
  src     : Dword
  dst     : Dword
  dmw     : Dword
  gates   : List Nat
  recs    : Option (List Byte × List Byte)
  deriving DecidableEq, Repr

/-- A chain queued on a copy channel (R266), with the group and core it was issued from. -/
structure ChainHead where
  gid  : Nat
  part : Nat
  core : Nat
  head : Dword
  deriving DecidableEq, Repr

/-- A copy channel of a cluster (R266, R267): queued chains, the record it stands at, and the monitor it is parked on. -/
structure Channel where
  cluster : Nat
  ch      : Nat
  chains  : List ChainHead
  cur     : Option Dword
  parked  : Option Nat
  deriving DecidableEq, Repr

/-- A quantisation submission (R268). -/
structure QntCmd where
  id   : Nat
  gid  : Nat
  part : Nat
  die  : Nat
  core : Nat
  addr : Dword
  deriving DecidableEq, Repr

/-- A record cache entry (R263), keyed by partition and device-physical address. -/
structure RecEntry where
  cluster : Nat
  part    : Nat
  gen     : Nat
  pa      : Nat
  bytes   : List Byte
  pois    : Bool
  deriving DecidableEq, Repr

/-- A member of a gang product (R250, R251): its group, accumulator tile unit, first A, B and C rows, and the sluice lines that gated its `mma` when it issued (R271). -/
structure MmaMember where
  gid  : Nat
  tile : Nat
  unit : Nat
  a    : Nat
  b    : Nat
  c    : Nat
  gates : List Nat := []
  deriving DecidableEq, Repr

/-- A gang's rendezvous on a core (R252): the reference and the members parked there. -/
structure Rendezvous where
  core    : Nat
  m       : BitVec 6
  gang    : Dword
  bsc     : Dword
  members : List (MmaMember × Nat)
  deriving DecidableEq, Repr

/-- A product (R253, R255): `hazard` once an operand or the accumulator was touched before `mmwait` (R114), `kept` the members that have exited since, as they stood (R15), `left` the
members whose `mmwait` has not returned. -/
structure Product where
  id      : Nat
  core    : Nat
  m       : BitVec 6
  bsc     : Nat
  members : List MmaMember
  hazard  : Bool
  gates   : List Nat
  kept    : List Group
  left    : List Nat
  deriving DecidableEq, Repr

/-- A tile unit of a core (R10, R253, R254): 1,024 words, generation, poison mark. -/
structure TileUnit where
  core   : Nat
  unit   : Nat
  gen    : Nat
  words  : List Word
  poison : Bool
  deriving DecidableEq, Repr

/-- What a monitor entry tests (R89, R242, R240, R267). -/
inductive MonTest
  | cmp (c : Cond) (w64 : Bool) (uns : Bool) (operand : Dword)
  | phaseNot (phase : Bool)
  | ownSet
  | changed (old : Dword)
  deriving DecidableEq, Repr

/-- Who waits on a monitor entry (R89, R267, R338, R340, R346, R356). -/
inductive Waiter
  | split (gid : Nat) (k : Nat)
  | channel (cluster : Nat) (ch : Nat)
  | queue (p : Nat) (q : Nat)
  | run (p : Nat) (q : Nat) (r : Nat)
  deriving DecidableEq, Repr

/-- A monitor entry (R89, R90) at the storage that orders its location; `addr` is the device-physical address or the storage key. `hit` holds the word that made
the compare hold, once a write did; `written` says that its line has been written since it was last looked at. -/
structure Mon where
  id    : Nat
  space : Space
  addr  : Nat
  part  : Nat
  gen   : Nat
  test  : MonTest
  who   : Waiter
  hit   : Option Dword
  written : Bool := false
  deriving DecidableEq, Repr

/-- Where an instruction with a sidecar stands (R302): the place of its code word and that of its sidecar byte, each with its ATTR (R379). -/
structure SitePlace where
  attr     : Nat
  pa       : Nat
  sideAttr : Nat
  side     : Nat
  deriving DecidableEq, Repr

/-- A site step in flight (R307, R309): the core it comes from, the partition and generation it acts for, the home address and ATTR of the code word and of its sidecar byte, the
word it expects and the word it writes; `widen` counts in the sidecar (R310), which `rewritten` says is all that is left of it (R312). -/
structure SiteStep where
  id     : Nat
  part   : Nat
  gen    : Nat
  pa     : Nat
  attr   : Nat := 0
  side   : Nat
  sideAttr : Nat := 0
  expect : Dword
  new    : Dword
  widen  : Bool
  core   : Nat
  rewritten : Bool
  deriving DecidableEq, Repr

/-- Where a TLB entry sits (R381). -/
inductive TlbLevel | l1 (core : Nat) | cluster (c : Nat) | die (d : Nat)
  deriving DecidableEq, Repr

/-- The leaf facts a translation gives (R379): page size, permissions of both stages, ATTR, PIN, SITE, COW. -/
structure Leaf where
  base : Nat
  size : Nat
  size1 : Nat
  size2 : Nat
  ipa  : Nat
  r    : Bool
  w    : Bool
  x    : Bool
  attr : Nat
  pin  : Bool
  site : Bool
  cow  : Bool
  deriving DecidableEq, Repr

/-- A stage's leaf: the page it maps to, its size and its bits. -/
structure PteLeaf where
  base : Nat
  size : Nat
  pte  : Dword
  deriving DecidableEq, Repr

/-- A TLB entry (R381): tagged with the partition, one page of one stage's input space, that stage's result. -/
structure TlbEntry where
  level  : TlbLevel
  part   : Nat
  stage2 : Bool
  page   : Nat
  leaf   : PteLeaf
  deriving DecidableEq, Repr

/-- A node of a graph (R354). -/
structure GNode where
  count   : Nat
  link    : Nat
  uns     : Bool
  code    : Nat
  after   : Bool
  kind    : Nat
  addr    : Dword
  operand : Dword
  deriving DecidableEq, Repr

/-- A wait of the command processor on a word (R340, R346, R356): its monitor entry, the time it gives up, and, without an entry, the time it re-reads. -/
structure CpWait where
  mon      : Option Nat
  deadline : Option Nat
  reread   : Option Nat
  deriving DecidableEq, Repr

/-- A graph run (R355, R356), named by its packet's number: the copied nodes, the next node, LOOP counters, started nodes not yet complete, the wait of a WAIT node at `pos`,
and the code and node index it ends with once it starts no further node. -/
structure GRun where
  r        : Nat
  seq      : Word
  signal   : Option SignalRec
  nodes    : List GNode
  pos      : Nat
  runs     : List Nat
  open_    : List Nat
  waiting  : Option CpWait
  result   : Option (Nat × Nat)
  deriving DecidableEq, Repr

/-- STATE of a queue (R337). -/
inductive QState | run | error | halted
  deriving DecidableEq, Repr

/-- An open LOOP of a queue (R346): where its body begins, packets of the body passed in this execution, executions run. -/
structure QLoop where
  pk     : Nat
  seq    : Word
  signal : Option SignalRec
  watch  : WatchRec
  start  : Dword
  body   : Nat
  count  : Nat
  done   : Nat
  execs  : Nat
  deriving DecidableEq, Repr

/-- A WAIT packet that has started (R346). -/
structure WaitRun where
  pk     : Nat
  seq    : Word
  signal : Option SignalRec
  watch  : WatchRec
  on     : CpWait
  deriving DecidableEq, Repr

/-- A queue as its scheduler serves it (R337 to R346): its descriptor's address, its place in device memory and its values as read, whether its ENABLE bit stands, RDIDX, where the
next packet is read, the park on WRIDX, the packet copied and not started, the number of the next packet, packets started and not complete by number, the blocking one among them, a WAIT, packets to
skip, an open loop, graph runs. `failed` says that a queue which is HALTED stood in ERROR before (R386). -/
structure Queue where
  q       : Nat
  desc    : Dword
  descPa  : Option Nat
  enabled : Bool
  ring    : Dword
  log2    : Nat
  prio    : Nat
  rdidx   : Dword
  readAt  : Dword
  st      : QState
  park    : Option CpWait
  raw     : Option (List Byte)
  nextPk  : Nat
  open_   : List Nat
  block   : Option Nat
  waitp   : Option WaitRun
  skip    : Nat
  loop    : Option QLoop
  runs    : List GRun
  failed  : Bool := false
  deriving DecidableEq, Repr

/-- A page of a cut fix still to be copied (R379, R417): its partition-physical address, that of its stage-2 leaf's page with the leaf's size, and where the leaf lies in home
addresses. The leaf's COW bit stands for every page of the leaf. -/
structure CowPage where
  page : Nat
  leaf : Nat
  size : Nat
  base : Nat
  deriving DecidableEq, Repr

/-- A FIX that has started (R415 to R419): pages left to drain after the cut, in order, and those of them that an engine's write waits for. -/
structure FixRun where
  q      : Nat
  seq    : Word
  pk     : Nat
  signal : Option SignalRec
  params : FixParams
  pages  : List Nat
  cut    : Option Dword
  left   : List CowPage
  wanted : List Nat
  deriving DecidableEq, Repr

/-- A watch slot of a partition (R287, R288), with the cluster and die of the group that armed it. -/
structure WatchSlot where
  en      : Bool
  wr      : Bool
  rd      : Bool
  log2len : Nat
  addr    : Dword
  cluster : Nat
  deriving DecidableEq, Repr

/-- STATE of a partition (R361). -/
inductive PState | free | config | run | halted | saved
  deriving DecidableEq, Repr

/-- RESULT of a partition's last command (R361). -/
inductive PResult | ok | badstate | overlap | range | nogen | refused | poisoned | toosmall | waiting
  deriving DecidableEq, Repr

/-- A save in progress (R387): full or backsight, per command. -/
inductive Saving | none | full | back
  deriving DecidableEq, Repr

/-- A command of a partition that has been taken and stands BUSY until it can be whole (R361, R362): KILL with its queue; TLBINV with its argument and the accesses of the partition that
were under way when it was taken, those that wait in an L1 and the numbers of the others. -/
inductive Pcmd | destroy | halt | resume | kill (q : Nat) | tlbinv (parg : Dword) (pends : List Pend) (ids : List Nat)
  deriving DecidableEq, Repr

/-- A partition: its register block (R360, R361, R364, R367, R375, R383), step counter (R245), watch slots (R287), queues, fixes and counters (R426). -/
structure Part where
  state    : PState
  result   : PResult
  busy     : Bool
  pending  : Option Pcmd
  badtable : Bool
  gen      : Nat
  parg     : Dword
  place    : Dword
  quota    : Dword
  cisrange : Dword
  waymask  : Vector (BitVec 24) 4
  walk     : Vector Bool 4
  s2root   : Dword
  s1root   : Dword
  qtable   : Dword
  qtabUsed : Dword
  fqbase   : Dword
  fqEn     : Bool
  fqLog2   : BitVec 5
  fqDrop   : BitVec 16
  fqwr     : Dword
  fqrd     : Dword
  mbox     : Dword
  weirwin  : Byte
  savebase : Dword
  savesize : Dword
  swap     : Bool
  dbkpt    : Bool
  stepCtr  : Dword
  watches  : Vector WatchSlot 4
  saving   : Saving
  haltTime : Dword
  queues   : List Queue
  fixes    : List FixRun
  poisoned : Nat
  matbusy  : Nat
  issued   : Nat
  fixbytes : Nat
  fqHeld   : List (List Byte)
  saveAt   : Nat
  measure  : Vector (BitVec 256) 4
  quote    : Option (List Byte)
  deriving DecidableEq, Repr

/-- A DRAM row or bank (R414): die (4 is module memory), channel, bank, row (none: the whole bank). -/
structure DramPart where
  die     : Nat
  channel : Nat
  bank    : Nat
  row     : Option Nat
  deriving DecidableEq, Repr

/-- The update of a transaction barrier (R86, R87): arrivals and bytes. -/
inductive TbarOp | arrive (n : Nat) | bytes (n : Nat)
  deriving DecidableEq, Repr

/-- A write of the host or of a peer (R90, R371, R413, R422): bytes, which may be marked poisoned, an atomic, or an update of a transaction barrier. -/
inductive Inbound | write (bytes : List Byte) (pois : Bool) | atom (a : AtomOp) | tbar (op : TbarOp)
  deriving DecidableEq, Repr

/-- A forwarding stub (R422): source line address, destination node and line address. A migration is one step of the model, so no write arrives while a line is being copied. -/
structure Stub where
  line   : Nat
  node   : BitVec 24
  target : Nat
  deriving DecidableEq, Repr

/-- The device's own registers and records (R407, R408, R370, R413, R414, R422, R425, R426). `lanesDown` holds the Ferzu lanes (port, lane) whose spare trains, `laneSpared`
the ports whose spare lane is in use; `opened` says that a partition has been opened since power-up, `slew` how many nanoseconds are still to be slewed, `follows` the number of the node it
is aligned to (R409); `stubQ` holds the writes that stubs have taken in and not yet passed on, by their place at the destination (R422). -/
structure Dev where
  err        : Byte
  faildie    : Byte
  stage      : BitVec 4
  ready      : Bool
  pwrlimit   : BitVec 12
  stubs      : List Stub
  freeGens   : List Nat
  scrub      : List Nat
  measure    : Vector (BitVec 256) 8
  quote      : Option (List Byte)
  power      : Nat
  overlimit  : Nat
  corrected  : Nat
  poisoned   : Nat
  firstPois  : Vector Nat 4
  repairs    : Nat
  spares     : List (Nat × Nat)
  matbusy    : Nat
  issued     : Nat
  fixbytes   : Nat
  lanesDown  : List (Nat × Nat)
  l2spare    : List (Nat × Nat × Nat)
  dramCopy   : List DramPart
  dramSpared : List DramPart
  laneSpared : List Nat
  opened     : Bool
  slew       : Int
  follows    : Option Nat
  stubQ      : List (Nat × Inbound)
  storage    : List (Nat × Byte)
  deriving DecidableEq, Repr

/-- A byte storage in canonical form: its bytes (unlisted reads zero, R369), the generation of each 128-byte unit (unlisted is 0, R368, R369), the poisoned
32-byte units (R413). Each list has strictly rising keys and no entry equal to what an unlisted key reads as. -/
structure Memory where
  bytes : List Host.Cell
  gens  : List (Nat × Nat)
  pois  : List (Nat × Bool)
  deriving DecidableEq, Repr

/-- One move of a migration wave or a repair: the group, the core and the slot it goes to (R38, R39). -/
structure GroupMove where
  gid  : Nat
  core : Nat
  slot : Nat
  deriving DecidableEq, Repr

/-- What the destination of a MIGRATE answers (R420): whether its partition is in CONFIG, its ranges, the 64 KiB pages of device memory its tables map, the size of its save area, whether its
CREATE passed, and the line addresses there of the source's lines that need stubs. -/
structure MigrateReply where
  config  : Bool
  quota    : Dword
  cisrange : Dword
  pages    : Nat
  savesize : Dword
  created : Bool
  lines   : List (Nat × Nat)
  deriving DecidableEq, Repr

/-- A command at work in an engine (R221, R262, R267, R268). -/
inductive EngineWork | asy (id : Nat) | trav (id : Nat) | copy (cluster : Nat) (ch : Nat) | qnt (id : Nat)
  deriving DecidableEq, Repr

/-- Where an uncorrectable error falls, or an end-to-end check fails (R258, R413): a 32-byte unit of a storage, of a line in an L1, in an instruction cache or in a requester-side slice, of a
record cache entry, a row of a group, a tile unit, or a piece of data in an engine's hands. -/
inductive ErrorPlace
  | memory (unit : Nat) | scratch (unit : Nat) | cistern (unit : Nat) | row (gid : Nat) (row : Nat) | tile (core : Nat) (unit : Nat)
  | l1 (core : Nat) (line : Nat) (unit : Nat) | code (core : Nat) (line : Nat) (unit : Nat) | slice (die : Nat) (line : Nat) (unit : Nat)
  | record (cluster : Nat) (pa : Nat) | engine (w : EngineWork) (piece : Nat) | reg (gid : Nat) (code : Nat)
  deriving DecidableEq, Repr

/-- What arrives at the destination of a migration (R420, R421): the pages that the source's tables map, memory by device-physical address there, with its poison, the save image with its poisoned 32-byte units, the blocks and launches the image
holds, monitors at their new homes, queues, the registers of R421, the step counter, the watch slots and the unconsumed fault records. -/
structure MigrationArrival where
  pages    : Nat
  memory   : List (Nat × Byte)
  pois     : List Nat
  image    : List Byte
  imagePois : List Nat := []
  blocks   : List Block
  groups   : List Group
  launches : List Launch
  monitors : List Mon
  source   : Part
  faults   : List (Nat × List Byte)
  deriving DecidableEq, Repr

end Sys2Proof
end

