-- ==== Sys2Proof/Syntax.lean ====
section
/-! DEFINITION. The instruction words of R137 to R151 and the events and commands of the opcode table, one constructor a row. A word keeps every field of its
format (R138, R140), used or not, so that a reserved bit can be seen and refused (R152). -/

namespace Sys2Proof

/-- FORM (R138, R139); 0b11 is no form. -/
inductive Form | native | quick | generic
  deriving DecidableEq, Repr

/-- The upper 32 bits of every word but its major opcode (R138). -/
structure Hdr where
  form : Form
  pg   : BitVec 3
  pn   : Bool
  d    : BitVec 9
  a    : BitVec 9
  deriving DecidableEq, Repr

/-- Format RR (R140). Z, E: bit 2 is source A, bit 1 B, bit 0 C (R61). -/
structure RR extends Hdr where
  b : BitVec 9
  c : BitVec 9
  z : BitVec 3
  e : BitVec 3
  k : BitVec 2
  m : BitVec 6
  deriving DecidableEq, Repr

/-- Format RI (R140). -/
structure RI extends Hdr where
  imm : BitVec 18
  z : BitVec 3
  e : BitVec 3
  k : BitVec 2
  m : BitVec 6
  deriving DecidableEq, Repr

/-- Format PP (R140). -/
structure PP extends Hdr where
  b  : BitVec 9
  pa : BitVec 3
  pb : BitVec 3
  ct : BitVec 3
  z  : BitVec 3
  e  : BitVec 3
  k  : BitVec 2
  m  : BitVec 6
  deriving DecidableEq, Repr

/-- Format WI (R140). -/
structure WI extends Hdr where
  imm : BitVec 27
  mw  : BitVec 5
  deriving DecidableEq, Repr

/-- Format ML (R140). -/
structure ML extends Hdr where
  ofs   : BitVec 12
  tag   : BitVec 3
  ordsc : BitVec 3
  mbz   : BitVec 3
  e     : BitVec 3
  k     : BitVec 2
  m     : BitVec 6
  deriving DecidableEq, Repr

/-- Format MS (R140). -/
structure MS extends Hdr where
  b     : BitVec 9
  ofs   : BitVec 9
  ordsc : BitVec 3
  e     : BitVec 3
  k     : BitVec 2
  m     : BitVec 6
  deriving DecidableEq, Repr

/-- Format MA (R140). -/
structure MA extends Hdr where
  b  : BitVec 9
  c  : BitVec 9
  sc : BitVec 3
  e  : BitVec 3
  k  : BitVec 2
  m  : BitVec 6
  deriving DecidableEq, Repr

/-- The instructions (words first, in opcode order), then the events and commands of spec/opcode_table.json, each with the operands that say which of the pending
activities it is and what the world outside the model answers (log 1). -/
inductive Instr
  | bra (w : WI)
  | brx (w : RR)
  | call (w : WI)
  | ret (w : RR)
  | join (w : RR)
  | joinLabel (w : WI)
  | exit (w : RR)
  | yield (w : RR)
  | trap (w : RI)
  | sleep (w : RI)
  | nop (w : RR)
  | cmp (w : PP)
  | pand (w : RR)
  | por (w : RR)
  | pnot (w : RR)
  | pmov (w : RR)
  | vote (w : RR)
  | iadd (w : RR)
  | isub (w : RR)
  | imul (w : RR)
  | imad (w : RR)
  | imadw (w : RR)
  | min (w : RR)
  | max (w : RR)
  | and (w : RR)
  | or (w : RR)
  | xor (w : RR)
  | not (w : RR)
  | shl (w : RR)
  | shr (w : RR)
  | sar (w : RR)
  | clz (w : RR)
  | popc (w : RR)
  | bfe (w : RR)
  | bfi (w : RR)
  | sel (w : RR)
  | mov (w : RR)
  | lea (w : RR)
  | leaImm (w : RI)
  | movi (w : WI)
  | movr (w : RR)
  | movw (w : RR)
  | xset (w : RI)
  | xadd (w : RI)
  | xmov (w : RR)
  | iaddImm (w : RI)
  | imulImm (w : RI)
  | andImm (w : RI)
  | orImm (w : RI)
  | xorImm (w : RI)
  | shlImm (w : RI)
  | shrImm (w : RI)
  | sarImm (w : RI)
  | minImm (w : RI)
  | maxImm (w : RI)
  | sadd (w : RR)
  | ssub (w : RR)
  | smul (w : RR)
  | smad (w : RR)
  | smin (w : RR)
  | smax (w : RR)
  | sand (w : RR)
  | sor (w : RR)
  | sxor (w : RR)
  | snot (w : RR)
  | sshl (w : RR)
  | sshr (w : RR)
  | ssar (w : RR)
  | sclz (w : RR)
  | spopc (w : RR)
  | sbfe (w : RR)
  | sbfi (w : RR)
  | ssel (w : RR)
  | smov (w : RR)
  | smovi (w : WI)
  | scmp (w : RR)
  | fadd (w : RR)
  | fsub (w : RR)
  | fmul (w : RR)
  | ffma (w : RR)
  | fmin (w : RR)
  | fmax (w : RR)
  | frcp (w : RR)
  | frsq (w : RR)
  | fsqrt (w : RR)
  | fexp2 (w : RR)
  | flog2 (w : RR)
  | fsin (w : RR)
  | fcos (w : RR)
  | faddImm (w : RI)
  | fmulImm (w : RI)
  | fminImm (w : RI)
  | fmaxImm (w : RI)
  | hadd2 (w : RR)
  | hmul2 (w : RR)
  | hfma2 (w : RR)
  | cvt (w : RR)
  | qswap (w : RR)
  | qbcast (w : RR)
  | qred (w : RR)
  | shfl (w : RR)
  | xpair (w : RI)
  | xshuf (w : RI)
  | ldB8 (w : ML)
  | ldS8 (w : ML)
  | ldB16 (w : ML)
  | ldS16 (w : ML)
  | ld (w : ML)
  | ldB64 (w : ML)
  | ldB128 (w : ML)
  | stB8 (w : MS)
  | stB16 (w : MS)
  | st (w : MS)
  | stB64 (w : MS)
  | stB128 (w : MS)
  | ald (w : MS)
  | ast (w : MS)
  | pf (w : ML)
  | seal (w : RR)
  | waitc (w : RR)
  | atom (w : MA)
  | cas (w : MA)
  | red (w : MA)
  | wpush (w : MA)
  | wpop (w : MA)
  | cis (w : MA)
  | fence (w : RR)
  | bar (w : RI)
  | tbar (w : MA)
  | mwait (w : MA)
  | waitm (w : RR)
  | getm (w : RR)
  | step (w : RI)
  | gangset (w : RR)
  | opfence (w : RR)
  | mma (w : RR)
  | mmwait (w : RR)
  | tld (w : RR)
  | tst (w : RR)
  | tzero (w : RR)
  | trav (w : RR)
  | rcfence (w : RR)
  | xchain (w : RR)
  | qsub (w : RR)
  | slset (w : RI)
  | slpulse (w : RI)
  | slwait (w : RI)
  | getsr (w : RI)
  | setsr (w : RI)
  | rolesw (w : RI)
  | sitearm (w : RR)
  | bkpt (w : RI)
  | dbgmb (w : RR)
  | haltg (w : RR)
  | stepg (w : RR)
  | watchset (w : RR)
  | eret (w : RR)
  | cwb (w : ML)
  | cinv (w : ML)
  | weirPortArrival (id : Nat)
  | weirWindowExpiry (id : Nat)
  | weirHomeExecute (id : Nat)
  | cisBankOperation (id : Nat)
  | monitorMatch (id : Nat)
  | travCommandBegin (id : Nat)
  | travCommandPerformed (id : Nat)
  | returnLands (id : Nat)
  | cisReturn (id : Nat)
  | asyncCopyPerformed (id : Nat)
  | probeArrival (id : Nat)
  | fillArrival (id : Nat)
  | homeRequest (id : Nat)
  | atomicAtHome (id : Nat)
  | uLineEviction (id : Nat)
  | siteStepQuicken (id : Nat)
  | siteStepWiden (id : Nat)
  | scratchpadAccess (id : Nat)
  | probeAnswerArrival (id : Nat)
  | tbarTimeout (gid : Nat) (k : Nat)
  | mwaitTimeout (gid : Nat) (k : Nat)
  | waitmDeadline (gid : Nat) (k : Nat)
  | sleepExpiry (gid : Nat) (k : Nat)
  | xpairTimeout (gid : Nat) (k : Nat)
  | roleSwitch (gid : Nat) (k : Nat)
  | roleswGrowResume (gid : Nat) (k : Nat)
  | barstall (bid : Nat) (bar : Nat)
  | mmaProductComplete (core : Nat) (bad1 : List Nat) (bad2 : List Nat)
  | copyRecord (cluster : Nat) (ch : Nat)
  | copyOwnWake (cluster : Nat) (ch : Nat)
  | quantisationCommand (die : Nat)
  | sluiceGateRelease (core : Nat) (line : Nat)
  | batchComplete (gid : Nat) (path : Path)
  | spanDispatch (lid : Nat)
  | migrationWave (lid : Nat) (moves : List GroupMove)
  | launchStartTime (lid : Nat)
  | launchComplete (lid : Nat)
  | queueEnable (p : Nat) (q : Nat)
  | queuePacketRead (p : Nat) (q : Nat)
  | launch (p : Nat) (q : Nat)
  | signal (p : Nat) (q : Nat)
  | wait (p : Nat) (q : Nat)
  | waitTimeout (p : Nat) (q : Nat)
  | monitorReread (p : Nat) (q : Nat)
  | cond (p : Nat) (q : Nat)
  | loop (p : Nat) (q : Nat)
  | graph (p : Nat) (q : Nat)
  | fencePacket (p : Nat) (q : Nat)
  | fix (p : Nat) (q : Nat)
  | migrate (p : Nat) (q : Nat) (reply : MigrateReply)
  | nodeLaunch (p : Nat) (q : Nat) (r : Nat)
  | nodeSignal (p : Nat) (q : Nat) (r : Nat)
  | nodeWait (p : Nat) (q : Nat) (r : Nat)
  | nodeCond (p : Nat) (q : Nat) (r : Nat)
  | nodeLoop (p : Nat) (q : Nat) (r : Nat)
  | nodeEnd (p : Nat) (q : Nat) (r : Nat)
  | nodeWaitTimeout (p : Nat) (q : Nat) (r : Nat)
  | openPart (p : Nat) (vf : Bool)
  | create (p : Nat) (vf : Bool)
  | destroy (p : Nat) (vf : Bool)
  | halt (p : Nat) (vf : Bool)
  | resume (p : Nat) (vf : Bool)
  | savefull (p : Nat) (vf : Bool)
  | saveback (p : Nat) (vf : Bool)
  | restore (p : Nat) (vf : Bool)
  | kill (p : Nat) (vf : Bool)
  | replay (p : Nat) (vf : Bool)
  | tlbinv (p : Nat) (vf : Bool)
  | gstep (p : Nat) (vf : Bool)
  | saveImageWrite (p : Nat) (bad : List Nat)
  | waymaskWrite (p : Nat) (die : Nat) (value : Dword) (vf : Bool)
  | wayWalkEnd (p : Nat) (die : Nat)
  | fqctlWrite (p : Nat) (value : Dword)
  | fwdclr (value : Dword)
  | registerWrite (offset : Nat) (value : Dword) (bytes : Nat) (vf : Bool)
  | generationScrub (gen : Nat)
  | blockSwapOut (bid : Nat)
  | blockSwapIn (bid : Nat)
  | powerGood (verified : Bool)
  | imageVerify (verified : Bool)
  | selfCalibration (result : Option (Bool × Nat)) (reference : Option Dword)
  | memoryInit (result : Option Nat)
  | ferzuLinkUp (node : Nat) (time : Dword)
  | powerWindow (milliwatts : Nat)
  | correctableError
  | uncorrectableError (place : ErrorPlace)
  | coreRepair (core : Nat) (unreadable : List ErrorPlace)
  | l2WayRepair (die : Nat) (slice : Nat) (way : Nat)
  | dramRepair (part : DramPart)
  | ferzuLaneRepair (port : Nat) (lane : Nat)
  | fixCutTime (p : Nat) (q : Nat)
  | fixDeadline (p : Nat) (q : Nat)
  | fixDrainPage (p : Nat) (q : Nat)
  | fixDrainFault (p : Nat) (q : Nat)
  | stubForwardWrite (addr : Nat) (bytes : List Byte)
  | measurementExtend (reg : Nat) (data : List Byte)
  | quoteRequest (vf : Option Nat) (nonce : List Byte) (mask : BitVec 8)
  | spareLaneTrained (port : Nat)
  | dramSpareCopyDone (part : DramPart)
  | migrationDestination (p : Nat) (arrival : MigrationArrival)
  deriving DecidableEq, Repr

end Sys2Proof
end

