-- ==== Sys2Proof/Machine/Fields.lean ====
section
/-! DEFINITION. The named fields of instruction words: what the modifier field M and its kin mean in each family (R62, R144 to R149 and the instruction chapters). -/

namespace Sys2Proof

/-- The three sources a Z, E or K bit speaks of (R61). -/
inductive Src | a | b | c
  deriving DecidableEq, Repr

/-- The bit of Z or E that belongs to a source (R61: bits 13, 12, 11 and 10, 9, 8). -/
def Src.bit : Src → Nat
  | .a => 2
  | .b => 1
  | .c => 0

/-- The value of K that retains a source (R61). -/
def Src.k : Src → BitVec 2
  | .a => 1
  | .b => 2
  | .c => 3

/-- Z (or E) names this source. -/
def names (f : BitVec 3) (s : Src) : Bool := f.getLsbD s.bit

/-- Integer FMT (R147). -/
inductive IFmt | i32 | uns32 | i8x4 | uns8x4
  deriving DecidableEq, Repr

/-- Floating formats FMT (R147). -/
inductive FFmt | f32 | bf16x2 | f16x2
  deriving DecidableEq, Repr

/-- Rounding modes (R128). -/
inductive Rnd | rne | rz | ru | rd
  deriving DecidableEq, Repr

/-- Codes of R147 for the integer FMT. -/
def IFmt.ofCode (c : Nat) : IFmt := match c with | 0 => .i32 | 1 => .uns32 | 2 => .i8x4 | _ => .uns8x4

/-- Codes of R147 for the floating FMT; 3 is reserved. -/
def FFmt.ofCode (c : Nat) : Option FFmt := match c with | 0 => some .f32 | 1 => some .bf16x2 | 2 => some .f16x2 | _ => none

/-- Codes of R128. -/
def Rnd.ofCode (c : Nat) : Rnd := match c with | 0 => .rne | 1 => .rz | 2 => .ru | _ => .rd

/-- Codes of R125. -/
def Tag.ofCode (c : Nat) : Tag :=
  match c with | 0 => .raw | 1 => .i32 | 2 => .f32 | 3 => .bf16x2 | 4 => .f16x2 | 5 => .i8x4 | 6 => .d2p8x4 | _ => .blk

/-- Codes of R125. -/
def Tag.code : Tag → Nat
  | .raw => 0 | .i32 => 1 | .f32 => 2 | .bf16x2 => 3 | .f16x2 => 4 | .i8x4 => 5 | .d2p8x4 => 6 | .blk => 7

/-- Codes of R170. -/
def Cond.ofCode (c : Nat) : Cond :=
  match c with | 0 => .eq | 1 => .ne | 2 => .lt | 3 => .le | 4 => .gt | 5 => .ge | 6 => .num | _ => .nan

/-- Scope codes of R144: 1 group to 5 system. -/
def Scope.ofCode (c : Nat) : Option Scope :=
  match c with | 1 => some .group | 2 => some .block | 3 => some .die | 4 => some .device | 5 => some .system | _ => none

/-- Reduction op codes of R206 and R225. -/
def RedOp.ofCode (c : Nat) : RedOp :=
  match c with | 0 => .add | 1 => .min | 2 => .max | 3 => .minu | 4 => .maxu | 5 => .and | 6 => .or | _ => .xor

/-- FMT codes of R206, R225 and R234. -/
def RedFmt.ofCode (c : Nat) : RedFmt := match c with | 0 => .i32 | 1 => .f32 | 2 => .bf16x2 | _ => .f16x2

/-- Path codes of R223. -/
def Path.ofCode (c : Nat) : Path := match c with | 0 => .asy | 1 => .trv | 2 => .cis | _ => .qnt

/-- SP codes of R145; 3 is reserved. -/
def Space.ofCode (c : Nat) : Option Space := match c with | 0 => some .global | 1 => some .scratch | 2 => some .cistern | _ => none

/-- M<5:4> of the families of R147: the ASSUME code. -/
def assumeOf (m : BitVec 6) : Nat := fieldN m 5 4

/-- M<0>: the uniform assumption UN (R147). -/
def unOf (m : BitVec 6) : Bool := bitAt m 0

/-- M<3> of the integer family: SAT (R147). -/
def satOf (m : BitVec 6) : Bool := bitAt m 3

/-- RND of the floating family, M<3:2> (R195). -/
def rndOf (m : BitVec 6) : Rnd := Rnd.ofCode (fieldN m 3 2)

/-- FZ of the floating family, M<1> (R195). -/
def fzOf (m : BitVec 6) : Bool := bitAt m 1

/-- COND, M<3:1>, of `cmp` and `scmp` (R169, R190). -/
def cond31 (m : BitVec 6) : Nat := fieldN m 3 1

/-- COND, M<5:3>, of `mwait` and `waitm` (R241, R243). -/
def cond53 (m : BitVec 6) : Nat := fieldN m 5 3

/-- HINT, M<3:2> (R145, R224). -/
def hintOf (m : BitVec 6) : Nat := fieldN m 3 2

/-- AK, M<1>: the address is a scalar (R145). -/
def akOf (m : BitVec 6) : Bool := bitAt m 1

/-- SRCF of `cvt`, M<5:3> (R203). -/
def srcfOf (m : BitVec 6) : Nat := fieldN m 5 3

/-- RND of `cvt`, M<2:1> (R203). -/
def cvtRnd (m : BitVec 6) : Rnd := Rnd.ofCode (fieldN m 2 1)

/-- DSTF, SAT and FZ of `cvt`, in the extension X = C (R203). -/
def dstfOf (x : BitVec 9) : Nat := fieldN x 8 6
def cvtSat (x : BitVec 9) : Bool := bitAt x 5
def cvtFz (x : BitVec 9) : Bool := bitAt x 4

/-- OP and FMT of `atom` and `red`, in the extension X = C (R225). -/
def atomOp (x : BitVec 9) : Nat := fieldN x 8 5
def atomFmt (x : BitVec 9) : Nat := fieldN x 4 3

end Sys2Proof
end

