-- ==== Sys2Proof/Machine/Legal.lean ====
section
/-! DEFINITION. The conditions of R152 on every word: which bit patterns of each instruction are instructions. Everything step 1 of R153 checks stands here, once per
instruction, over the operand classes of R141 and the Z, E and K rules of R142. -/

namespace Sys2Proof.Legal

/-- Operand classes of R141; `raw` is a field an instruction reads as a number, `none` one it does not use. -/
inductive Cls | none | vec | pair | quad | scalar | index | pred | tile | raw
  deriving DecidableEq, Repr

/-- The field bits a class allows (R141). -/
def Cls.ok (c : Cls) (r : BitVec 9) : Bool :=
  match c with
  | .none => r == 0
  | .vec => true
  | .raw => true
  | .pair => zeroAt r 0 0
  | .quad => zeroAt r 1 0
  | .scalar => zeroAt r 8 6
  | .index => zeroAt r 8 3
  | .pred => zeroAt r 8 3
  | .tile => zeroAt r 8 4

/-- The position is read as a vector register or vector address (R142). -/
def Cls.vector (c : Cls) : Bool :=
  match c with
  | .vec => true
  | .pair => true
  | .quad => true
  | _ => false

/-- The Z, E and K rules of R142 for one source of a word. -/
def source (c : Cls) (r : BitVec 9) (z e : BitVec 3) (k : BitVec 2) (s : Src) : Bool :=
  c.ok r &&
    (if c.vector then
      !(names z s) || (r == 0 && !names e s && !(k == s.k))
    else !names z s && !names e s && !(k == s.k))

/-- Only a native form exists (R151, R139). -/
def native (h : Hdr) : Bool := h.form == .native

/-- The guard is `(p0)` (R159, R247). -/
def unguarded (h : Hdr) : Bool := h.pg == 0 && !h.pn

/-- Destination and sources of a word in format RR. -/
def rr (w : RR) (d a b c : Cls) : Bool :=
  d.ok w.d && source a w.a w.z w.e w.k .a && source b w.b w.z w.e w.k .b && source c w.c w.z w.e w.k .c

/-- Destination and source of a word in format RI, with the limits of R140. -/
def ri (w : RI) (d a : Cls) : Bool :=
  d.ok w.d && source a w.a w.z w.e w.k .a && zeroAt w.z 1 0 && zeroAt w.e 1 0 && decide (w.k.toNat < 2)

/-- Destination and sources of a word in format MA, which has no Z field (R224). -/
def ma (w : MA) (d a b c : Cls) : Bool :=
  d.ok w.d && source a w.a 0 w.e w.k .a && source b w.b 0 w.e w.k .b && source c w.c 0 w.e w.k .c

/-- ASSUME and UN in the three forms (R148) with the codes `top` does not reach. -/
def assume (f : Form) (code top : Nat) (un : Bool) : Bool :=
  match f with
  | .native => decide (code < top) && !un
  | .quick => decide (code < top)
  | .generic => code == 0 && !un

/-- M of the integer family (R147, R176); `packed` is false for RI words, whose packed formats are reserved (R151). -/
def intForm (h : Hdr) (m : BitVec 6) (packed : Bool) : Bool :=
  assume h.form (assumeOf m) (if packed then 4 else 2) (unOf m) && zeroAt m 2 1

/-- M of the floating family (R147, R195). -/
def floatForm (h : Hdr) (m : BitVec 6) : Bool := assume h.form (assumeOf m) 3 (unOf m)

/-- `cmp` (R169, R170, R172) with the limits of format PP (R140). -/
def ppOk (w : PP) : Bool :=
  let integer : Bool := match w.form with | .generic => false | _ => assumeOf w.m != 2
  assume w.form (assumeOf w.m) 3 (unOf w.m) && Cls.none.ok w.d && source .vec w.a w.z w.e w.k .a && source .vec w.b w.z w.e w.k .b &&
    !names w.z .c && !names w.e .c && !(w.k == 3) && !(integer && decide (6 ≤ cond31 w.m)) &&
    !(w.pa == w.pb && (w.ct == 0 || w.ct == 1 || w.ct == 6 || w.ct == 7))

/-- Rows a conversion reads or writes as one operand (R204). -/
inductive Rows | one | two | four
  deriving DecidableEq, Repr

/-- The operand class of a row run. -/
def Rows.cls : Rows → Cls
  | .one => .vec
  | .two => .pair
  | .four => .quad

/-- The number of rows of a run. -/
def Rows.n : Rows → Nat
  | .one => 1
  | .two => 2
  | .four => 4

/-- A row of the table of R204: shape of D, shape of A, format B must agree with, SAT allowed, RND used. -/
structure CvtPair where
  d   : Rows
  a   : Rows
  b   : Option Tag
  sat : Bool
  rnd : Bool
  deriving DecidableEq, Repr

/-- The table of R204, and nothing else. -/
def cvtPair (src dst : Tag) : Option CvtPair :=
  match src, dst with
  | .i32, .f32 => some ⟨.one, .one, none, true, true⟩
  | .f32, .i32 => some ⟨.one, .one, none, false, true⟩
  | .f32, .f32 => some ⟨.one, .one, none, true, true⟩
  | .bf16x2, .bf16x2 => some ⟨.one, .one, none, true, true⟩
  | .f16x2, .f16x2 => some ⟨.one, .one, none, true, true⟩
  | .f32, .bf16x2 => some ⟨.one, .one, some .f32, true, true⟩
  | .f32, .f16x2 => some ⟨.one, .one, some .f32, true, true⟩
  | .bf16x2, .f32 => some ⟨.two, .one, none, true, true⟩
  | .f16x2, .f32 => some ⟨.two, .one, none, true, true⟩
  | .bf16x2, .f16x2 => some ⟨.one, .one, none, true, true⟩
  | .f16x2, .bf16x2 => some ⟨.one, .one, none, true, true⟩
  | .i8x4, .f32 => some ⟨.four, .one, none, true, true⟩
  | .f32, .i8x4 => some ⟨.one, .four, none, false, true⟩
  | .f32, .d2p8x4 => some ⟨.one, .four, some .blk, false, false⟩
  | .d2p8x4, .f32 => some ⟨.four, .one, some .blk, true, true⟩
  | _, _ => none

/-- The rules of R204 that depend on the pair: SAT, RND, the use of B, the row runs. -/
def cvtFits (w : RR) (p : CvtPair) : Bool :=
  p.d.cls.ok w.d && source p.a.cls w.a w.z w.e w.k .a &&
    source (if p.b.isSome then .vec else .none) w.b w.z w.e w.k .b &&
    (p.sat || !cvtSat w.c) && (p.rnd || zeroAt w.m 2 1)

/-- `cvt` (R203, R204). A generic word has no SRCF yet and is checked for what does not depend on it. -/
def cvtOk (w : RR) : Bool :=
  zeroAt w.c 3 0 && !names w.z .c && !names w.e .c && !(w.k == 3) && !(dstfOf w.c == 0) && !(dstfOf w.c == 7) &&
    (match w.form with
     | .generic => srcfOf w.m == 0 && !unOf w.m && source .vec w.a w.z w.e w.k .a && source .vec w.b w.z w.e w.k .b
     | f => (f == .quick || !unOf w.m) &&
       (match cvtPair (Tag.ofCode (srcfOf w.m)) (Tag.ofCode (dstfOf w.c)) with
        | some p => cvtFits w p
        | none => false))

/-- The address operand of an ML word: a vector pair or a scalar (R145), with the limits of R140. -/
def mlAddr (w : ML) : Bool :=
  w.mbz == 0 && source (if akOf w.m then .scalar else .pair) w.a 0 w.e w.k .a && zeroAt w.e 1 0 && decide (w.k.toNat < 2)

/-- The address and data operands of an MS word (R145), with the limits of R140. -/
def msAddr (w : MS) (data : Cls) : Bool :=
  source (if akOf w.m then .scalar else .pair) w.a 0 w.e w.k .a && source data w.b 0 w.e w.k .b && !names w.e .c && !(w.k == 3)

/-- SP, HINT, AK and UN of a load or store in its form (R145, R148). -/
def memForm (h : Hdr) (m : BitVec 6) : Bool :=
  assume h.form (assumeOf m) 3 (unOf m) && !(hintOf m == 3) && !(h.form == .quick && akOf m && unOf m)

/-- Loads (R216): the class of D, and whether TAG is used (R144). -/
def ldOk (w : ML) (d : Cls) (tagged : Bool) : Bool :=
  memForm w.toHdr w.m && d.ok w.d && mlAddr w && decide (w.ordsc.toNat < 6) && (tagged || w.tag == 0)

/-- Stores (R218): the class of the data. -/
def stOk (w : MS) (data : Cls) : Bool :=
  memForm w.toHdr w.m && Cls.none.ok w.d && msAddr w data && decide (w.ordsc.toNat < 6)

/-- `ald` and `ast` (R220). -/
def asyOk (w : MS) : Bool :=
  native w.toHdr && zeroAt w.d 8 2 && !(w.d == 3) && w.ordsc == 0 && msAddr w .vec && zeroAt w.m 5 4 && !unOf w.m && !(hintOf w.m == 3)

/-- SC of an MA word: zero when relaxed, a scope otherwise (R144). -/
def scOk (ord : Nat) (sc : BitVec 3) : Bool := if ord = 0 then sc == 0 else (Scope.ofCode sc.toNat).isSome

/-- `atom` and `red` (R224, R225, R227). -/
def atomOk (w : MA) (ret : Bool) : Bool :=
  let w64 := bitAt w.m 0
  let data : Cls := if w64 then .pair else .vec
  (if ret then data.ok w.d else Cls.none.ok w.d) && source .pair w.a 0 w.e w.k .a && source data w.b 0 w.e w.k .b &&
    !names w.e .c && !(w.k == 3) && zeroAt w.c 2 0 && !(hintOf w.m == 3) && scOk (assumeOf w.m) w.sc &&
    (if atomFmt w.c = 0 then decide (atomOp w.c < 9) else decide (atomOp w.c < 3) && !w64) &&
    (ret || (!(atomOp w.c == 8) && !w64 && (assumeOf w.m == 0 || assumeOf w.m == 2)))

/-- `cis` (R234). -/
def cisOk (w : MA) : Bool :=
  let op := fieldN w.m 3 0
  ma w (if bitAt w.m 5 then .vec else .none) (if bitAt w.m 4 then .scalar else .pair) .vec (if op = 8 then .vec else .none) &&
    decide (w.sc.toNat < 4) && decide (op < 9) && (w.sc == 0 || op < 3 || op == 7 || op == 8)

/-- `mma` (R247, R250, R251). -/
def mmaOk (w : RR) : Bool :=
  let ty := fieldN w.m 5 4
  unguarded w.toHdr && Cls.tile.ok w.d && zeroAt w.a 2 0 && (if bitAt w.m 3 then Cls.scalar.ok w.b else zeroAt w.b 2 0) &&
    (if ty = 2 ∧ bitAt w.m 3 = false then true else w.c == 0) && w.z == 0 && w.e == 0 && w.k == 0 && (!(ty == 3) || zeroAt w.m 2 0)

/-- The selectors of R273. -/
def selOk (n : Nat) : Bool := decide (n ≤ 0x0C) || (decide (0x10 ≤ n) && decide (n ≤ 0x16)) || (decide (0x20 ≤ n) && decide (n ≤ 0x25)) || (decide (0x28 ≤ n) && decide (n ≤ 0x2B))

/-- LANEID and QUADID, which have a value per lane (R273). -/
def perLaneSel (n : Nat) : Bool := n == 0 || n == 1

/-- Step 1 of R153: the word is an instruction (R152). Events and commands are not words. -/
def legal (i : Instr) : Bool :=
  match i with
  | .bra w => native w.toHdr && Cls.none.ok w.d && Cls.none.ok w.a && w.mw == 0
  | .brx w => native w.toHdr && rr w .none .scalar .vec .none && w.m == 0
  | .call w => native w.toHdr && Cls.none.ok w.a && (if bitAt w.mw 0 then Cls.pair.ok w.d else Cls.scalar.ok w.d) && zeroAt w.mw 4 1
  | .ret w => native w.toHdr && zeroAt w.m 5 1 && w.z == 0 && (if bitAt w.m 0 then rr w .none .scalar .none .none else rr w .none .pair .none .none)
  | .join w => native w.toHdr && rr w .none .none .none .none && w.m == 0 && unguarded w.toHdr
  | .joinLabel w => native w.toHdr && Cls.none.ok w.d && Cls.none.ok w.a && w.mw == 1 && unguarded w.toHdr
  | .exit w => native w.toHdr && rr w .none .none .none .none && w.m == 0
  | .yield w => native w.toHdr && rr w .none .none .none .none && zeroAt w.m 5 1 && unguarded w.toHdr
  | .trap w => native w.toHdr && ri w .none .none && w.m == 0
  | .sleep w => native w.toHdr && ri w .none .none && w.m == 0 && unguarded w.toHdr
  | .nop w => native w.toHdr && rr w .none .none .none .none && w.m == 0
  | .cmp w => ppOk w
  | .pand w => native w.toHdr && rr w .pred .pred .pred .none && zeroAt w.m 5 2
  | .por w => native w.toHdr && rr w .pred .pred .pred .none && zeroAt w.m 5 2
  | .pnot w => native w.toHdr && rr w .pred .pred .none .none && w.m == 0
  | .pmov w => native w.toHdr && zeroAt w.m 5 2 && (match fieldN w.m 1 0 with | 0 => rr w .pred .pred .none .none | 1 => rr w .scalar .pred .none .none | _ => rr w .pred .scalar .none .none)
  | .vote w => native w.toHdr && zeroAt w.m 5 3 && (if bitAt w.m 2 then rr w .scalar .pred .none .none else rr w .pred .pred .none .none && !(fieldN w.m 1 0 == 3))
  | .iadd w => intForm w.toHdr w.m true && rr w .vec .vec .vec .none
  | .isub w => intForm w.toHdr w.m true && rr w .vec .vec .vec .none
  | .imul w => intForm w.toHdr w.m true && rr w .vec .vec .vec .none
  | .imad w => intForm w.toHdr w.m true && rr w .vec .vec .vec .vec
  | .imadw w => native w.toHdr && rr w .pair .vec .vec .pair && zeroAt w.m 3 0 && decide (assumeOf w.m < 2) && !(w.k == 3)
  | .min w => intForm w.toHdr w.m true && rr w .vec .vec .vec .none && !satOf w.m
  | .max w => intForm w.toHdr w.m true && rr w .vec .vec .vec .none && !satOf w.m
  | .and w => native w.toHdr && rr w .vec .vec .vec .none && w.m == 0
  | .or w => native w.toHdr && rr w .vec .vec .vec .none && w.m == 1
  | .xor w => native w.toHdr && rr w .vec .vec .vec .none && w.m == 2
  | .not w => native w.toHdr && rr w .vec .vec .none .none && w.m == 3
  | .shl w => native w.toHdr && rr w .vec .vec .vec .none && w.m == 0
  | .shr w => native w.toHdr && rr w .vec .vec .vec .none && w.m == 1
  | .sar w => native w.toHdr && rr w .vec .vec .vec .none && w.m == 2
  | .clz w => native w.toHdr && rr w .vec .vec .none .none && w.m == 0
  | .popc w => native w.toHdr && rr w .vec .vec .none .none && w.m == 0
  | .bfe w => native w.toHdr && rr w .vec .vec .vec .none && zeroAt w.m 5 1
  | .bfi w => native w.toHdr && rr w .vec .vec .vec .vec && w.m == 0
  | .sel w => native w.toHdr && rr w .vec .vec .vec .pred && w.m == 0
  | .mov w => native w.toHdr && zeroAt w.m 5 2 && !(fieldN w.m 1 0 == 3) && (if fieldN w.m 1 0 == 0 then rr w .vec .vec .none .none else rr w .vec .scalar .none .none)
  | .lea w => native w.toHdr && rr w .vec .scalar .vec .none && !bitAt w.m 5
  | .leaImm w => native w.toHdr && ri w .vec .scalar && zeroAt w.m 5 1
  | .movi w => native w.toHdr && Cls.none.ok w.a && !(fieldN w.mw 1 0 == 3)
  | .movr w => native w.toHdr && Cls.index.ok w.a && Cls.none.ok w.c && w.z == 0 && w.k == 0 && zeroAt w.e 1 0 && w.m == 0
  | .movw w => native w.toHdr && Cls.index.ok w.d && rr { w with d := 0, b := 0 } .none .vec .none .none && w.m == 0
  | .xset w => native w.toHdr && ri w .index .vec && w.m == 0
  | .xadd w => native w.toHdr && ri w .index .index && zeroAt w.m 5 4
  | .xmov w => native w.toHdr && zeroAt w.m 5 2 && (match fieldN w.m 1 0 with | 0 => rr w .index .index .none .none | 1 => rr w .index .vec .none .none | 2 => rr w .vec .index .none .none | _ => rr w .index .scalar .none .none)
  | .iaddImm w => intForm w.toHdr w.m false && ri w .vec .vec && decide (assumeOf w.m < 2)
  | .imulImm w => intForm w.toHdr w.m false && ri w .vec .vec && decide (assumeOf w.m < 2)
  | .andImm w => native w.toHdr && ri w .vec .vec && w.m == 0
  | .orImm w => native w.toHdr && ri w .vec .vec && w.m == 1
  | .xorImm w => native w.toHdr && ri w .vec .vec && w.m == 2
  | .shlImm w => native w.toHdr && ri w .vec .vec && w.m == 0 && zeroAt w.imm 17 8
  | .shrImm w => native w.toHdr && ri w .vec .vec && w.m == 1 && zeroAt w.imm 17 8
  | .sarImm w => native w.toHdr && ri w .vec .vec && w.m == 2 && zeroAt w.imm 17 8
  | .minImm w => intForm w.toHdr w.m false && ri w .vec .vec && decide (assumeOf w.m < 2) && !satOf w.m
  | .maxImm w => intForm w.toHdr w.m false && ri w .vec .vec && decide (assumeOf w.m < 2) && !satOf w.m
  | .sadd w => native w.toHdr && rr w .scalar .scalar .scalar .none && w.m == 0
  | .ssub w => native w.toHdr && rr w .scalar .scalar .scalar .none && w.m == 0
  | .smul w => native w.toHdr && rr w .scalar .scalar .scalar .none && w.m == 0
  | .smad w => native w.toHdr && rr w .scalar .scalar .scalar .scalar && w.m == 0
  | .smin w => native w.toHdr && rr w .scalar .scalar .scalar .none && zeroAt w.m 5 1
  | .smax w => native w.toHdr && rr w .scalar .scalar .scalar .none && zeroAt w.m 5 1
  | .sand w => native w.toHdr && rr w .scalar .scalar .scalar .none && w.m == 0
  | .sor w => native w.toHdr && rr w .scalar .scalar .scalar .none && w.m == 1
  | .sxor w => native w.toHdr && rr w .scalar .scalar .scalar .none && w.m == 2
  | .snot w => native w.toHdr && rr w .scalar .scalar .none .none && w.m == 3
  | .sshl w => native w.toHdr && rr w .scalar .scalar .scalar .none && w.m == 0
  | .sshr w => native w.toHdr && rr w .scalar .scalar .scalar .none && w.m == 1
  | .ssar w => native w.toHdr && rr w .scalar .scalar .scalar .none && w.m == 2
  | .sclz w => native w.toHdr && rr w .scalar .scalar .none .none && w.m == 0
  | .spopc w => native w.toHdr && rr w .scalar .scalar .none .none && w.m == 0
  | .sbfe w => native w.toHdr && rr w .scalar .scalar .scalar .none && zeroAt w.m 5 1
  | .sbfi w => native w.toHdr && rr w .scalar .scalar .scalar .scalar && w.m == 0
  | .ssel w => native w.toHdr && rr w .scalar .scalar .scalar .scalar && w.m == 0
  | .smov w => native w.toHdr && zeroAt w.m 5 1 && (if bitAt w.m 0 then rr w .scalar .vec .none .none else rr w .scalar .scalar .none .none)
  | .smovi w => native w.toHdr && Cls.scalar.ok w.d && Cls.none.ok w.a && zeroAt w.mw 4 2 && (!(fieldN w.mw 1 0 == 3) || zeroAt w.imm 26 10)
  | .scmp w => native w.toHdr && rr w .scalar .scalar .scalar .none && zeroAt w.m 5 4 && decide (cond31 w.m < 6)
  | .fadd w => floatForm w.toHdr w.m && rr w .vec .vec .vec .none
  | .fsub w => floatForm w.toHdr w.m && rr w .vec .vec .vec .none
  | .fmul w => floatForm w.toHdr w.m && rr w .vec .vec .vec .none
  | .ffma w => floatForm w.toHdr w.m && rr w .vec .vec .vec .vec
  | .fmin w => floatForm w.toHdr w.m && rr w .vec .vec .vec .none && zeroAt w.m 3 2
  | .fmax w => floatForm w.toHdr w.m && rr w .vec .vec .vec .none && zeroAt w.m 3 2
  | .frcp w => floatForm w.toHdr w.m && rr w .vec .vec .none .none
  | .frsq w => floatForm w.toHdr w.m && rr w .vec .vec .none .none
  | .fsqrt w => floatForm w.toHdr w.m && rr w .vec .vec .none .none
  | .fexp2 w => floatForm w.toHdr w.m && rr w .vec .vec .none .none
  | .flog2 w => floatForm w.toHdr w.m && rr w .vec .vec .none .none
  | .fsin w => floatForm w.toHdr w.m && rr w .vec .vec .none .none
  | .fcos w => floatForm w.toHdr w.m && rr w .vec .vec .none .none
  | .faddImm w => native w.toHdr && ri w .vec .vec && zeroAt w.m 5 4 && !bitAt w.m 0
  | .fmulImm w => native w.toHdr && ri w .vec .vec && zeroAt w.m 5 4 && !bitAt w.m 0
  | .fminImm w => native w.toHdr && ri w .vec .vec && zeroAt w.m 5 2 && !bitAt w.m 0
  | .fmaxImm w => native w.toHdr && ri w .vec .vec && zeroAt w.m 5 2 && !bitAt w.m 0
  | .hadd2 w => native w.toHdr && rr w .vec .vec .vec .none
  | .hmul2 w => native w.toHdr && rr w .vec .vec .vec .none
  | .hfma2 w => native w.toHdr && rr w .vec .vec .vec .vec
  | .cvt w => cvtOk w
  | .qswap w => native w.toHdr && rr w .vec .vec .none .none && zeroAt w.m 5 2 && !(w.m == 0)
  | .qbcast w => native w.toHdr && rr w .vec .vec .none .none && zeroAt w.m 5 2
  | .qred w => native w.toHdr && rr w .vec .vec .none .none && decide (fieldN w.m 3 0 < (if assumeOf w.m = 0 then 8 else 3))
  | .shfl w => native w.toHdr && rr w .vec .vec .vec .none && !bitAt w.m 5 && decide (fieldN w.m 4 2 < 6)
  | .xpair w => native w.toHdr && ri w .scalar .scalar && w.m == 0
  | .xshuf w => native w.toHdr && ri w .vec .vec && w.m == 0 && zeroAt w.imm 17 8
  | .ldB8 w => ldOk w .vec false
  | .ldS8 w => ldOk w .vec false
  | .ldB16 w => ldOk w .vec false
  | .ldS16 w => ldOk w .vec false
  | .ld w => ldOk w .vec true
  | .ldB64 w => ldOk w .pair false
  | .ldB128 w => ldOk w .quad false
  | .stB8 w => stOk w .vec
  | .stB16 w => stOk w .vec
  | .st w => stOk w .vec
  | .stB64 w => stOk w .pair
  | .stB128 w => stOk w .quad
  | .ald w => asyOk w
  | .ast w => asyOk w
  | .pf w => native w.toHdr && Cls.none.ok w.d && w.tag == 0 && w.ordsc == 0 && mlAddr w && zeroAt w.m 5 4 && !(hintOf w.m == 3) && !unOf w.m
  | .seal w => native w.toHdr && rr w .none .none .none .none && zeroAt w.m 5 1
  | .waitc w => native w.toHdr && rr w .none .scalar .none .none && zeroAt w.m 5 2
  | .atom w => native w.toHdr && atomOk w true
  | .cas w => native w.toHdr && (let c : Cls := if bitAt w.m 0 then .pair else .vec; ma w c .pair c c) && scOk (assumeOf w.m) w.sc && !(hintOf w.m == 3)
  | .red w => native w.toHdr && atomOk w false
  | .wpush w => native w.toHdr && ma w .vec .pair .pair .none && zeroAt w.m 1 0 && !(hintOf w.m == 0) && (assumeOf w.m == 0 || assumeOf w.m == 2) && scOk (assumeOf w.m) w.sc
  | .wpop w => native w.toHdr && ma w .pair .pair .none .none && zeroAt w.m 1 0 && !(hintOf w.m == 0) && decide (assumeOf w.m < 2) && scOk (assumeOf w.m) w.sc
  | .cis w => native w.toHdr && cisOk w
  | .fence w => native w.toHdr && rr w .none .none .none .none && zeroAt w.m 5 3 && !(fieldN w.m 2 0 == 0) && !(fieldN w.m 2 0 == 7)
  | .bar w => native w.toHdr && ri w .none .none && w.m == 0 && zeroAt w.imm 17 4
  | .tbar w => native w.toHdr && ma w .scalar .scalar .scalar (if fieldN w.m 1 0 = 0 then .none else .scalar) && zeroAt w.m 5 2 && !(fieldN w.m 1 0 == 3) && (Scope.ofCode w.sc.toNat).isSome
  | .mwait w => native w.toHdr && ma w .scalar .scalar .scalar .scalar && decide (cond53 w.m < 6) && scOk (if bitAt w.m 1 then 1 else 0) w.sc
  | .waitm w => native w.toHdr && (if bitAt w.m 1 then rr w .scalar .none .none .scalar && zeroAt w.m 5 2 && !bitAt w.m 0 else rr w .scalar .scalar .scalar .scalar && decide (cond53 w.m < 6))
  | .getm w => native w.toHdr && rr w .pair .none .none .none && w.m == 0
  | .step w => native w.toHdr && ri w .scalar .none && zeroAt w.m 5 1 && (!bitAt w.m 0 || w.imm == 0)
  | .gangset w => native w.toHdr && rr w .scalar .scalar .none .none && w.m == 0 && unguarded w.toHdr
  | .opfence w => native w.toHdr && rr w .none .none .none .none && w.m == 0 && unguarded w.toHdr
  | .mma w => native w.toHdr && mmaOk w
  | .mmwait w => native w.toHdr && rr w .none .none .none .none && zeroAt w.m 5 1 && unguarded w.toHdr
  | .tld w => native w.toHdr && rr w .tile .scalar .scalar .none && decide (assumeOf w.m < 2) && zeroAt w.m 3 0 && unguarded w.toHdr
  | .tst w => native w.toHdr && rr w .tile .scalar .scalar .none && decide (assumeOf w.m < 2) && zeroAt w.m 3 0 && unguarded w.toHdr
  | .tzero w => native w.toHdr && rr w .tile .none .none .none && w.m == 0 && unguarded w.toHdr
  | .trav w => native w.toHdr && rr w .none .scalar .scalar .scalar && w.m == 0
  | .rcfence w => native w.toHdr && rr w .none .none .none .none && w.m == 0
  | .xchain w => native w.toHdr && rr w .none .scalar .scalar .none && zeroAt w.m 2 0 && decide (fieldN w.m 5 3 < 6)
  | .qsub w => native w.toHdr && rr w .none .scalar .none .none && w.m == 0
  | .slset w => native w.toHdr && ri w .scalar .scalar && w.m == 0 && zeroAt w.imm 17 4
  | .slpulse w => native w.toHdr && ri w .none .none && w.m == 0 && zeroAt w.imm 17 4
  | .slwait w => native w.toHdr && ri w .none .none && w.m == 0 && zeroAt w.imm 17 4
  | .getsr w => native w.toHdr && (if bitAt w.m 0 then ri w .vec .none else ri w .scalar .none && !perLaneSel (fieldN w.imm 9 0)) && zeroAt w.m 5 1 && zeroAt w.imm 17 10 && selOk (fieldN w.imm 9 0)
  | .setsr w => native w.toHdr && ri w .none .scalar && w.m == 0 && zeroAt w.imm 17 10 && selOk (fieldN w.imm 9 0)
  | .rolesw w => native w.toHdr && ri w .scalar .none && w.m == 0 && zeroAt w.imm 17 2 && unguarded w.toHdr
  | .sitearm w => native w.toHdr && rr w .scalar .scalar .none .none && w.m == 0
  | .bkpt w => native w.toHdr && ri w .none .none && w.m == 0
  | .dbgmb w => native w.toHdr && rr w .scalar .scalar .scalar .scalar
  | .haltg w => native w.toHdr && zeroAt w.m 5 2 && !(fieldN w.m 1 0 == 3) && rr w .scalar .scalar (if fieldN w.m 1 0 = 2 then .scalar else .none) .none
  | .stepg w => native w.toHdr && rr w .scalar .scalar .scalar .none && w.m == 0
  | .watchset w => native w.toHdr && rr w .scalar .scalar .scalar .none && zeroAt w.m 5 2
  | .eret w => native w.toHdr && rr w .none .none .none .none && zeroAt w.m 5 1
  | .cwb w => native w.toHdr && zeroAt w.d 8 1 && w.tag == 0 && w.ordsc == 0 && mlAddr w && zeroAt w.m 5 2 && !unOf w.m
  | .cinv w => native w.toHdr && zeroAt w.d 8 1 && w.tag == 0 && w.ordsc == 0 && mlAddr w && zeroAt w.m 5 2 && !unOf w.m
  | .weirPortArrival _ => true
  | .weirWindowExpiry _ => true
  | .weirHomeExecute _ => true
  | .cisBankOperation _ => true
  | .monitorMatch _ => true
  | .travCommandBegin _ => true
  | .travCommandPerformed _ => true
  | .returnLands _ => true
  | .cisReturn _ => true
  | .asyncCopyPerformed _ => true
  | .probeArrival _ => true
  | .fillArrival _ => true
  | .homeRequest _ => true
  | .atomicAtHome _ => true
  | .uLineEviction _ => true
  | .siteStepQuicken _ => true
  | .siteStepWiden _ => true
  | .scratchpadAccess _ => true
  | .probeAnswerArrival _ => true
  | .tbarTimeout _ _ => true
  | .mwaitTimeout _ _ => true
  | .waitmDeadline _ _ => true
  | .sleepExpiry _ _ => true
  | .xpairTimeout _ _ => true
  | .roleSwitch _ _ => true
  | .roleswGrowResume _ _ => true
  | .barstall _ _ => true
  | .mmaProductComplete _ _ _ => true
  | .copyRecord _ _ => true
  | .copyOwnWake _ _ => true
  | .quantisationCommand _ => true
  | .sluiceGateRelease _ _ => true
  | .batchComplete _ _ => true
  | .spanDispatch _ => true
  | .migrationWave _ _ => true
  | .launchStartTime _ => true
  | .launchComplete _ => true
  | .queueEnable _ _ => true
  | .queuePacketRead _ _ => true
  | .launch _ _ => true
  | .signal _ _ => true
  | .wait _ _ => true
  | .waitTimeout _ _ => true
  | .monitorReread _ _ => true
  | .cond _ _ => true
  | .loop _ _ => true
  | .graph _ _ => true
  | .fencePacket _ _ => true
  | .fix _ _ => true
  | .migrate _ _ _ => true
  | .nodeLaunch _ _ _ => true
  | .nodeSignal _ _ _ => true
  | .nodeWait _ _ _ => true
  | .nodeCond _ _ _ => true
  | .nodeLoop _ _ _ => true
  | .nodeEnd _ _ _ => true
  | .nodeWaitTimeout _ _ _ => true
  | .openPart _ _ => true
  | .create _ _ => true
  | .destroy _ _ => true
  | .halt _ _ => true
  | .resume _ _ => true
  | .savefull _ _ => true
  | .saveback _ _ => true
  | .restore _ _ => true
  | .kill _ _ => true
  | .replay _ _ => true
  | .tlbinv _ _ => true
  | .gstep _ _ => true
  | .saveImageWrite _ _ => true
  | .waymaskWrite _ _ _ _ => true
  | .wayWalkEnd _ _ => true
  | .fqctlWrite _ _ => true
  | .fwdclr _ => true
  | .registerWrite _ _ _ _ => true
  | .generationScrub _ => true
  | .blockSwapOut _ => true
  | .blockSwapIn _ => true
  | .powerGood _ => true
  | .imageVerify _ => true
  | .selfCalibration _ _ => true
  | .memoryInit _ => true
  | .ferzuLinkUp _ _ => true
  | .powerWindow _ => true
  | .correctableError => true
  | .uncorrectableError _ => true
  | .coreRepair _ _ => true
  | .l2WayRepair _ _ _ => true
  | .dramRepair _ => true
  | .ferzuLaneRepair _ _ => true
  | .fixCutTime _ _ => true
  | .fixDeadline _ _ => true
  | .fixDrainPage _ _ => true
  | .fixDrainFault _ _ => true
  | .stubForwardWrite _ _ => true
  | .measurementExtend _ _ => true
  | .quoteRequest _ _ _ => true
  | .spareLaneTrained _ => true
  | .dramSpareCopyDone _ => true
  | .migrationDestination _ _ => true

end Sys2Proof.Legal
end

