-- ==== Sys2Proof/WellFormed.lean ====
section
/-! DEFINITION. What makes a decoded word an instruction: the conditions of R152, which Sys2Proof/Machine/Legal.lean states per instruction. -/

namespace Sys2Proof

/-- The word breaks no condition of R152. -/
def Instr.wellFormed (i : Instr) : Bool := Legal.legal i

end Sys2Proof
end

