-- ==== Sys2Proof/Decode.lean ====
section
/-! DEFINITION. Decoding (R137 to R152): total on any bytes, rejecting by name; and the encoder, written from the same layouts. -/

namespace Sys2Proof

/-- Why bytes are no instruction (R152). -/
inductive Reject
  /-- Fewer than 8 bytes. -/
  | short
  /-- FORM is 0b11. -/
  | form
  /-- The major opcode is unassigned (R150). -/
  | opcode (op : Nat)
  /-- A field, a combination of fields, a form or a guard the instruction does not have. -/
  | fields (op : Nat)
  deriving DecidableEq, Repr

/-- FORM code (R138). -/
def Form.code : Form → BitVec 2
  | .native => 0
  | .quick => 1
  | .generic => 2

/-- FORM of a code; 0b11 is none (R139). -/
def Form.ofBits (b : BitVec 2) : Option Form :=
  if b = 0 then some .native else if b = 1 then some .quick else if b = 2 then some .generic else none

/-- The major opcode, bits 61:54 (R138). -/
def opOf (w : Dword) : BitVec 8 := w.extractLsb' 54 8

/-- The header fields of a word (R138). -/
def hdrOf (f : Form) (w : Dword) : Hdr :=
  { form := f, pg := w.extractLsb' 51 3, pn := w.getLsbD 50, d := w.extractLsb' 41 9, a := w.extractLsb' 32 9 }

/-- The fields of a word in each format (R140). -/
def RR.ofWord (f : Form) (w : Dword) : RR :=
  { toHdr := hdrOf f w, b := w.extractLsb' 23 9, c := w.extractLsb' 14 9, z := w.extractLsb' 11 3, e := w.extractLsb' 8 3,
    k := w.extractLsb' 6 2, m := w.extractLsb' 0 6 }

@[inherit_doc RR.ofWord]
def RI.ofWord (f : Form) (w : Dword) : RI :=
  { toHdr := hdrOf f w, imm := w.extractLsb' 14 18, z := w.extractLsb' 11 3, e := w.extractLsb' 8 3, k := w.extractLsb' 6 2,
    m := w.extractLsb' 0 6 }

@[inherit_doc RR.ofWord]
def PP.ofWord (f : Form) (w : Dword) : PP :=
  { toHdr := hdrOf f w, b := w.extractLsb' 23 9, pa := w.extractLsb' 20 3, pb := w.extractLsb' 17 3, ct := w.extractLsb' 14 3,
    z := w.extractLsb' 11 3, e := w.extractLsb' 8 3, k := w.extractLsb' 6 2, m := w.extractLsb' 0 6 }

@[inherit_doc RR.ofWord]
def WI.ofWord (f : Form) (w : Dword) : WI :=
  { toHdr := hdrOf f w, imm := w.extractLsb' 5 27, mw := w.extractLsb' 0 5 }

@[inherit_doc RR.ofWord]
def ML.ofWord (f : Form) (w : Dword) : ML :=
  { toHdr := hdrOf f w, ofs := w.extractLsb' 20 12, tag := w.extractLsb' 17 3, ordsc := w.extractLsb' 14 3, mbz := w.extractLsb' 11 3,
    e := w.extractLsb' 8 3, k := w.extractLsb' 6 2, m := w.extractLsb' 0 6 }

@[inherit_doc RR.ofWord]
def MS.ofWord (f : Form) (w : Dword) : MS :=
  { toHdr := hdrOf f w, b := w.extractLsb' 23 9, ofs := w.extractLsb' 14 9, ordsc := w.extractLsb' 11 3, e := w.extractLsb' 8 3,
    k := w.extractLsb' 6 2, m := w.extractLsb' 0 6 }

@[inherit_doc RR.ofWord]
def MA.ofWord (f : Form) (w : Dword) : MA :=
  { toHdr := hdrOf f w, b := w.extractLsb' 23 9, c := w.extractLsb' 14 9, sc := w.extractLsb' 11 3, e := w.extractLsb' 8 3,
    k := w.extractLsb' 6 2, m := w.extractLsb' 0 6 }

/-- The upper 32 bits of a word with major opcode op (R138). -/
def Hdr.upper (h : Hdr) (op : BitVec 8) : BitVec 32 := h.form.code ++ op ++ h.pg ++ BitVec.ofBool h.pn ++ h.d ++ h.a

/-- The word of each format with its major opcode (R140). -/
def RR.word (i : RR) (op : BitVec 8) : Dword := i.upper op ++ (i.b ++ i.c ++ i.z ++ i.e ++ i.k ++ i.m : BitVec 32)

@[inherit_doc RR.word]
def RI.word (i : RI) (op : BitVec 8) : Dword := i.upper op ++ (i.imm ++ i.z ++ i.e ++ i.k ++ i.m : BitVec 32)

@[inherit_doc RR.word]
def PP.word (i : PP) (op : BitVec 8) : Dword := i.upper op ++ (i.b ++ i.pa ++ i.pb ++ i.ct ++ i.z ++ i.e ++ i.k ++ i.m : BitVec 32)

@[inherit_doc RR.word]
def WI.word (i : WI) (op : BitVec 8) : Dword := i.upper op ++ (i.imm ++ i.mw : BitVec 32)

@[inherit_doc RR.word]
def ML.word (i : ML) (op : BitVec 8) : Dword := i.upper op ++ (i.ofs ++ i.tag ++ i.ordsc ++ i.mbz ++ i.e ++ i.k ++ i.m : BitVec 32)

@[inherit_doc RR.word]
def MS.word (i : MS) (op : BitVec 8) : Dword := i.upper op ++ (i.b ++ i.ofs ++ i.ordsc ++ i.e ++ i.k ++ i.m : BitVec 32)

@[inherit_doc RR.word]
def MA.word (i : MA) (op : BitVec 8) : Dword := i.upper op ++ (i.b ++ i.c ++ i.sc ++ i.e ++ i.k ++ i.m : BitVec 32)

/-- The instruction of an opcode 0x00 to 0x0F (R150); shared cells are told apart by the low bits of the word. -/
def row0 (f : Form) (w : Dword) (lo : Nat) : Option Instr :=
  match lo with
  | 1 => some (.bra (.ofWord f w))
  | 2 => some (.brx (.ofWord f w))
  | 3 => some (.call (.ofWord f w))
  | 4 => some (.ret (.ofWord f w))
  | 5 => if w.getLsbD 0 then some (.joinLabel (.ofWord f w)) else some (.join (.ofWord f w))
  | 6 => some (.exit (.ofWord f w))
  | 7 => some (.yield (.ofWord f w))
  | 8 => some (.trap (.ofWord f w))
  | 9 => some (.sleep (.ofWord f w))
  | 15 => some (.nop (.ofWord f w))
  | _ => none

/-- The instruction of an opcode 0x10 to 0x1F (R150); shared cells are told apart by the low bits of the word. -/
def row1 (f : Form) (w : Dword) (lo : Nat) : Option Instr :=
  match lo with
  | 0 => some (.cmp (.ofWord f w))
  | 1 => some (.pand (.ofWord f w))
  | 2 => some (.por (.ofWord f w))
  | 3 => some (.pnot (.ofWord f w))
  | 4 => some (.pmov (.ofWord f w))
  | 5 => some (.vote (.ofWord f w))
  | _ => none

/-- The instruction of an opcode 0x20 to 0x2F (R150); shared cells are told apart by the low bits of the word. -/
def row2 (f : Form) (w : Dword) (lo : Nat) : Option Instr :=
  match lo with
  | 0 => some (.iadd (.ofWord f w))
  | 1 => some (.isub (.ofWord f w))
  | 2 => some (.imul (.ofWord f w))
  | 3 => some (.imad (.ofWord f w))
  | 4 => some (.imadw (.ofWord f w))
  | 5 => some (.min (.ofWord f w))
  | 6 => some (.max (.ofWord f w))
  | 7 => (match (w.extractLsb' 0 2 : BitVec 2).toNat with | 0 => some (.and (.ofWord f w)) | 1 => some (.or (.ofWord f w)) | 2 => some (.xor (.ofWord f w)) | _ => some (.not (.ofWord f w)))
  | 8 => (match (w.extractLsb' 0 2 : BitVec 2).toNat with | 0 => some (.shl (.ofWord f w)) | 1 => some (.shr (.ofWord f w)) | 2 => some (.sar (.ofWord f w)) | _ => none)
  | 9 => some (.clz (.ofWord f w))
  | 10 => some (.popc (.ofWord f w))
  | 11 => some (.bfe (.ofWord f w))
  | 12 => some (.bfi (.ofWord f w))
  | 13 => some (.sel (.ofWord f w))
  | 14 => some (.mov (.ofWord f w))
  | 15 => some (.lea (.ofWord f w))
  | _ => none

/-- The instruction of an opcode 0x30 to 0x3F (R150); shared cells are told apart by the low bits of the word. -/
def row3 (f : Form) (w : Dword) (lo : Nat) : Option Instr :=
  match lo with
  | 0 => some (.movi (.ofWord f w))
  | 1 => some (.movr (.ofWord f w))
  | 2 => some (.movw (.ofWord f w))
  | 3 => some (.xset (.ofWord f w))
  | 4 => some (.xadd (.ofWord f w))
  | 5 => some (.xmov (.ofWord f w))
  | 6 => some (.iaddImm (.ofWord f w))
  | 7 => some (.imulImm (.ofWord f w))
  | 8 => (match (w.extractLsb' 0 2 : BitVec 2).toNat with | 0 => some (.andImm (.ofWord f w)) | 1 => some (.orImm (.ofWord f w)) | 2 => some (.xorImm (.ofWord f w)) | _ => none)
  | 9 => (match (w.extractLsb' 0 2 : BitVec 2).toNat with | 0 => some (.shlImm (.ofWord f w)) | 1 => some (.shrImm (.ofWord f w)) | 2 => some (.sarImm (.ofWord f w)) | _ => none)
  | 10 => some (.minImm (.ofWord f w))
  | 11 => some (.maxImm (.ofWord f w))
  | 12 => some (.leaImm (.ofWord f w))
  | _ => none

/-- The instruction of an opcode 0x40 to 0x4F (R150); shared cells are told apart by the low bits of the word. -/
def row4 (f : Form) (w : Dword) (lo : Nat) : Option Instr :=
  match lo with
  | 0 => some (.sadd (.ofWord f w))
  | 1 => some (.ssub (.ofWord f w))
  | 2 => some (.smul (.ofWord f w))
  | 3 => some (.smad (.ofWord f w))
  | 4 => some (.smin (.ofWord f w))
  | 5 => some (.smax (.ofWord f w))
  | 6 => (match (w.extractLsb' 0 2 : BitVec 2).toNat with | 0 => some (.sand (.ofWord f w)) | 1 => some (.sor (.ofWord f w)) | 2 => some (.sxor (.ofWord f w)) | _ => some (.snot (.ofWord f w)))
  | 7 => (match (w.extractLsb' 0 2 : BitVec 2).toNat with | 0 => some (.sshl (.ofWord f w)) | 1 => some (.sshr (.ofWord f w)) | 2 => some (.ssar (.ofWord f w)) | _ => none)
  | 8 => some (.sclz (.ofWord f w))
  | 9 => some (.spopc (.ofWord f w))
  | 10 => some (.sbfe (.ofWord f w))
  | 11 => some (.sbfi (.ofWord f w))
  | 12 => some (.ssel (.ofWord f w))
  | 13 => some (.smov (.ofWord f w))
  | 14 => some (.smovi (.ofWord f w))
  | 15 => some (.scmp (.ofWord f w))
  | _ => none

/-- The instruction of an opcode 0x50 to 0x5F (R150); shared cells are told apart by the low bits of the word. -/
def row5 (f : Form) (w : Dword) (lo : Nat) : Option Instr :=
  match lo with
  | 0 => some (.fadd (.ofWord f w))
  | 1 => some (.fsub (.ofWord f w))
  | 2 => some (.fmul (.ofWord f w))
  | 3 => some (.ffma (.ofWord f w))
  | 4 => some (.fmin (.ofWord f w))
  | 5 => some (.fmax (.ofWord f w))
  | 6 => some (.frcp (.ofWord f w))
  | 7 => some (.frsq (.ofWord f w))
  | 8 => some (.fsqrt (.ofWord f w))
  | 9 => some (.fexp2 (.ofWord f w))
  | 10 => some (.flog2 (.ofWord f w))
  | 11 => some (.fsin (.ofWord f w))
  | 12 => some (.fcos (.ofWord f w))
  | _ => none

/-- The instruction of an opcode 0x60 to 0x6F (R150); shared cells are told apart by the low bits of the word. -/
def row6 (f : Form) (w : Dword) (lo : Nat) : Option Instr :=
  match lo with
  | 0 => some (.faddImm (.ofWord f w))
  | 1 => some (.fmulImm (.ofWord f w))
  | 2 => some (.fminImm (.ofWord f w))
  | 3 => some (.fmaxImm (.ofWord f w))
  | _ => none

/-- The instruction of an opcode 0x70 to 0x7F (R150); shared cells are told apart by the low bits of the word. -/
def row7 (f : Form) (w : Dword) (lo : Nat) : Option Instr :=
  match lo with
  | 0 => some (.hadd2 (.ofWord f w))
  | 1 => some (.hmul2 (.ofWord f w))
  | 2 => some (.hfma2 (.ofWord f w))
  | 3 => some (.cvt (.ofWord f w))
  | _ => none

/-- The instruction of an opcode 0x80 to 0x8F (R150); shared cells are told apart by the low bits of the word. -/
def row8 (f : Form) (w : Dword) (lo : Nat) : Option Instr :=
  match lo with
  | 0 => some (.qswap (.ofWord f w))
  | 1 => some (.qbcast (.ofWord f w))
  | 2 => some (.qred (.ofWord f w))
  | 3 => some (.shfl (.ofWord f w))
  | 4 => some (.xpair (.ofWord f w))
  | 5 => some (.xshuf (.ofWord f w))
  | _ => none

/-- The instruction of an opcode 0x90 to 0x9F (R150); shared cells are told apart by the low bits of the word. -/
def row9 (f : Form) (w : Dword) (lo : Nat) : Option Instr :=
  match lo with
  | 0 => some (.ldB8 (.ofWord f w))
  | 1 => some (.ldS8 (.ofWord f w))
  | 2 => some (.ldB16 (.ofWord f w))
  | 3 => some (.ldS16 (.ofWord f w))
  | 4 => some (.ld (.ofWord f w))
  | 5 => some (.ldB64 (.ofWord f w))
  | 6 => some (.ldB128 (.ofWord f w))
  | 8 => some (.stB8 (.ofWord f w))
  | 9 => some (.stB16 (.ofWord f w))
  | 10 => some (.st (.ofWord f w))
  | 11 => some (.stB64 (.ofWord f w))
  | 12 => some (.stB128 (.ofWord f w))
  | _ => none

/-- The instruction of an opcode 0xA0 to 0xAF (R150); shared cells are told apart by the low bits of the word. -/
def rowA (f : Form) (w : Dword) (lo : Nat) : Option Instr :=
  match lo with
  | 0 => some (.ald (.ofWord f w))
  | 1 => some (.ast (.ofWord f w))
  | 2 => some (.pf (.ofWord f w))
  | 3 => some (.seal (.ofWord f w))
  | 4 => some (.waitc (.ofWord f w))
  | _ => none

/-- The instruction of an opcode 0xB0 to 0xBF (R150); shared cells are told apart by the low bits of the word. -/
def rowB (f : Form) (w : Dword) (lo : Nat) : Option Instr :=
  match lo with
  | 0 => some (.atom (.ofWord f w))
  | 1 => some (.cas (.ofWord f w))
  | 2 => some (.red (.ofWord f w))
  | 3 => some (.wpush (.ofWord f w))
  | 4 => some (.wpop (.ofWord f w))
  | 5 => some (.cis (.ofWord f w))
  | _ => none

/-- The instruction of an opcode 0xC0 to 0xCF (R150); shared cells are told apart by the low bits of the word. -/
def rowC (f : Form) (w : Dword) (lo : Nat) : Option Instr :=
  match lo with
  | 0 => some (.fence (.ofWord f w))
  | 1 => some (.bar (.ofWord f w))
  | 2 => some (.tbar (.ofWord f w))
  | 3 => some (.mwait (.ofWord f w))
  | 4 => some (.waitm (.ofWord f w))
  | 5 => some (.getm (.ofWord f w))
  | 6 => some (.step (.ofWord f w))
  | _ => none

/-- The instruction of an opcode 0xD0 to 0xDF (R150); shared cells are told apart by the low bits of the word. -/
def rowD (f : Form) (w : Dword) (lo : Nat) : Option Instr :=
  match lo with
  | 0 => some (.gangset (.ofWord f w))
  | 1 => some (.opfence (.ofWord f w))
  | 2 => some (.mma (.ofWord f w))
  | 3 => some (.mmwait (.ofWord f w))
  | 4 => some (.tld (.ofWord f w))
  | 5 => some (.tst (.ofWord f w))
  | 6 => some (.tzero (.ofWord f w))
  | _ => none

/-- The instruction of an opcode 0xE0 to 0xEF (R150); shared cells are told apart by the low bits of the word. -/
def rowE (f : Form) (w : Dword) (lo : Nat) : Option Instr :=
  match lo with
  | 0 => some (.trav (.ofWord f w))
  | 1 => some (.rcfence (.ofWord f w))
  | 2 => some (.xchain (.ofWord f w))
  | 3 => some (.qsub (.ofWord f w))
  | 4 => some (.slset (.ofWord f w))
  | 5 => some (.slpulse (.ofWord f w))
  | 6 => some (.slwait (.ofWord f w))
  | _ => none

/-- The instruction of an opcode 0xF0 to 0xFF (R150); shared cells are told apart by the low bits of the word. -/
def rowF (f : Form) (w : Dword) (lo : Nat) : Option Instr :=
  match lo with
  | 0 => some (.getsr (.ofWord f w))
  | 1 => some (.setsr (.ofWord f w))
  | 2 => some (.rolesw (.ofWord f w))
  | 3 => some (.sitearm (.ofWord f w))
  | 4 => some (.bkpt (.ofWord f w))
  | 5 => some (.dbgmb (.ofWord f w))
  | 6 => some (.haltg (.ofWord f w))
  | 7 => some (.stepg (.ofWord f w))
  | 8 => some (.watchset (.ofWord f w))
  | 9 => some (.eret (.ofWord f w))
  | 10 => some (.cwb (.ofWord f w))
  | 11 => some (.cinv (.ofWord f w))
  | _ => none

/-- The constructor and fields an opcode gives a word, before any check of R152. -/
def parse (f : Form) (w : Dword) : Option Instr :=
  let lo := (w.extractLsb' 54 4 : BitVec 4).toNat
  match (w.extractLsb' 58 4 : BitVec 4).toNat with
  | 0 => row0 f w lo
  | 1 => row1 f w lo
  | 2 => row2 f w lo
  | 3 => row3 f w lo
  | 4 => row4 f w lo
  | 5 => row5 f w lo
  | 6 => row6 f w lo
  | 7 => row7 f w lo
  | 8 => row8 f w lo
  | 9 => row9 f w lo
  | 10 => rowA f w lo
  | 11 => rowB f w lo
  | 12 => rowC f w lo
  | 13 => rowD f w lo
  | 14 => rowE f w lo
  | 15 => rowF f w lo
  | _ => none

/-- The instruction of one 64-bit word, or the reason it is none (R152). -/
def decodeWord (w : Dword) : Except Reject Instr :=
  match Form.ofBits (w.extractLsb' 62 2) with
  | none => .error .form
  | some f =>
    match parse f w with
    | none => .error (.opcode (opOf w).toNat)
    | some i => if i.wellFormed then .ok i else .error (.fields (opOf w).toNat)

/-- The first instruction of a byte string, with the bytes behind it. Words are 8 bytes, little-endian (R137). -/
def decode (bs : List Byte) : Except Reject (Instr × List Byte) :=
  if bs.length < 8 then .error .short
  else match decodeWord (BitVec.ofNat 64 (ofLe (bs.take 8))) with
    | .ok i => .ok (i, bs.drop 8)
    | .error r => .error r

/-- The word of an instruction (R138, R140, R150); events and commands have none. -/
def encode (i : Instr) : Option Dword :=
  match i with
  | .bra w => some (w.word 0x01)
  | .brx w => some (w.word 0x02)
  | .call w => some (w.word 0x03)
  | .ret w => some (w.word 0x04)
  | .join w => some (w.word 0x05)
  | .joinLabel w => some (w.word 0x05)
  | .exit w => some (w.word 0x06)
  | .yield w => some (w.word 0x07)
  | .trap w => some (w.word 0x08)
  | .sleep w => some (w.word 0x09)
  | .nop w => some (w.word 0x0F)
  | .cmp w => some (w.word 0x10)
  | .pand w => some (w.word 0x11)
  | .por w => some (w.word 0x12)
  | .pnot w => some (w.word 0x13)
  | .pmov w => some (w.word 0x14)
  | .vote w => some (w.word 0x15)
  | .iadd w => some (w.word 0x20)
  | .isub w => some (w.word 0x21)
  | .imul w => some (w.word 0x22)
  | .imad w => some (w.word 0x23)
  | .imadw w => some (w.word 0x24)
  | .min w => some (w.word 0x25)
  | .max w => some (w.word 0x26)
  | .and w => some (w.word 0x27)
  | .or w => some (w.word 0x27)
  | .xor w => some (w.word 0x27)
  | .not w => some (w.word 0x27)
  | .shl w => some (w.word 0x28)
  | .shr w => some (w.word 0x28)
  | .sar w => some (w.word 0x28)
  | .clz w => some (w.word 0x29)
  | .popc w => some (w.word 0x2A)
  | .bfe w => some (w.word 0x2B)
  | .bfi w => some (w.word 0x2C)
  | .sel w => some (w.word 0x2D)
  | .mov w => some (w.word 0x2E)
  | .lea w => some (w.word 0x2F)
  | .leaImm w => some (w.word 0x3C)
  | .movi w => some (w.word 0x30)
  | .movr w => some (w.word 0x31)
  | .movw w => some (w.word 0x32)
  | .xset w => some (w.word 0x33)
  | .xadd w => some (w.word 0x34)
  | .xmov w => some (w.word 0x35)
  | .iaddImm w => some (w.word 0x36)
  | .imulImm w => some (w.word 0x37)
  | .andImm w => some (w.word 0x38)
  | .orImm w => some (w.word 0x38)
  | .xorImm w => some (w.word 0x38)
  | .shlImm w => some (w.word 0x39)
  | .shrImm w => some (w.word 0x39)
  | .sarImm w => some (w.word 0x39)
  | .minImm w => some (w.word 0x3A)
  | .maxImm w => some (w.word 0x3B)
  | .sadd w => some (w.word 0x40)
  | .ssub w => some (w.word 0x41)
  | .smul w => some (w.word 0x42)
  | .smad w => some (w.word 0x43)
  | .smin w => some (w.word 0x44)
  | .smax w => some (w.word 0x45)
  | .sand w => some (w.word 0x46)
  | .sor w => some (w.word 0x46)
  | .sxor w => some (w.word 0x46)
  | .snot w => some (w.word 0x46)
  | .sshl w => some (w.word 0x47)
  | .sshr w => some (w.word 0x47)
  | .ssar w => some (w.word 0x47)
  | .sclz w => some (w.word 0x48)
  | .spopc w => some (w.word 0x49)
  | .sbfe w => some (w.word 0x4A)
  | .sbfi w => some (w.word 0x4B)
  | .ssel w => some (w.word 0x4C)
  | .smov w => some (w.word 0x4D)
  | .smovi w => some (w.word 0x4E)
  | .scmp w => some (w.word 0x4F)
  | .fadd w => some (w.word 0x50)
  | .fsub w => some (w.word 0x51)
  | .fmul w => some (w.word 0x52)
  | .ffma w => some (w.word 0x53)
  | .fmin w => some (w.word 0x54)
  | .fmax w => some (w.word 0x55)
  | .frcp w => some (w.word 0x56)
  | .frsq w => some (w.word 0x57)
  | .fsqrt w => some (w.word 0x58)
  | .fexp2 w => some (w.word 0x59)
  | .flog2 w => some (w.word 0x5A)
  | .fsin w => some (w.word 0x5B)
  | .fcos w => some (w.word 0x5C)
  | .faddImm w => some (w.word 0x60)
  | .fmulImm w => some (w.word 0x61)
  | .fminImm w => some (w.word 0x62)
  | .fmaxImm w => some (w.word 0x63)
  | .hadd2 w => some (w.word 0x70)
  | .hmul2 w => some (w.word 0x71)
  | .hfma2 w => some (w.word 0x72)
  | .cvt w => some (w.word 0x73)
  | .qswap w => some (w.word 0x80)
  | .qbcast w => some (w.word 0x81)
  | .qred w => some (w.word 0x82)
  | .shfl w => some (w.word 0x83)
  | .xpair w => some (w.word 0x84)
  | .xshuf w => some (w.word 0x85)
  | .ldB8 w => some (w.word 0x90)
  | .ldS8 w => some (w.word 0x91)
  | .ldB16 w => some (w.word 0x92)
  | .ldS16 w => some (w.word 0x93)
  | .ld w => some (w.word 0x94)
  | .ldB64 w => some (w.word 0x95)
  | .ldB128 w => some (w.word 0x96)
  | .stB8 w => some (w.word 0x98)
  | .stB16 w => some (w.word 0x99)
  | .st w => some (w.word 0x9A)
  | .stB64 w => some (w.word 0x9B)
  | .stB128 w => some (w.word 0x9C)
  | .ald w => some (w.word 0xA0)
  | .ast w => some (w.word 0xA1)
  | .pf w => some (w.word 0xA2)
  | .seal w => some (w.word 0xA3)
  | .waitc w => some (w.word 0xA4)
  | .atom w => some (w.word 0xB0)
  | .cas w => some (w.word 0xB1)
  | .red w => some (w.word 0xB2)
  | .wpush w => some (w.word 0xB3)
  | .wpop w => some (w.word 0xB4)
  | .cis w => some (w.word 0xB5)
  | .fence w => some (w.word 0xC0)
  | .bar w => some (w.word 0xC1)
  | .tbar w => some (w.word 0xC2)
  | .mwait w => some (w.word 0xC3)
  | .waitm w => some (w.word 0xC4)
  | .getm w => some (w.word 0xC5)
  | .step w => some (w.word 0xC6)
  | .gangset w => some (w.word 0xD0)
  | .opfence w => some (w.word 0xD1)
  | .mma w => some (w.word 0xD2)
  | .mmwait w => some (w.word 0xD3)
  | .tld w => some (w.word 0xD4)
  | .tst w => some (w.word 0xD5)
  | .tzero w => some (w.word 0xD6)
  | .trav w => some (w.word 0xE0)
  | .rcfence w => some (w.word 0xE1)
  | .xchain w => some (w.word 0xE2)
  | .qsub w => some (w.word 0xE3)
  | .slset w => some (w.word 0xE4)
  | .slpulse w => some (w.word 0xE5)
  | .slwait w => some (w.word 0xE6)
  | .getsr w => some (w.word 0xF0)
  | .setsr w => some (w.word 0xF1)
  | .rolesw w => some (w.word 0xF2)
  | .sitearm w => some (w.word 0xF3)
  | .bkpt w => some (w.word 0xF4)
  | .dbgmb w => some (w.word 0xF5)
  | .haltg w => some (w.word 0xF6)
  | .stepg w => some (w.word 0xF7)
  | .watchset w => some (w.word 0xF8)
  | .eret w => some (w.word 0xF9)
  | .cwb w => some (w.word 0xFA)
  | .cinv w => some (w.word 0xFB)
  | .weirPortArrival _ => none
  | .weirWindowExpiry _ => none
  | .weirHomeExecute _ => none
  | .cisBankOperation _ => none
  | .monitorMatch _ => none
  | .travCommandBegin _ => none
  | .travCommandPerformed _ => none
  | .returnLands _ => none
  | .cisReturn _ => none
  | .asyncCopyPerformed _ => none
  | .probeArrival _ => none
  | .fillArrival _ => none
  | .homeRequest _ => none
  | .atomicAtHome _ => none
  | .uLineEviction _ => none
  | .siteStepQuicken _ => none
  | .siteStepWiden _ => none
  | .scratchpadAccess _ => none
  | .probeAnswerArrival _ => none
  | .tbarTimeout _ _ => none
  | .mwaitTimeout _ _ => none
  | .waitmDeadline _ _ => none
  | .sleepExpiry _ _ => none
  | .xpairTimeout _ _ => none
  | .roleSwitch _ _ => none
  | .roleswGrowResume _ _ => none
  | .barstall _ _ => none
  | .mmaProductComplete _ _ _ => none
  | .copyRecord _ _ => none
  | .copyOwnWake _ _ => none
  | .quantisationCommand _ => none
  | .sluiceGateRelease _ _ => none
  | .batchComplete _ _ => none
  | .spanDispatch _ => none
  | .migrationWave _ _ => none
  | .launchStartTime _ => none
  | .launchComplete _ => none
  | .queueEnable _ _ => none
  | .queuePacketRead _ _ => none
  | .launch _ _ => none
  | .signal _ _ => none
  | .wait _ _ => none
  | .waitTimeout _ _ => none
  | .monitorReread _ _ => none
  | .cond _ _ => none
  | .loop _ _ => none
  | .graph _ _ => none
  | .fencePacket _ _ => none
  | .fix _ _ => none
  | .migrate _ _ _ => none
  | .nodeLaunch _ _ _ => none
  | .nodeSignal _ _ _ => none
  | .nodeWait _ _ _ => none
  | .nodeCond _ _ _ => none
  | .nodeLoop _ _ _ => none
  | .nodeEnd _ _ _ => none
  | .nodeWaitTimeout _ _ _ => none
  | .openPart _ _ => none
  | .create _ _ => none
  | .destroy _ _ => none
  | .halt _ _ => none
  | .resume _ _ => none
  | .savefull _ _ => none
  | .saveback _ _ => none
  | .restore _ _ => none
  | .kill _ _ => none
  | .replay _ _ => none
  | .tlbinv _ _ => none
  | .gstep _ _ => none
  | .saveImageWrite _ _ => none
  | .waymaskWrite _ _ _ _ => none
  | .wayWalkEnd _ _ => none
  | .fqctlWrite _ _ => none
  | .fwdclr _ => none
  | .registerWrite _ _ _ _ => none
  | .generationScrub _ => none
  | .blockSwapOut _ => none
  | .blockSwapIn _ => none
  | .powerGood _ => none
  | .imageVerify _ => none
  | .selfCalibration _ _ => none
  | .memoryInit _ => none
  | .ferzuLinkUp _ _ => none
  | .powerWindow _ => none
  | .correctableError => none
  | .uncorrectableError _ => none
  | .coreRepair _ _ => none
  | .l2WayRepair _ _ _ => none
  | .dramRepair _ => none
  | .ferzuLaneRepair _ _ => none
  | .fixCutTime _ _ => none
  | .fixDeadline _ _ => none
  | .fixDrainPage _ _ => none
  | .fixDrainFault _ _ => none
  | .stubForwardWrite _ _ => none
  | .measurementExtend _ _ => none
  | .quoteRequest _ _ _ => none
  | .spareLaneTrained _ => none
  | .dramSpareCopyDone _ => none
  | .migrationDestination _ _ => none

/-- The bytes of an instruction's word (R137). -/
def encodeBytes (i : Instr) : Option (List Byte) := (encode i).map fun w => leBytes 8 w.toNat

/-- The instruction the decoder reads from a word of spec/opcode_table.json, laid out as bytes in memory order (R137). -/
def decodeTableWord (nbits w : Nat) : Option Instr :=
  match decode (leBytes 8 (w % 2 ^ nbits)) with
  | .ok (i, _) => some i
  | .error _ => none

end Sys2Proof
end

