-- ==== Sys2Proof/Machine/Reads.lean ====
section
/-! DEFINITION. The registers that a word reads and writes (R141, R145): the scalar, index and predicate registers and the tiles it reads, for the marks that a restore leaves on them (R388;
vector rows carry their own mark), and all that it writes, for rule 1 of backsight regions (R328). -/

namespace Sys2Proof.Machine

open Sys2Proof.Legal

/-- The number of a scalar, index or predicate register: its save code (R322). -/
def regCode (c : Cls) (r : BitVec 9) : List Nat :=
  match c with
  | .scalar => [8192 + r.toNat]
  | .index => [16384 + r.toNat]
  | .pred => [24576 + r.toNat]
  | _ => []

/-- A matrix tile that a restore may have marked, numbered behind the save codes of R322. -/
def tileCode (t : BitVec 9) : List Nat := [32768 + t.toNat]

/-- The registers that a guard reads (R22). -/
def guardReads (h : Hdr) : List Nat := [24576 + h.pg.toNat]

/-- Sources A, B and C of a word in format RR. -/
def rrReads (w : RR) (a b c : Cls) : List Nat := regCode a w.a ++ regCode b w.b ++ regCode c w.c

/-- The address of a memory word: a scalar where AK says so (R145). -/
def addrReads (a : BitVec 9) (m : BitVec 6) : List Nat := if akOf m then regCode .scalar a else []

/-- THE SOURCES of a word that are no vector rows, guard apart. DESIGN CHOICE (log 87): SMOVI.MID and SMOVI.TOP, which keep bits of sD, count as reading it. -/
def sourcesOf (i : Instr) : List Nat :=
  match i with
  | .brx w => rrReads w .scalar .none .none
  | .ret w => if bitAt w.m 0 then rrReads w .scalar .none .none else []
  | .pand w | .por w => rrReads w .pred .pred .none
  | .pnot w => rrReads w .pred .none .none
  | .pmov w => rrReads w (if 2 ≤ fieldN w.m 1 0 then .scalar else .pred) .none .none
  | .vote w => rrReads w .pred .none .none
  | .sel w => rrReads w .none .none .pred
  | .mov w => if fieldN w.m 1 0 = 0 then [] else rrReads w .scalar .none .none
  | .lea w => rrReads w .scalar .none .none
  | .leaImm w => regCode .scalar w.a
  | .movr w => regCode .index w.a
  | .movw w => regCode .index w.d
  | .xadd w => regCode .index w.a
  | .xmov w => match fieldN w.m 1 0 with | 0 | 2 => rrReads w .index .none .none | 1 => [] | _ => rrReads w .scalar .none .none
  | .sadd w | .ssub w | .smul w | .smin w | .smax w | .sand w | .sor w | .sxor w | .sshl w | .sshr w | .ssar w | .sbfe w | .scmp w => rrReads w .scalar .scalar .none
  | .smad w | .sbfi w | .ssel w => rrReads w .scalar .scalar .scalar
  | .snot w | .sclz w | .spopc w => rrReads w .scalar .none .none
  | .smov w => if bitAt w.m 0 then [] else rrReads w .scalar .none .none
  | .smovi w => if 2 ≤ fieldN w.mw 1 0 then regCode .scalar w.d else []
  | .xpair w | .slset w | .setsr w => regCode .scalar w.a
  | .ldB8 w | .ldS8 w | .ldB16 w | .ldS16 w | .ld w | .ldB64 w | .ldB128 w | .pf w | .cwb w | .cinv w => addrReads w.a w.m
  | .stB8 w | .stB16 w | .st w | .stB64 w | .stB128 w | .ald w | .ast w => addrReads w.a w.m
  | .cis w => if bitAt w.m 4 then regCode .scalar w.a else []
  | .waitc w | .gangset w | .qsub w | .sitearm w => rrReads w .scalar .none .none
  | .tbar w => regCode .scalar w.a ++ regCode .scalar w.b ++ if fieldN w.m 1 0 = 0 then [] else regCode .scalar w.c
  | .mwait w => regCode .scalar w.a ++ regCode .scalar w.b ++ regCode .scalar w.c
  | .waitm w => if bitAt w.m 1 then rrReads w .none .none .scalar else rrReads w .scalar .scalar .scalar
  | .mma w => tileCode w.d ++ if bitAt w.m 3 then regCode .scalar w.b else []
  | .tst w => tileCode w.d ++ rrReads w .scalar .scalar .none
  | .tld w | .xchain w | .stepg w | .watchset w => rrReads w .scalar .scalar .none
  | .trav w | .dbgmb w => rrReads w .scalar .scalar .scalar
  | .haltg w => rrReads w .scalar (if fieldN w.m 1 0 = 2 then .scalar else .none) .none
  | _ => []

/-- The save codes (R322) of a destination. -/
def destCode (c : Cls) (r : BitVec 9) : List Nat :=
  match c with
  | .vec => [r.toNat]
  | .pair => [r.toNat, r.toNat + 1]
  | .quad => (List.range 4).map (r.toNat + ·)
  | c => regCode c r

/-- The rows that a conversion of a source format writes (R204); none of the table's writes one. -/
def cvtRows (src dst : Tag) (d : BitVec 9) : List Nat := destCode (match cvtPair src dst with | some p => p.d.cls | none => .vec) d

/-- EVERY REGISTER A WORD CAN WRITE, as rule 1 of R328 counts a direct write, by save code; a `movw` names its rows per lane. -/
def writesOf (i : Instr) : List Nat :=
  match i with
  | .call w => destCode (if bitAt w.mw 0 then .pair else .scalar) w.d
  | .cmp w => [24576 + w.pa.toNat, 24576 + w.pb.toNat]
  | .pand w | .por w | .pnot w => destCode .pred w.d
  | .pmov w => destCode (if fieldN w.m 1 0 = 1 then .scalar else .pred) w.d
  | .vote w => destCode (if bitAt w.m 2 then .scalar else .pred) w.d
  | .iadd w | .isub w | .imul w | .imad w | .min w | .max w | .and w | .or w | .xor w | .not w | .shl w | .shr w | .sar w | .clz w | .popc w | .bfe w | .bfi w | .sel w | .mov w
  | .lea w | .movr w | .fadd w | .fsub w | .fmul w | .ffma w | .fmin w | .fmax w | .frcp w | .frsq w | .fsqrt w | .fexp2 w | .flog2 w | .fsin w | .fcos w | .hadd2 w | .hmul2 w
  | .hfma2 w | .qswap w | .qbcast w | .qred w | .shfl w => destCode .vec w.d
  | .leaImm w | .iaddImm w | .imulImm w | .andImm w | .orImm w | .xorImm w | .shlImm w | .shrImm w | .sarImm w | .minImm w | .maxImm w | .faddImm w | .fmulImm w | .fminImm w
  | .fmaxImm w | .xshuf w => destCode .vec w.d
  | .movi w => destCode .vec w.d
  | .imadw w | .getm w => destCode .pair w.d
  | .xset w | .xadd w => destCode .index w.d
  | .xmov w => destCode (if fieldN w.m 1 0 = 2 then .vec else .index) w.d
  | .sadd w | .ssub w | .smul w | .smad w | .smin w | .smax w | .sand w | .sor w | .sxor w | .snot w | .sshl w | .sshr w | .ssar w | .sclz w | .spopc w | .sbfe w | .sbfi w | .ssel w
  | .smov w | .scmp w | .waitm w | .gangset w | .sitearm w | .dbgmb w | .haltg w | .stepg w | .watchset w => destCode .scalar w.d
  | .smovi w => destCode .scalar w.d
  | .step w | .xpair w | .slset w | .rolesw w => destCode .scalar w.d
  | .getsr w => destCode (if bitAt w.m 0 then .vec else .scalar) w.d
  | .cvt w =>
    let dst := Tag.ofCode (dstfOf w.c)
    match w.form with
    | .generic => destCode (if dst = .f32 then .quad else .vec) w.d
    | _ => cvtRows (Tag.ofCode (srcfOf w.m)) dst w.d
  | .ldB8 w | .ldS8 w | .ldB16 w | .ldS16 w | .ld w => destCode .vec w.d
  | .ldB64 w => destCode .pair w.d
  | .ldB128 w => destCode .quad w.d
  | .atom w | .cas w => destCode (if bitAt w.m 0 then .pair else .vec) w.d
  | .wpush w => destCode .vec w.d
  | .wpop w => (List.range 3).map (w.d.toNat + ·)
  | .cis w => if bitAt w.m 5 then destCode .vec w.d else []
  | .tbar w | .mwait w => destCode .scalar w.d
  | _ => []

end Sys2Proof.Machine
end

