-- ==== Sys2Proof/Machine/State.lean ====
section
/-! DEFINITION. The state of the device, its faults and refusals, and the state after power-up reset (R408). Plain data throughout. -/

namespace Sys2Proof.Machine

open Sys2Proof

/-- What happens next, given from outside as data (log 1): the order in which pending activities take place, in which cores issue, and in which time passes, is left
open by the spec (R41, R73, R84, R98 and others), so a statement over all states holds for every order.
`event` takes up a pending activity; `issue` gives a core its turn; `tick` lets arithmetic cycles pass; `fetch` lets a split fetch its next word ahead of its issue (R137);
`evict` lets a cache give up a line (R77, R93), `evictTlb` a TLB an entry (R381), `evictRec` a record cache its least recently used entry is handled at fills (R263);
`inbound` is a write of the host or of a peer to device memory (R90, R371, R422), `inboundRead` a read by one
(R79, R422), `hostMem` a write to the host's own memory, `peerMem` to a peer's. -/
inductive Move
  | event (i : Instr)
  | issue (core : Nat)
  | tick (cycles : Nat)
  | fetch (gid : Nat) (k : Nat)
  | evict (a : Agent) (line : Nat)
  | evictTlb (level : TlbLevel) (part : Nat) (stage2 : Bool) (page : Nat)
  | inbound (pa : Nat) (gen : Nat) (w : Inbound)
  | inboundRead (pa : Nat) (gen : Nat) (n : Nat)
  | hostMem (addr : Nat) (bytes : List Byte)
  | peerMem (addr : Nat) (bytes : List Byte)
  deriving DecidableEq, Repr

/-- Faults of the model. Each is safe: the machine stops where the spec gives no step.
`noIssuingSplit`: exec was asked to run an instruction word with no split of a resident group selected to issue it; raised by every word's meaning, never by `step`, which
selects one first. -/
inductive Fault
  | noIssuingSplit
  deriving DecidableEq, Repr

/-- Refusals of the model. `notModelled`: an instruction that has no meaning yet, raised by its arm of `exec`; safe. -/
inductive Refusal
  | notModelled (mnemonic : String)
  deriving DecidableEq, Repr

/-- The device; `saved` holds what the image of R389 does not of the groups whose block is saved or swapped out (R290). Beside the state the spec names it holds the agenda (log 1), the core whose turn comes when the agenda is empty, the split that issues, the cores that have issued in the current cycle (R41), the counter of free
values (log 3) and the counter that names pending activities. -/
structure State where
  agenda   : List Move
  focus    : Nat
  cur      : Option (Nat × Nat)
  freeCtr  : Nat
  nextId   : Nat
  cycle    : Nat
  meridian : Vector Dword 4
  parts    : Vector Part 40
  dev      : Dev
  turns    : List Nat
  groups   : List Group
  saved    : List Group
  blocks   : List Block
  launches : List Launch
  credits  : List ((Nat × Nat) × Int)
  qcredits : List ((Nat × Nat) × Int)
  dram     : Memory
  scratch  : Memory
  cistern  : Memory
  host     : Memory
  peer     : Memory
  l1       : List L1Line
  slices   : List SliceLine
  dirs     : List DirEntry
  ways     : List L2Way
  reqs     : List Req
  txns     : List Txn
  probes   : List Probe
  answers  : List Answer
  fills    : List Fill
  uevicts  : List UEvict
  icache   : List CodeLine
  pends    : List Pend
  near     : List NearReq
  rets     : List Ret
  weir     : List WeirReq
  asys     : List AsyOp
  travs    : List TravCmd
  chans    : List Channel
  checks   : List (EngineWork × Nat)
  qnts     : List QntCmd
  recs     : List RecEntry
  rends    : List Rendezvous
  products : List Product
  spent    : List Product
  orphans  : List Orphan
  sluice   : List SluiceLine
  tiles    : List TileUnit
  mons     : List Mon
  sites    : List SiteStep
  tlb      : List TlbEntry
  deriving DecidableEq, Repr

/-- Memory with nothing written: every byte reads zero at generation 0 (R369). -/
def Memory.empty : Memory := { bytes := [], gens := [], pois := [] }

/-- A disarmed watch slot (R287). -/
def WatchSlot.reset : WatchSlot := { en := false, wr := false, rd := false, log2len := 0, addr := 0, cluster := 0 }

/-- A partition's register block after reset (R360, R361, R364, R367, R375, R383): FREE, WEIRWIN 32, every way of every mask, all else zero. -/
def Part.reset : Part :=
  { state := .free, result := .ok, busy := false, pending := none, badtable := false, gen := 0, parg := 0, place := 0, quota := 0, cisrange := 0,
    waymask := Vector.replicate 4 0xFFFFFF, walk := Vector.replicate 4 false, s2root := 0, s1root := 0, qtable := 0, qtabUsed := 0,
    fqbase := 0, fqEn := false, fqLog2 := 0, fqDrop := 0, fqwr := 0, fqrd := 0, mbox := 0, weirwin := 32, savebase := 0, savesize := 0,
    swap := false, dbkpt := false, stepCtr := 0, watches := Vector.replicate 4 WatchSlot.reset, saving := .none, haltTime := 0,
    queues := [], fixes := [], poisoned := 0, matbusy := 0, issued := 0, fixbytes := 0, fqHeld := [], saveAt := 0, measure := Vector.replicate 4 0, quote := none }

/-- The device's own registers after reset (R407, R408, R370): power-up has not begun, generations 1 to 63 are free. -/
def Dev.reset : Dev :=
  { err := 0, faildie := 0, stage := 0, ready := false, pwrlimit := 3200, stubs := [], freeGens := (List.range 63).map (· + 1), scrub := [],
    measure := Vector.replicate 8 0, quote := none, power := 0, overlimit := 0, corrected := 0, poisoned := 0,
    firstPois := Vector.replicate 4 0, repairs := 0, spares := [], matbusy := 0, issued := 0, fixbytes := 0, lanesDown := [], l2spare := [],
    dramCopy := [], dramSpared := [], laneSpared := [], opened := false, slew := 0, follows := none, stubQ := [], storage := [] }

/-- The device at reset: nothing resident, no memory written, power-up still to come (R408, log 2). -/
def State.reset : State :=
  { agenda := [], focus := 0, cur := none, freeCtr := 0, nextId := 0, cycle := 0, meridian := Vector.replicate 4 0,
    parts := Vector.replicate 40 Part.reset, dev := Dev.reset, turns := [], groups := [], saved := [], blocks := [], launches := [], credits := [], qcredits := [],
    dram := Memory.empty, scratch := Memory.empty, cistern := Memory.empty, host := Memory.empty, peer := Memory.empty,
    l1 := [], slices := [], dirs := [], ways := [], reqs := [], txns := [], probes := [], answers := [], fills := [], uevicts := [],
    icache := [], pends := [], near := [], rets := [], weir := [], asys := [], travs := [], chans := [], checks := [], qnts := [], recs := [], rends := [],
    products := [], spent := [], orphans := [], sluice := [], tiles := [], mons := [], sites := [], tlb := [] }

end Sys2Proof.Machine
end

