-- ==== Sys2Proof/Machine/Access.lean ====
section
/-! DEFINITION. Access to the parts of the state by number, and the one place where bytes of a storage are read and written with their generation (R368) and poison (R413). -/

namespace Sys2Proof

/-- Bytes covered by one generation (R368). -/
def genUnit : Nat := 128

/-- Bytes covered by one poison mark (R413). -/
def poisonUnit : Nat := 32

/-- The generation of the unit that holds byte a. -/
def Memory.genOf (m : Memory) (a : Nat) : Nat := mapGet 0 m.gens (a / genUnit)

/-- Byte a as stored, whatever its generation (a stage-2 walk, R378). -/
def Memory.rawByte (m : Memory) (a : Nat) : Byte := mapGet 0 m.bytes a

/-- Byte a as a reader of generation `gen` sees it: zero where the unit has another generation (R368). -/
def Memory.byte (m : Memory) (gen a : Nat) : Byte := if m.genOf a = gen then m.rawByte a else 0

/-- The unit that holds byte a is poisoned for a reader of generation `gen` (R368, R413). -/
def Memory.poisoned (m : Memory) (gen a : Nat) : Bool := decide (m.genOf a = gen) && mapGet false m.pois (a / poisonUnit)

/-- n bytes from a. -/
def Memory.read (m : Memory) (gen a n : Nat) : List Byte := (List.range n).map fun i => m.byte gen (a + i)

/-- Some of the n bytes from a is poisoned. -/
def Memory.anyPoison (m : Memory) (gen a n : Nat) : Bool := (List.range n).any fun i => m.poisoned gen (a + i)

/-- The 64-bit word at a as stored. -/
def Memory.rawDword (m : Memory) (a : Nat) : Dword := BitVec.ofNat 64 (ofLe ((List.range 8).map fun i => m.rawByte (a + i)))

/-- The generation of the unit of byte a becomes `gen`; a unit of another generation reads zero to its writer, so it is cleared first (R368). -/
def Memory.claim (m : Memory) (gen a : Nat) : Memory :=
  if m.genOf a = gen then m
  else
    let u := a / genUnit
    { bytes := mapClear m.bytes (u * genUnit) genUnit, gens := mapPut 0 m.gens u gen, pois := mapClear m.pois (u * 4) 4 }

/-- One byte written. -/
def Memory.putByte (m : Memory) (gen a : Nat) (b : Byte) : Memory :=
  let m := m.claim gen a
  { m with bytes := mapPut 0 m.bytes a b }

/-- Bytes written from a on, one after another. -/
def Memory.putBytes (m : Memory) (gen : Nat) : Nat → List Byte → Memory
  | _, [] => m
  | a, b :: bs => (m.putByte gen a b).putBytes gen (a + 1) bs

/-- The poison mark of the unit of byte a set or cleared. -/
def Memory.setPoison (m : Memory) (a : Nat) (p : Bool) : Memory := { m with pois := mapPut false m.pois (a / poisonUnit) p }

/-- The poison units the n bytes from a touch. -/
def poisonUnits (a n : Nat) : List Nat := if n = 0 then [] else (List.range ((a + n - 1) / poisonUnit - a / poisonUnit + 1)).map (· + a / poisonUnit)

/-- A write of bytes (R413): a unit covered whole loses its mark, a unit covered in part keeps it, and poisoned data marks every unit it touches. -/
def Memory.write (m : Memory) (gen a : Nat) (bs : List Byte) (pois : Bool) : Memory :=
  (poisonUnits a bs.length).foldl (fun m u =>
      if pois then m.setPoison (u * poisonUnit) true
      else if a ≤ u * poisonUnit ∧ (u + 1) * poisonUnit ≤ a + bs.length then m.setPoison (u * poisonUnit) false
      else m)
    (m.putBytes gen a bs)

/-- The canonical form of a storage: rising keys, no entry that an unlisted key would read as. -/
def Memory.wf (m : Memory) : Bool := mapWf 0 m.bytes && mapWf 0 m.gens && mapWf false m.pois

/-- The 128-byte line or row as stored, with its generation and marks. -/
def Memory.lineVal (m : Memory) (line : Nat) : LineVal :=
  { bytes := (List.range 128).map fun i => m.rawByte (line * 128 + i), gen := m.genOf (line * 128),
    pois := BitVec.ofNat 4 ((List.range 4).foldl (fun acc u => acc + if mapGet false m.pois (line * 4 + u) then 2 ^ u else 0) 0) }

/-- A whole line stored back. -/
def Memory.putLine (m : Memory) (line : Nat) (v : LineVal) : Memory :=
  (List.range 4).foldl (fun m u => m.setPoison (line * 128 + u * 32) (v.pois.getLsbD u)) (m.putBytes v.gen (line * 128) v.bytes)

/-- A line as a reader of generation `gen` sees byte `off` of it. -/
def LineVal.byte (v : LineVal) (gen off : Nat) : Byte := if v.gen = gen then v.bytes.getD off 0 else 0

/-- n bytes of a line from `off`. -/
def LineVal.read (v : LineVal) (gen off n : Nat) : List Byte := (List.range n).map fun i => v.byte gen (off + i)

/-- Some of the n bytes from `off` is in a poisoned unit. -/
def LineVal.anyPoison (v : LineVal) (gen off n : Nat) : Bool :=
  decide (v.gen = gen) && (List.range n).any fun i => v.pois.getLsbD ((off + i) / 32)

/-- A line whose bytes from `off` on have become undefined, `bs` in their place (R7): its poison marks stay. -/
def LineVal.soil (v : LineVal) (gen off : Nat) (bs : List Byte) : LineVal :=
  let v := if v.gen = gen then v else { bytes := List.replicate 128 0, gen := gen, pois := 0 }
  { v with bytes := spliceBytes v.bytes off bs }

/-- A line with bytes written from `off` on (R368, R413). -/
def LineVal.write (v : LineVal) (gen off : Nat) (bs : List Byte) (pois : Bool) : LineVal :=
  let v := v.soil gen off bs
  { v with
    pois := (List.range 4).foldl (fun p u =>
      if pois ∧ off < (u + 1) * 32 ∧ u * 32 < off + bs.length then p ||| (1#4 <<< u)
      else if off ≤ u * 32 ∧ (u + 1) * 32 ≤ off + bs.length then p &&& ~~~(1#4 <<< u)
      else p) v.pois }

end Sys2Proof

namespace Sys2Proof.Machine

/-- A resident group by its number in the model. -/
def State.group? (s : State) (gid : Nat) : Option Group := s.groups.find? (·.gid == gid)

/-- A group by its number, resident or of a block that is saved or swapped out. -/
def State.anyGroup? (s : State) (gid : Nat) : Option Group := (s.groups ++ s.saved).find? (·.gid == gid)

/-- A group changed in place, resident or saved. -/
def State.modGroup (s : State) (gid : Nat) (f : Group → Group) : State :=
  let at_ (g : Group) : Group := if g.gid = gid then f g else g
  { s with groups := s.groups.map at_, saved := s.saved.map at_ }

/-- A group stored back. -/
def State.setGroup (s : State) (g : Group) : State := s.modGroup g.gid fun _ => g

/-- A block by its number in the model. -/
def State.block? (s : State) (bid : Nat) : Option Block := s.blocks.find? (·.bid == bid)

/-- A block changed in place. -/
def State.modBlock (s : State) (bid : Nat) (f : Block → Block) : State :=
  { s with blocks := s.blocks.map fun b => if b.bid = bid then f b else b }

/-- A launch by its number in the model. -/
def State.launch? (s : State) (lid : Nat) : Option Launch := s.launches.find? (·.lid == lid)

/-- A launch changed in place. -/
def State.modLaunch (s : State) (lid : Nat) (f : Launch → Launch) : State :=
  { s with launches := s.launches.map fun l => if l.lid = lid then f l else l }

/-- Partition p's registers; a number that is no partition reads as reset. -/
def State.part (s : State) (p : Nat) : Part := vget s.parts p Part.reset

/-- A partition changed in place. -/
def State.modPart (s : State) (p : Nat) (f : Part → Part) : State := { s with parts := vset s.parts p (f (s.part p)) }

/-- A partition's current generation (R361, R368). -/
def State.genOf (s : State) (p : Nat) : Nat := (s.part p).gen

/-- A new number for a pending activity. -/
def State.fresh (s : State) : Nat × State := (s.nextId, { s with nextId := s.nextId + 1 })

/-- The next free value (log 3). -/
def State.free (s : State) : BitVec 64 × State := (Config.freeWord s.freeCtr, { s with freeCtr := s.freeCtr + 1 })

/-- n free words, and the counter past them (R7, log 3). -/
def State.freeWords (s : State) (n : Nat) : List Word × State :=
  ((List.range n).map fun i => (Config.freeWord (s.freeCtr + i)).truncate 32, { s with freeCtr := s.freeCtr + n })

/-- n free bytes (R7, log 3). -/
def State.freeBytes (s : State) (n : Nat) : List Byte × State :=
  ((List.range n).map fun i => (Config.freeWord (s.freeCtr + i)).truncate 8, { s with freeCtr := s.freeCtr + n })

/-- The die, the cluster within the package (0 to 63), and the core within its cluster, of a package-wide core number (R9). -/
def dieOf (core : Nat) : Nat := core / 4096
@[inherit_doc dieOf]
def clusterOf (core : Nat) : Nat := core / 256
@[inherit_doc dieOf]
def coreIn (core : Nat) : Nat := core % 256

/-- The die's meridian time (R2, R409). -/
def State.time (s : State) (die : Nat) : Dword := vget s.meridian die 0

/-- The meridian of the die on which the command processor's time is kept: the Binnacle's, taken as die 0's (R409). -/
def State.now (s : State) : Dword := s.time 0

/-- Bytes of first-tier memory between the bases of two dies, and its populated size (R372). -/
def tierStride : Nat := 0xC00000000
@[inherit_doc tierStride]
def tierSize : Nat := 0xC00000000

/-- Second-tier memory's range (R372). -/
def tier2Base : Nat := 0x4000000000
@[inherit_doc tier2Base]
def tier2End : Nat := 0x1C000000000

/-- The address is populated device-physical memory (R372). -/
def populated (pa : Nat) : Bool := decide (pa < 4 * tierStride) || (decide (tier2Base ≤ pa) && decide (pa < tier2End))

/-- Bits hi:lo of a number. -/
def natBits (n hi lo : Nat) : Nat := n / 2 ^ lo % 2 ^ (hi - lo + 1)

/-- Where peer memory stands in the model's one space of home addresses, above all device memory (R12, R374). -/
def peerBase : Nat := 2 ^ 60

/-- A line of peer memory (R12, R374). -/
def isPeer (line : Nat) : Bool := decide (peerBase ≤ line * 128)

/-- The home die of a line (R373); a peer's line has its home on the peer device, which is no die of this one (R374). -/
def homeDie (line : Nat) : Nat :=
  if isPeer line then 4
  else if line * 128 < 4 * tierStride then line * 128 / tierStride else Nat.xor (natBits line 7 6) (natBits line 15 14)

/-- The device's registers changed. -/
def State.modDev (s : State) (f : Dev → Dev) : State := { s with dev := f s.dev }

/-- A poisoned unit is counted, for the device and for the partition whose generation it carries (R426). -/
def State.countPoison (s : State) (gen : Nat) : State :=
  let s := s.modDev fun d => { d with poisoned := d.poisoned + 1 }
  match (List.range Config.partitions).find? fun p => gen != 0 && (s.part p).gen == gen with
  | some p => s.modPart p fun x => { x with poisoned := x.poisoned + 1 }
  | none => s

/-- The first poisoned address of a die is kept (R426). -/
def State.firstPoison (s : State) (pa : Nat) : State :=
  let d := homeDie (pa / 128)
  if vget s.dev.firstPois d 0 = 0 then s.modDev fun v => { v with firstPois := vset v.firstPois d pa } else s

/-- The home slice of a line (R373). -/
def homeSlice (line : Nat) : Nat := Nat.xor (natBits line 5 0) (natBits line 23 18)

/-- The set of a line in its slice (R373). -/
def homeSet (line : Nat) : Nat := natBits line 17 6

end Sys2Proof.Machine
end

