-- ==== Sys2Proof/Machine/Num.lean ====
section
/-! DEFINITION. Numbers to the bit (R119 to R136): decoding, exact sums and products, the one rounding, D2P8 weights, reductions. A finite value is a sign, a
natural number and a power of two, so that every helper of R136 is exact. -/

namespace Sys2Proof.Num

/-- A floating-point layout of R119: exponent bits and fraction bits. -/
structure Fp where
  eb : Nat
  fb : Nat
  deriving DecidableEq, Repr

/-- FP32, BF16 and FP16 (R119). -/
def fp32 : Fp := ⟨8, 23⟩
@[inherit_doc fp32]
def bf16 : Fp := ⟨8, 7⟩
@[inherit_doc fp32]
def fp16 : Fp := ⟨5, 10⟩

/-- The width of a format in bits. -/
def Fp.width (f : Fp) : Nat := 1 + f.eb + f.fb

/-- The exponent bias. -/
def Fp.bias (f : Fp) : Nat := 2 ^ (f.eb - 1) - 1

/-- The power of two of the lowest bit of a subnormal. -/
def Fp.emin (f : Fp) : Int := 1 - (f.bias : Int) - (f.fb : Int)

/-- The encoding of +∞. -/
def Fp.infBits (f : Fp) : Nat := (2 ^ f.eb - 1) * 2 ^ f.fb

/-- The encoding of the largest finite value. -/
def Fp.maxBits (f : Fp) : Nat := f.infBits - 1

/-- The canonical NaN (R130). -/
def Fp.nanBits (f : Fp) : Nat := f.infBits + 2 ^ (f.fb - 1)

/-- An encoding with its sign bit. -/
def Fp.signed (f : Fp) (neg : Bool) (bits : Nat) : Nat := if neg then 2 ^ (f.eb + f.fb) + bits else bits

/-- An exact extended real, NaN kept apart (R136): finite values are (-1)^neg × m × 2^e. -/
inductive Val | nan | inf (neg : Bool) | fin (neg : Bool) (m : Nat) (e : Int)
  deriving DecidableEq, Repr

/-- A signed zero. -/
def Val.zero (neg : Bool) : Val := .fin neg 0 0

/-- The number of bits of a natural number. -/
def bitLen (m : Nat) : Nat := if m = 0 then 0 else m.log2 + 1

/-- `fdec` of R136. -/
def fdec (f : Fp) (fz : Bool) (bits : Nat) : Val :=
  let neg := decide (bits / 2 ^ (f.eb + f.fb) % 2 = 1)
  let ex := bits / 2 ^ f.fb % 2 ^ f.eb
  let fr := bits % 2 ^ f.fb
  if ex = 2 ^ f.eb - 1 then (if fr = 0 then .inf neg else .nan)
  else if ex = 0 then (if fz then .zero neg else .fin neg fr f.emin)
  else .fin neg (2 ^ f.fb + fr) (f.emin + (ex : Int) - 1)

/-- Whether a magnitude between m and m + 1 (or m itself) at the last place is rounded up: `rem` of 2^sh is cut off, `sticky` says that more lies below. -/
def roundsUp (r : Rnd) (neg : Bool) (m rem half : Nat) (sticky : Bool) : Bool :=
  let exact := rem = 0 ∧ ¬sticky
  match r with
  | .rne => if rem = half ∧ ¬sticky ∧ half ≠ 0 then m % 2 == 1 else decide (half ≤ rem ∧ half ≠ 0)
  | .rz => false
  | .ru => !neg && !exact
  | .rd => neg && !exact

/-- A magnitude cut at the power of two `q`: the integer multiple of 2^q it rounds to. -/
def roundAt (r : Rnd) (neg : Bool) (m : Nat) (e q : Int) (sticky : Bool) : Nat :=
  if q ≤ e then
    let k := m <<< (e - q).toNat
    if roundsUp r neg k 0 0 sticky then k + 1 else k
  else
    let sh := (q - e).toNat
    let k := m >>> sh
    if roundsUp r neg k (m % 2 ^ sh) (2 ^ (sh - 1)) sticky then k + 1 else k

/-- The one rounding into a format (R128, R136 `fround`) of (-1)^neg × m × 2^e, or, when `sticky`, of a value strictly between that magnitude and the next multiple
of 2^e; a caller that passes `sticky` gives m more bits than the format holds. -/
def encodeRounded (f : Fp) (r : Rnd) (fz sat : Bool) (neg : Bool) (m : Nat) (e : Int) (sticky : Bool) : Nat :=
  if m = 0 ∧ ¬sticky then f.signed neg 0
  else
    let q := max (e + (bitLen m : Int) - ((f.fb : Int) + 1)) f.emin
    let bits := (q - f.emin).toNat * 2 ^ f.fb + roundAt r neg m e q sticky
    if f.infBits ≤ bits then
      let toInf : Bool := match r with
        | .rne => true
        | .rz => false
        | .ru => !neg
        | .rd => neg
      f.signed neg (if toInf && !sat then f.infBits else f.maxBits)
    else if fz ∧ bits < 2 ^ f.fb then f.signed neg 0
    else f.signed neg bits

/-- `fround` of R136. -/
def fround (f : Fp) (r : Rnd) (fz sat : Bool) (x : Val) : Nat :=
  match x with
  | .nan => f.nanBits
  | .inf neg => f.signed neg (if sat then f.maxBits else f.infBits)
  | .fin neg m e => encodeRounded f r fz sat neg m e false

/-- Sign change of a value. -/
def Val.neg : Val → Val
  | .nan => .nan
  | .inf s => .inf (!s)
  | .fin s m e => .fin (!s) m e

/-- `fprod` of R136. -/
def fprod (a b : Val) : Val :=
  match a, b with
  | .nan, _ => .nan
  | _, .nan => .nan
  | .inf s, .inf t => .inf (s != t)
  | .inf s, .fin t m _ => if m = 0 then .nan else .inf (s != t)
  | .fin s m _, .inf t => if m = 0 then .nan else .inf (s != t)
  | .fin s m e, .fin t n g => .fin (s != t) (m * n) (e + g)

/-- The integer (-1)^neg × m × 2^(e - base), for base at most e. -/
def scaledInt (neg : Bool) (m : Nat) (e base : Int) : Int :=
  let k : Int := (m <<< (e - base).toNat : Nat)
  if neg then -k else k

/-- The least exponent among the nonzero finite addends. -/
def leastExp (xs : List Val) : Int :=
  xs.foldl (fun b x => match x with | .fin _ m e => if m = 0 then b else min b e | _ => b) 4096

/-- `fsum` of R136: the exact sum, rounded once. -/
def fsum (f : Fp) (r : Rnd) (fz : Bool) (xs : List Val) : Nat :=
  if xs.any (fun x => x == .nan) then f.nanBits
  else if xs.any (fun x => x == .inf false) && xs.any (fun x => x == .inf true) then f.nanBits
  else if xs.any (fun x => x == .inf false) then f.signed false f.infBits
  else if xs.any (fun x => x == .inf true) then f.signed true f.infBits
  else
    let base := leastExp xs
    let s : Int := xs.foldl (fun acc x => match x with | .fin n m e => if m = 0 then acc else acc + scaledInt n m e base | _ => acc) 0
    if s = 0 then
      let allNegZero := xs.all fun x => match x with | .fin n m _ => n && m == 0 | _ => false
      f.signed (allNegZero || r == .rd) 0
    else encodeRounded f r fz false (decide (s < 0)) s.natAbs base false

/-- A finite value rounded to an integer in a direction, ties to even under rne. -/
def roundInt (r : Rnd) (neg : Bool) (m : Nat) (e : Int) : Int :=
  let k : Int := (roundAt r neg m e 0 false : Nat)
  if neg then -k else k

/-- `fcvti` of R136, as an n-bit word; an infinity clamps like any value out of range. -/
def fcvti (n : Nat) (signed : Bool) (r : Rnd) (x : Val) : BitVec n :=
  let sat (k : Int) : BitVec n := if signed then satsTo n k else satuTo n k
  match x with
  | .nan => 0
  | .inf neg => sat (if neg then -(2 ^ n) else 2 ^ n)
  | .fin neg m e => sat (roundInt r neg m (min e 512))

/-- `integral` of R205. -/
def integral (r : Rnd) (x : Val) : Val :=
  match x with
  | .fin neg m e => if m = 0 ∨ 0 ≤ e then x else .fin neg (roundAt r neg m e 0 false) 0
  | y => y

/-- A value from an integer (the sources of `cvt` from I32 and I8X4, R205). -/
def ofInt (i : Int) : Val := .fin (decide (i < 0)) i.natAbs 0

/-- One 4-bit term of a D2P8 weight in 64ths (R121). -/
def d2p8Term (neg : Bool) (code : Nat) : Int :=
  if code = 7 then 0 else if neg then -(2 ^ (6 - code)) else 2 ^ (6 - code)

/-- `d2p8val` of R136, in 64ths. -/
def d2p8Val64 (b : Byte) : Int := d2p8Term (bitAt b 7) (fieldN b 6 4) + d2p8Term (bitAt b 3) (fieldN b 2 0)

/-- The exponent of `scaleval` (R123, R136); none for the reserved byte, for which its reader traps. -/
def scaleExp (b : Byte) : Option Int := if b = 0xFF then none else some ((b.toNat : Int) - 127)

/-- `d2p8val` × `scaleval` (R123, R136); under the reserved scale byte, which only a helper lane gets past its check, zero (R20). -/
def d2p8Scaled (w scale : Byte) : Val :=
  match scaleExp scale with
  | some e => let v := d2p8Val64 w; .fin (decide (v < 0)) v.natAbs (e - 6)
  | none => .fin false 0 0

/-- A D2P8 byte from its four fields (R121). -/
def d2p8Byte (hs : Bool) (he : Nat) (ls : Bool) (le : Nat) : Byte :=
  BitVec.ofNat 8 ((if hs then 128 else 0) + 16 * he + (if ls then 8 else 0) + le)

/-- The canonical encoding of ± n/64 (R122), for n in V. -/
def d2p8Canonical (neg : Bool) (n : Nat) : Byte :=
  if n = 0 then 0x77
  else if n = 128 then d2p8Byte neg 0 neg 0
  else
    let hi := n.log2
    let rest := n - 2 ^ hi
    if rest = 0 then d2p8Byte neg (6 - hi) false 7
    else if rest = 2 ^ rest.log2 then d2p8Byte neg (6 - hi) neg (6 - rest.log2)
    else d2p8Byte neg (5 - hi) (!neg) (6 - (2 ^ (hi + 1) - n).log2)

/-- The magnitudes of V in 64ths, increasing (R121). -/
def d2p8Magnitudes : List Nat :=
  (List.range 129).filter fun n => (List.range 256).any fun b => d2p8Val64 (BitVec.ofNat 8 b) == (n : Int)

/-- `d2p8q` of R136 (R124): ties go to the smaller magnitude. -/
def d2p8q (x : Val) (scale : Byte) : Byte :=
  match x with
  | .nan => 0x77
  | .inf neg => d2p8Canonical neg 128
  | .fin neg m e =>
    let e' := e - ((scale.toNat : Int) - 127) + 6
    if m = 0 ∨ e' + (bitLen m : Int) ≤ -2 then 0x77
    else if 9 < e' + (bitLen m : Int) then d2p8Canonical neg 128
    else
      let base := min e' 0
      let a := m <<< (e' - base).toNat
      let one := 2 ^ (-base).toNat
      let a := min a (128 * one)
      let best := d2p8Magnitudes.foldl (fun (acc : Nat × Nat) n =>
        let dist := if a ≤ n * one then n * one - a else a - n * one
        if dist < acc.1 then (dist, n) else acc) (a, 0)
      if best.2 = 0 then 0x77 else d2p8Canonical neg best.2

/-- `d2p8scale` of R136. -/
def d2p8scale (xs : List Val) : Byte :=
  let ks : List Int := xs.filterMap fun x => match x with
    | .fin _ m e => if m = 0 then none else some (e + (if m = 2 ^ m.log2 then (m.log2 : Int) else (m.log2 : Int) + 1))
    | _ => none
  match ks with
  | [] => 127
  | k :: rest => BitVec.ofNat 8 (min (max (rest.foldl max k + 126) 0) 254).toNat

/-- `ikstep` of R136. -/
def ikstep (acc : Word) (prods : List Int) : Word := wrapTo 32 (prods.foldl (· + ·) (sgn acc))

/-- `kstep` of R136: the pairwise tree of R132 is exact, so the sum is. -/
def kstep (acc : Word) (prods : List Val) (r : Rnd) (fz : Bool) : Word :=
  BitVec.ofNat 32 (fsum fp32 r fz (fdec fp32 fz acc.toNat :: prods))

/-- The layout of a floating format's elements. -/
def fpOf : FFmt → Fp
  | .f32 => fp32
  | .bf16x2 => bf16
  | .f16x2 => fp16

/-- Elements per 32-bit word of a floating format (R125). -/
def elems : FFmt → Nat
  | .f32 => 1
  | _ => 2

/-- The tag of a floating format. -/
def ftag : FFmt → Tag
  | .f32 => .f32
  | .bf16x2 => .bf16x2
  | .f16x2 => .f16x2

/-- Element j of a word whose elements are `w` bits wide (R125). -/
def elemOf (x : Word) (w j : Nat) : Nat := x.toNat / 2 ^ (w * j) % 2 ^ w

/-- A word from its elements, the lowest first. -/
def ofElems (w : Nat) (es : List Nat) : Word :=
  BitVec.ofNat 32 (es.foldr (fun e acc => e % 2 ^ w + 2 ^ w * acc) 0)

/-- The total order of min and max on finite and infinite values, −0 below +0 (R136). -/
def lessThan (a b : Val) : Bool :=
  match a, b with
  | .nan, _ => false
  | _, .nan => false
  | .inf s, .inf t => s && !t
  | .inf s, .fin .. => s
  | .fin .., .inf t => !t
  | .fin s m e, .fin t n g =>
    if m = 0 ∧ n = 0 then s && !t
    else
      let base := min (if m = 0 then g else e) (if n = 0 then e else g)
      let x := if m = 0 then 0 else scaledInt s m e base
      let y := if n = 0 then 0 else scaledInt t n g base
      decide (x < y)

/-- The lesser or greater of two encodings, with NaN handling and the zero a flushed subnormal becomes (R136 `combine`, R198). -/
def fpick (f : Fp) (fz wantMax : Bool) (u w : Nat) : Nat :=
  let a := fdec f fz u
  let b := fdec f fz w
  let out (v : Val) (bits : Nat) : Nat := match v with
    | .nan => f.nanBits
    | .fin n m _ => if m = 0 then f.signed n 0 else bits
    | .inf _ => bits
  match a, b with
  | .nan, .nan => f.nanBits
  | .nan, _ => out b w
  | _, .nan => out a u
  | _, _ => if (if wantMax then lessThan a b else lessThan b a) then out b w else out a u

/-- Value comparison of two floats under a condition of R170. -/
def fcompare (c : Cond) (a b : Val) : Bool :=
  let unordered := a == .nan || b == .nan
  let zero (v : Val) : Bool := match v with | .fin _ m _ => m == 0 | _ => false
  let lt := lessThan a b && !(zero a && zero b)
  let gt := lessThan b a && !(zero a && zero b)
  match c with
  | .eq => !unordered && !lt && !gt
  | .ne => unordered || lt || gt
  | .lt => !unordered && lt
  | .le => !unordered && !gt
  | .gt => !unordered && gt
  | .ge => !unordered && !lt
  | .num => !unordered
  | .nan => unordered

/-- Integer comparison under a condition of R170; `.num` and `.nan` do not occur with it. -/
def icompare (c : Cond) (a b : Int) : Bool :=
  match c with
  | .eq => a == b
  | .ne => a != b
  | .lt => decide (a < b)
  | .le => decide (a ≤ b)
  | .gt => decide (b < a)
  | .ge => decide (b ≤ a)
  | .num => true
  | .nan => false

/-- The integer reductions of R136 on n-bit words. -/
def icombine {n : Nat} (op : RedOp) (u w : BitVec n) : BitVec n :=
  match op with
  | .add => u + w
  | .min => if u.toInt ≤ w.toInt then u else w
  | .max => if u.toInt ≤ w.toInt then w else u
  | .minu => if u.toNat ≤ w.toNat then u else w
  | .maxu => if u.toNat ≤ w.toNat then w else u
  | .and => u &&& w
  | .or => u ||| w
  | .xor => u ^^^ w

/-- One element of a floating reduction (R134, R136): nearest even, subnormals kept. -/
def fcombine (f : Fp) (op : RedOp) (u w : Nat) : Nat :=
  match op with
  | .add => fsum f .rne false [fdec f false u, fdec f false w]
  | .min => fpick f false false u w
  | _ => fpick f false true u w

/-- The floating format of a reduction. -/
def RedFmt.fp : RedFmt → Option FFmt
  | .f32 => some .f32
  | .bf16x2 => some .bf16x2
  | .f16x2 => some .f16x2
  | _ => none

/-- `combine` of R136 on a 32-bit word. -/
def combine (op : RedOp) (fmt : RedFmt) (u w : Word) : Word :=
  match RedFmt.fp fmt with
  | none => icombine op u w
  | some g =>
    let f := fpOf g
    ofElems f.width ((List.range (elems g)).map fun j => fcombine f op (elemOf u f.width j) (elemOf w f.width j))

/-- `ident` of R134. -/
def ident (op : RedOp) (fmt : RedFmt) : Word :=
  let pack (f : Fp) (n : Nat) (b : Nat) : Word := ofElems f.width (List.replicate n b)
  match RedFmt.fp fmt with
  | none => match op with
    | .add => 0
    | .min => 0x7FFFFFFF
    | .minu => 0xFFFFFFFF
    | .max => 0x80000000
    | .maxu => 0
    | .and => 0xFFFFFFFF
    | .or => 0
    | .xor => 0
  | some g =>
    let f := fpOf g
    match op with
    | .add => pack f (elems g) (f.signed true 0)
    | .min => pack f (elems g) f.infBits
    | _ => pack f (elems g) (f.signed true f.infBits)

/-- `qtree` of R136. -/
def qtree (op : RedOp) (fmt : RedFmt) (a b c d : Word) : Word :=
  combine op fmt (combine op fmt a b) (combine op fmt c d)

/-- The multiply-add of a cistern bank (R135, R235). -/
def bankFma (fmt : RedFmt) (u b c : Word) : Word :=
  match RedFmt.fp fmt with
  | none => u + b * c
  | some g =>
    let f := fpOf g
    ofElems f.width ((List.range (elems g)).map fun j =>
      fsum f .rne false [fdec f false (elemOf u f.width j),
        fprod (fdec f false (elemOf b f.width j)) (fdec f false (elemOf c f.width j))])

end Sys2Proof.Num
end

