-- ==== Sys2Proof/Machine/Coher.lean ====
section
/-! DEFINITION. Coherence of global lines (R73 to R81, R90, R92, R93): the L1 caches, the requester-side slices, the home, and the messages between them. The home's
value of a line is the line as stored in its tier; an L2 data way is a copy that nothing can tell apart from it, so its tags alone are kept (log 12). -/

namespace Sys2Proof.Machine

/-- An L1 may read in this state (R75). -/
def readable : CState → Bool
  | .m => true
  | .o => true
  | .e => true
  | .s => true
  | .i => false
  | .u _ _ => false

/-- The copy is dirty (R75). -/
def dirtySt : CState → Bool
  | .m => true
  | .o => true
  | _ => false

/-- The copy is the one its directory would probe for data (R76). -/
def owning : CState → Bool
  | .m => true
  | .o => true
  | .e => true
  | _ => false

/-- The copy is update-only. -/
def isU : CState → Bool
  | .u _ _ => true
  | _ => false

/-- The line as a core's L1 holds it. -/
def State.l1Line? (s : State) (core line : Nat) : Option L1Line := s.l1.find? fun l => l.core == core && l.line == line

/-- The L1 without that line. -/
def State.dropL1 (s : State) (core line : Nat) : State := { s with l1 := s.l1.filter fun l => !(l.core == core && l.line == line) }

/-- The line installed or updated as the most recently used of its L1 (R93: the list is in order of use). -/
def State.putL1 (s : State) (l : L1Line) : State :=
  { s with l1 := (s.l1.filter fun x => !(x.core == l.core && x.line == l.line)) ++ [l] }

/-- The line as a requester-side slice holds it (R77). -/
def State.sliceLine? (s : State) (die line : Nat) : Option SliceLine := s.slices.find? fun l => l.die == die && l.line == line

/-- The slice without that line, and its way free. -/
def State.dropSlice (s : State) (die line : Nat) : State :=
  { s with slices := s.slices.filter (fun l => !(l.die == die && l.line == line)), ways := s.ways.filter fun w => !(w.die == die && w.line == line) }

/-- The line installed in a requester-side slice. -/
def State.putSlice (s : State) (l : SliceLine) : State :=
  { s with slices := (s.slices.filter fun x => !(x.die == l.die && x.line == l.line)) ++ [l] }

/-- The directory a core's L1 asks for a line (R77). -/
def nodeFor (core line : Nat) : Node := if dieOf core = homeDie line then .home else .slice (dieOf core)

/-- The storage that holds a home address: device memory, or a peer's (R12, R374). -/
def State.homeMem (s : State) (pa : Nat) : Memory := if pa < peerBase then s.dram else s.peer

/-- The key of a home address in its storage. -/
def homeKey (pa : Nat) : Nat := if pa < peerBase then pa else pa - peerBase

/-- The generation an access carries at a home address: a peer's memory has none (R368). -/
def homeGen (gen pa : Nat) : Nat := if pa < peerBase then gen else 0

/-- The storage of a home address replaced. -/
def State.setHomeMem (s : State) (pa : Nat) (m : Memory) : State := if pa < peerBase then { s with dram := m } else { s with peer := m }

/-- The lines that n bytes from an address touch. -/
def linesOf (pa n : Nat) : List Nat := if n = 0 then [] else (List.range ((pa + n - 1) / 128 - pa / 128 + 1)).map (· + pa / 128)

/-- The parts of a write by line. -/
def lineParts (pa : Nat) (bs : List Byte) : List (Nat × List Byte) :=
  (linesOf pa bs.length).map fun l =>
    let a := max pa (l * 128)
    (a, (bs.drop (a - pa)).take (min (pa + bs.length) (l * 128 + 128) - a))

/-- The forwarding stub of a line (R422). -/
def State.stubOf (s : State) (line : Nat) : Option Stub := s.dev.stubs.find? fun t => t.line == line

/-- The address in a peer's memory that a stub's destination line has (R379, R422). -/
def stubTarget (t : Stub) (off : Nat) : Nat := t.node.toNat * 2 ^ 41 + t.target * 128 + off

/-- Where the bytes of a home address stand: in the destination's line when theirs is stubbed (R422). -/
def State.homeAt (s : State) (pa : Nat) : Nat := match s.stubOf (pa / 128) with | some t => peerBase + stubTarget t (pa % 128) | none => pa

/-- The home's value of a line; that of a stubbed line is its destination's, under the line's own generation (R422). -/
def State.homeVal (s : State) (line : Nat) : LineVal :=
  let a := s.homeAt (line * 128)
  let v := (s.homeMem a).lineVal (homeKey a / 128)
  if a = line * 128 then v else { v with gen := s.dram.genOf (line * 128) }

/-- A line of an instruction cache goes when its line is written (R282). -/
def State.dropCode (s : State) (line : Nat) : State := { s with icache := s.icache.filter fun l => !(l.line == line) }

/-- The bytes a monitor entry compares, as a number, with the generation of its partition (R89). -/
def State.monWord (s : State) (m : Mon) : Dword :=
  let n := match m.test with | .cmp _ w64 _ _ => if w64 then 8 else 4 | _ => 8
  let mem := match m.space with | .global => s.dram | .scratch => s.scratch | .cistern => s.cistern
  BitVec.ofNat 64 (ofLe (mem.read m.gen m.addr n))

/-- "memory COND operand" at a width and signedness (R241, R243). -/
def compareWord (c : Cond) (w64 uns : Bool) (v operand : Dword) : Bool :=
  if w64 then Num.icompare c (if uns then (v.toNat : Int) else v.toInt) (if uns then (operand.toNat : Int) else operand.toInt)
  else
    let a := v.truncate 32
    let b := operand.truncate 32
    Num.icompare c (if uns then (a.toNat : Int) else a.toInt) (if uns then (b.toNat : Int) else b.toInt)

/-- The test of a monitor entry on a value (R89, R240, R267). -/
def testHolds (t : MonTest) (v : Dword) : Bool :=
  match t with
  | .cmp c w64 uns operand => compareWord c w64 uns v operand
  | .phaseNot ph => bitAt v 63 != ph
  | .ownSet => bitAt v 0
  | .changed old => v != old

/-- Every entry on the line or row is re-evaluated after a write to it (R90). -/
def State.evalMons (s : State) (space : Space) (line : Nat) : State :=
  { s with mons := s.mons.map fun m =>
      if m.hit.isNone && m.space == space && m.addr / 128 == line then
        { m with written := true, hit := if testHolds m.test (s.monWord m) then some (s.monWord m) else none }
      else m }

/-- A monitor entry stands on the global line (R90): one whose compare has come to hold is free. -/
def State.monitored (s : State) (line : Nat) : Bool := s.mons.any fun m => m.hit.isNone && m.space == .global && m.addr / 128 == line

/-- The home grants no write copy of a line: one with a monitor entry on it (R90), or with a forwarding stub, whose writes come home (R422). -/
def State.keepsLine (s : State) (line : Nat) : Bool := s.monitored line || (s.stubOf line).isSome

/-- A line written at its home, or at its stub's destination (R422). -/
def State.putHome (s : State) (line : Nat) (v : LineVal) : State :=
  let a := s.homeAt (line * 128)
  let v := if a = line * 128 then v else { v with gen := 0 }
  ((s.setHomeMem a ((s.homeMem a).putLine (homeKey a / 128) v)).dropCode line).evalMons .global line

/-- Bytes of one home put in its storage: a write, or a range that has become undefined (R7). Those of a stubbed line go to its destination (R422). -/
def State.homeBytes (s : State) (pa : Nat) (bs : List Byte) (f : Memory → Nat → Nat → List Byte → Memory) (gen : Nat) : State :=
  if (linesOf pa bs.length).all fun l => (s.stubOf l).isNone then s.setHomeMem pa (f (s.homeMem pa) (homeGen gen pa) (homeKey pa) bs)
  else (lineParts pa bs).foldl (fun s x =>
    let a := s.homeAt x.1
    s.setHomeMem a (f (s.homeMem a) (homeGen gen a) (homeKey a) x.2)) s

/-- Bytes written at the home (R90). -/
def State.writeHome (s : State) (gen pa : Nat) (bs : List Byte) (pois : Bool) : State :=
  let s := s.homeBytes pa bs (fun m gen a bs => m.write gen a bs pois) gen
  (List.range ((pa + bs.length - 1) / 128 - pa / 128 + 1)).foldl (fun s i => (s.dropCode (pa / 128 + i)).evalMons .global (pa / 128 + i)) s

/-- The value of a line at a directory. -/
def State.nodeVal (s : State) (n : Node) (line : Nat) : LineVal :=
  match n with
  | .home => s.homeVal line
  | .slice d => match s.sliceLine? d line with | some l => l.val | none => s.homeVal line

/-- Data written back to a directory: to the home, or to the slice, whose copy is then dirty (R77). -/
def State.putNode (s : State) (n : Node) (line : Nat) (v : LineVal) : State :=
  match n with
  | .home => s.putHome line v
  | .slice d => match s.sliceLine? d line with
    | some l => s.putSlice { l with val := v, st := .m }
    | none => s.putHome line v

/-- A message is sent by an agent, or reaches it, at this place (R73, R77). -/
def agentEnd (a : Agent) (line : Nat) : EndPoint :=
  match a with
  | .l1 c => .core c
  | .slice d => .slice d (homeSlice line)
  | .rest c => .cluster c
  | .binnacle => .binnacle

/-- The slice in which a directory stands (R76, R77). -/
def nodeEnd (n : Node) (line : Nat) : EndPoint :=
  match n with
  | .home => .slice (homeDie line) (homeSlice line)
  | .slice d => .slice d (homeSlice line)

end Sys2Proof.Machine

namespace Sys2Proof

/-- The place a site step acts on next, and where it has come from: the code word, from its core, or the sidecar byte, from the code line's home (R307, R310). -/
def SiteStep.place (x : SiteStep) : Nat := if x.rewritten then x.side else x.pa
@[inherit_doc SiteStep.place]
def SiteStep.placeAttr (x : SiteStep) : Nat := if x.rewritten then x.sideAttr else x.attr
@[inherit_doc SiteStep.place]
def SiteStep.source (x : SiteStep) : EndPoint := if x.rewritten then Machine.nodeEnd .home (x.pa / 128) else .core x.core

end Sys2Proof

namespace Sys2Proof.Machine

/-- The sharer bit of an agent at a directory (R76): a cluster of its die, another die, the Binnacle. -/
def sharerBit (n : Node) (line : Nat) (a : Agent) : Nat :=
  match a with
  | .l1 c => clusterOf c % 16
  | .rest c => c % 16
  | .slice d => match n with | .home => 16 + (if d < homeDie line then d else d - 1) | .slice _ => 19
  | .binnacle => 19

/-- The directory entry of a line (R76). -/
def State.dirEntry? (s : State) (n : Node) (line : Nat) : Option DirEntry := s.dirs.find? fun d => d.node == n && d.line == line

/-- A directory entry stored; one that names nobody goes away. A peer's directory is the peer's own (R374). -/
def State.putDir (s : State) (d : DirEntry) : State :=
  let rest := s.dirs.filter fun x => !(x.node == d.node && x.line == d.line)
  { s with dirs := if (d.owner.isNone && d.sharers == 0) || (d.node == .home && isPeer d.line) then rest else rest ++ [d] }

/-- The directory entry after a grant (R76): the sole copy's owner, or one sharer more. -/
def State.noteGrant (s : State) (n : Node) (line : Nat) (a : Agent) (st : CState) : State :=
  if owning st then s.putDir { node := n, line := line, st := some st, owner := some a, sharers := 0 }
  else
    let bit : BitVec 20 := 1#20 <<< sharerBit n line a
    match s.dirEntry? n line with
    | some d => s.putDir { d with st := if d.owner.isSome then d.st else some st, sharers := d.sharers ||| bit }
    | none => s.putDir { node := n, line := line, st := some st, owner := none, sharers := bit }

/-- The directory entry after an agent has answered that it keeps no copy, or an owner has evicted it (R76). -/
def State.noteGone (s : State) (n : Node) (line : Nat) (a : Agent) : State :=
  match s.dirEntry? n line with
  | none => s
  | some d =>
    let d := if d.owner = some a then { d with owner := none, st := some .s } else d
    match a with
    | .l1 _ => s.putDir d
    | _ => s.putDir { d with sharers := d.sharers &&& ~~~(1#20 <<< sharerBit n line a) }

/-- The directory entry after an owner has kept its copy without being its sole holder (R76): still the owner when it is dirty, a sharer when it is clean. -/
def State.noteShared (s : State) (n : Node) (line : Nat) (a : Agent) (dirty : Bool) : State :=
  match s.dirEntry? n line with
  | none => s
  | some d =>
    if d.owner ≠ some a then s
    else if dirty then s.putDir { d with st := some .o }
    else s.putDir { d with owner := none, st := some .s, sharers := d.sharers ||| (1#20 <<< sharerBit n line a) }

/-- The directory entry of a line that its node has brought to itself goes away. -/
def State.noteHome (s : State) (n : Node) (line : Nat) : State := { s with dirs := s.dirs.filter fun d => !(d.node == n && d.line == line) }

/-- An answer, or the notice of an owner's eviction, sent to a directory. -/
def State.sendAnswer (s : State) (n : Node) (src : Agent) (line : Nat) (v : Option LineVal) (kept wb : Bool) : State :=
  let (id, s) := s.fresh
  { s with answers := s.answers ++ [{ id := id, line := line, node := n, src := src, val := v, kept := kept, wb := wb }] }

/-- A requester-side slice holds the data of a line, not its directory entry alone (R377). -/
def State.hasWay (s : State) (d line : Nat) : Bool := s.ways.any fun w => w.die == d && w.line == line

/-- Some L1 of a die holds a line. -/
def State.below (s : State) (d line : Nat) : Bool := s.l1.any fun l => l.line == line && dieOf l.core == d

/-- An owner's eviction reaches its directory (R74, R77). A slice without a way for the line passes the data on to the home and keeps none (R377). -/
def State.takeWb (s : State) (a : Answer) : State :=
  let s := if a.kept then s.noteShared a.node a.line a.src false else s.noteGone a.node a.line a.src
  match a.node, a.val with
  | _, none => s
  | .home, some v => s.putHome a.line v
  | .slice d, some v => match s.sliceLine? d a.line with
    | some l =>
      if s.hasWay d a.line then s.putSlice { l with val := v, st := .m }
      else
        let kept := s.below d a.line
        (if kept then s.putSlice { l with val := v, st := .s } else s.dropSlice d a.line).sendAnswer .home (.slice d) a.line (some v) kept true
    | none => s.putHome a.line v

/-- Evictions of a line under way to the directories that a choice names reach them: a probe is answered from the writeback buffer (R74). -/
def State.absorbAt (s : State) (line : Nat) (at_ : Node → Bool) : State :=
  (s.answers.filter fun a => a.wb && a.line == line && at_ a.node).foldl (fun s a => s.takeWb a)
    { s with answers := s.answers.filter fun a => !(a.wb && a.line == line && at_ a.node) }

/-- Evictions of a line under way reach their directories, those to requester-side slices first. -/
def State.absorb (s : State) (line : Nat) : State := (s.absorbAt line (· != .home)).absorbAt line (· == .home)

/-- The 32-bit words of a line. -/
def lineWords (bs : List Byte) : List Word := (List.range 32).map fun i => BitVec.ofNat 32 (leAt bs (4 * i) 4)

/-- The bytes of 32 words. -/
def wordsBytes (ws : List Word) : List Byte := (ws.map fun w => leBytes 4 w.toNat).flatten

/-- Partials combined into a line (R80, R134), with the poisoned units of the line left as they are, and those of the partials poisoned in it (R413). -/
def combineLine (op : RedOp) (fmt : RedFmt) (v p : LineVal) : LineVal :=
  let base : LineVal := if v.gen = p.gen then v else { bytes := List.replicate 128 0, gen := p.gen, pois := 0 }
  let pois := base.pois ||| p.pois
  let ws := ((lineWords base.bytes).zip (lineWords p.bytes)).zipIdx.map fun x =>
    if pois.getLsbD (x.2 / 8) then x.1.1 else Num.combine op fmt x.1.1 x.1.2
  { base with bytes := wordsBytes ws, pois := pois }

/-- A fresh U line: identity in every element (R79). -/
def identityLine (op : RedOp) (fmt : RedFmt) (gen : Nat) : LineVal :=
  { bytes := wordsBytes (List.replicate 32 (Num.ident op fmt)), gen := gen, pois := 0 }

/-- The partials of a line by core, evicted ones under way included (R80). Where one core has an evicted partial under way and a newer copy of the same line, the newer one stands
first; the spec gives the two no order (log 63). -/
def State.partials (s : State) (line : Nat) : List (Nat × RedOp × RedFmt × LineVal) :=
  (s.l1.filterMap fun l => if l.line = line then (match l.st with | .u op f => some (l.core, op, f, l.val) | _ => none) else none) ++
    (s.uevicts.filterMap fun u => if u.line = line then some (u.core, u.op, u.fmt, u.val) else none)

/-- Partials in increasing core number. -/
def byCore (ps : List (Nat × RedOp × RedFmt × LineVal)) : List (Nat × RedOp × RedFmt × LineVal) :=
  sortBy (fun a b => decide (a.1 ≤ b.1)) ps

/-- The home recalls and combines every update-only copy of a line, in the order of R80. -/
def State.recallU (s : State) (line : Nat) : State :=
  let ps := byCore (s.partials line)
  match ps with
  | [] => s
  | (_, op, fmt, p) :: _ =>
    let s := s.absorb line
    let home := homeDie line
    let near := ps.filter fun x => dieOf x.1 == home
    let v := near.foldl (fun v x => combineLine op fmt v x.2.2.2) (s.homeVal line)
    let far := (List.range 4).filter fun d => d != home && ps.any fun x => dieOf x.1 == d
    let v := far.foldl (fun v d =>
      let w := (ps.filter fun x => dieOf x.1 == d).foldl (fun w x => combineLine op fmt w x.2.2.2) (identityLine op fmt p.gen)
      combineLine op fmt v w) v
    let s := { s with
      l1 := s.l1.filter fun l => !(l.line == line && isU l.st),
      slices := s.slices.filter fun l => !(l.line == line && isU l.st),
      ways := s.ways.filter fun w => !(w.line == line && s.slices.any fun l => l.line == line && l.die == w.die && isU l.st),
      dirs := s.dirs.filter fun d => !(d.line == line && match d.st with | some st => isU st | none => false),
      uevicts := s.uevicts.filter fun u => !(u.line == line) }
    s.putHome line v

/-- The newest value of a line: a dirty L1's, else a dirty slice's, else the home's. -/
def State.newest (s : State) (line : Nat) : LineVal :=
  match s.l1.find? (fun l => l.line == line && dirtySt l.st) with
  | some l => l.val
  | none => match s.slices.find? (fun l => l.line == line && dirtySt l.st) with
    | some l => l.val
    | none => s.homeVal line

/-- No transaction, fill or probe answer of the line is under way, so that an agent acting at the home finds every copy in a cache (log 13). -/
def State.quiet (s : State) (line : Nat) : Bool :=
  !(s.txns.any fun t => t.req.line == line) && !(s.fills.any fun f => f.line == line) && !(s.answers.any fun a => a.line == line && !a.wb)

/-- The home brings a line to itself: U copies combined, the owner's data taken, every copy gone (R81). -/
def State.recallAll (s : State) (line : Nat) : State :=
  let s := (s.absorb line).recallU line
  let v := s.newest line
  let stale := (s.l1.any fun l => l.line == line && dirtySt l.st) || (s.slices.any fun l => l.line == line && dirtySt l.st)
  let s := { s with
    l1 := s.l1.filter fun l => !(l.line == line), slices := s.slices.filter fun l => !(l.line == line), icache := s.icache.filter fun l => !(l.line == line),
    ways := s.ways.filter fun w => !(w.line == line && w.die != homeDie line),
    dirs := s.dirs.filter fun d => !(d.line == line) }
  if stale then s.putHome line v else s

/-- A read probe of every owner of a line (R76, R79): U copies combined, dirty data brought home, every copy left clean and shared. -/
def State.shareLine (s : State) (line : Nat) : State :=
  let s := (s.absorb line).recallU line
  let v := s.newest line
  let stale := (s.l1.any fun l => l.line == line && dirtySt l.st) || (s.slices.any fun l => l.line == line && dirtySt l.st)
  let s := { s with
    l1 := s.l1.map fun l => if l.line = line then { l with st := .s } else l
    slices := s.slices.map fun l => if l.line = line then { l with st := .s, val := v } else l
    dirs := s.dirs.map fun d => if d.line = line then
        { d with st := some .s, owner := none, sharers := match d.owner with | some a => d.sharers ||| (1#20 <<< sharerBit d.node line a) | none => d.sharers }
      else d }
  if stale then s.putHome line v else s

/-- Every line of a range is quiet. -/
def State.quietRange (s : State) (pa n : Nat) : Bool := (linesOf pa n).all s.quiet

/-- A requester-side slice gives up a line (R77): it first recalls its die's L1 copies, update-only ones going on to the home, and then writes dirty data back. -/
def State.evictSlice (s : State) (d line : Nat) : State :=
  let s := s.absorbAt line (· == .slice d)
  match s.sliceLine? d line with
  | none => s
  | some l =>
    let mine (x : L1Line) : Bool := x.line == line && dieOf x.core == d
    let dirty := s.l1.find? fun x => mine x && dirtySt x.st
    let s := (s.l1.filter mine).foldl (fun s x => match x.st with
      | .u op fmt =>
        let (id, s) := s.fresh
        { s with uevicts := s.uevicts ++ [{ id := id, core := x.core, line := line, op := op, fmt := fmt, val := x.val }] }
      | _ => s) s
    let s := ({ s with l1 := s.l1.filter (fun x => !mine x), icache := s.icache.filter fun x => !(x.line == line && dieOf x.core == d) }.dropSlice d line).noteHome (.slice d) line
    match dirty with
    | some x => s.sendAnswer .home (.slice d) line (some x.val) false true
    | none => if owning l.st then s.sendAnswer .home (.slice d) line (if dirtySt l.st then some l.val else none) false true else s

/-- Nothing is under way between a requester-side slice and its die's caches for a line, so that it may give the line up. -/
def State.sliceIdle (s : State) (d line : Nat) : Bool :=
  !(s.txns.any fun t => t.node == .slice d && t.req.line == line) &&
    !(s.fills.any fun f => f.line == line && (f.node == .slice d || f.dest == .slice d)) && !(s.probes.any fun p => p.line == line && p.dest == .slice d)

/-- The lines in ways of the set of a line on a die. -/
def State.sameSet (s : State) (d line : Nat) : List L2Way :=
  s.ways.filter fun w => w.die == d && homeSlice w.line == homeSlice line && homeSet w.line == homeSet line

/-- The victim among the lines of a set in the ways of a mask (R93): the least recently used of the lowest priority. A requester-side line with a message under way stays. -/
def State.wayVictim (s : State) (d line : Nat) (mask : BitVec 24) : Option L2Way :=
  let cand := (s.sameSet d line).filter fun x => mask.getLsbD x.way && (d == homeDie x.line || s.sliceIdle d x.line)
  let low := cand.foldl (fun b x => min b x.prio) 3
  cand.find? fun x => x.prio == low

/-- A line that partition p has touched in a slice of a die takes a way of p's mask there, evicting by R93; with an empty mask none (R92, R375 to R377). -/
def State.touchL2 (s : State) (d line p prio : Nat) (dirty : Bool) : State :=
  if isPeer line ∧ d = homeDie line then s
  else match s.ways.find? (fun w => w.die == d && w.line == line) with
  | some w => { s with ways := (s.ways.erase w) ++ [{ w with dirty := w.dirty || dirty, prio := max w.prio prio }] }
  | none =>
    let mask : BitVec 24 := vget (s.part p).waymask d 0
    let same := s.sameSet d line
    let add (s : State) (way : Nat) : State :=
      { s with ways := s.ways ++ [{ die := d, line := line, way := way, dirty := dirty, prio := prio, part := p }] }
    match (List.range 24).find? (fun w => mask.getLsbD w && !(same.any fun x => x.way == w)) with
    | some w => add s w
    | none => match s.wayVictim d line mask with
      | some v => add (if d = homeDie v.line then { s with ways := s.ways.erase v } else s.evictSlice d v.line) v.way
      | none => s

/-- The partition that a generation serves (R368). -/
def State.partOfGen (s : State) (gen : Nat) : Option Nat := (List.range 40).find? fun p => gen != 0 && (s.part p).gen == gen && (s.part p).state != .free

/-- The units of device memory that a write of poisoned data newly poisons are counted, with the first address of each die (R413, R426). -/
def State.countHome (s : State) (gen pa n : Nat) : State :=
  ((poisonUnits pa n).filter fun u => (s.stubOf (u / 4)).isNone && !(s.homeMem pa).poisoned gen (u * poisonUnit)).foldl (fun s u => (s.countPoison gen).firstPoison (u * poisonUnit)) s

/-- Bytes written at the home by an agent there: copies recalled first (R77, R90). -/
def State.cohPut (s : State) (gen pa : Nat) (bs : List Byte) (pois : Bool) : State :=
  let s := (linesOf pa bs.length).foldl (fun s l => s.recallAll l) s
  (if pois && decide (pa < peerBase) then s.countHome gen pa bs.length else s).writeHome gen pa bs pois

/-- Accesses of an engine, or of another agent at the home, touch the home's L2 with `.en` (R92). -/
def State.touchEn (s : State) (gen : Nat) (lines : List Nat) (dirty : Bool) : State :=
  match s.partOfGen gen with
  | some p => lines.foldl (fun s l => s.touchL2 (homeDie l) l p 1 dirty) s
  | none => s

/-- Such a write by an engine, the command processor, the host or a peer (R90, R92). -/
def State.cohWrite (s : State) (gen pa : Nat) (bs : List Byte) (pois : Bool) : State := (s.touchEn gen (linesOf pa bs.length) true).cohPut gen pa bs pois

/-- Before an agent at the home reads a range: U copies are recalled (R79). -/
def State.recallURange (s : State) (pa n : Nat) : State := (linesOf pa n).foldl (fun s l => (s.absorb l).recallU l) s

/-- One level of the table shape (R378): index bits, whether a leaf may stand there, the page size of a leaf. -/
structure Level where
  hi   : Nat
  lo   : Nat
  leaf : Bool
  deriving DecidableEq, Repr

/-- The levels from the root down (R378). -/
def levels : List Level := [⟨55, 48, false⟩, ⟨47, 39, false⟩, ⟨38, 30, true⟩, ⟨29, 26, true⟩, ⟨25, 21, true⟩, ⟨20, 16, true⟩]

/-- The 8 bytes of a stage-2 entry as stored, whatever their generation (R378). -/
def State.rawEntry (s : State) (pa : Nat) : Dword :=
  let v := (s.recallURange pa 8).newest (pa / 128)
  BitVec.ofNat 64 (leAt v.bytes (pa % 128) 8)

/-- A page-table entry of a stage is malformed (R379, R380) as a table entry (`lf` false) or as a leaf of page size 2^lo. -/
def pteMalformed (e : Dword) (stage2 lf : Bool) (lo : Nat) : Bool :=
  let attr := fieldN e 9 8
  bitAt e 63 || !zeroAt e 61 56 || !zeroAt e 15 10 || bitAt e 7 ||
    (bitAt e 62 && !(stage2 && lf)) || (bitAt e 6 && !(stage2 && lf)) || (attr != 0 && !(stage2 && lf)) || attr == 3 ||
    (bitAt e 5 && !(!stage2 && lf)) || (attr == 0 && !zeroAt e 55 41) || (lf && decide (fieldN e 55 16 * 65536 % 2 ^ lo ≠ 0))

/-- The leaves of a table and of those below it, with the address of the stage's input space where each page begins (R378, R379). -/
def leavesUnder (stage2 : Bool) (rd : Nat → Dword) : List Level → Nat → Nat → List (Nat × PteLeaf)
  | [], _, _ => []
  | l :: rest, a, table => (List.range (2 ^ (l.hi + 1 - l.lo))).flatMap fun i =>
      let e := rd (table + 8 * i)
      let lf := bitAt e 1
      if !bitAt e 0 || (lf && !l.leaf) || pteMalformed e stage2 lf l.lo then []
      else if lf then [(a + i * 2 ^ l.lo, { base := fieldN e 55 16 * 65536, size := 2 ^ l.lo, pte := e })]
      else leavesUnder stage2 rd rest (a + i * 2 ^ l.lo) (fieldN e 55 16 * 65536)

/-- An entry of a stage-2 table; what no populated memory holds counts as invalid. -/
def State.entryOr0 (s : State) (a : Nat) : Dword := if populated a then s.rawEntry a else 0

/-- The pages of device memory that a partition's stage 2 maps (R378, R379). -/
def State.devicePages (s : State) (x : Part) : List (Nat × PteLeaf) :=
  (leavesUnder true s.entryOr0 levels 0 x.s2root.toNat).filter fun y => fieldN y.2.pte 9 8 == 0

/-- Such a page holds an address of device memory. -/
def pageHolds (pa : Nat) (y : Nat × PteLeaf) : Bool := decide (y.2.base ≤ pa) && decide (pa < y.2.base + y.2.size)

/-- The partitions that run. -/
def State.runners (s : State) : List Part := s.parts.toList.filter fun x => x.state == .run

/-- The frame of a line is mapped as device memory into two running partitions (R371). -/
def State.mappedTwice (s : State) (line : Nat) : Bool :=
  match s.runners with
  | x :: y :: rest => decide (1 < ((x :: y :: rest).filter fun x => (s.devicePages x).any (pageHolds (line * 128))).length)
  | _ => false

/-- A running partition maps the frame of a line as a code page that has a sidecar, or as a site page (R302, R303, R315). -/
def State.codeShared (s : State) (line : Nat) : Bool :=
  let pa := line * 128
  s.runners.any fun x =>
    let two := s.devicePages x
    let entry1 (ipa : Nat) : Dword := match two.find? (fun y => decide (y.1 ≤ ipa) && decide (ipa < y.1 + y.2.size)) with
      | some y => s.entryOr0 (y.2.base + (ipa - y.1))
      | none => 0
    let one := leavesUnder false entry1 levels 0 x.s1root.toNat
    (two.filter (pageHolds pa)).any fun y =>
      let ipa := y.1 + (pa - y.2.base)
      (one.filter (pageHolds ipa)).any fun z =>
        let va := z.1 + (ipa - z.2.base)
        let side := 0x00F0000000000000 + va / 8
        bitAt z.2.pte 5 || (bitAt z.2.pte 4 && bitAt z.2.pte 2 && decide (va < 2 ^ 55) &&
          one.any fun w => bitAt w.2.pte 5 && decide (w.1 ≤ side) && decide (side < w.1 + w.2.size))

/-- What stands in a line is undefined for the partitions that map it (R371, R7), but for code with a sidecar, and its site page, which they share (R315). -/
def State.twice (s : State) (line : Nat) : Bool := s.mappedTwice line && !s.codeShared line
@[inherit_doc State.twice]
def State.common (s : State) (line : Nat) : Bool := s.mappedTwice line && s.codeShared line

/-- The word that has made a monitor entry's compare hold, if one has (R90); what a write has left in a frame that two running partitions map compares as a free value (R371, R7). -/
def State.hitOf (s : State) (m : Mon) : Option Dword :=
  if m.written && m.space == .global && s.twice (m.addr / 128) then
    let w := Config.sharedWord m.id s.freeCtr
    if testHolds m.test w then some w else none
  else m.hit

/-- The words of the descriptors of enabled queues that the command processor writes: RDIDX, STATUS and STATE, by their first bytes (R337). -/
def State.ownedWords (s : State) : List Nat :=
  s.parts.toList.flatMap fun p => p.queues.filterMap fun q => if q.enabled then q.descPa.map (· + 24) else none

/-- The instruction that a sidecar byte belongs to, by the site steps under way on its line (R302), is a site: its word is generic or quickened. -/
def State.siteOf (s : State) (x : SiteStep) (side : Nat) : Bool :=
  let a := x.pa / 128 * 128 + side % 16 * 8
  let w : Dword := if x.attr = 1 then s.host.rawDword a else BitVec.ofNat 64 (leAt (s.newest (a / 128)).bytes (a % 128) 8)
  fieldN w 63 62 == 1 || fieldN w 63 62 == 2

/-- The bits of a byte that a software write of it leaves undefined (R7): all of a queue's words that the command processor writes (R337), and FLIPS and PIN of a site's sidecar byte while a
site step on its line is in flight (R313). -/
def State.openBits (s : State) (owned : List Nat) (pa : Nat) (attr : Nat := 0) : Byte :=
  if attr ≠ 1 ∧ owned.any fun d => decide (d ≤ pa) && decide (pa < d + 24) then 0xFF
  else if s.sites.any fun x => (x.sideAttr == 1) == (attr == 1) && x.side / 16 == pa / 16 && s.siteOf x pa then 7 else 0

/-- What a software write of bytes leaves at their place: free values in the bits that it leaves undefined (log 3). -/
def State.softBytes (s : State) (pa : Nat) (bs : List Byte) (attr : Nat := 0) : List Byte × State :=
  let owned := s.ownedWords
  let open_ := (List.range bs.length).map fun i => s.openBits owned (pa + i) attr
  if open_.all (· == 0) then (bs, s)
  else ((bs.zip open_).zipIdx.map fun x => (x.1.1 &&& ~~~x.1.2) ||| ((Config.freeWord (s.freeCtr + x.2)).truncate 8 &&& x.1.2),
    { s with freeCtr := s.freeCtr + bs.length })

/-- The bytes of the region of the object that a weir operation names (R229). -/
def State.weirLen (s : State) (w : WeirReq) : Nat :=
  let cap := if w.attr = 1 then ofLe (s.host.read 0 w.pa 4) else ofLe ((s.newest (w.pa / 128)).read w.gen (w.pa % 128) 4)
  min w.limit (64 + 16 * cap)

/-- The regions of weir objects with an operation in flight that some of the bytes lie in: generation, address and length (R229, R230). -/
def State.weirRegions (s : State) (pa n : Nat) : List (Nat × Nat × Nat) :=
  (s.weir.filterMap fun w => if w.attr ≠ 1 ∧ w.pa < pa + n ∧ pa < w.pa + s.weirLen w then some (w.gen, w.pa, s.weirLen w) else none).eraseDups

/-- A weir operation of a group on an object that holds some of the bytes at a place is still under way (R98): a read of them behind it waits. -/
def State.weirAhead (s : State) (gid attr pa n : Nat) : Bool :=
  s.weir.any fun w => w.gid == gid && (w.attr == 1) == (attr == 1) && decide (w.pa < pa + n) && decide (pa < w.pa + s.weirLen w)

/-- Bytes put in place in every copy of their line, whatever its generation and whatever is under way (the fix engine's COW bits, R416). -/
def State.plant (s : State) (pa : Nat) (bs : List Byte) : State :=
  let line := pa / 128
  let piece (x : Nat) (v : LineVal) : LineVal := if x = line then { v with bytes := spliceBytes v.bytes (pa % 128) bs } else v
  { s.putHome line (piece line (s.homeVal line)) with
    l1 := s.l1.map fun l => if isU l.st then l else { l with val := piece l.line l.val },
    slices := s.slices.map fun l => if isU l.st then l else { l with val := piece l.line l.val },
    fills := s.fills.map fun f => if isU f.st then f else { f with val := piece f.line f.val },
    answers := s.answers.map fun a => { a with val := a.val.map (piece a.line) } }

/-- A range of memory that has become undefined: free values in every copy of its lines, whose poison marks stay (R7, log 3). -/
def State.spoilRange (s : State) (gen pa len : Nat) : State :=
  let bs : List Byte := (List.range len).map fun i => (Config.freeWord (s.freeCtr + i)).truncate 8
  let piece (line : Nat) (v : LineVal) : LineVal :=
    let a := max pa (line * 128)
    let b := min (pa + len) (line * 128 + 128)
    if a < b then v.soil gen (a % 128) ((bs.drop (a - pa)).take (b - a)) else v
  { s.homeBytes pa bs Memory.putBytes gen with
    freeCtr := s.freeCtr + len,
    icache := s.icache.map fun l => { l with val := piece l.line l.val },
    l1 := s.l1.map fun l => if isU l.st then l else { l with val := piece l.line l.val },
    slices := s.slices.map fun l => if isU l.st then l else { l with val := piece l.line l.val },
    fills := s.fills.map fun f => if isU f.st then f else { f with val := piece f.line f.val },
    answers := s.answers.map fun a => { a with val := a.val.map (piece a.line) } }

/-- A line of shared code under the generation of the partition that acts on it now: both find the one word there (R315, log 53). -/
def State.retag (s : State) (gen line : Nat) : State :=
  let at_ (x : Nat) (v : LineVal) : LineVal := if x = line then { v with gen := gen } else v
  { s with
    dram := { s.dram with gens := mapPut 0 s.dram.gens line gen },
    icache := s.icache.map fun l => { l with val := at_ l.line l.val },
    l1 := s.l1.map fun l => { l with val := at_ l.line l.val },
    slices := s.slices.map fun l => { l with val := at_ l.line l.val },
    fills := s.fills.map fun f => { f with val := at_ f.line f.val },
    answers := s.answers.map fun a => { a with val := a.val.map (at_ a.line) } }

/-- Before a partition writes lines of a range: shared code takes its generation, so that the rest of each line stays (R315). -/
def State.takeIn (s : State) (gen pa n : Nat) : State := (linesOf pa n).foldl (fun s l => if s.common l then s.retag gen l else s) s

/-- The words that the command processor writes in the descriptors of enabled queues, those that n bytes at a place touch (R337). -/
def State.ownedTouched (s : State) (pa n : Nat) : List Nat :=
  (s.ownedWords.flatMap fun d => [d, d + 8, d + 16]).filter fun w => decide (w < pa + n) && decide (pa < w + 8)

/-- A software write of bytes at a place: a weir region it touches while an operation on its object is in flight becomes undefined (R230), and so do the words of a queue's descriptor that it
touches and that are not software's (R337), and a line whose frame two running partitions share (R371). -/
def State.softly (s : State) (gen pa n : Nat) (f : State → State) : State :=
  let both := (linesOf pa n).filter s.twice
  let regions := s.weirRegions pa n ++ (s.ownedTouched pa n).map fun w => (homeGen gen w, w, 8)
  let s' := regions.foldl (fun s r => s.spoilRange r.1 r.2.1 r.2.2) (f (s.takeIn (homeGen gen pa) pa n))
  both.foldl (fun s l => s.spoilRange (s.newest l).gen (l * 128) 128) s'

/-- A line that a partition is about to access: when two running partitions map its frame, what it reads there is free, and so is what it leaves (R371, R7), but for shared code (R315). -/
def State.blur (s : State) (gen line : Nat) : State :=
  if s.twice line then s.spoilRange gen (line * 128) 128 else if s.common line then s.retag gen line else s

/-- The lines that hold n bytes at a place, accessed by a partition. -/
def State.blurRange (s : State) (gen pa n : Nat) : State := (linesOf pa n).foldl (fun s l => s.blur (homeGen gen pa) l) s

/-- A software write of the bytes leaves no value undefined. -/
def State.defines (s : State) (pa n : Nat) : Bool :=
  ((List.range n).all fun i => s.openBits s.ownedWords (pa + i) == 0) && (s.weirRegions pa n).isEmpty && !(linesOf pa n).any s.twice

/-- What an agent at the home reads, after `recallURange`. -/
def State.cohBytes (s : State) (gen pa n : Nat) : List Byte :=
  (List.range n).map fun i => (s.newest ((pa + i) / 128)).byte (homeGen gen pa) ((pa + i) % 128)

/-- Whether what it reads is poisoned. -/
def State.cohPoison (s : State) (gen pa n : Nat) : Bool :=
  (List.range n).any fun i => (s.newest ((pa + i) / 128)).anyPoison (homeGen gen pa) ((pa + i) % 128) 1

/-- A cache holds, or is being sent, a line: the reply on its way counts, since a probe that overtakes it waits for it (R74). -/
def State.heldAs (s : State) (a : Agent) (line : Nat) : CState :=
  match s.fills.find? (fun f => f.dest == a && f.line == line && f.st != .i) with
  | some f => f.st
  | none => match a with
    | .l1 c => match s.l1Line? c line with | some l => l.st | none => .i
    | .slice d => match s.sliceLine? d line with | some l => l.st | none => .i
    | _ => .i

/-- The caches below a directory that hold the line or are being sent it (R76, R77). -/
def State.holders (s : State) (n : Node) (line : Nat) : List Agent :=
  let sent := s.fills.filterMap fun f => if f.node = n ∧ f.line = line ∧ f.st ≠ .i then some f.dest else none
  let held : List Agent := match n with
    | .home =>
      (s.l1.filterMap fun l => if l.line = line ∧ dieOf l.core = homeDie line then some (.l1 l.core) else none) ++
        (s.slices.filterMap fun l => if l.line = line then some (.slice l.die) else none)
    | .slice d => s.l1.filterMap fun l => if l.line = line ∧ dieOf l.core = d then some (.l1 l.core) else none
  held ++ sent.filter fun a => !held.contains a

/-- Whom a directory's entry names beyond the caches that hold the line (R76): the slices of flagged dies, the cores of flagged clusters that do not hold it, the Binnacle. They
answer a probe with "not held". -/
def State.flagged (s : State) (n : Node) (line : Nat) : List Agent :=
  match s.dirEntry? n line with
  | none => []
  | some d =>
    let bit (a : Agent) : Bool := d.sharers.getLsbD (sharerBit n line a)
    let die := match n with | .home => homeDie line | .slice x => x
    let clusters := ((List.range 16).filter fun c => d.sharers.getLsbD c).map fun c => Agent.rest (16 * die + c)
    match n with
    | .home => (((List.range 4).filter fun x => x != die && bit (.slice x)).map Agent.slice) ++ clusters ++ (if bit .binnacle then [.binnacle] else [])
    | .slice _ => clusters

/-- Whom a directory probes to take a line away from everyone but an agent (R76). -/
def State.targets (s : State) (n : Node) (line : Nat) (but : Agent) : List Agent :=
  let hs := s.holders n line
  (hs ++ (s.flagged n line).filter fun a => !hs.contains a).filter (· != but)

/-- A request sent (R73: at the end of its class). -/
def State.sendReq (s : State) (gid part gen prio line : Nat) (src : Agent) (n : Node) (k : ReqKind) : State :=
  let (id, s) := s.fresh
  { s with reqs := s.reqs ++ [{ id := id, gid := gid, line := line, src := src, node := n, gen := gen, part := part, prio := prio, kind := k }] }

/-- Probes sent, and the transaction that waits for their answers. -/
def State.openTxn (s : State) (n : Node) (r : Req) (targets : List Agent) (inval : Bool) : State :=
  let s := targets.foldl (fun s a =>
    let (id, s) := s.fresh
    { s with probes := s.probes ++ [{ id := id, line := r.line, node := n, dest := a, inval := inval, held := false }] }) s
  { s with txns := s.txns ++ [{ node := n, req := r, left := targets, wantUp := false }] }

/-- A reply sent. -/
def State.sendFill (s : State) (n : Node) (r : Req) (st : CState) (v : LineVal) : State :=
  let (id, s) := s.fresh
  let s : State := { s with fills := s.fills ++ [{ id := id, line := r.line, node := n, dest := r.src, st := st, val := v }] }
  if st = .i then s else s.noteGrant n r.line r.src st

/-- A return has all the lanes it waits for. -/
def retReady (r : Ret) : Bool := (maskLanes r.lanes).all fun l => r.vals.any fun v => v.1 == l

/-- All that a return waits for has been sent to its core, some of it by the network: a lane whose value comes from elsewhere has it. -/
def allSent (r : Ret) : Bool :=
  retReady r && !r.sent.isEmpty

/-- An earlier request of the same source to the same destination is still under way (R73): to a directory, to a weir unit unless a port holds it, to a site's home. -/
def State.requestBehind (s : State) (id : Nat) (src dest : EndPoint) : Bool :=
  (s.reqs.any fun x => decide (x.id < id) && agentEnd x.src x.line == src && nodeEnd x.node x.line == dest) ||
    (s.weir.any fun x => decide (x.id < id) && x.attr != 1 && x.held.isNone && EndPoint.core x.core == src && nodeEnd .home (x.pa / 128) == dest) ||
    (s.sites.any fun x => decide (x.id < id) && x.placeAttr != 1 && x.source == src && nodeEnd .home (x.place / 128) == dest)

/-- The values of some lanes of a return leave for a core in a reply (R73). -/
def State.noteReply (s : State) (ret : Nat) (lanes : Mask) (src : EndPoint) (dest : Nat) : State :=
  let (seq, s) := s.fresh
  { s with rets := s.rets.map fun r => if r.id = ret then { r with sent := r.sent ++ [{ lanes := lanes, src := src, dest := dest, seq := seq }] } else r }

/-- One lane's answer is sent to the return that waits for it; `v` holds the row words from the low row up. -/
def State.deliver (s : State) (ret lane : Nat) (v : BitVec 128) (pois : Bool) : State :=
  { s with rets := s.rets.map fun r => if r.id = ret then { r with vals := r.vals ++ [(lane, v, pois)] } else r }

/-- The value an atomic leaves in its location (R226, R228); none when nothing is written. -/
def atomNew (a : AtomOp) (old : Dword) : Option Dword :=
  if a.cas then (if a.w64 then (if old = a.b then some a.c else none)
    else if old.truncate 32 = (a.b.truncate 32 : Word) then some a.c else none)
  else match a.op with
    | none => some a.b
    | some op =>
      if a.w64 then some (Num.icombine op old a.b)
      else some ((Num.combine op a.fmt (old.truncate 32) (a.b.truncate 32)).zeroExtend 64)

/-- One atomic on the bytes of a storage: its old value is returned, its new value written unless the unit is poisoned (R81, R413). -/
def atomAt (m : Memory) (gen addr : Nat) (a : AtomOp) : Memory × Dword × Bool :=
  let n := if a.w64 then 8 else 4
  let old : Dword := BitVec.ofNat 64 (ofLe (m.read gen addr n))
  let pois := m.anyPoison gen addr n
  let m' := if pois then m else match atomNew a old with
    | some v => m.write gen addr (leBytes n v.toNat) false
    | none => m
  (m', old, pois)

/-- An atomic of the home's unit on its own copy, or for a stubbed line at its destination (R81, R422): its old value is returned, its new value written unless the unit is poisoned (R413). -/
def State.atomHome (s : State) (gen pa : Nat) (a : AtomOp) : State :=
  let n := if a.w64 then 8 else 4
  let at_ := s.homeAt pa
  let old : Dword := BitVec.ofNat 64 (ofLe ((s.homeMem at_).read (homeGen gen at_) (homeKey at_) n))
  let pois := (s.homeMem at_).anyPoison (homeGen gen at_) (homeKey at_) n
  let s := if pois then s else match atomNew a old with
    | some v =>
      let (bs, s) := s.softBytes pa (leBytes n v.toNat)
      s.softly gen pa n fun s => (s.homeBytes pa bs (fun m gen a bs => m.write gen a bs false) gen).dropCode (pa / 128)
    | none => s
  let s := s.evalMons .global (pa / 128)
  match a.ret with
  | some r => s.deliver r a.lane (old.zeroExtend 128) pois
  | none => s

/-- The home's unit performs an atomic of a request and replies to its core (R73, R81). -/
def State.atomFor (s : State) (r : Req) (off : Nat) (a : AtomOp) : State :=
  let s := (s.blur r.gen r.line).atomHome r.gen (r.line * 128 + off) a
  match a.ret, r.src with
  | some ret, .l1 c => s.noteReply ret (1#32 <<< a.lane) (nodeEnd .home r.line) c
  | _, _ => s

/-- A directory finishes a request once every probe is answered. -/
def State.grant (s : State) (n : Node) (r : Req) : State :=
  let others := (s.holders n r.line).filter (· != r.src)
  let above : Bool := match n with
    | .home => !s.keepsLine r.line
    | .slice d => match s.heldAs (.slice d) r.line with
      | .m => true
      | .e => true
      | _ => false
  match r.kind with
  | .getS =>
    let alone := others.isEmpty && (s.flagged n r.line).isEmpty && !(s.icache.any fun l => l.line == r.line)
    s.sendFill n r (if alone && above then .e else .s) (s.nodeVal n r.line)
  | .getM =>
    let s := match n with
      | .slice d => match s.sliceLine? d r.line with | some l => s.putSlice { l with st := .m } | none => s
      | .home => s
    s.sendFill n r .m (s.nodeVal n r.line)
  | .getU op fmt => s.sendFill n r (.u op fmt) (identityLine op fmt r.gen)
  | .store off bs =>
    let (bs, s) := s.softBytes (r.line * 128 + off) bs
    s.softly r.gen (r.line * 128 + off) bs.length fun s => (s.noteHome n r.line).writeHome r.gen (r.line * 128 + off) bs false
  | .atom off a => (s.noteHome n r.line).atomFor r off a

/-- A requester-side slice asks the home for what it lacks (R77). -/
def State.askHome (s : State) (d : Nat) (r : Req) : State :=
  let s := s.sendReq r.gid r.part r.gen 1 r.line (.slice d) .home r.kind
  { s with txns := s.txns ++ [{ node := .slice d, req := r, left := [], wantUp := true }] }

/-- Whether a slice's own copy serves the request (R77). -/
def sliceServes (st : CState) (k : ReqKind) : Bool :=
  match k with
  | .getS => readable st
  | .getM => (match st with | .m => true | .e => true | _ => false)
  | .getU op fmt => st == .u op fmt
  | .store _ _ => false
  | .atom _ _ => false

/-- A directory that can serve a request does so (R76, R79, R81): it recalls update-only copies, probes, or answers at once. -/
def State.serve (s : State) (n : Node) (r : Req) : State :=
  let s := match r.kind with
    | .getU op fmt => if (s.partials r.line).any (fun p => p.2.1 != op || p.2.2.1 != fmt) then s.recallU r.line else s
    | _ => match n with | .home => s.recallU r.line | .slice _ => s
  match r.kind with
  | .getS => match (s.holders n r.line).find? (fun a => a != r.src && owning (s.heldAs a r.line)) with
    | some a => s.openTxn n r [a] false
    | none => s.grant n r
  | .getM =>
    let ts := s.targets n r.line r.src
    if n == .home && s.keepsLine r.line then s.sendFill n r .i (s.nodeVal n r.line)
    else
      let s := s.dropCode r.line
      if ts.isEmpty then s.grant n r else s.openTxn n r ts true
  | .getU _ _ =>
    let ts := (s.targets n r.line r.src).filter fun a => !isU (s.heldAs a r.line)
    let mine := (s.holders n r.line).filter fun a => a == r.src && !isU (s.heldAs a r.line)
    if n == .home && (s.stubOf r.line).isSome then s.sendFill n r .i (s.nodeVal n r.line)
    else
      let s := s.dropCode r.line
      if (mine ++ ts).isEmpty then s.grant n r else s.openTxn n r (mine ++ ts) true
  | _ =>
    let hs := s.holders n r.line
    let all := hs ++ (s.flagged n r.line).filter fun a => !hs.contains a
    let s := s.dropCode r.line
    if all.isEmpty then s.grant n r else s.openTxn n r all true

/-- A requester-side slice must ask the home: its own copy does not serve the request (R77), or it has no way for the data and no L1 of its die has it dirty (R377). -/
def State.asksHome (s : State) (d : Nat) (r : Req) : Bool :=
  !sliceServes (s.heldAs (.slice d) r.line) r.kind ||
    (!isU (s.heldAs (.slice d) r.line) && !s.hasWay d r.line && !(s.l1.any fun l => l.line == r.line && dieOf l.core == d && dirtySt l.st))

/-- A directory takes up a request (R76, R77, R79, R81). A hit raises the priority of the slice's way (R92). -/
def State.takeUp (s : State) (r : Req) : State :=
  let s := s.absorb r.line
  match r.node with
  | .home => s.serve .home r
  | .slice d =>
    if s.asksHome d r then s.askHome d r
    else (if s.hasWay d r.line then s.touchL2 d r.line r.part r.prio false else s).serve (.slice d) r

/-- A copy answers a probe: what it gives up and what it keeps (R74, R75). -/
def probed (inval : Bool) (st : CState) : Option CState × Bool :=
  if inval then (none, dirtySt st)
  else match st with
    | .m => (some .o, true)
    | .o => (some .o, true)
    | .e => (some .s, false)
    | x => (some x, false)

/-- A probe that finds no copy (R74): answered from the writeback buffer while an eviction of the line is under way to that directory, else "not held". -/
def State.answerNone (s : State) (p : Probe) : State :=
  match s.answers.find? (fun a => a.wb && a.line == p.line && a.node == p.node && a.src == p.dest) with
  | some a => ({ s with answers := s.answers.filter fun x => !(x.id == a.id) }).sendAnswer p.node p.dest p.line a.val a.kept false
  | none => s.sendAnswer p.node p.dest p.line none false false

/-- A probe applied at a cache that owes it an answer (R74). A slice answers with what its own L1 caches hold, evictions under way to it included, which it probes first: those
copies are taken in the same step, since nothing but the slice's answer shows when (log 13). -/
def State.applyProbe (s : State) (p : Probe) : State :=
  match p.dest with
  | .l1 c => match s.l1Line? c p.line with
    | some l =>
      let (st, data) := probed p.inval l.st
      let s := match st with | some st => s.putL1 { l with st := st } | none => s.dropL1 c p.line
      s.sendAnswer p.node p.dest p.line (if data then some l.val else none) st.isSome false
    | none => s.answerNone p
  | .slice d =>
    let s := s.absorbAt p.line (· == .slice d)
    match s.sliceLine? d p.line with
    | none => s.answerNone p
    | some l =>
      let dirty := s.l1.find? fun x => x.line == p.line && dieOf x.core == d && dirtySt x.st
      let after (l : L1Line) : Option L1Line :=
        if l.line = p.line ∧ dieOf l.core = d then
          (match (probed p.inval l.st).1 with
           | some .o => some { l with st := .s }
           | some st => some { l with st := st }
           | none => none)
        else some l
      let s := { s with l1 := s.l1.filterMap after }
      let v := match dirty with | some x => x.val | none => l.val
      let isDirty := dirty.isSome || dirtySt l.st
      let (st, _) := probed p.inval (if isDirty then .m else l.st)
      let s := match st with
        | some st => (match s.dirEntry? (.slice d) p.line with
            | some e => (match e.owner with | some a => s.noteShared (.slice d) p.line a false | none => s)
            | none => s).putSlice { l with st := st, val := v }
        | none => (s.dropSlice d p.line).noteHome (.slice d) p.line
      s.sendAnswer p.node p.dest p.line (if isDirty then some v else none) st.isSome false
  | _ => s.answerNone p

/-- Requests, transactions and fills of an L1 for a line that are not finished. -/
def State.outstanding (s : State) (core line : Nat) : Bool :=
  (s.reqs.any fun r => r.src == .l1 core && r.line == line) || (s.txns.any fun t => t.req.src == .l1 core && t.req.line == line) ||
    (s.fills.any fun f => f.dest == .l1 core && f.line == line)

/-- The word of a load's bytes in its destination rows: zero- or sign-extended to 32 bits, wider loads as they are (R216). -/
def loadWord (bs : List Byte) (width : Nat) (sign : Bool) : BitVec 128 :=
  let n := ofLe bs
  if sign then ((BitVec.ofNat (8 * width) n).signExtend 32).zeroExtend 128 else BitVec.ofNat 128 n

/-- A line lies in a page whose COW bit a fix has still to clear (R417). -/
def State.cowLine (s : State) (line : Nat) : Bool :=
  s.parts.toList.any fun x => x.fixes.any fun f => f.left.any fun c => decide (c.base ≤ line * 128) && decide (line * 128 < c.base + c.size)

/-- The page of a line that a write waits for is drained next (R417). -/
def State.wantLine (s : State) (line : Nat) : State :=
  let want (f : FixRun) : FixRun :=
    match f.left.find? fun c => decide (c.base ≤ line * 128) && decide (line * 128 < c.base + c.size) with
    | some c => { f with wanted := if f.wanted.contains c.page then f.wanted else f.wanted ++ [c.page] }
    | none => f
  { s with parts := s.parts.map fun x => { x with fixes := x.fixes.map want } }

/-- An access that writes its line. -/
def writing : PendAct → Bool
  | .store .. => true
  | .red .. => true
  | _ => false

/-- A line as a partition finds it in a cache: shared code whatever its generation (R315). -/
def State.seenAs (s : State) (gen line : Nat) (v : LineVal) : LineVal := if s.common line then { v with gen := gen } else v

/-- One access performed in an L1 that holds the line (R75, R217, R219, R79); none when the state does not allow it yet. What a load reads of a frame that two running partitions map is
free (R371), poisoned where the line is. -/
def State.performL1 (s : State) (p : Pend) (l : L1Line) : Option State :=
  let v := s.seenAs p.gen l.line l.val
  let l := { l with prio := max l.prio p.prio, val := v }
  match p.act with
  | .load ret lane off width sign =>
    if readable l.st then
      let (bs, s) := if s.twice l.line then s.freeBytes width else (v.read p.gen off width, s)
      some ((s.putL1 l).deliver ret lane (loadWord bs width sign) (v.anyPoison p.gen off width))
    else none
  | .store off bs pois =>
    if l.st = .m ∨ l.st = .e then
      let (bs, s) := s.softBytes (l.line * 128 + off) bs
      some (s.softly p.gen (l.line * 128 + off) bs.length fun s => s.putL1 { l with st := .m, val := v.write p.gen off bs pois })
    else none
  | .red op fmt off b =>
    if l.st = .u op fmt then
      let w := Num.combine op fmt (BitVec.ofNat 32 (leAt l.val.bytes off 4)) b
      let (bs, s) := s.softBytes (l.line * 128 + off) (leBytes 4 w.toNat)
      some (s.softly p.gen (l.line * 128 + off) 4 fun s => s.putL1 { l with val := { l.val with bytes := spliceBytes l.val.bytes off bs } })
    else none
  | .warm => if readable l.st then some (s.putL1 l) else none

/-- What a waiting access needs of the line (R75, R79). -/
def needOf : PendAct → ReqKind
  | .load .. => .getS
  | .store .. => .getM
  | .red op fmt _ _ => .getU op fmt
  | .warm => .getS

/-- A core's L1 gives up a line: dirty data goes back, a U line goes to the home to be combined (R75, R80). -/
def State.evictL1 (s : State) (core line : Nat) : State :=
  match s.l1Line? core line with
  | none => s
  | some l =>
    let s := s.dropL1 core line
    match l.st with
    | .u op fmt =>
      let (id, s) := s.fresh
      { s with uevicts := s.uevicts ++ [{ id := id, core := core, line := line, op := op, fmt := fmt, val := l.val }] }
    | st => if owning st then s.sendAnswer (nodeFor core line) (.l1 core) line (if dirtySt st then some l.val else none) false true else s

/-- A gated `ald` of a group has still to read bytes of a line (R221): the group's later accesses to it wait. -/
def State.asyHolds (s : State) (gid line : Nat) : Bool :=
  s.asys.any fun a => a.gid == gid && a.fill && !a.read && a.elems.any fun e => e.attr != 1 && e.pa / 128 == line

/-- A scratchpad, or a bank of a die, by number (R71). -/
def nearPlace (sp : Space) (addr : Nat) : Nat := match sp with | .scratch => addr / 65536 | _ => addr / 2 ^ 25 * 512 + natBits addr 15 7

/-- A gated `ast` of a group has still to read bytes of a scratchpad (R221): the group's later accesses to it wait. -/
def State.astHolds (s : State) (gid pad : Nat) : Bool := s.asys.any fun a => a.gid == gid && !a.fill && !a.read && a.elems.any fun e => e.addr / 65536 == pad

/-- What a group reads at a scratchpad or a bank in the step of its issue stays behind: its core's requests under way there (R73), and a gated `ast` (R221). -/
def State.nearAhead (s : State) (g : Group) (sp : Space) (addr : Nat) : Bool :=
  (s.near.any fun x => x.core == g.core && x.space == sp && nearPlace sp x.addr == nearPlace sp addr) || (sp == .scratch && s.astHolds g.gid (addr / 65536))

/-- The first access that a core's L1 may serve on a line. -/
def State.nextPend (s : State) (core line : Nat) : Option Pend := s.pends.find? fun p => p.core == core && p.line == line && !s.asyHolds p.gid line

/-- Accesses that wait in a core's L1 for a line are performed in order as far as its state allows; the first that needs more asks the directory for it. A line held in
another state than an update asks for is given up first (R79). A write to a page still marked COW goes on waiting (R417). -/
def State.servePends (s : State) (core line : Nat) : Nat → State
  | 0 => s
  | n + 1 =>
    if s.outstanding core line then s
    else match s.nextPend core line with
      | none => s
      | some p =>
        let done := match s.l1Line? core line with | some l => s.performL1 p l | none => none
        match done with
        | some s' => if writing p.act && s.cowLine line then s.wantLine line else ({ s' with pends := s'.pends.erase p }).servePends core line n
        | none =>
          let s := match p.act with | .red .. => s.evictL1 core line | _ => s
          s.sendReq p.gid p.part p.gen p.prio line (.l1 core) (nodeFor core line) (needOf p.act)

/-- The accesses of a core to a line, `ps` in order, of which loads behind stores that wait for ownership read those stores' bytes over the copy `v` that the L1 may read (R78, R116).
A store that one has read is noted as seen by its group; each is an access to the L1's line (R92). -/
def State.forwardFrom (s : State) (v : LineVal) : List Pend → List Pend → State
  | _, [] => s
  | before, p :: ps =>
    match p.act with
    | .store off bs pois =>
      if s.defines (p.line * 128 + off) bs.length then s.forwardFrom (v.write p.gen off bs pois) (p :: before) ps else s
    | .load ret lane off width sign =>
      let s := { s with pends := (s.pends.erase p).map fun x =>
        if before.contains x && x.gid != p.gid then { x with seen := if x.seen.contains p.gid then x.seen else x.seen ++ [p.gid] } else x }
      let s := match s.l1Line? p.core p.line with | some l => s.putL1 { l with prio := max l.prio p.prio } | none => s
      (s.deliver ret lane (loadWord (v.read p.gen off width) width sign) (v.anyPoison p.gen off width)).forwardFrom v
        (before.map fun x => if x.gid != p.gid then { x with seen := if x.seen.contains p.gid then x.seen else x.seen ++ [p.gid] } else x) ps
    | _ => s

/-- Loads that wait behind a store of their own core to a line that the L1 may read take the store's bytes, before any other core can (R78, R116). -/
def State.forward (s : State) (core line : Nat) : State :=
  match s.l1Line? core line with
  | none => s
  | some l =>
    if !readable l.st then s else s.forwardFrom l.val [] (s.pends.filter fun p => p.core == core && p.line == line && !s.asyHolds p.gid line)

/-- The accesses that wait in a core's L1 for a line, served as far as they can be (R75, R78). -/
def State.serveLine (s : State) (core line : Nat) : State := (s.servePends core line (s.pends.length + 1)).forward core line

/-- An access enters the L1's queue and is served at once when the line allows (R78). -/
def State.enter (s : State) (p : Pend) : State := State.serveLine { s with pends := s.pends ++ [p] } p.core p.line

/-- The victim of a full L1 (R93): the least recently used line of the lowest priority, but for lines with an access still waiting. -/
def State.l1Victim (s : State) (core : Nat) : Option Nat :=
  let mine := s.l1.filter fun l => l.core == core && !(s.pends.any fun p => p.core == core && p.line == l.line) && !s.outstanding core l.line
  let low := mine.foldl (fun b l => min b l.prio) 3
  (mine.find? fun l => l.prio == low).map (·.line)

/-- Room made in a full L1 (R10, R93). -/
def State.makeRoom (s : State) (core line : Nat) : State :=
  if (s.l1Line? core line).isNone ∧ Config.l1Lines ≤ (s.l1.filter fun l => l.core == core).length then
    match s.l1Victim core with
    | some v => s.evictL1 core v
    | none => s
  else s

/-- Dirty lines of a core's L1 are performed at the home; the copies stay, clean (R118, R276). -/
def State.cleanLine (s : State) (l : L1Line) : State :=
  if dirtySt l.st then
    let sole := decide (l.st = CState.m)
    let s := s.putL1 { l with st := if sole then .e else .s }
    let note (s : State) (n : Node) (a : Agent) : State := if sole then s else s.noteShared n l.line a false
    let s := match nodeFor l.core l.line with
      | .slice d => match s.sliceLine? d l.line with
        | some x => (note (note s (.slice d) (.l1 l.core)) .home (.slice d)).putSlice { x with val := l.val, st := if sole then .e else .s }
        | none => s
      | .home => note s .home (.l1 l.core)
    s.putHome l.line l.val
  else s

/-- Every dirty line of a core (R118). -/
def State.cleanCore (s : State) (core : Nat) : State :=
  (s.l1.filter fun l => l.core == core).foldl (fun s l => s.cleanLine l) s

end Sys2Proof.Machine
end

