-- ==== Sys2Proof/Machine/Translate.lean ====
section
/-! DEFINITION. Two-stage translation (R378 to R382): page-table entries, walks, permissions and the TLBs. -/

namespace Sys2Proof.Machine

/-- The home address of an address under an ATTR (R374, R379): a peer's stands above device memory. -/
def attrPa (attr pa : Nat) : Nat := if attr = 2 then pa + peerBase else pa

end Sys2Proof.Machine

namespace Sys2Proof

/-- ATTR of a stage-2 leaf (R379). -/
def PteLeaf.attr (l : PteLeaf) : Nat := fieldN l.pte 9 8

/-- The place that a stage-2 leaf gives an address of its page. -/
def PteLeaf.at_ (l : PteLeaf) (a : Nat) : Nat := Machine.attrPa l.attr (l.base + a % l.size)

end Sys2Proof

namespace Sys2Proof.Machine

/-- What an access needs of both leaves (R380). -/
structure Need where
  r : Bool
  w : Bool
  x : Bool
  deriving DecidableEq, Repr

/-- A load's, a store's, an atomic's and a fetch's need (R380). -/
def needR : Need := ⟨true, false, false⟩
@[inherit_doc needR]
def needW : Need := ⟨false, true, false⟩
@[inherit_doc needR]
def needRW : Need := ⟨true, true, false⟩
@[inherit_doc needR]
def needX : Need := ⟨false, false, true⟩

/-- Why a walk faults (R380, R384): the stage, and whether an entry was malformed. -/
structure WalkFault where
  stage2 : Bool
  malf   : Bool
  deriving DecidableEq, Repr

/-- Bytes at a place that a leaf names: device memory coherently, host memory, or a peer's (R374, R379, R381). U copies count as recalled. -/
def State.peek (s : State) (attr gen pa n : Nat) : List Byte :=
  if attr = 1 then s.host.read 0 pa n else (s.recallURange pa n).cohBytes gen pa n

/-- Whether such bytes are poisoned. -/
def State.peekPoison (s : State) (attr gen pa n : Nat) : Bool :=
  if attr = 1 then s.host.anyPoison 0 pa n else (s.recallURange pa n).cohPoison gen pa n

/-- What an agent at the home does to the lines it reads there: update-only copies recalled (R79), the L2 touched with `.en` (R92); what two running partitions map is free (R371). -/
def State.recallAt (s : State) (attr gen pa n : Nat) : State :=
  if attr = 1 then s else ((s.recallURange pa n).touchEn gen (linesOf pa n) false).blurRange gen pa n

/-- A walk of one stage over the remaining levels, `rd` reading the entry at an address of the stage's table space. -/
def walkFrom (stage2 : Bool) (rd : Nat → Except WalkFault Dword) (va : Nat) : List Level → Nat → Except WalkFault PteLeaf
  | [], _ => .error ⟨stage2, true⟩
  | l :: rest, table => do
    let e ← rd (table + 8 * natBits va l.hi l.lo)
    if !bitAt e 0 then throw ⟨stage2, false⟩
    let lf := bitAt e 1
    if (lf && !l.leaf) || (!lf && rest.isEmpty) || pteMalformed e stage2 lf l.lo then throw ⟨stage2, true⟩
    if lf then pure { base := fieldN e 55 16 * 65536, size := 2 ^ l.lo, pte := e }
    else walkFrom stage2 rd va rest (fieldN e 55 16 * 65536)

/-- A leaf grants what is needed (R380). -/
def permits (e : Dword) (n : Need) : Bool := (!n.r || bitAt e 2) && (!n.w || bitAt e 3) && (!n.x || bitAt e 4)

/-- The table entries that a walk of one stage reads, by their addresses in the stage's table space. -/
def walkReads (rd : Nat → Except WalkFault Dword) (va : Nat) : List Level → Nat → List Nat
  | [], _ => []
  | l :: rest, table =>
    let a := table + 8 * natBits va l.hi l.lo
    a :: match rd a with
      | .ok e => if bitAt e 0 && !bitAt e 1 then walkReads rd va rest (fieldN e 55 16 * 65536) else []
      | .error _ => []

/-- A stage-2 entry as a walk reads it (R378). -/
def State.entry2 (s : State) (a : Nat) : Except WalkFault Dword := if populated a then .ok (s.rawEntry a) else .error ⟨true, true⟩

/-- Stage 2: partition physical to device physical, host bus or peer (R378, R379). -/
def State.stage2 (s : State) (p ipa : Nat) (n : Need) : Except WalkFault PteLeaf := do
  let l ← walkFrom true s.entry2 (ipa % 2 ^ 56) levels (s.part p).s2root.toNat
  if !permits l.pte n then throw ⟨true, false⟩
  if fieldN l.pte 9 8 = 0 ∧ !populated (l.base + ipa % l.size) then throw ⟨true, true⟩
  pure l

/-- A stage-1 entry as a walk reads it, through stage 2 with R, which `second` gives (R378, R380). -/
def State.entry1 (s : State) (second : Nat → Need → Except WalkFault PteLeaf) (p a : Nat) : Except WalkFault Dword := do
  let l ← second a needR
  .ok (BitVec.ofNat 64 (ofLe (s.peek l.attr (s.genOf p) (l.at_ a) 8)))

/-- Stage 1: partition virtual to partition physical (R378, R380). -/
def State.stage1By (s : State) (second : Nat → Need → Except WalkFault PteLeaf) (p va : Nat) (n : Need) : Except WalkFault PteLeaf := do
  let l ← walkFrom false (s.entry1 second p) (va % 2 ^ 56) levels (s.part p).s1root.toNat
  if !permits l.pte n then throw ⟨false, false⟩
  pure l

/-- The leaves of both stages as one leaf of the smaller page (R229, R380). -/
def bothLeaves (va : Nat) (l1 l2 : PteLeaf) : Leaf :=
  let ipa := l1.base + va % l1.size
  let size := min l1.size l2.size
  let both (i : Nat) : Bool := bitAt l1.pte i && bitAt l2.pte i
  { base := l2.base + ipa % l2.size - va % size, size := size, size1 := l1.size, size2 := l2.size, ipa := ipa - va % size,
    r := both 2, w := both 3, x := both 4, attr := l2.attr, pin := bitAt l2.pte 6, site := bitAt l1.pte 5, cow := bitAt l2.pte 62 }

/-- Both stages for a global address, walked anew (R378, R380). -/
def State.walk (s : State) (p va : Nat) (n : Need) : Except WalkFault Leaf := do
  let va := va % 2 ^ 56
  let l1 ← s.stage1By (s.stage2 p) p va n
  let l2 ← s.stage2 p (l1.base + va % l1.size) n
  pure (bothLeaves va l1 l2)

/-- The TLBs a core's accesses look in, nearest first (R381). -/
def tlbLevels (core : Nat) : List TlbLevel := [.l1 core, .cluster (clusterOf core), .die (dieOf core)]

/-- Entries of each level (R381). -/
def tlbSize : TlbLevel → Nat
  | .l1 _ => 64
  | .cluster _ => 4096
  | .die _ => 32768

/-- A page of a stage as a TLB in reach of a core holds it, with the permission needed (R381). -/
def State.tlbHit (s : State) (core p : Nat) (second : Bool) (a : Nat) (n : Need) : Option PteLeaf :=
  (tlbLevels core).findSome? fun lv => (s.tlb.find? fun e =>
    e.level == lv && e.part == p && e.stage2 == second && a / e.leaf.size * e.leaf.size == e.page && permits e.leaf.pte n).map (·.leaf)

/-- A stage's result put into the TLBs of a core, over what they held of its page, the oldest entry of a full level leaving. -/
def State.tlbFill (s : State) (core p : Nat) (second : Bool) (a : Nat) (l : PteLeaf) : State :=
  let page := a / l.size * l.size
  { s with tlb := (tlbLevels core).foldl (fun t lv =>
      let t := t.filter fun e => !(e.level == lv && e.part == p && e.stage2 == second && e.page == page && e.leaf.size == l.size)
      let mine := t.filter fun e => e.level == lv
      let t := if tlbSize lv ≤ mine.length then (match mine.head? with | some e => t.erase e | none => t) else t
      t ++ [{ level := lv, part := p, stage2 := second, page := page, leaf := l }]) s.tlb }

/-- Stage 2 for a core: from a TLB, else by a walk (R378, R381). -/
def State.second (s : State) (core p ipa : Nat) (n : Need) : Except WalkFault PteLeaf :=
  match s.tlbHit core p true (ipa % 2 ^ 56) n with
  | some l => .ok l
  | none => s.stage2 p ipa n

/-- Stage 1 for a core: from a TLB, else by a walk whose table addresses go through stage 2 (R378, R381). -/
def State.first (s : State) (core p va : Nat) (n : Need) : Except WalkFault PteLeaf :=
  match s.tlbHit core p false va n with
  | some l => .ok l
  | none => s.stage1By (s.second core p) p va n

/-- The device-physical addresses of the stage-2 entries that a core's walk of a partition-physical address reads. -/
def State.reads2 (s : State) (core p ipa : Nat) (n : Need) : List Nat :=
  if (s.tlbHit core p true (ipa % 2 ^ 56) n).isSome then [] else walkReads s.entry2 (ipa % 2 ^ 56) levels (s.part p).s2root.toNat

/-- The device-physical addresses of the entries that a walk of stage 1 reads, each behind those of its own stage-2 walk (`reads2`, whose result is `second`). -/
def State.reads1 (s : State) (reads2 : Nat → Need → List Nat) (second : Nat → Need → Except WalkFault PteLeaf) (p a : Nat) : List Nat :=
  (walkReads (s.entry1 second p) (a % 2 ^ 56) levels (s.part p).s1root.toNat).flatMap fun e =>
    reads2 e needR ++ match second e needR with
      | .ok l => if l.attr = 1 then [] else [l.at_ e]
      | .error _ => []

/-- Those of the entries of both stages, behind the ones of stage 1, whose result is `first`. -/
def readsBoth (reads2 : Nat → Need → List Nat) (ones : List Nat) (first : Except WalkFault PteLeaf) (a : Nat) (n : Need) : List Nat :=
  ones ++ match first with
    | .ok l => reads2 (l.base + a % l.size) n
    | .error _ => []

/-- The device-physical addresses of the entries of both stages that the translation of an address for a core reads. -/
def State.walkedFor (s : State) (core p a : Nat) (n : Need) : List Nat :=
  let ones := if (s.tlbHit core p false a n).isSome then [] else s.reads1 (s.reads2 core p) (s.second core p) p a
  readsBoth (s.reads2 core p) ones (s.first core p a n) a n

/-- Update-only copies of page-table entries are recalled (R79); `es` lists the entries read, when there is such a copy. -/
def State.recallEntries (s : State) (es : Unit → List Nat) : State :=
  if s.uevicts.isEmpty && !(s.l1.any fun l => isU l.st) then s else (es ()).foldl (fun s e => s.recallURange e 8) s

/-- The device memory that the entries of a stage-1 walk stand in. -/
def State.tables1 (s : State) (second : Nat → Need → Except WalkFault PteLeaf) (p a : Nat) : List Nat :=
  (walkReads (s.entry1 second p) (a % 2 ^ 56) levels (s.part p).s1root.toNat).filterMap fun e => match second e needR with
    | .ok l => if l.attr = 1 then none else some (l.at_ e)
    | .error _ => none

/-- What a partition's stage-1 walk reads of a frame that two running partitions map is free (R371). -/
def State.blurTables (s : State) (second : Nat → Need → Except WalkFault PteLeaf) (p a : Nat) : State :=
  if s.runners.length < 2 then s else (s.tables1 second p a).foldl (fun s e => s.blurRange (s.genOf p) e 8) s

/-- Before a translation walks page tables, update-only copies of them are recalled (R79), and what two running partitions map is free (R371). -/
def State.recallWalk (s : State) (core p a : Nat) (n : Need) : State :=
  let s := s.recallEntries fun _ => s.walkedFor core p a n
  if (s.tlbHit core p false a n).isSome then s else s.blurTables (s.second core p) p a

/-- The same for the tables that the Binnacle's agents walk, which keep no TLB here, for an address of a partition, and for a partition-physical one. -/
def State.recallTables (s : State) (p a : Nat) : State :=
  let reads2 (ipa : Nat) (_ : Need) : List Nat := walkReads s.entry2 (ipa % 2 ^ 56) levels (s.part p).s2root.toNat
  let s := s.recallEntries fun _ => readsBoth reads2 (s.reads1 reads2 (s.stage2 p) p a) (s.stage1By (s.stage2 p) p (a % 2 ^ 56) ⟨false, false, false⟩) (a % 2 ^ 56) needR
  s.blurTables (s.stage2 p) p a
@[inherit_doc State.recallTables]
def State.recallTables2 (s : State) (p ipa : Nat) : State := s.recallEntries fun _ => walkReads s.entry2 (ipa % 2 ^ 56) levels (s.part p).s2root.toNat

/-- A double word as an agent at the home reads it (R79), free where two running partitions map its frame (R371). -/
def State.agentDword (s : State) (attr gen pa : Nat) : Dword := 
  BitVec.ofNat 64 (ofLe ((if attr = 1 then s else s.blurRange gen pa 8).peek attr gen pa 8))

/-- The translation of a global address for a core (R378 to R381): each stage from a TLB when one holds it with the permission needed, else by a walk, whose result the TLBs take. No
TLB holds a translation that faulted. -/
def State.translate (s : State) (core p : Nat) (va : Dword) (n : Need) : State × Except WalkFault Leaf :=
  let a := va.toNat % 2 ^ 56
  let s := s.recallWalk core p a n
  match s.first core p a n with
  | .error f => (s, .error f)
  | .ok l1 =>
    let s := if (s.tlbHit core p false a n).isSome then s else s.tlbFill core p false a l1
    let ipa := l1.base + a % l1.size
    match s.second core p ipa n with
    | .error f => (s, .error f)
    | .ok l2 => (if (s.tlbHit core p true (ipa % 2 ^ 56) n).isSome then s else s.tlbFill core p true (ipa % 2 ^ 56) l2, .ok (bothLeaves a l1 l2))

/-- The place an address names within a leaf's page. -/
def leafPa (l : Leaf) (va : Dword) : Nat := attrPa l.attr (l.base + va.toNat % l.size)

/-- A TLBINV of this argument covers a page of a stage's input space (R382). -/
def pageCovered (parg : Dword) (second : Bool) (page size : Nat) : Bool :=
  let start := fieldN parg 55 16 * 65536
  bitAt parg (if second then 1 else 0) &&
    (bitAt parg 2 || (decide (page < start + 65536 * 2 ^ fieldN parg 11 4) && decide (start < page + size)))

/-- TLBINV: no TLB holds a covered entry of the partition (R382). -/
def State.tlbInvalidate (s : State) (p : Nat) (parg : Dword) : State :=
  { s with tlb := s.tlb.filter fun e => !(e.part == p && pageCovered parg e.stage2 e.page e.leaf.size) }

end Sys2Proof.Machine
end

