-- ==== Sys2Proof/Machine/Ops.lean ====
section
/-! DEFINITION. The named operations over registers, splits and traps that every meaning is written with: reading and writing rows, the split table (R23 to R27), the
fault queue (R383 to R385), taking a precise trap (R279, R280) and the return from it (R281), and the frame in which one word issues (R152 to R154, R156). -/

namespace Sys2Proof.Machine

/-- A row nothing has written: zero, RAW, full (R34, R368). -/
def rowZero : VRow := { lanes := Vector.replicate 32 0, tag := .raw, full := true, poison := false }

/-- A free split-table entry (R23). -/
def entryFree : Entry :=
  { pc := 0, state := .free, rpc := 0, rv := false, own := 0, ex := 0, rmask := 0, age := 0, wait := .none, ibuf := none, stepDue := none,
    passed := false, turns := 0 }

/-- Row i of a group. -/
def row (g : Group) (i : Nat) : VRow := mapGet rowZero g.rows i

/-- A number noted in a list without repeats. -/
def note (l : List Nat) (i : Nat) : List Nat := if l.contains i then l else i :: l

/-- A row stored; it is noted as written since the last `opfence` (R114). -/
def setRow (g : Group) (i : Nat) (r : VRow) : Group := { g with rows := mapPut rowZero g.rows i r, since := note g.since i }

/-- Scalar register i (R10). -/
def sreg (g : Group) (i : Nat) : Dword := vget g.s i 0

/-- The poison mark that a restore has left on a register goes when the whole register is written (R215, R388). -/
def healed (g : Group) (code : Nat) (whole : Bool) : List Nat := if whole then g.hurt.filter (· != code) else g.hurt

/-- A scalar register written. -/
def setS (g : Group) (i : Nat) (v : Dword) : Group := { g with s := vset g.s i v, hurt := healed g (8192 + i) true }

/-- Index register i, by lane (R10, R186). -/
def xreg (g : Group) (i : Nat) : Vector Half 32 := vget g.x i (Vector.replicate 32 0)

/-- Index register i written in the lanes of a mask. -/
def setX (g : Group) (i : Nat) (m : Mask) (v : Vector Half 32) : Group :=
  { g with x := vset g.x i (blend m v (xreg g i)), hurt := healed g (16384 + i) (m == 0xFFFFFFFF) }

/-- Predicate i as a mask; p0 is true in every lane (R22, R156: writes to it are discarded). -/
def preg (g : Group) (i : Nat) : Mask := if i = 0 then 0xFFFFFFFF else vget g.pr i 0

/-- A predicate written in the lanes of a mask; p0 discards the write (R156). -/
def setP (g : Group) (i : Nat) (m v : Mask) : Group :=
  if i = 0 then g else { g with pr := vset g.pr i ((preg g i &&& ~~~m) ||| (v &&& m)), hurt := healed g (24576 + i) (m == 0xFFFFFFFF) }

/-- Split-table entry k. -/
def entry (g : Group) (k : Nat) : Entry := vget g.split k entryFree

/-- Split-table entry k stored. -/
def setEntry (g : Group) (k : Nat) (e : Entry) : Group := { g with split := vset g.split k e }

/-- The four entry numbers. -/
def entries : List Nat := [0, 1, 2, 3]

/-- The lowest free entry (R24). -/
def freeEntry (g : Group) : Option Nat := entries.find? fun k => (entry g k).state == .free

/-- The number of free entries (R161). -/
def freeCount (g : Group) : Nat := (entries.filter fun k => (entry g k).state == .free).length

/-- The register allotment in rows (R33, R35). -/
def allotOf (g : Group) : Nat := g.allot

/-- Lanes of a mask that are threads: not helper lanes (R20). -/
def threadsOf (g : Group) (m : Mask) : Mask := m &&& ~~~g.helpers

/-- The guard of a word in every lane (R22). -/
def guardMask (g : Group) (h : Hdr) : Mask := if h.pn then ~~~(preg g h.pg.toNat) else preg g h.pg.toNat

/-- PC + 8 (R137). -/
def pcNext (e : Entry) : Dword := e.pc + 8

/-- Code of a cause in TRAPCAUSE (R278). -/
def causeCode : Cause → Nat
  | .illop => 0x01
  | .splitfull => 0x02
  | .regbound => 0x03
  | .emptyreg => 0x04
  | .tagmismatch => 0x05
  | .align => 0x06
  | .access => 0x07
  | .poison => 0x08
  | .gangerr => 0x09
  | .matrixerr => 0x0A
  | .softtrap => 0x0B
  | .bkpt => 0x0C
  | .watch => 0x0D
  | .step => 0x0E

/-- Bytes written at a place that a leaf names, by an agent at the home (R374, R379); what two running partitions map is free (R371). -/
def State.poke (s : State) (attr gen pa : Nat) (bs : List Byte) (pois : Bool) : State :=
  if attr = 1 then { s with host := s.host.write 0 pa bs pois }
  else ((s.takeIn (homeGen gen pa) pa bs.length).cohWrite gen pa bs pois).blurRange gen pa bs.length

/-- Bytes written there for a program or for an engine's command, or by the host: what the write leaves undefined takes free values (R230, R313, R337, log 3). -/
def State.softPoke (s : State) (attr gen pa : Nat) (bs : List Byte) (pois : Bool) : State :=
  let (bs, s) := s.softBytes pa bs attr
  if attr = 1 then s.poke 1 gen pa bs pois
  else s.softly gen pa bs.length fun s => s.cohWrite gen pa bs pois

/-- A record dropped and counted (R385). -/
def faultDropped (p : Part) : Part := { p with fqDrop := if p.fqDrop = 0xFFFF then p.fqDrop else p.fqDrop + 1 }

/-- A page still marked COW that a write of no group waits for is drained next by the partition's fixes (R417). -/
def State.wantPage (s : State) (p page : Nat) : State :=
  s.modPart p fun x => { x with fixes := x.fixes.map fun f => if f.wanted.contains page then f else { f with wanted := f.wanted ++ [page] } }

/-- A record written into a partition's fault ring, or dropped (R383 to R385); the page that still marked COW holds it back (R417). -/
def State.ringPut (s : State) (p : Nat) (bs : List Byte) : Except Nat State :=
  let q := s.part p
  let n := q.fqLog2.toNat
  if !q.fqEn || n < 4 || 16 < n || decide (2 ^ n ≤ (q.fqwr - q.fqrd).toNat) then .ok (s.modPart p faultDropped)
  else
    let ipa := (q.fqbase + 32 * BitVec.ofNat 64 (q.fqwr.toNat % 2 ^ n)).toNat
    let s := s.recallTables2 p ipa
    match s.stage2 p ipa needW with
    | .error _ => .ok (s.modPart p fun q => { faultDropped q with fqEn := false })
    | .ok l =>
      if !bitAt l.pte 6 then .ok (s.modPart p fun q => { faultDropped q with fqEn := false })
      else if bitAt l.pte 62 then .error (ipa / 65536 * 65536)
      else .ok ((s.poke l.attr q.gen (l.at_ ipa) bs false).modPart p fun q => { q with fqwr := q.fqwr + 1 })

/-- The records that a COW page has held back are written, oldest first, as far as their pages allow (R417); the fuel is their number. -/
def State.flushFaults (s : State) (p : Nat) : Nat → State
  | 0 => s
  | n + 1 => match (s.part p).fqHeld with
    | [] => s
    | r :: rest => match s.ringPut p r with
      | .error page => s.wantPage p page
      | .ok s => (s.modPart p fun x => { x with fqHeld := rest }).flushFaults p n

/-- A record appended to a partition's fault queue (R383 to R385), behind those that a COW page holds back (R417). -/
def State.pushFault (s : State) (p : Nat) (w0 w1 w2 w3 : Dword) : State :=
  let bs := [w0, w1, w2, w3].flatMap fun w => leBytes 8 w.toNat
  if (s.part p).fqHeld.isEmpty then match s.ringPut p bs with
    | .ok s => s
    | .error page => (s.modPart p fun x => { x with fqHeld := [bs] }).wantPage p page
  else s.modPart p fun x => { x with fqHeld := x.fqHeld ++ [bs] }

/-- The thread word of a record (R8, R384). -/
def threadWord (span block group lane : Nat) : Dword := BitVec.ofNat 64 (span * 2 ^ 19 + block * 2 ^ 15 + group * 2 ^ 5 + lane)

/-- Word 0 of a record (R384). -/
def recordW0 (kind cause : Nat) (malf stage2 write fetch : Bool) : Dword :=
  let b (x : Bool) (i : Nat) : Nat := if x then 2 ^ i else 0
  BitVec.ofNat 64 (kind + cause * 256 + b malf 16 + b stage2 17 + b write 18 + b fetch 19)

/-- The TRAPHALT record of a group halted at a trap or at a debugger breakpoint (R280, R283, R385). -/
def State.trapHaltRecord (s : State) (g : Group) (cause : Cause) (lane : Nat) (pc : Dword) : State :=
  s.pushFault g.part (recordW0 2 (causeCode cause) false false false false) (threadWord g.span g.block g.group lane) 0 pc

/-- TRAPCAUSE of a trap (R277, R278). -/
def trapCauseWord (cause : Cause) (lane : Option Nat) : Dword :=
  BitVec.ofNat 64 ((causeCode cause) + match lane with | some l => l * 256 + 2 ^ 13 | none => 0)

/-- The trap registers as a trap of split k leaves them (R279). -/
def trapRegs (g : Group) (k : Nat) (act : Mask) (cause : Cause) (lane : Option Nat) (info : Dword) : Group :=
  { g with
    trappc := (entry g k).pc
    traplanes := (act ++ (entry g k).ex : BitVec 64)
    trapcause := trapCauseWord cause lane
    trapinfo := info }

/-- The entries other than k that hold a split. -/
def othersOf (g : Group) (k : Nat) : BitVec 4 :=
  entries.foldl (fun m j => if j ≠ k ∧ (entry g j).state ≠ .free then m ||| (1#4 <<< j) else m) 0

/-- TAKING A PRECISE TRAP of split k of a group (R279, R280): the trap registers are written; then the handler is entered in that split, or, when the group is in handler
mode, has no handler, or `noHandler` says the trap never enters one, the group halts and the driver is told. -/
def State.takeTrap (s : State) (gid k : Nat) (act : Mask) (cause : Cause) (lane : Option Nat) (info : Dword) (noHandler : Bool := false) : State :=
  match s.group? gid with
  | none => s
  | some g =>
    let g1 := trapRegs g k act cause lane info
    let e := { entry g k with state := .runnable, wait := .none, ibuf := none, stepDue := none, age := 0, turns := 0 }
    if g.hmode || noHandler || zeroAt g.trapbase 63 3 then
      let g2 := setEntry { g1 with halt := true, halt280 := true } k e
      let who := match lane with | some l => l | none => (lowestLane act).getD ((lowestLane e.ex).getD 0)
      (s.setGroup g2).trapHaltRecord g2 cause who g2.trappc
    else
      s.setGroup (setEntry { g1 with hmode := true, stopped := othersOf g k } k { e with pc := g.trapbase &&& ~~~7 })

/-- THE RETURN FROM A TRAP in split k (R281): to TRAPPC, or to the word behind it; EX is restored within OWN, handler mode ends, the other splits issue again. -/
def trapReturn (g : Group) (k : Nat) (next : Bool) : Group :=
  let e := entry g k
  setEntry { g with hmode := false, stopped := 0 } k
    { e with pc := if next then g.trappc + 8 else g.trappc, ex := field g.traplanes 31 0 &&& e.own }

/-- A parked split made runnable again, at the given PC. -/
def wakeAt (e : Entry) (pc : Dword) : Entry := { e with state := .runnable, wait := .none, pc := pc }

/-- The split of an entry leaves its wait at PC + 8 with `v` in scalar sd. -/
def wakeWith (g : Group) (k sd : Nat) (v : Dword) : Group := setS (setEntry g k (wakeAt (entry g k) (pcNext (entry g k)))) sd v

/-- The words that a group has fetched ahead are discarded (R394). -/
def refetch (g : Group) : Group := { g with split := Vector.ofFn fun i : Fin 4 => { entry g i.val with ibuf := none } }

/-- The split of an entry leaves its wait at PC + 8. -/
def wakeSplit (g : Group) (k : Nat) : Group := setEntry g k (wakeAt (entry g k) (pcNext (entry g k)))

/-- Two splits may merge (R25). -/
def canMerge (a b : Entry) : Bool :=
  a.pc == b.pc && (b.state == .runnable || b.state == .joinPark) && (!(a.rv && b.rv) || a.rpc == b.rpc)

/-- The merged split (R25), in the state given. A word that one of the two has fetched may be older than the other's last park or trap, so it is fetched anew (R394). -/
def mergedEntry (a b : Entry) (st : SplitState) : Entry :=
  { a with state := st, own := a.own ||| b.own, ex := a.ex ||| b.ex, rmask := a.rmask ||| b.rmask, rv := a.rv || b.rv,
           rpc := if a.rv then a.rpc else b.rpc, age := if a.age.toNat ≤ b.age.toNat then b.age else a.age,
           ibuf := none, stepDue := a.stepDue.or b.stepDue, turns := max a.turns b.turns }

/-- Entry k merges with every entry it may merge with; the lower number survives (R25). Stopped entries keep their state (R279). -/
def mergeInto (g : Group) (k : Nat) (st : SplitState) : Group × Nat :=
  entries.foldl (fun (acc : Group × Nat) j =>
    let (g, k) := acc
    if j = k ∨ g.stopped.getLsbD j then acc
    else if canMerge (entry g k) (entry g j) ∧ (entry g j).state ≠ .free then
      let m := mergedEntry (entry g k) (entry g j) st
      let lo := min j k
      let hi := max j k
      (setEntry (setEntry g hi entryFree) lo m, lo)
    else acc) (g, k)

/-- What issuing one word comes to: done, with the state it leaves; a precise trap (R153); not ready, so that the split is passed over (R41); or kept at its PC by a
parked access (R213, R417). -/
inductive Issue
  | done (s : State)
  | trap (s : State) (cause : Cause) (lane : Option Nat) (info : Dword)
  | notReady
  | stay (s : State)

/-- A check that fails (R153). -/
inductive Stop
  | trap (cause : Cause) (lane : Option Nat) (info : Dword)
  | notReady
  deriving DecidableEq, Repr

/-- The result of checks. -/
abbrev Chk := Except Stop

/-- A precise trap without a lane. -/
def trapNow {α : Type} (c : Cause) (info : Dword) : Chk α := .error (.trap c none info)

/-- The frame of one issuing word: the state, the group, the entry number and the entry as fetched, the instruction, its header, its active lanes (R22) and those of them that
are threads. -/
structure Ctx where
  s   : State
  g   : Group
  k   : Nat
  e   : Entry
  i   : Instr
  h   : Hdr
  act : Mask
  thr : Mask

/-- The word that issues (R137). -/
def Ctx.word (c : Ctx) : Dword := (encode c.i).getD 0

/-- The split's next state with the group given, its PC moved past the word. -/
def Ctx.finish (c : Ctx) (g : Group) : State :=
  c.s.setGroup (setEntry g c.k { entry g c.k with pc := pcNext c.e })

/-- Only the PC moves. -/
def Ctx.advance (c : Ctx) : State := c.finish c.g

/-- A scalar or group-level word executes: guarded by `(p0)`, or its guard holds in some EX lane (R28). -/
def Ctx.executes (c : Ctx) : Bool := (c.h.pg == 0 && !c.h.pn) || c.act != 0

/-- The first register other than a vector row that the word reads and that a restore has marked poisoned (R388). With helper lanes alone nothing traps (R20). -/
def Ctx.hurtRead (c : Ctx) : Option Nat :=
  if c.g.hurt.isEmpty || (c.thr == 0 && c.act != 0) then none
  else (guardReads c.h ++ if c.executes then sourcesOf c.i else []).find? c.g.hurt.contains

/-- Such a register, for which the word traps: a prefetch never does (R222). -/
def Ctx.hurtSource (c : Ctx) : Option Nat := match c.i with | .pf _ => none | _ => c.hurtRead

/-- A split of the group waits in a fence, or in a step that acts as one (R102, R117, R245). -/
def fencing (g : Group) : Bool := entries.any fun k => match (entry g k).wait with | .fence _ => true | .stepAdv _ _ => true | _ => false

/-- Every later memory access of the group waits for an acquire's result (R217, R226), and for a fence that has issued in any of its splits (R102, R103).
DESIGN CHOICE (log 20): a split that stands parked in `mwait.acq` or in a `tbar` wait holds back no access of its sibling splits, whose progress R43 promises. -/
def Ctx.held (c : Ctx) : Bool := !c.g.holds.isEmpty || fencing c.g

/-- The checks' outcome, and what follows when they pass. -/
def Ctx.conclude {α : Type} (c : Ctx) (r : Chk α) (f : α → Issue) : Issue :=
  match r with
  | .ok a => f a
  | .error .notReady => .notReady
  | .error (.trap cause lane info) => .trap c.s cause lane info

/-- The entry that holds the issuing split once its word has issued (R26): its own, or the one that a merge at a join has left. -/
def Ctx.survivor (c : Ctx) (g : Group) : Nat :=
  if (entry g c.k).state ≠ .free then c.k
  else (entries.find? fun j => (entry g j).state != .free && (entry g j).own &&& c.e.own != 0).getD c.k

/-- The age of the issuing split after its word (R23, R25): 0, or that of the split it has merged with. -/
def Ctx.ageAfter (c : Ctx) (e : Entry) : BitVec 16 := if (e.own ||| e.rmask) &&& ~~~(c.e.own ||| c.e.rmask) = 0 then 0 else e.age

/-- What holds of every word that has issued: its split's AGE is cleared, its fetched word used up, and under single step STEP is raised or becomes due (R23, R279), unless the word
itself has trapped. A STEP that a split it has merged with owes stays due. -/
def Ctx.issued (c : Ctx) (s : State) : State :=
  match s.group? c.g.gid with
  | none => s
  | some g =>
    let k := c.survivor g
    let e := entry g k
    if e.state = .free then s
    else
      let single := c.g.ss && !c.g.hmode && !g.hmode && !(g.halt280 && !c.g.halt280)
      let owed := if single && e.state != .runnable then some c.act else e.stepDue
      let s1 := s.setGroup (setEntry g k { e with age := c.ageAfter e, ibuf := none, turns := 0, stepDue := owed })
      if single && e.state == .runnable then s1.takeTrap g.gid k c.act .step none 0 else s1

/-- No split is selected any more: the word has issued, trapped or parked its group. A word that was not ready leaves its split selected (R41). -/
def State.turnOver (s : State) : State := { s with cur := none }

/-- The row a relative operand names in a lane, exact (R187). -/
def relIndex (g : Group) (x : Nat) (k : BitVec 9) (lane : Nat) : Int := (laneOf (xreg g x) lane).toInt + k.toInt

/-- The registers that the word writes as it issues, by save code, with their lanes. -/
def Ctx.dests (c : Ctx) : List (Nat × Mask) :=
  let all : Mask := 0xFFFFFFFF
  match c.i with
  | .movw w => ((List.range c.g.allot).map fun (r : Nat) => (r, maskOf fun l => c.act.getLsbD l && relIndex c.g w.d.toNat w.b l == (r : Int))).filter (·.2 != 0)
  | .cmp w => if c.act = 0 then [] else (writesOf (.cmp w)).map (·, c.e.ex)
  | .cvt w =>
    let tag := if names w.z .a then Tag.raw else (row c.g w.a.toNat).tag
    let src := if w.form = .native ∨ tag = .raw then Tag.ofCode (srcfOf w.m) else tag
    (cvtRows src (Tag.ofCode (dstfOf w.c)) w.d).map (·, c.act)
  | i => (writesOf i).filterMap fun r => if r / 8192 ≠ 1 then some (r, c.act) else if c.executes then some (r, all) else none

/-- A register with free values in the lanes of a mask (R7, log 3). -/
def State.freeReg (s : State) (gid code : Nat) (m : Mask) : State :=
  let (ws, s) := s.freeWords 32
  let i := code % 512
  let w (l : Nat) : Word := ws.getD l 0
  s.modGroup gid fun g => match code / 8192 with
    | 0 => setRow g i { row g i with lanes := blend m (lanesOf w) (row g i).lanes }
    | 1 => setS g i ((w 1).zeroExtend 64 <<< 32 ||| (w 0).zeroExtend 64)
    | 2 => setX g i m (lanesOf fun l => (w l).truncate 16)
    | _ => setP g i m (w 0)

/-- A PC lies in the region that a group runs again, or in its recipe (R327). -/
def inRerun (r : Rerun) (pc : Nat) : Bool := (decide (r.start ≤ pc) && decide (pc < r.stop)) || (decide (r.recipe ≤ pc) && decide (pc < r.rstop))

/-- What a word of a rewound region has written (R328): its registers, which are noted and free once a rule is broken, the returns it has opened, and what its split's wait will write. -/
def Ctx.rerunWrites (c : Ctx) (s : State) : State :=
  match c.g.rerun with
  | none => s
  | some r =>
    if !inRerun r c.e.pc.toNat then s
    else
      let s := if r.broken then c.dests.foldl (fun s d => s.freeReg c.g.gid d.1 d.2) s else s
      let s : State := { s with rets := s.rets.map fun x =>
        if x.gid == c.g.gid && decide (c.s.nextId ≤ x.id) then { x with again := true, loose := r.broken } else x }
      s.modGroup c.g.gid fun g =>
        let late := if (entry g c.k).state = .waitPark then c.dests.map fun d => (c.k, d.1) else []
        { g with rerun := g.rerun.map fun r => { r with regs := r.regs ++ c.dests, late := r.late ++ late } }

/-- Before a split of a group that runs a region again issues, what the ended waits of its words have left in registers is free as well, once a rule is broken (R328). -/
def State.freeLate (s : State) (gid : Nat) : State :=
  match s.group? gid with
  | none => s
  | some g => match g.rerun with
    | none => s
    | some r =>
      let ended (x : Nat × Nat) : Bool := (entry g x.1).state != .waitPark
      if !r.late.any ended then s
      else (if r.broken then (r.late.filter ended).foldl (fun s x => s.freeReg gid x.2 0xFFFFFFFF) s else s).modGroup gid fun g =>
        { g with rerun := g.rerun.map fun r => { r with late := r.late.filter fun x => !ended x } }

/-- ONE WORD ISSUES in the selected split: step 1 of R153, the poison marks of registers that are no vector rows (R388), then its meaning. -/
def runWord (i : Instr) (h : Hdr) (s : State) (body : Ctx → Issue) : Host.Outcome State Fault Refusal :=
  match s.cur with
  | none => .fault .noIssuingSplit
  | some (gid, k) =>
    match s.group? gid with
    | none => .fault .noIssuingSplit
    | some g =>
      let e := entry g k
      let act := e.ex &&& guardMask g h
      let c : Ctx := { s := s, g := g, k := k, e := e, i := i, h := h, act := act, thr := threadsOf g act }
      let out := if i.wellFormed then (match c.hurtSource with | none => body c | some r => .trap s .poison none (BitVec.ofNat 64 (r % 8192)))
        else .trap s .illop none c.word
      match out with
      | .done s' => .next (c.issued (c.rerunWrites s')).turnOver
      | .trap s' cause lane info => .next (s'.takeTrap gid k act cause lane info).turnOver
      | .notReady => .next s
      | .stay s' => .next s'.turnOver

/-- A scalar or group-level word (R28, R191): checks, then its effect; without an executing lane only the PC moves. -/
def runScalar (i : Instr) (h : Hdr) (s : State) (body : Ctx → Issue) : Host.Outcome State Fault Refusal :=
  runWord i h s fun c => if c.executes then body c else .done c.advance

/-- A scalar word whose whole effect is a change of the group. -/
def runScalarG (i : Instr) (h : Hdr) (s : State) (f : Ctx → Group) : Host.Outcome State Fault Refusal :=
  runScalar i h s fun c => .done (c.finish (f c))

end Sys2Proof.Machine
end

