-- ==== Sys2Proof/Machine/Operands.lean ====
section
/-! DEFINITION. Operand forms: vector sources with their Z and E markers, the checks of steps 3 to 5 of R153, the write of vector rows (R126), the formats that native,
quickened and generic words have (R127, R158, R305, R307, R309), and the frame every per-lane register instruction runs in. -/

namespace Sys2Proof.Machine

/-- A vector source: its first row, `vz`, its empty action, and its number of rows (R141, R142). -/
structure VSrc where
  reg : Nat
  z   : Bool
  e   : Bool
  n   : Nat
  deriving DecidableEq, Repr

/-- The rows a source reads. -/
def VSrc.rows (v : VSrc) : List Nat := if v.z then [] else (List.range v.n).map (v.reg + ·)

/-- Source A, B or C of a word in format RR, of n rows. -/
def rrSrc (w : RR) (s : Src) (n : Nat := 1) : VSrc :=
  let r := match s with | .a => w.a | .b => w.b | .c => w.c
  ⟨r.toNat, names w.z s, names w.e s, n⟩

/-- Source A of a word in format RI. -/
def riSrc (w : RI) : VSrc := ⟨w.a.toNat, names w.z .a, names w.e .a, 1⟩

/-- The value of row j of a source in a lane; `vz` reads zero. -/
def srcLane (g : Group) (v : VSrc) (j lane : Nat) : Word := if v.z then 0 else laneOf (row g (v.reg + j)).lanes lane

/-- The tag of a one-row source; `vz` counts as RAW (R181, R305). -/
def srcTag (g : Group) (v : VSrc) : Tag := if v.z then .raw else (row g v.reg).tag

/-- A row index in TRAPINFO (R278). -/
def idxInfo (r : Nat) : Dword := BitVec.ofNat 64 r

/-- Step 3: direct register indexes against the allotment, in the order D, A, B, C (R35, R153). -/
def checkBound (g : Group) (rows : List Nat) : Chk Unit :=
  match rows.find? (fun r => decide (g.allot ≤ r)) with
  | some r => trapNow .regbound (idxInfo r)
  | none => .ok ()

/-- Step 4 for one source row: EMPTYREG under E = 1, POISON of a full row (R153, R156, R215). -/
def rowStop (g : Group) (e : Bool) (r : Nat) : Option Stop :=
  let x := row g r
  if !x.full then (if e then some (.trap .emptyreg none (idxInfo r)) else none)
  else if x.poison then some (.trap .poison none (idxInfo r)) else none

/-- Step 4: the first source row that traps, when the word is ready (R41: an empty source with E = 1 makes it so); an empty source or destination makes it wait (R156). -/
def checkFull (g : Group) (dst : List Nat) (srcs : List VSrc) : Chk Unit :=
  let rows := srcs.flatMap fun v => v.rows.map fun r => (v.e, r)
  let empty (r : Nat) : Bool := !(row g r).full
  let stop := rows.findSome? fun x => rowStop g x.1 x.2
  let ready := (rows.any fun x => empty x.2 && x.1) || (!(rows.any fun x => empty x.2) && !(dst.any empty))
  if !ready then .error .notReady
  else match stop with
    | some t => .error t
    | none => .ok ()

/-- A row's tag agrees with a format (R127). -/
def agrees (t f : Tag) : Bool := t == f || t == .raw

/-- TRAPINFO of TAGMISMATCH (R278). -/
def tagInfo (g : Group) (r : Nat) : Dword := BitVec.ofNat 64 (r + (Tag.code (row g r).tag) * 2 ^ 16)

/-- Step 5 for native words: every row of a source with a format agrees with it (R127). -/
def checkTags (g : Group) (srcs : List (VSrc × Option Tag)) : Chk Unit :=
  let bad := srcs.findSome? fun x => match x.2 with
    | none => none
    | some f => x.1.rows.find? fun r => !agrees (row g r).tag f
  match bad with
  | some r => trapNow .tagmismatch (tagInfo g r)
  | none => .ok ()

/-- One vector row written in the lanes of a mask: the tag covers the whole row, the row is full, poison goes when every lane is written (R126, R156, R215). -/
def writeRow (g : Group) (r : Nat) (m : Mask) (tag : Tag) (v : Lanes) : Group :=
  let x := row g r
  setRow g r { lanes := blend m v x.lanes, tag := tag, full := true, poison := x.poison && m != 0xFFFFFFFF }

/-- Several destination rows written; `f lane` gives a lane's words in row order. -/
def writeRows (g : Group) (dst : List Nat) (m : Mask) (tag : Tag) (f : Nat → List Word) : Group :=
  (dst.zipIdx).foldl (fun g x => writeRow g x.1 m tag (lanesOf fun lane => (f lane).getD x.2 0)) g

/-- What a word whose only active lanes are helper lanes does where a thread would trap: zero in its destinations (R20, R154). -/
def writeZeros (g : Group) (dst : List Nat) (m : Mask) (tag : Tag) : Group :=
  writeRows g (dst.filter fun r => decide (r < g.allot)) m tag fun _ => []

/-- The end of a per-lane register instruction: its checks, then the rows it writes in its active lanes. With no active lane nothing happens (R28); with helper lanes alone
no trap is raised (R154). -/
def Ctx.writes (c : Ctx) (chk : Chk Unit) (dst : List Nat) (tag : Tag) (f : Nat → List Word) : Issue :=
  if c.act = 0 then .done c.advance
  else match chk with
    | .ok () => .done (c.finish (writeRows c.g dst c.act tag f))
    | .error .notReady => .notReady
    | .error (.trap cause lane info) =>
      if c.thr = 0 then .done (c.finish (writeZeros c.g dst c.act tag)) else .trap c.s cause lane info

/-- A per-lane instruction without generic forms: steps 3 to 5 over its rows, any further check of its own, then its result. -/
def Ctx.vector (c : Ctx) (dst : List Nat) (srcs : List (VSrc × Option Tag)) (extra : Chk Unit) (tag : Tag) (f : Nat → List Word) : Issue :=
  let chk : Chk Unit := do
    checkBound c.g (dst ++ srcs.flatMap fun x => x.1.rows)
    checkFull c.g dst (srcs.map (·.1))
    checkTags c.g srcs
    extra
  c.writes chk dst tag f

/-- Nothing further to check. -/
def noCheck : Chk Unit := .ok ()

/-- Where a word holds its assumption: the bits of ASSUME within M (R147). -/
structure Assume where
  pos : Nat
  len : Nat
  deriving DecidableEq, Repr

/-- M<5:4>, for every family but `cvt`, whose SRCF lies in M<5:3> (R147). -/
def assume54 : Assume := ⟨4, 2⟩
@[inherit_doc assume54]
def assume53 : Assume := ⟨3, 3⟩

/-- The bits of a word that a site step may change: FORM, ASSUME and UN (R307). -/
def siteMask (a : Assume) : Dword := (3#64 <<< 62) ||| (BitVec.ofNat 64 (2 ^ a.len - 1) <<< a.pos) ||| 1#64

/-- The quickened word of a generic one (R307). -/
def quickWord (w : Dword) (a : Assume) (code : Nat) (uni : Bool) : Dword :=
  (w &&& ~~~siteMask a) ||| (1#64 <<< 62) ||| (BitVec.ofNat 64 code <<< a.pos) ||| (if uni then 1 else 0)

/-- The generic word of a quickened one (R309). -/
def genericWord (w : Dword) (a : Assume) : Dword := (w &&& ~~~siteMask a) ||| (2#64 <<< 62)

/-- The code word and the sidecar byte of an instruction, when its line has a sidecar that can be reached and its page can be read (R302, R303, R316). -/
def State.sidecar (s : State) (p : Nat) (pc : Dword) : Option SitePlace :=
  let a := pc.toNat
  if 2 ^ 55 ≤ a / 128 * 128 then none
  else match s.walk p a needR, s.walk p (0x00F0000000000000 + a / 8) ⟨false, false, false⟩ with
    | .ok l, .ok m =>
      if m.site then some { attr := l.attr, pa := leafPa l pc, sideAttr := m.attr, side := leafPa m (BitVec.ofNat 64 (0x00F0000000000000 + a / 8)) } else none
    | _, _ => none

/-- The sidecar byte as read at issue (R307), by whichever partition that maps its page (R315). -/
def State.sideByte (s : State) (attr gen side : Nat) : Byte :=
  let s := if attr = 1 then s else s.blurRange gen side 1
  (s.peek attr gen side 1).headD 0

/-- A site step sent (R307, R309). -/
def State.sendSite (s : State) (core p : Nat) (x : SitePlace) (expect new : Dword) (widen : Bool) : State :=
  let (id, s) := s.fresh
  { s with sites := s.sites ++ [
      { id := id, part := p, gen := s.genOf p, pa := x.pa, attr := x.attr, side := x.side, sideAttr := x.sideAttr, expect := expect, new := new, widen := widen, core := core,
        rewritten := false }] }

/-- A generic instance that resolved quickens its site, unless it has no sidecar or is pinned (R307, R311). -/
def Ctx.quicken (c : Ctx) (a : Assume) (code : Nat) (uni : Bool) : Ctx :=
  match c.s.sidecar c.g.part c.e.pc with
  | some x =>
    if bitAt (c.s.sideByte x.sideAttr (c.s.genOf c.g.part) x.side) 2 then c
    else { c with s := c.s.sendSite c.g.core c.g.part x c.word (quickWord c.word a code uni) false }
  | none => c

/-- A quickened instance whose check failed sends its widening step (R309). -/
def Ctx.widen (c : Ctx) (a : Assume) : Ctx :=
  match c.s.sidecar c.g.part c.e.pc with
  | some x => { c with s := c.s.sendSite c.g.core c.g.part x c.word (genericWord c.word a) true }
  | none => c

/-- All values equal. -/
def allSame {α : Type} [DecidableEq α] : List α → Bool
  | [] => true
  | x :: xs => xs.all fun y => decide (y = x)

/-- Every source holds one value across the active thread lanes (R305, R309). -/
def Ctx.uniform (c : Ctx) (srcs : List VSrc) : Bool :=
  srcs.all fun v => (List.range v.n).all fun j => allSame ((maskLanes c.thr).map (srcLane c.g v j))

/-- How a word got its format: given, to be quickened at completion with a uniform bit, or none to record. -/
structure Resolved where
  code : Nat
  site : Option Bool
  deriving DecidableEq, Repr

/-- A generic instance resolves its format from the tags of its sources (R305): `ofTag` is the family's table, `dflt` its last column. -/
def resolveTags (g : Group) (srcs : List VSrc) (ofTag : Tag → Option Nat) (dflt : Option Nat) : Chk (Nat × Bool) :=
  let rows := (srcs.flatMap VSrc.rows).filter fun r => (row g r).tag != .raw
  match rows with
  | [] => match dflt with
    | some d => .ok (d, false)
    | none => match srcs.flatMap VSrc.rows with
      | r :: _ => trapNow .tagmismatch (tagInfo g r)
      | [] => trapNow .tagmismatch 0
  | r :: rest => match rest.find? (fun x => (row g x).tag != (row g r).tag) with
    | some x => trapNow .tagmismatch (tagInfo g x)
    | none => match ofTag (row g r).tag with
      | some code => .ok (code, true)
      | none => trapNow .tagmismatch (tagInfo g r)

/-- The format of a native, quickened or generic instance (R158, R305, R309), with the context that holds the widening step a failed check sends. -/
def Ctx.format (c : Ctx) (a : Assume) (code : Nat) (un : Bool) (srcs : List VSrc) (tagOf : Nat → Tag) (ofTag : Tag → Option Nat)
    (dflt : Option Nat) : Ctx × Chk Resolved :=
  let generic (quickens : Bool) : Chk Resolved := do
    let (code, known) ← resolveTags c.g srcs ofTag dflt
    let lanes := maskLanes c.thr
    let site := if quickens && known && !lanes.isEmpty then some (decide (2 ≤ lanes.length) && c.uniform srcs) else none
    pure { code := code, site := site }
  match c.h.form with
  | .native => (c, do checkTags c.g (srcs.map fun v => (v, some (tagOf code))); pure { code := code, site := none })
  | .generic => (c, generic true)
  | .quick =>
    let ok := (srcs.flatMap VSrc.rows).all fun r => agrees (row c.g r).tag (tagOf code)
    if c.thr = 0 ∨ (ok ∧ (!un || c.uniform srcs)) then (c, pure { code := code, site := none })
    else (c.widen a, generic false)

/-- A per-lane arithmetic instruction with the three forms: its checks, its format, its result under that format (R158). The zeros of helper lanes alone (R20) carry the word's format,
or RAW when a generic word has resolved none (R126, log 68). -/
def Ctx.arith (c : Ctx) (m : BitVec 6) (d : Nat) (srcs : List VSrc) (tagOf : Nat → Tag) (ofTag : Tag → Option Nat) (dflt : Nat)
    (f : Nat → Nat → Word) : Issue :=
  if c.act = 0 then .done c.advance
  else
    let early : Chk Unit := do
      checkBound c.g (d :: srcs.flatMap VSrc.rows)
      checkFull c.g [d] srcs
    let zeroTag := match c.h.form with | .generic => .raw | _ => tagOf (assumeOf m)
    match early with
    | .error _ => c.writes early [d] zeroTag fun _ => []
    | .ok () =>
      let (c, r) := c.format assume54 (assumeOf m) (unOf m) srcs tagOf ofTag (some dflt)
      match r with
      | .error e => c.writes (.error e) [d] zeroTag fun _ => []
      | .ok r =>
        let c := match r.site with | some uni => c.quicken assume54 r.code uni | none => c
        c.writes noCheck [d] (tagOf r.code) fun lane => [f r.code lane]

end Sys2Proof.Machine
end

