-- ==== Sys2Proof/Machine/Flags.lean ====
section
/-! DEFINITION. Predicates and status registers: the conditions and combining types of `cmp` (R170, R171), votes (R175), and the packed system registers whose fields
the state holds apart (R33, R82, R273, R277). The device has no arithmetic flags (R131). -/

namespace Sys2Proof.Machine

/-- The condition of `cmp` on two lanes under FMT 0 (i32), 1 (uns32) or 2 (f32) (R170). -/
def cmpHolds (fmt : Nat) (c : Cond) (a b : Word) : Bool :=
  match fmt with
  | 0 => Num.icompare c a.toInt b.toInt
  | 1 => Num.icompare c (a.toNat : Int) (b.toNat : Int)
  | _ => Num.fcompare c (Num.fdec Num.fp32 false a.toNat) (Num.fdec Num.fp32 false b.toNat)

/-- What a combining type leaves in PA and PB of a lane with EX set (R171): `gd` the guard, `h` the condition, and the old values. -/
def combineCmp (ct : Nat) (gd h pa pb : Bool) : Bool × Bool :=
  match ct with
  | 0 => if gd then (h, !h) else (pa, pb)
  | 1 => if gd then (h, !h) else (false, false)
  | 2 => if gd && !h then (false, false) else (pa, pb)
  | 3 => if gd && h then (true, true) else (pa, pb)
  | 4 => if gd && h then (false, false) else (pa, pb)
  | 5 => if gd && !h then (true, true) else (pa, pb)
  | 6 => if gd && !h then (false, true) else (pa, pb)
  | _ => if gd && h then (true, false) else (pa, pb)

/-- The vote of the counted lanes (R175): modes any, all, eq, ballot. -/
def voteOf (mode : Nat) (counted p : Mask) : Mask :=
  match mode with
  | 0 => if counted &&& p = 0 then 0 else 1
  | 1 => if counted &&& ~~~p = 0 then 1 else 0
  | 2 => if counted &&& p = 0 ∨ counted &&& ~~~p = 0 then 1 else 0
  | _ => counted &&& p

/-- A number placed at a bit. -/
def at_ (n bit : Nat) : Nat := n * 2 ^ bit

/-- A flag placed at a bit. -/
def bitIf (b : Bool) (bit : Nat) : Nat := if b then 2 ^ bit else 0

/-- ROLE (R33). -/
def roleReg (g : Group) : Dword := BitVec.ofNat 64 (at_ (g.allot / 8 - 1) 4 + at_ g.prio 2 + g.role)

/-- INFLIGHT (R82). -/
def inflightReg (g : Group) : Dword :=
  BitVec.ofNat 64 (bitIf g.errQnt 59 + bitIf g.errCis 58 + bitIf g.errTrv 57 + bitIf g.errAsy 56 + at_ g.trv.count 44 + at_ g.asy.count 32 +
    at_ g.qntq.length 24 + at_ g.cisq.length 16 + at_ g.trv.closed.length 8 + g.asy.closed.length)

/-- TRAPCTL (R277). -/
def trapctlReg (g : Group) : Dword := BitVec.ofNat 64 (bitIf g.hmode 1 + bitIf g.ss 0)

/-- A system register as a group reads it (R273); LANEID and QUADID are per lane. -/
def sysReg (s : State) (g : Group) (k sel lane : Nat) : Dword :=
  let n (x : Nat) : Dword := BitVec.ofNat 64 x
  match sel with
  | 0x000 => n lane
  | 0x001 => n (lane / 4)
  | 0x002 => n g.group
  | 0x003 => n g.block
  | 0x004 => n g.span
  | 0x005 => n g.ngroups
  | 0x006 => n g.nblocks
  | 0x007 => n g.nspans
  | 0x008 => n g.part
  | 0x009 => n (dieOf g.core)
  | 0x00A => n (clusterOf g.core % 16)
  | 0x00B => n (coreIn g.core)
  | 0x00C => n g.slot
  | 0x010 => (entry g k).ex.zeroExtend 64
  | 0x011 => g.live.zeroExtend 64
  | 0x012 => roleReg g
  | 0x013 => g.gang
  | 0x014 => match s.block? g.bid with | some b => b.barlimit.zeroExtend 64 | none => 0
  | 0x015 => inflightReg g
  | 0x016 => g.engerr
  | 0x020 => g.trapbase
  | 0x021 => trapctlReg g
  | 0x022 => g.trapcause
  | 0x023 => g.traplanes
  | 0x024 => g.trappc
  | 0x025 => g.trapinfo
  | 0x028 => vget g.hsave 0 0
  | 0x029 => vget g.hsave 1 0
  | 0x02A => vget g.hsave 2 0
  | 0x02B => vget g.hsave 3 0
  | _ => 0

/-- EXMASK written by split k (R22): only owned lanes; a lane that ends up in EX continues at the split's PC. -/
def writeExmask (g : Group) (k : Nat) (v : Dword) : Group :=
  let e := entry g k
  setEntry g k { e with ex := field v 31 0 &&& e.own }

/-- A system register written by `setsr` under its Access (R5, R273): the group's part. Reserved bits and read-only fields ignore the write; in the trap registers a write outside
handler mode is ignored but for TRAPBASE and TRAPCTL.SS (R277). -/
def writeSysReg (g : Group) (k sel : Nat) (v : Dword) : Group :=
  let inHandler (f : Group) : Group := if g.hmode then f else g
  match sel with
  | 0x010 => writeExmask g k v
  | 0x015 => { g with
      errQnt := g.errQnt && !bitAt v 59, errCis := g.errCis && !bitAt v 58, errTrv := g.errTrv && !bitAt v 57, errAsy := g.errAsy && !bitAt v 56 }
  | 0x016 => { g with engerr := v &&& 0xC0FFFFFFFFFFFFFF }
  | 0x020 => { g with trapbase := v &&& ~~~7 }
  | 0x021 => { g with ss := bitAt v 0 }
  | 0x022 => inHandler { g with trapcause := v &&& 0x3FFF }
  | 0x023 => inHandler { g with traplanes := v }
  | 0x024 => inHandler { g with trappc := v &&& ~~~7 }
  | 0x025 => inHandler { g with trapinfo := v }
  | 0x028 => inHandler { g with hsave := vset g.hsave 0 v }
  | 0x029 => inHandler { g with hsave := vset g.hsave 1 v }
  | 0x02A => inHandler { g with hsave := vset g.hsave 2 v }
  | 0x02B => inHandler { g with hsave := vset g.hsave 3 v }
  | _ => g

end Sys2Proof.Machine
end

