-- ==== Sys2Proof/Machine/Exchange.lean ====
section
/-! DEFINITION. Exchanges within a quad and a group, and the cross-cluster pair (R206 to R212). -/

namespace Sys2Proof.Machine

/-- A quad exchange that copies another lane's value and the source's tag (R207). -/
def quadMove (i : Instr) (w : RR) (s : State) (from_ : Nat → Nat) : Host.Outcome State Fault Refusal :=
  runWord i w.toHdr s fun c =>
    let a := rrSrc w .a
    c.vector [w.d.toNat] [(a, none)] noCheck (srcTag c.g a) fun lane => [srcLane c.g a 0 (from_ lane)]

/-- QSWAP (R207). -/
def execQswap (w : RR) (s : State) : Host.Outcome State Fault Refusal :=
  quadMove (.qswap w) w s fun lane => Nat.xor lane (fieldN w.m 1 0)

/-- QBCAST (R207). -/
def execQbcast (w : RR) (s : State) : Host.Outcome State Fault Refusal :=
  quadMove (.qbcast w) w s fun lane => lane / 4 * 4 + fieldN w.m 1 0

/-- The tag of a reduction format. -/
def redTag : RedFmt → Tag
  | .i32 => .i32
  | .f32 => .f32
  | .bf16x2 => .bf16x2
  | .f16x2 => .f16x2
  | .i64 => .i32

/-- The format a reduction's source must agree with: none for the bitwise ops on integers (R207, R225). -/
def redNeeds (op : RedOp) (fmt : RedFmt) : Option Tag :=
  match fmt, op with
  | .i32, .and => none
  | .i32, .or => none
  | .i32, .xor => none
  | .i64, .and => none
  | .i64, .or => none
  | .i64, .xor => none
  | f, _ => some (redTag f)

/-- QRED (R133, R207). -/
def execQred (w : RR) (s : State) : Host.Outcome State Fault Refusal :=
  runWord (.qred w) w.toHdr s fun c =>
    let a := rrSrc w .a
    let op := RedOp.ofCode (fieldN w.m 3 0)
    let fmt := RedFmt.ofCode (assumeOf w.m)
    c.vector [w.d.toNat] [(a, redNeeds op fmt)] noCheck (redTag fmt) fun lane =>
      let q := lane / 4 * 4
      let v (m : Nat) : Word := if c.act.getLsbD m then srcLane c.g a 0 m else Num.ident op fmt
      [Num.qtree op fmt (v q) (v (q + 1)) (v (q + 2)) (v (q + 3))]

/-- The lane a `shfl` reads for a lane, when it lies in the segment (R208). -/
def shflFrom (mode seg lane b : Nat) : Option Nat :=
  let base := lane - lane % seg
  let i := lane % seg
  let j : Int := match mode with
    | 0 => (b % seg : Nat)
    | 1 => (Nat.xor i (b % seg) : Nat)
    | 2 => (i : Int) - (b : Int)
    | _ => (i : Int) + (b : Int)
  if 0 ≤ j ∧ j < (seg : Int) then some (base + j.toNat) else none

/-- SHFL (R208). -/
def execShfl (w : RR) (s : State) : Host.Outcome State Fault Refusal :=
  runWord (.shfl w) w.toHdr s fun c =>
    let a := rrSrc w .a
    let b := rrSrc w .b
    let seg := 2 ^ fieldN w.m 4 2
    c.vector [w.d.toNat] [(a, none), (b, none)] noCheck (srcTag c.g a) fun lane =>
      let src := match shflFrom (fieldN w.m 1 0) seg lane (srcLane c.g b 0 lane).toNat with
        | some j => if c.act.getLsbD j then j else lane
        | none => lane
      [srcLane c.g a 0 src]

/-- Every unmatched `xshuf` of a group completes as if its partner had had no active lane (R211). DESIGN CHOICE (log 94): the row takes the tag of
the group's own A row. -/
def dissolveXshufs (g : Group) : Group :=
  { g.xshufs.foldl (fun g x => writeRow g x.dst x.active x.vtag x.val) g with xshufs := [], pair := none }

/-- The pair of a group is dissolved (R31, R211). DESIGN CHOICE (log 94): where it dissolves because a group re-pairs, the unmatched exchanges of both groups complete. -/
def State.dissolvePair (s : State) (gid : Nat) : State :=
  match (s.group? gid).bind (·.pair) with
  | some other => (s.modGroup gid dissolveXshufs).modGroup other dissolveXshufs
  | none => s

/-- The group of a span by block and group number: resident, or in a saved or swapped block, as a number of the model. -/
def State.peerGid (s : State) (lid span block group : Nat) : Option Nat :=
  (s.blocks.find? fun b => b.lid == lid && b.span == span && b.block == block).bind fun b =>
    (b.gids.find? fun x => x.1 == group).map (·.2)

/-- The splits of a group parked in an `xpair` that names `other` (R209). -/
def xpairWaits (g : Group) (other : Nat) : List (Nat × Nat) :=
  entries.filterMap fun k => match (entry g k).wait with
    | .xpair sd p _ => if p = other then some (k, sd) else none
    | _ => none

/-- XPAIR (R209). -/
def execXpair (w : RI) (s : State) : Host.Outcome State Fault Refusal :=
  runScalar (.xpair w) w.toHdr s fun c =>
    let a := sreg c.g w.a.toNat
    let pblock := fieldN a 13 10
    let pgroup := fieldN a 9 0
    let s := c.s.dissolvePair c.g.gid
    match s.group? c.g.gid with
    | none => .notReady
    | some g =>
      let c : Ctx := { c with s := s, g := g }
      let d := w.d.toNat
      let peer : Option Nat :=
        if g.nblocks ≤ pblock ∨ pblock = g.block ∨ g.ngroups ≤ pgroup then none else s.peerGid g.lid g.span pblock pgroup
      match peer with
      | none => .done (c.finish (setS g d 2))
      | some p =>
        let waits := match s.group? p with | some h => xpairWaits h g.gid | none => []
        match waits with
        | _ :: _ =>
          let s := (s.dissolvePair p).modGroup p fun h => { waits.foldl (fun h x => wakeWith h x.1 x.2 0) h with pair := some g.gid }
          let c : Ctx := { c with s := s }
          .done (c.finish { setS g d 0 with pair := some p })
        | [] =>
          let rem := if w.imm = 0 then none else some (w.imm.toNat * 64)
          .done (s.setGroup (setEntry g c.k { entry g c.k with state := .waitPark, wait := .xpair d p rem }))

/-- What one group's destination row receives at a meeting (R210). -/
def xshufMeet (g : Group) (mine theirs : XShuf) : Group :=
  let v : Lanes := lanesOf fun l => if theirs.active.getLsbD l then laneOf theirs.val l else laneOf mine.val l
  let tag := if mine.vtag = theirs.vtag then mine.vtag else .raw
  writeRow { g with xshufs := g.xshufs.erase mine } mine.dst mine.active tag v

/-- XSHUF (R210). -/
def execXshuf (w : RI) (s : State) : Host.Outcome State Fault Refusal :=
  runWord (.xshuf w) w.toHdr s fun c =>
    let a := riSrc w
    let d := w.d.toNat
    match c.g.pair.bind c.s.anyGroup? with
    | none => c.vector [d] [(a, none)] noCheck (srcTag c.g a) fun lane => [srcLane c.g a 0 lane]
    | some other =>
      if c.act = 0 then .done c.advance
      else
        let chk : Chk Unit := do
          checkBound c.g (d :: a.rows)
          checkFull c.g [d] [a]
          if 4 ≤ c.g.xshufs.length then .error .notReady
        match chk with
        | .error .notReady => .notReady
        | .error (.trap cause lane info) =>
          if c.thr = 0 then .done (c.finish (writeZeros c.g [d] c.act (srcTag c.g a))) else .trap c.s cause lane info
        | .ok () =>
          let mine : XShuf := { dst := d, xtag := w.imm.truncate 8, active := c.act, val := lanesOf (srcLane c.g a 0), vtag := srcTag c.g a }
          match other.xshufs.find? (fun x => x.xtag == mine.xtag) with
          | some theirs =>
            let s := c.s.setGroup (xshufMeet other theirs mine)
            let c : Ctx := { c with s := s }
            .done (c.finish (xshufMeet c.g mine theirs))
          | none =>
            let r := row c.g d
            .done (c.finish { setRow c.g d { r with full := false } with xshufs := c.g.xshufs ++ [mine] })

/-- XPAIR_TIMEOUT (R209, R428): the wait's cycles have run out. -/
def execXpairTimeout (gid k : Nat) (s : State) : Host.Outcome State Fault Refusal :=
  match s.group? gid with
  | some g => match (entry g k).wait with
    | .xpair sd _ (some 0) => .next (s.setGroup (wakeWith g k sd 1))
    | _ => .next s
  | none => .next s

end Sys2Proof.Machine
end

