-- ==== Sys2Proof/Machine/Groups.lean ====
section
/-! DEFINITION. What one group's step does to splits, blocks and gangs: branches over the split table (R24, R161), joins (R26), lanes that end (R20, R27), block barriers
(R48), gang errors (R252), the role switch (R34) and the end of a group (R15, R27, R351). -/

namespace Sys2Proof.Machine

/-- A new split in a free entry (R24, R161). -/
def newSplit (pc : Dword) (lanes : Mask) (age : BitVec 16) : Entry :=
  { entryFree with pc := pc, state := .runnable, own := lanes, ex := lanes, age := age }

/-- A branch by the guard to one target (R24, R160): the split table after it; none is SPLITFULL. `taken` and `left` are the taken and not-taken lanes. -/
def branchSplit (g : Group) (k : Nat) (target : Dword) (taken left : Mask) : Option Group :=
  let e := entry g k
  if taken = 0 then some (setEntry g k { e with pc := pcNext e })
  else if left = 0 then some (setEntry g k { e with pc := target })
  else match freeEntry g with
    | some j => some (setEntry (setEntry g j (newSplit target taken e.age)) k
        { e with pc := pcNext e, ex := left, own := e.own &&& ~~~taken })
    | none =>
      if e.rv then none
      else some (setEntry g k { e with rpc := pcNext e, rmask := left, rv := true, ex := taken, own := e.own &&& ~~~left, pc := target })

/-- The lanes of a list grouped by target, in the order of each target's first lane (R161). -/
def partsOf (target : Nat → Dword) : List Nat → List (Dword × Mask)
  | lanes => lanes.foldl (fun ps l =>
      let t := target l
      if ps.any (·.1 == t) then ps.map fun p => if p.1 = t then (p.1, p.2 ||| (1#32 <<< l)) else p
      else ps ++ [(t, 1#32 <<< l)]) []

/-- Parts placed in the lowest free entries, in order (R161). -/
def placeParts (g : Group) (age : BitVec 16) : List (Dword × Mask) → Group
  | [] => g
  | p :: ps => match freeEntry g with
    | some j => placeParts (setEntry g j (newSplit p.1 p.2 age)) age ps
    | none => g

/-- A branch by per-lane targets (R161); none is SPLITFULL. -/
def branchParts (g : Group) (k : Nat) (active left : Mask) (target : Nat → Dword) : Option Group :=
  let e := entry g k
  let off := e.own &&& ~~~e.ex
  let parts := partsOf target (maskLanes active)
  let keep : Dword × Mask := if left ≠ 0 then
      (pcNext e, left ||| (parts.foldl (fun m p => if p.1 = pcNext e then m ||| p.2 else m) 0))
    else (parts.head?).getD (pcNext e, 0)
  let rest := parts.filter fun p => p.1 != keep.1
  let stayed (e : Entry) : Entry := { e with pc := keep.1, ex := keep.2, own := keep.2 ||| off }
  if rest.isEmpty then some (setEntry g k (stayed e))
  else if rest.length ≤ freeCount g then some (setEntry (placeParts g e.age rest) k (stayed e))
  else if freeCount g + 1 = rest.length ∧ !e.rv then
    match rest.getLast? with
    | some l => some (setEntry (placeParts g e.age rest.dropLast) k
        { e with rpc := keep.1, rmask := keep.2, rv := true, pc := l.1, ex := l.2, own := l.2 ||| off })
    | none => none
  else none

/-- The resume field emptied into the split (R26, R27). -/
def clearResume (e : Entry) : Entry := { e with rv := false, rpc := 0, rmask := 0 }

/-- Entry k parked at a join merges with every other entry parked at a join at the same PC (R25, R26). -/
def mergeJoined (g : Group) (k : Nat) : Group × Nat :=
  entries.foldl (fun (acc : Group × Nat) j =>
    let (g, k) := acc
    if j ≠ k ∧ (entry g j).state = .joinPark ∧ canMerge (entry g k) (entry g j) then
      let m := mergedEntry (entry g k) (entry g j) .joinPark
      (setEntry (setEntry g (max j k) entryFree) (min j k) m, min j k)
    else acc) (g, k)

/-- A join that has no valid entry left elsewhere lets its split go on (R26): behind the join, or, for a `rolesw`, to the wait for register writes (R34). DESIGN CHOICE (log 77): while a `rolesw` that has joined waits for register writes its STATE reads 100, though it does not grow; R23 lists only a growing `rolesw` there. -/
def releaseJoin (g : Group) : Group :=
  match entries.find? (fun k => (entry g k).state == .joinPark) with
  | none => g
  | some k =>
    let (g, k) := mergeJoined g k
    if entries.all fun j => j == k || (entry g j).state == .free then
      let e := entry g k
      match e.wait with
      | .rolesw _ _ _ => setEntry g k { e with state := .waitPark }
      | _ => setEntry g k (wakeAt e (pcNext e))
    else g

/-- What `join` at PC j does to split k (R26): the swap with the held lanes, or the park, with `w` the reason of it. -/
def joinAt (g : Group) (k : Nat) (j : Dword) (w : Wait) : Group :=
  let e := entry g k
  let e := if e.rv && e.rpc == j then clearResume { e with ex := e.ex ||| e.rmask, own := e.own ||| e.rmask } else e
  if e.rv then
    let off := e.own &&& ~~~e.ex
    setEntry g k { e with rpc := j, rmask := e.ex, pc := e.rpc, ex := e.rmask, own := e.rmask ||| off }
  else releaseJoin (mergeJoined (setEntry g k { e with pc := j, state := .joinPark, wait := w, age := 0, ibuf := none }) k).1

/-- The helper lanes whose quad has no live thread left (R20). -/
def endedHelpers (g : Group) : Mask :=
  maskOf fun l => g.helpers.getLsbD l && (List.range 4).all fun i => !g.live.getLsbD (l / 4 * 4 + i)

/-- Lanes leave an entry. -/
def dropLanes (e : Entry) (m : Mask) : Entry := { e with ex := e.ex &&& ~~~m, own := e.own &&& ~~~m, rmask := e.rmask &&& ~~~m }

/-- A split that holds no lane any more takes up its resume field (R20, R27), be that empty. -/
def takeResume (e : Entry) : Entry :=
  clearResume { e with pc := e.rpc, ex := e.rmask, own := e.rmask, state := .runnable, wait := .none, ibuf := none }

/-- An entry that ended helper lanes have left: with no lane anywhere it becomes free, with resume lanes alone it takes them up (R20). -/
def afterLoss (e : Entry) : Entry :=
  if e.own ≠ 0 then e
  else if e.rv ∧ e.rmask ≠ 0 then takeResume e
  else entryFree

/-- The issuing entry `e` after an `exit` of the lanes m, with which the helper lanes `gone` end (R20, R27): RV alone decides, but where those helpers were its last resume lanes. -/
def afterExit (e : Entry) (m gone : Mask) : Entry :=
  let x := dropLanes e (m ||| gone)
  if x.own ≠ 0 then { x with pc := pcNext x }
  else if e.rv ∧ e.rmask = 0 then takeResume x
  else afterLoss x

/-- The lanes of a mask retire from split k, with the helper lanes that end with them (R20, R27, R164). -/
def retire (g : Group) (k : Nat) (m : Mask) : Group :=
  let g := { g with live := g.live &&& ~~~m }
  let gone := endedHelpers g
  let g := entries.foldl (fun g j =>
    let e := entry g j
    if j = k ∨ e.state = .free ∨ (e.own ||| e.rmask) &&& gone = 0 then g else setEntry g j (afterLoss (dropLanes e gone))) g
  setEntry g k (afterExit (entry g k) m gone)

/-- The lanes of a group that have arrived at barrier n of its block and wait there. -/
def arrivedAt (g : Group) (n : Nat) : Mask :=
  entries.foldl (fun m k => match (entry g k).wait with
    | .bar b lanes => if b = n then m ||| lanes else m
    | _ => m) 0

/-- A block holds its cores (it is neither saved nor swapped out). -/
def resident (b : Block) : Bool := b.image.isNone

/-- The groups of a block that are resident. -/
def State.groupsOf (s : State) (bid : Nat) : List Group := s.groups.filter (·.bid == bid)

/-- Barrier n of a block. -/
def barOf (b : Block) (n : Nat) : Bar := b.bars.getD n { armed := false, age := 0, limit := 0, stalled := false }

/-- Accesses of a group, and writes of others that it has read, that are not yet performed (R118): in its core's L1, at a home or directory, and, when `far`, at a scratchpad, a bank or in the weir; `cis` operations only
when `bank` (R236). -/
def State.unperformed (s : State) (gid : Nat) (far bank : Bool) : Bool :=
  let homeKind (k : ReqKind) : Bool := match k with | .store _ _ => true | .atom _ _ => true | _ => false
  let isCis (a : NearAct) : Bool := match a with | .cis _ _ _ _ => true | _ => false
  (s.pends.any fun p => (p.gid == gid || p.seen.contains gid) && p.act != .warm) || (s.reqs.any fun r => (r.gid == gid || r.seen.contains gid) && homeKind r.kind) ||
    (s.txns.any fun t => (t.req.gid == gid || t.req.seen.contains gid) && homeKind t.req.kind) ||
    (far && ((s.near.any fun n => n.gid == gid && (bank || !isCis n.act)) || s.weir.any fun w => w.gid == gid))

/-- Earlier accesses of a group are performed as a release or fence of a scope requires (R118, R236, R237); none is `fence.full`. -/
def State.performedFor (s : State) (gid : Nat) (sc : Option Scope) : Bool :=
  match sc with
  | some .group => !s.unperformed gid false false
  | some .block => !s.unperformed gid true false
  | _ => !s.unperformed gid true true

/-- The releasing core's copies of the group's writes reach their homes (R118); nothing at group scope. -/
def State.perform (s : State) (core : Nat) (sc : Option Scope) : State :=
  match sc with
  | some .group => s
  | _ => s.cleanCore core

/-- Phase n of a resident block's barrier is complete (R48, R238): armed, every live thread lane arrived, and the arrived groups' earlier accesses performed at block scope. -/
def State.phaseDone (s : State) (b : Block) (n : Nat) : Bool :=
  b.image.isNone && (barOf b n).armed && (s.groupsOf b.bid).all fun g =>
    (g.live &&& ~~~arrivedAt g n) == 0 && (arrivedAt g n == 0 || s.performedFor g.gid (some .block))

/-- The phase of barrier n over: its splits go on, the next phase is not yet armed. -/
def State.endPhase (s : State) (b : Block) (n : Nat) : State :=
  let gs := (s.groupsOf b.bid).filter fun g => entries.any fun k => match (entry g k).wait with | .bar m _ => m == n | _ => false
  let wake (g : Group) : Group := entries.foldl (fun g k => match (entry g k).wait with
    | .bar m _ => if m = n then wakeSplit g k else g
    | _ => g) g
  let s := gs.foldl (fun s g => (s.cleanCore g.core).modGroup g.gid wake) s
  s.modBlock b.bid fun b => { b with
    bars := b.bars.set n { barOf b n with armed := false, age := 0, stalled := false } }

/-- Every barrier of a block whose phase is complete releases its splits (R48). -/
def State.settleBars (s : State) (bid : Nat) : State :=
  (List.range 16).foldl (fun s n => match s.block? bid with
    | some b => if s.phaseDone b n then s.endPhase b n else s
    | none => s) s

/-- GANGERR in every member parked at a rendezvous, which ends (R252). -/
def State.gangErr (s : State) (z : Rendezvous) : State :=
  z.members.foldl (fun s m => match s.group? m.1.gid with
    | some g => s.takeTrap g.gid m.2 (entry g m.2).ex .gangerr none z.gang
    | none => s) { s with rends := s.rends.erase z }

/-- The slots a GANG value lists (R248). -/
def gangSlots (gang : Dword) : List Nat := (List.range (fieldN gang 2 0)).map fun i => fieldN gang (6 * i + 8) (6 * i + 3)

/-- A member leaves, or sets its gang anew, while others are parked (R252). DESIGN CHOICE (log 96): a member is the group in one of the slots that the reference's GANG names, whenever it
was placed there. -/
def State.leaveGang (s : State) (g : Group) : State :=
  match s.rends.find? (fun z => z.core == g.core && (gangSlots z.gang).contains g.slot && z.members.any fun m => m.1.gid != g.gid) with
  | some z => s.gangErr z
  | none => s

/-- Register writes of a group that are outstanding (R34, R115, R211): returns, and unmatched exchanges. -/
def State.writesOut (s : State) (g : Group) : Bool := (s.rets.any fun r => r.gid == g.gid) || !g.xshufs.isEmpty

/-- Place of a group's core in its block's run (R29); pools stand for the cores of the run alone. -/
def poolIndex (b : Block) (core : Nat) : Option Nat :=
  if clusterOf core = b.cluster ∧ b.firstCore ≤ coreIn core ∧ coreIn core < b.firstCore + b.ncores then some (coreIn core - b.firstCore) else none

/-- Rows given to, or taken from, the pool of a block on a core. -/
def movePool (b : Block) (core : Nat) (give take : Nat) : Block :=
  match poolIndex b core with
  | some i => { b with pools := b.pools.set i (b.pools.getD i 0 + give - take) }
  | none => b

/-- A group's launch. -/
def State.launchOf (s : State) (g : Group) : Option Launch := s.launch? g.lid

/-- The rows that a group moved off its block's run holds there: the largest allotment of its launch's roles. DESIGN CHOICE (log 78): the spec gives pools to the cores of a run alone. -/
def State.reserve (s : State) (g : Group) : Nat :=
  match s.launchOf g with
  | some l => (l.params.roles.map (·.regs)).foldl max g.allot
  | none => g.allot

/-- Free rows of a group's pool on its core (R351), or what it has reserved beyond its allotment off its block's run, so that a role switch does not see that it was moved (R11). -/
def State.poolFree (s : State) (g : Group) : Nat :=
  match s.block? g.bid with
  | some b => match poolIndex b g.core with | some i => b.pools.getD i 0 | none => s.reserve g - g.allot
  | none => 0

/-- A declared role of a group's launch (R350). -/
def State.roleOf (s : State) (g : Group) (r : Nat) : Option RoleDecl := (s.launchOf g).bind fun l => l.params.roles[r]?

/-- THE ROLE SWITCH of a group whose only split is k (R34): allotment, rows, ROLE and PC, with 0 in sd when there is one. -/
def State.switchRole (s : State) (g : Group) (k : Nat) (sd : Option Nat) (r : Nat) (d : RoleDecl) : State :=
  let keep := min g.allot d.regs
  let g' : Group := { g with rows := g.rows.filter (fun x => decide (x.1 < keep)), allot := d.regs, role := r, prio := d.prio }
  let g' := setEntry g' k { wakeAt (entry g' k) d.entry with age := 0, ibuf := none }
  let g' := match sd with | some i => setS g' i 0 | none => g'
  (s.setGroup g').modBlock g.bid fun b => movePool b g.core g.allot d.regs

/-- A role switch that has joined and has no register write to wait for (R34): made, or parked for rows. -/
def State.trySwitch (s : State) (g : Group) (k : Nat) : State :=
  match (entry g k).wait with
  | .rolesw sd r _ =>
    if (entry g k).state ≠ .waitPark ∨ s.writesOut g ∨ !g.mmas.isEmpty then s
    else match s.roleOf g r with
      | none => s
      | some d =>
        if d.regs ≤ g.allot + s.poolFree g then s.switchRole g k sd r d
        else s.setGroup (setEntry g k { entry g k with wait := .rolesw sd r true })
  | _ => s

/-- A block none of whose groups is left. -/
def blockOver (b : Block) : Bool := b.gids.isEmpty

/-- The blocks of a span leave once the last of them has ended (R30, R351). -/
def State.endSpan (s : State) (lid span : Nat) : State :=
  let mine := s.blocks.filter fun b => b.lid == lid && b.span == span
  if mine.all blockOver then { s with blocks := s.blocks.filter fun b => !(b.lid == lid && b.span == span) } else s

/-- The splits that wait in an `xpair` for a group that has gone end with NOPEER (R209). -/
def State.noPeer (s : State) (gid : Nat) : State :=
  { s with groups := s.groups.map fun g => (xpairWaits g gid).foldl (fun g x => wakeWith g x.1 x.2 2) g }

/-- A monitor entry belongs to a split of a group (R90). -/
def monOf (gid : Nat) (m : Mon) : Bool := match m.who with | .split g _ => g == gid | _ => false

/-- A consumer of a sluice line is a split of a group. -/
def slOf (gid : Nat) (w : SlWaiter) : Bool := match w with | .split g _ => g == gid | _ => false

/-- A consumer of a sluice line belongs to a group: a split of it, or a command that it issued. -/
def State.slMine (s : State) (gid : Nat) (w : SlWaiter) : Bool :=
  match w with
  | .split g _ => g == gid
  | .asy id => s.asys.any fun a => a.id == id && a.gid == gid
  | .trav id => s.travs.any fun t => t.id == id && t.gid == gid
  | .mma id => s.products.any fun p => p.id == id && p.members.any fun x => x.gid == gid

/-- A consumer has not taken a pulse of a line yet; a group that is on its way back to its core counts as waiting. -/
def State.slWaits (s : State) (line : Nat) (w : SlWaiter) : Bool :=
  match w with
  | .split gid k => match s.anyGroup? gid with
    | some g => (entry g k).wait == .slwait line
    | none => true
  | .asy id => s.asys.any fun a => a.id == id && a.gates.contains line
  | .trav id => s.travs.any fun t => t.id == id && t.gates.contains line
  | .mma id => s.products.any fun p => p.id == id && p.gates.contains line

/-- A sluice line after the end of a group: without its split's waits, and reset to no source and no target when that group configured it (R269). The commands and splits of other
groups that wait for a pulse go on waiting (R271, R272), and so does a command of the ended group that the line gated (DESIGN CHOICE, log 29). -/
def slWithout (gid : Nat) (l : SluiceLine) : SluiceLine :=
  let l := { l with waiters := l.waiters.filter (fun w => !slOf gid w) }
  if l.owner = some gid then { l with owner := none, cfg := 0, count := 0 } else l

/-- THE END OF A GROUP (R15, R27, R31, R90, R209, R211, R252, R269, R351): its slot and tile units are free, its rows return to its block's pool, its pair dissolves, its monitor
entries are freed, its sluice lines are reset. Its engine commands and the accesses that have left the core go on. -/
def State.endGroup (s : State) (gid : Nat) : State :=
  match s.group? gid with
  | none => s
  | some g =>
    let s := ((s.dissolvePair gid).leaveGang g)
    let s : State := { s with
      groups := s.groups.filter (fun x => !(x.gid == gid)),
      saved := s.saved.map fun x => { x with lines := x.lines.map fun l => { l with waiters := l.waiters.filter fun w => !slOf gid w } } }
    let s := s.noPeer gid
    let s := { s with
      mons := s.mons.filter (fun m => !monOf gid m),
      sluice := (s.sluice.map (slWithout gid)).filter (fun l => l.owner.isSome || !l.waiters.isEmpty || l.count != 0),
      products := s.products.map fun (p : Product) => if p.members.any (·.gid == gid) then { p with kept := p.kept ++ [g] } else p,
      spent := (s.spent.map fun (p : Product) => { p with left := p.left.filter (· != gid) }).filter (fun (p : Product) => !p.left.isEmpty),
      orphans := if g.asy.closed.isEmpty && g.trv.closed.isEmpty then s.orphans
        else s.orphans ++ [({ gid := gid, core := g.core, slot := g.slot, asy := g.asy, trv := g.trv } : Orphan)],
      tiles := s.tiles.filter (fun t => !(t.core == g.core && decide (g.tileBase ≤ t.unit) && decide (t.unit < g.tileBase + g.tileCnt))) }
    let s := s.modBlock g.bid fun b => movePool { b with gids := b.gids.filter fun x => !(x.2 == gid) } g.core g.allot 0
    (s.settleBars g.bid).endSpan g.lid g.span

end Sys2Proof.Machine
end

