-- ==== Sys2Proof/Machine/Settle.lean ====
section
/-! DEFINITION. What a step lets go on: sluice pulses (R271, R272), batches (R84), the step counter and the cut of a fix (R245, R246, R416), and the waits whose condition another
step has made true (R85, R115, R237, R256). -/

namespace Sys2Proof.Machine

/-- A sluice line as configured (R269); an unconfigured line has no source, no target and count 0. -/
def State.slLine (s : State) (core line : Nat) : SluiceLine :=
  (s.sluice.find? fun l => l.core == core && l.line == line).getD { core := core, line := line, owner := none, cfg := 0, count := 0, waiters := [] }

/-- A sluice line is listed. -/
def State.hasSlLine (s : State) (core line : Nat) : Bool := s.sluice.any fun l => l.core == core && l.line == line

/-- A sluice line stored. -/
def State.putSlLine (s : State) (l : SluiceLine) : State :=
  { s with sluice := (s.sluice.filter fun x => !(x.core == l.core && x.line == l.line)) ++ [l] }

/-- SRC, SSLOT, TARGET and TSLOT of a configuration (R270). -/
def slSrc (c : BitVec 20) : Nat := fieldN c 3 0
@[inherit_doc slSrc]
def slSslot (c : BitVec 20) : Nat := fieldN c 9 4
@[inherit_doc slSrc]
def slTarget (c : BitVec 20) : Nat := fieldN c 13 10
@[inherit_doc slSrc]
def slTslot (c : BitVec 20) : Nat := fieldN c 19 14

/-- The consumer that has waited longest takes one pulse; a command starts once no other line gates it (R271). -/
def State.takePulse (s : State) (l : SluiceLine) : State :=
  match l.waiters with
  | [] => s
  | w :: ws =>
    let s := s.putSlLine { l with count := l.count - 1, waiters := ws }
    match w with
    | .split gid k => s.modGroup gid fun g => match (entry g k).wait with | .slwait _ => wakeSplit g k | _ => g
    | .asy id => { s with asys := s.asys.map fun a => if a.id = id then { a with gates := a.gates.erase l.line } else a }
    | .trav id => { s with travs := s.travs.map fun t => if t.id = id then { t with gates := t.gates.erase l.line } else t }
    | .mma id => { s with products := s.products.map fun p => if p.id = id then { p with gates := p.gates.erase l.line } else p }

/-- Waiting splits at the head of a line take pulses at once; a gated command starts in a step of its own. -/
def State.servePulses (s : State) (core line : Nat) : Nat → State
  | 0 => s
  | n + 1 =>
    let l := s.slLine core line
    match l.waiters with
    | .split _ _ :: _ => if l.count = 0 then s else (s.takePulse l).servePulses core line n
    | _ => s

/-- One pulse on a line (R271); COUNT saturates (R269). -/
def State.pulse (s : State) (core line : Nat) : State :=
  let l := s.slLine core line
  (s.putSlLine { l with count := if l.count = 0xFFFF then l.count else l.count + 1 }).servePulses core line (l.waiters.length + 1)

/-- Every line of a core whose source is `src` of one of the slots gains a pulse (R271). -/
def State.pulseSources (s : State) (core src : Nat) (slots : List Nat) : State :=
  (s.sluice.filter fun l => l.core == core && slSrc l.cfg == src && slots.contains (slSslot l.cfg)).foldl (fun s l => s.pulse core l.line) s

/-- The lines that gate commands of a kind issued from a slot (R271): each of them has to give the command a pulse. -/
def State.gatesOf (s : State) (core target slot : Nat) : List Nat :=
  (List.range 16).filter fun n =>
    let l := s.slLine core n
    s.hasSlLine core n && slTarget l.cfg == target && slTslot l.cfg == slot

/-- A gated command queues for a pulse of each of its lines. -/
def State.queueGates (s : State) (core : Nat) (gates : List Nat) (w : SlWaiter) : State :=
  gates.foldl (fun s n => let l := s.slLine core n; s.putSlLine { l with waiters := l.waiters ++ [w] }) s

/-- A seal (R84): none when OUT would pass 255. -/
def sealPath (p : PathCtl) : Option PathCtl :=
  if p.count = 0 then some p
  else if 255 ≤ p.closed.length then none
  else some { seq := p.seq + 1, count := 0, closed := p.closed ++ [p.seq] }

/-- An operation joins the open batch (R84), which is sealed first when full. -/
def joinBatch (p : PathCtl) : Option PathCtl :=
  (if 4095 ≤ p.count then sealPath p else some p).map fun p => { p with count := p.count + 1 }

/-- OUT of a path (R82). -/
def pathOut (g : Group) : Path → Nat
  | .asy => g.asy.closed.length
  | .trv => g.trv.closed.length
  | .cis => g.cisq.length
  | .qnt => g.qntq.length

/-- The completions at the head of a counter's order are counted down (R83). -/
def popDone : List (Nat × Bool) → List (Nat × Bool)
  | (_, true) :: r => popDone r
  | l => l

/-- An operation of a counter has completed; it is counted down in issue order (R83). -/
def countDone (q : List (Nat × Bool)) (id : Nat) : List (Nat × Bool) := popDone (q.map fun x => if x.1 = id then (x.1, true) else x)

/-- The address of the stage-2 leaf entry that maps a partition-physical address (R378), for the fix engine. -/
def slotFrom (rd : Nat → Dword) (va : Nat) : List Level → Nat → Option Nat
  | [], _ => none
  | l :: rest, table =>
    let a := table + 8 * natBits va l.hi l.lo
    let e := rd a
    if !bitAt e 0 then none
    else if bitAt e 1 then some a
    else slotFrom rd va rest (fieldN e 55 16 * 65536)

/-- COW of the page at a partition-physical address set or cleared in its stage-2 leaf (R379, R416), as the entry is stored; no TLB keeps the old one. The entry is changed in every copy
of its line, so that the marking of a fix set is one event. -/
def State.setCow (s : State) (p page : Nat) (on : Bool) : State :=
  match slotFrom s.rawEntry (page % 2 ^ 56) levels (s.part p).s2root.toNat with
  | none => s
  | some a =>
    let e := s.rawEntry a
    let e' := if on then e ||| (1#64 <<< 62) else e &&& ~~~(1#64 <<< 62)
    let s := s.plant a (leBytes 8 e'.toNat)
    { s with tlb := s.tlb.filter fun t => !(t.part == p && t.stage2 && decide (t.page < page + 65536) && decide (page < t.page + t.leaf.size)) }

/-- A page of a fix set with its leaf, as the stage-2 table stands (R379). -/
def State.cowPage (s : State) (p page : Nat) : Option CowPage :=
  match s.stage2 p page ⟨false, false, false⟩ with
  | .ok l => some { page := page, leaf := page / l.size * l.size, size := l.size, base := attrPa l.attr l.base }
  | .error _ => none

/-- The cut of a fix (R246, R416): every page of its set is marked, in one step, at the given time. -/
def State.cutFix (s : State) (p : Nat) (f : FixRun) : State :=
  let left := f.pages.filterMap (s.cowPage p)
  let s := f.pages.foldl (fun s a => s.setCow p a true) s
  s.modPart p fun x => { x with fixes := x.fixes.map fun y => if y.pk = f.pk ∧ y.q = f.q then { y with cut := some s.now, left := left } else y }

/-- Meridian time in nanoseconds as the command processor reads it (R409). -/
def State.nowNs (s : State) : Nat := s.now.toNat

/-- The step counter advanced (R245), with the cuts it triggers (R246), whose deadline has not passed (R416); the new value. DESIGN CHOICE (log 91): an advance that
wraps past 2^64 takes the counter to every N above its old value on the way. -/
def State.stepAdvance (s : State) (p : Nat) (n : Dword) : State × Dword :=
  let old := (s.part p).stepCtr
  let new := old + n
  let hit := (s.part p).fixes.filter fun f =>
    f.cut.isNone && !f.params.byTime && decide (old.toNat < f.params.n.toNat) && decide (f.params.n.toNat ≤ old.toNat + n.toNat) &&
      (match f.params.when_ with | some t => decide (s.nowNs < t.toNat) | none => true)
  let s := s.modPart p fun x => { x with stepCtr := new }
  (hit.foldl (fun s f => s.cutFix p f) s, new)

/-- Stores and read-modify-writes to scratch of a group that have not reached the scratchpad (R115). -/
def State.scratchStores (s : State) (gid : Nat) : Bool :=
  s.near.any fun n => n.gid == gid && n.space == .scratch && (match n.act with | .load _ _ _ _ => false | _ => true)

/-- An `opfence` of the group may return (R115, R211). -/
def State.opfenceDone (s : State) (g : Group) : Bool := !s.writesOut g && !s.scratchStores g.gid

/-- Rows of one B quarter, and of A, by TYPE (R251): M<5:4> is 2 for `.d2p8`. -/
def quarterRows (m : BitVec 6) : Nat := if fieldN m 5 4 = 2 then 16 else 8
@[inherit_doc quarterRows]
def aRows (m : BitVec 6) : Nat := if fieldN m 5 4 = 2 then 32 else 8

/-- The B tile lies in scratch (R250). -/
def bScratch (m : BitVec 6) : Bool := bitAt m 3

/-- The quarters a member holds under `.breg` (R251). -/
def quartersOf (n i : Nat) : List Nat :=
  match n, i with
  | 2, 0 => [0, 1]
  | 2, 1 => [2, 3]
  | 3, 0 => [0, 1]
  | 3, i => if i < 3 then [i + 1] else []
  | _, i => if i < 4 then [i] else []

/-- The register rows a member of a gang of n supplies to an `mma` (R250, R251). -/
def operandRows (m : BitVec 6) (n i : Nat) (x : MmaMember) : List Nat :=
  let q := (quartersOf n i).length
  (List.range (aRows m)).map (x.a + ·) ++
    (if bScratch m then [] else (List.range (q * quarterRows m)).map (x.b + ·) ++
      (if fieldN m 5 4 = 2 then (List.range q).map (x.c + ·) else []))

/-- The scratch rows of a B tile, by key over 128 (R251). -/
def bscRows (m : BitVec 6) (key : Nat) : List Nat :=
  if bScratch m then (List.range (4 * quarterRows m + (if fieldN m 5 4 = 2 then 4 else 0))).map (key / 128 + ·) else []

/-- The products whose `mmwait` a group has still to see return: outstanding ones, and those that have completed since (R114). -/
def State.openProducts (s : State) (gid : Nat) : List Product := s.products ++ s.spent.filter fun p => p.left.contains gid

/-- The rows and scratch rows that a group must not write until its `mmwait` returns (R114). -/
def State.inFlight (s : State) (gid : Nat) : List Nat × List Nat :=
  (s.openProducts gid).foldl (fun acc p => p.members.zipIdx.foldl (fun acc x =>
    if x.1.gid = gid then (acc.1 ++ operandRows p.m p.members.length x.2 x.1, acc.2 ++ bscRows p.m p.bsc) else acc) acc) ([], [])

/-- An `opfence` has returned (R114, R115): what outstanding products read stays noted. -/
def State.fenced (s : State) (g : Group) : Group :=
  let f := s.inFlight g.gid
  { g with since := g.since.filter f.1.contains, scrSince := g.scrSince.filter f.2.contains }

/-- A tile unit of a core; one that nothing has written holds zeros (R368). -/
def State.tileAt (s : State) (core unit gen : Nat) : TileUnit :=
  let fresh : TileUnit := { core := core, unit := unit, gen := gen, words := List.replicate 1024 0, poison := false }
  match s.tiles.find? (fun t => t.core == core && t.unit == unit) with
  | some t => if t.gen = gen then t else fresh
  | none => fresh

/-- A tile unit stored. -/
def State.putTile (s : State) (t : TileUnit) : State :=
  { s with tiles := (s.tiles.filter fun x => !(x.core == t.core && x.unit == t.unit)) ++ [t] }

/-- The accumulators of a completed product become undefined in the members whose `mmwait` has not returned (R114, log 64). -/
def State.spoilTiles (s : State) (p : Product) : State :=
  p.members.foldl (fun s x => match s.group? x.gid with
    | some g =>
      if p.left.contains x.gid then
        let (ws, s) := s.freeWords 1024
        s.putTile { s.tileAt g.core (g.tileBase + x.tile) (s.genOf g.part) with words := ws }
      else s
    | none => s) s

/-- A group's `mmwait` returns (R114, R256): an operand it has written before makes the accumulators of its completed products undefined, and it is done with them. -/
def State.coverProducts (s : State) (gid : Nat) : State :=
  let mine := s.spent.filter fun p => p.left.contains gid
  let bad (p : Product) : Bool := match s.group? gid with
    | some g => p.members.zipIdx.any fun x => x.1.gid == gid && ((operandRows p.m p.members.length x.2 x.1).any g.since.contains || (bscRows p.m p.bsc).any g.scrSince.contains)
    | none => false
  let s := mine.foldl (fun s p => if bad p then s.spoilTiles p else s) s
  { s with spent := (s.spent.map fun p => { p with left := p.left.filter (· != gid) }).filter fun p => !p.left.isEmpty }

/-- A wait whose condition holds ends (R85, R115, R237, R245, R256). -/
def State.settleEntry (s : State) (gid k : Nat) : State :=
  match s.group? gid with
  | none => s
  | some g =>
    match (entry g k).wait with
    | .waitc p limit => if pathOut g p ≤ limit.toNat then s.setGroup (wakeSplit g k) else s
    | .fence sc => if s.performedFor gid sc then (s.setGroup (wakeSplit g k)).perform g.core sc else s
    | .stepAdv sd n =>
      if s.performedFor gid (some .system) then
        let (s, v) := (s.perform g.core (some .system)).stepAdvance g.part n
        s.modGroup gid fun g => wakeWith g k sd v
      else s
    | .opfence => if s.opfenceDone g then s.setGroup (wakeSplit (s.fenced g) k) else s
    | .mmwait one =>
      if g.mmas.length ≤ (if one then 1 else 0) then
        let s := s.coverProducts gid
        match g.matErr with
        | [] => s.modGroup gid fun g => wakeSplit g k
        | m :: r => (s.modGroup gid fun g => { g with matErr := r }).takeTrap gid k (entry g k).ex .matrixerr none (BitVec.ofNat 64 m.2)
      else s
    | _ => s

/-- Every wait of a group that another step has satisfied ends. -/
def State.settleGroup (s : State) (gid : Nat) : State :=
  let s := entries.foldl (fun s k => s.settleEntry gid k) s
  s.modGroup gid releaseJoin

/-- Every wait of every group and every barrier phase that a step has satisfied ends. -/
def State.settle (s : State) : State :=
  let s := (s.groups.map (·.gid)).foldl (fun s gid => s.settleGroup gid) s
  (s.blocks.map (·.bid)).foldl (fun s bid => s.settleBars bid) s

end Sys2Proof.Machine
end

