-- ==== Sys2Proof/Machine/MemAccess.lean ====
section
/-! DEFINITION. What the memory instructions share (R213 to R215): addresses, windows and alignment (R69, R70), the space of the three forms (R146, R304, R309), watches (R288),
translation with its parks (R385, R417), and the way an access takes to the L1, a home, a scratchpad or a bank. -/

namespace Sys2Proof.Machine

/-- The window of an address (R69). -/
def windowOf (va : Dword) : Option Space :=
  match fieldN va 63 56 with
  | 0x00 => some .global
  | 0xFD => some .cistern
  | 0xFE => some .scratch
  | _ => none

/-- A row number lies in a quota range. -/
def inRange (r base cnt : Nat) : Bool := decide (base ≤ r) && decide (r < base + cnt)

/-- The further conditions of a window (R69, R364, R367). -/
def State.inWindow (s : State) (p : Nat) (va : Dword) : Space → Bool
  | .global => true
  | .scratch =>
    let q := (s.part p).quota
    zeroAt va 55 24 && inRange (fieldN va 15 7) (fieldN q 33 25) (fieldN q 43 34)
  | .cistern =>
    let r := (s.part p).cisrange
    zeroAt va 55 25 && inRange (fieldN va 24 16) (fieldN r 8 0) (fieldN r 19 10)

/-- The storage key of a scratch or cistern address, for a group on a core (R13, R71). -/
def storageKey (core : Nat) (va : Dword) : Space → Nat
  | .scratch => clusterOf core * 2 ^ 24 + fieldN va 23 0
  | .cistern => dieOf core * 2 ^ 25 + fieldN va 24 0
  | .global => va.toNat

/-- The address of a lane (R213): a scalar or a vector pair, and the offset. -/
def addrLane (g : Group) (a : Nat) (ak : Bool) (off : Dword) (lane : Nat) : Dword :=
  (if ak then sreg g a else laneOf (row g (a + 1)).lanes lane ++ laneOf (row g a).lanes lane) + off

/-- The address operand as a source: the pair of rows, or none under a scalar. -/
def addrSrc (a : Nat) (ak e : Bool) : List VSrc := if ak then [] else [⟨a, false, e, 2⟩]

/-- The first of the checks of step 6 that an address fails (R69, R70, R146, R153). `sp` is the space the word demands. -/
def State.addrFault (s : State) (p size : Nat) (sp : Option Space) (va : Dword) : Option Cause :=
  if va.toNat % size ≠ 0 then some .align
  else match windowOf va with
    | none => some .access
    | some w => if (sp.isSome && sp != some w) || !s.inWindow p va w then some .access else none

/-- The lowest thread lane that fails step 6, with its cause. -/
def Ctx.badLane (c : Ctx) (size : Nat) (sp : Option Space) (va : Nat → Dword) : Option (Nat × Cause) :=
  (maskLanes c.thr).findSome? fun l => (c.s.addrFault c.g.part size sp (va l)).map fun x => (l, x)

/-- The one space that the addresses of some lanes lie in (R304). -/
def oneSpace (va : Nat → Dword) : List Nat → Option Space
  | [] => none
  | l :: rest => match windowOf (va l) with
    | some w => if rest.all fun x => windowOf (va x) == some w then some w else none
    | none => none

/-- The space a word demands, and what a generic instance may record (R146, R304, R306, R309). DESIGN CHOICE (log 81): the assumption of a quickened word is checked over all its lanes, and a failure sends the widening, before any lane's ALIGN check of step 6 (R153 leaves the order of the two open). -/
def Ctx.space (c : Ctx) (m : BitVec 6) (va : Nat → Dword) : Ctx × Option Space × Option (Nat × Bool) :=
  let lanes := maskLanes c.thr
  let sp := Space.ofCode (fieldN m 5 4)
  match c.h.form with
  | .native => (c, sp, none)
  | .quick =>
    if lanes.isEmpty ∨ (lanes.all (fun l => windowOf (va l) == sp) ∧ (!unOf m || allSame (lanes.map va))) then (c, sp, none)
    else (c.widen assume54, oneSpace va lanes, none)
  | .generic => match oneSpace va lanes with
    | none => (c, none, none)
    | some w =>
      let code := match w with | .global => 0 | .scratch => 1 | .cistern => 2
      (c, some w, some (code, !akOf m && decide (1 < lanes.length) && allSame (lanes.map va)))

/-- An access overlaps an armed watch slot of a matching kind (R287, R288). -/
def State.watched (s : State) (g : Group) (va : Dword) (size : Nat) (rd wr : Bool) : Bool :=
  !g.hmode && (s.part g.part).watches.toList.any fun w =>
    w.en && ((w.rd && rd) || (w.wr && wr)) && decide (va.toNat < w.addr.toNat + 2 ^ w.log2len) && decide (w.addr.toNat < va.toNat + size) &&
      (match windowOf w.addr with
       | some .scratch => w.cluster == clusterOf g.core
       | some .cistern => w.cluster / 16 == dieOf g.core
       | _ => true)

/-- The lowest thread lane whose access hits a watch (R288). -/
def Ctx.watchLane (c : Ctx) (size : Nat) (rd wr : Bool) (va : Nat → Dword) : Option Nat :=
  (maskLanes c.thr).find? fun l => c.s.watched c.g (va l) size rd wr

/-- One lane's access with its place: a device address, host bus or peer address by `attr`, or a storage key. -/
structure LaneAcc where
  lane  : Nat
  space : Space
  addr  : Nat
  attr  : Nat
  deriving DecidableEq, Repr

/-- Why an access parks its group (R213, R417). -/
inductive ParkWhy
  | fault (lane : Nat) (va : Dword) (f : WalkFault)
  | cow (page : Nat)
  deriving DecidableEq, Repr

/-- The 64 KiB partition-physical page of an address within a leaf. -/
def pageOf (l : Leaf) (va : Dword) : Nat := (l.ipa + va.toNat % l.size) / 65536 * 65536

/-- Every lane's place (R213): global addresses translated, all of them before anything takes effect. The lowest faulting thread lane parks the group; a faulting helper lane is left
out (R20). With `cow`, a write to a page still marked COW parks too (R417). -/
def State.resolve (s : State) (g : Group) (n : Need) (cow : Bool) : List (Nat × Dword) → State × List LaneAcc × Option ParkWhy
  | [] => (s, [], none)
  | (lane, va) :: rest =>
    match windowOf va with
    | some .global =>
      let (s, r) := s.translate g.core g.part va n
      match r with
      | .ok l =>
        if cow && l.cow then (s, [], some (.cow (pageOf l va)))
        else
          let (s, accs, why) := s.resolve g n cow rest
          (s, { lane := lane, space := .global, addr := leafPa l va, attr := l.attr } :: accs, why)
      | .error f => if g.helpers.getLsbD lane then s.resolve g n cow rest else (s, [], some (.fault lane va f))
    | some w =>
      let (s, accs, why) := s.resolve g n cow rest
      (s, { lane := lane, space := w, addr := storageKey g.core va w, attr := 0 } :: accs, why)
    | none => s.resolve g n cow rest

/-- A group parks on an access (R385, R417): a fault is reported with its lowest lane, a write to a COW page is not. -/
def State.parkGroup (s : State) (g : Group) (wr : Bool) : ParkWhy → State
  | .fault lane va f =>
    (s.modGroup g.gid fun g => { g with park := .fault }).pushFault g.part (recordW0 1 0 f.malf f.stage2 wr false)
      (threadWord g.span g.block g.group lane) va (s.time (dieOf g.core))
  | .cow page => s.modGroup g.gid fun g => { g with park := .cow page }

/-- An atomic or a store of a core is on its way to the home of a line, which the later accesses of its groups to the line follow (R98). -/
def State.lineBusy (s : State) (core line : Nat) : Bool :=
  let home (k : ReqKind) : Bool := match k with | .store _ _ => true | .atom _ _ => true | _ => false
  (s.reqs.any fun r => r.src == .l1 core && r.line == line && home r.kind) ||
    (s.txns.any fun t => t.req.src == .l1 core && t.req.line == line && home t.req.kind)

/-- Some access of a list meets such a line. -/
def State.anyBusy (s : State) (core : Nat) (accs : List LaneAcc) : Bool :=
  accs.any fun a => a.space == .global && a.attr != 1 && s.lineBusy core (a.addr / 128)

/-- A weir operation of the group on some of the bytes of a list of accesses is still under way (R98). -/
def State.weirHeld (s : State) (g : Group) (width : Nat) (accs : List LaneAcc) : Bool :=
  accs.any fun a => a.space == .global && s.weirAhead g.gid a.attr a.addr width

/-- An `ald` of a group has still to read some of the bytes at a host address (R221): the group's later accesses to them wait. -/
def State.hostHeld (s : State) (gid addr n : Nat) : Bool :=
  s.asys.any fun a => a.gid == gid && a.fill && !a.read && a.elems.any fun e => e.attr == 1 && decide (e.pa < addr + n) && decide (addr < e.pa + a.size)

/-- A store of a list of accesses stays behind what its core has sent to their lines, and behind such an `ald` (R98, R221). -/
def State.storeBehind (s : State) (g : Group) (width : Nat) (accs : List LaneAcc) : Bool :=
  s.anyBusy g.core accs || accs.any fun a => a.space == .global && a.attr == 1 && s.hostHeld g.gid a.addr width

/-- A load stays behind these, and behind its group's weir operations on its bytes (R98). -/
def State.loadBehind (s : State) (g : Group) (width : Nat) (accs : List LaneAcc) : Bool :=
  s.storeBehind g width accs || s.weirHeld g width accs

/-- Priority of a hint code (R92, R145). -/
def hintPrio (h : Nat) : Nat := match h with | 1 => 0 | 2 => 2 | _ => 1

/-- An access of a group enters its core's L1. -/
def State.toL1 (s : State) (g : Group) (prio addr : Nat) (a : PendAct) (again : Bool := false) : State :=
  s.enter { core := g.core, line := addr / 128, gid := g.gid, seen := [], gen := homeGen (s.genOf g.part) addr, part := g.part, prio := prio, act := a,
            again := again }

/-- A request leaves for a scratchpad or a bank (R72, R73). -/
def State.toNear (s : State) (g : Group) (sp : Space) (addr : Nat) (a : NearAct) (again : Bool := false) : State :=
  let (id, s) := s.fresh
  let writes : Bool := sp == .scratch && (match a with | .load _ _ _ _ => false | _ => true)
  let s := if writes then s.modGroup g.gid fun g => { g with scrSince := note g.scrSince (addr / 128) } else s
  { s with near := s.near ++ [{ id := id, space := sp, core := g.core, gid := g.gid, gen := s.genOf g.part, addr := addr, act := a, again := again }] }

/-- Rows marked empty at issue (R214). -/
def markEmpty (g : Group) (rows : List Nat) : Group := rows.foldl (fun g r => setRow g r { row g r with full := false }) g

/-- A return opened for rows d to d + n − 1. -/
def State.openRet (s : State) (g : Group) (d n : Nat) (lanes : Mask) (tag : Tag) (cis weir acq : Bool) : Nat × State :=
  let (id, s) := s.fresh
  (id, { s with rets := s.rets ++ [{ id := id, gid := g.gid, row := d, count := n, lanes := lanes, tag := tag, cis := cis, weir := weir, acq := acq, vals := [] }] })

/-- One lane's load (R217): host memory is read at once, since no cache holds its lines (R374). -/
def State.loadAcc (s : State) (g : Group) (ret prio width : Nat) (sign : Bool) (a : LaneAcc) : State :=
  if a.attr = 1 then s.deliver ret a.lane (loadWord (s.host.read 0 a.addr width) width sign) (s.host.anyPoison 0 a.addr width)
  else s.toL1 g prio a.addr (.load ret a.lane (a.addr % 128) width sign)

/-- The distinct storage addresses of a list of accesses, with their lanes. -/
def byAddr (accs : List LaneAcc) : List (Space × Nat × Mask) :=
  accs.foldl (fun ps a =>
    if ps.any fun p => p.1 == a.space && p.2.1 == a.addr then
      ps.map fun p => if p.1 = a.space ∧ p.2.1 = a.addr then (p.1, p.2.1, p.2.2 ||| (1#32 <<< a.lane)) else p
    else ps ++ [(a.space, a.addr, 1#32 <<< a.lane)]) []

/-- The loads of a list of accesses. -/
def State.loads (s : State) (g : Group) (ret prio width : Nat) (sign : Bool) (accs : List LaneAcc) : State :=
  let near := byAddr (accs.filter fun a => a.space != .global)
  let s := (accs.filter fun a => a.space == .global).foldl (fun s a => s.loadAcc g ret prio width sign a) s
  near.foldl (fun s p => s.toNear g p.1 p.2.1 (.load ret p.2.2 width sign)) s

/-- One lane's store (R219): host memory is written at once (R374). -/
def State.storeAcc (s : State) (g : Group) (prio : Nat) (a : LaneAcc) (bs : List Byte) (again : Bool := false) : State :=
  match a.space with
  | .global =>
    if a.attr = 1 then s.softPoke 1 0 a.addr bs false
    else s.toL1 g prio a.addr (.store (a.addr % 128) bs false) again
  | sp => s.toNear g sp a.addr (.store bs) again

/-- One lane's atomic (R81, R226, R228). The group's own copy of a global line is given up first, since the atomic leaves it in no L1. -/
def State.atomAcc (s : State) (g : Group) (prio : Nat) (x : LaneAcc) (a : AtomOp) : State :=
  match x.space with
  | .global =>
    if x.attr = 1 then
      let (m, old, pois) := atomAt s.host 0 x.addr a
      let s : State := { s with host := m }
      match a.ret with | some r => s.deliver r a.lane (old.zeroExtend 128) pois | none => s
    else
      (s.evictL1 g.core (x.addr / 128)).sendReq g.gid g.part (homeGen (s.genOf g.part) x.addr) prio (x.addr / 128) (.l1 g.core) .home (.atom (x.addr % 128) a)
  | sp => s.toNear g sp x.addr (.atom a)

/-- The first `n` bytes of the words that rows b, b+1, … hold in a lane (R218). -/
def dataBytes (g : Group) (b lane n : Nat) : List Byte :=
  leBytes n (ofLe ((List.range ((n + 3) / 4)).flatMap fun j => leBytes 4 (laneOf (row g (b + j)).lanes lane).toNat))

/-- One lane's store of a word (R219). A rewound region that has broken a rule stores free bytes; one that has not notes where it stores (R328). -/
def Ctx.storeLane (c : Ctx) (prio b width : Nat) (s : State) (a : LaneAcc) : State :=
  let bs := dataBytes c.g b a.lane width
  match c.g.rerun with
  | none => s.storeAcc c.g prio a bs
  | some r =>
    if !inRerun r c.e.pc.toNat then s.storeAcc c.g prio a bs
    else if r.broken then
      let (bs, s) := s.freeBytes width
      s.storeAcc c.g prio a bs
    else (s.modGroup c.g.gid fun g => { g with rerun := g.rerun.map fun r => { r with stores := r.stores ++ [(a.space, a.attr, a.addr, width)] } }).storeAcc c.g prio a bs true

/-- A split that must wait until its group's earlier accesses are performed at a scope, or goes on when they are (R102, R103, R237); `none` is `.full`. -/
def Ctx.fenceOnly (c : Ctx) (sc : Option Scope) : Issue :=
  if c.s.performedFor c.g.gid sc then .done (c.advance.perform c.g.core sc)
  else .done (c.s.setGroup (setEntry c.g c.k { entry c.g c.k with state := .waitPark, wait := .fence sc }))

/-- An ordered instruction without an access orders as a fence at its scope (R103). -/
def Ctx.noAccess (c : Ctx) (sc : Option Scope) : Issue :=
  match sc with
  | some sc => c.fenceOnly (some sc)
  | none => .done c.advance

/-- A scalar word whose acquire or release orders as a fence when it does not execute (R28, R103). -/
def runOrdered (i : Instr) (h : Hdr) (sc : Option Scope) (s : State) (body : Ctx → Issue) : Host.Outcome State Fault Refusal :=
  runWord i h s fun c => if c.executes then body c else c.noAccess sc

/-- A release may not be made before the group's earlier accesses are performed (R118). -/
def Ctx.releaseWaits (c : Ctx) (sc : Option Scope) : Bool :=
  match sc with
  | some sc => !c.s.performedFor c.g.gid (some sc)
  | none => false

/-- The performing half of a release (R118). -/
def State.release (s : State) (core : Nat) (sc : Option Scope) : State :=
  match sc with
  | some sc => s.perform core (some sc)
  | none => s

/-- The value that has arrived for a lane. -/
def retVal (r : Ret) (lane : Nat) : BitVec 128 × Bool := match r.vals.find? (fun v => v.1 == lane) with | some v => v.2 | none => (0, false)

/-- Row j of a return lands (R214, R215): a poisoned thread lane takes zero and marks the row; `bad` says which lanes' values are poisoned for this row. -/
def landRow (g : Group) (r : Ret) (j : Nat) (tag : Tag) (bad : Nat → Bool) : Group :=
  let v : Lanes := lanesOf fun l => if bad l then 0 else ((retVal r l).1 >>> (32 * j)).truncate 32
  let hurt := (maskLanes (threadsOf g r.lanes)).any bad
  let g := writeRow g (r.row + j) r.lanes tag v
  let x := row g (r.row + j)
  setRow g (r.row + j) { x with poison := x.poison || hurt }

/-- Rows of a return that lands, in a group that still runs (R214, R233). -/
def landRows (g : Group) (r : Ret) : Group :=
  let bad (l : Nat) : Bool := (retVal r l).2
  let status := r.count - 1
  let g := (List.range r.count).foldl (fun g j =>
    if r.weir then landRow g r j (if j = status then .i32 else .raw) (fun l => j != status && bad l)
    else landRow g r j r.tag bad) g
  { g with holds := g.holds.filter (· != r.id) }

/-- A return whose values are undefined brings free ones, whose poison marks stay (R7, R328). -/
def State.loosen (s : State) (r : Ret) : Ret × State :=
  if r.loose then
    let (vs, s) := r.vals.foldl (fun (acc : List (Nat × BitVec 128 × Bool) × State) v =>
      let (bs, s) := acc.2.freeBytes 16
      (acc.1 ++ [(v.1, BitVec.ofNat 128 (ofLe bs), v.2.2)], s)) ([], s)
    ({ r with vals := vs }, s)
  else (r, s)

/-- A return lands, in whichever slot holds its group (R214); a group that has ended has no rows (R15). -/
def State.land (s : State) (r : Ret) : State :=
  let (x, s) := s.loosen r
  { s with rets := s.rets.filter fun y => !(y.id == r.id) }.modGroup r.gid fun g => landRows g x

end Sys2Proof.Machine
end

