-- ==== Sys2Proof/Machine/MemOps.lean ====
section
/-! DEFINITION. Loads, stores, prefetch, atomics, reductions and cistern operations (R216 to R228, R234 to R236), and the steps that complete them. -/

namespace Sys2Proof.Machine

/-- The scope of an ORDSC or SC field (R144); none is relaxed. -/
def ordScope (o : BitVec 3) : Option Scope := Scope.ofCode o.toNat

/-- What the checks of steps 3 to 5 come to for a memory word: go on, or the issue they end in; with helper lanes alone a failed check is silent (R20, R154). -/
def Ctx.orElse (c : Ctx) (r : Chk Unit) (silent : Issue) (go : Issue) : Issue :=
  match r with
  | .ok () => go
  | .error .notReady => .notReady
  | .error (.trap cause lane info) => if c.thr = 0 then silent else .trap c.s cause lane info

/-- Step 6 and the watch check of a memory word (R153, R288). -/
def Ctx.stepSix (c : Ctx) (size : Nat) (sp : Option Space) (rd wr : Bool) (va : Nat → Dword) (go : Issue) : Issue :=
  match c.badLane size sp va with
  | some (l, cause) => .trap c.s cause (some l) (va l)
  | none => match c.watchLane size rd wr va with
    | some l => .trap c.s .watch (some l) (va l)
    | none => go

/-- A site that resolved quickens (R307). -/
def Ctx.record (c : Ctx) (q : Option (Nat × Bool)) : Ctx := match q with | some (code, uni) => c.quicken assume54 code uni | none => c

/-- A LOAD of `width` bytes into n rows (R216, R217). -/
def loadWith (i : Instr) (w : ML) (width n : Nat) (sign : Bool) (tag : Tag) (s : State) : Host.Outcome State Fault Refusal :=
  runWord i w.toHdr s fun c =>
    let acq := ordScope w.ordsc
    let d := w.d.toNat
    let dst := (List.range n).map (d + ·)
    let ak := akOf w.m
    let src := addrSrc w.a.toNat ak (names w.e .a)
    let va := addrLane c.g w.a.toNat ak (w.ofs.signExtend 64)
    if c.held then .notReady
    else if c.act = 0 then c.noAccess acq
    else
      let chk : Chk Unit := do
        checkBound c.g (dst ++ src.flatMap VSrc.rows)
        checkFull c.g dst src
      c.orElse chk (.done (c.finish (writeZeros c.g dst c.act tag))) <|
        let (c, sp, q) := c.space w.m va
        c.stepSix width sp true false va <|
          let lanes := (maskLanes c.act).filter fun l => c.thr.getLsbD l || (c.s.addrFault c.g.part width sp (va l)).isNone
          let (s, accs, why) := c.s.resolve c.g needR false (lanes.map fun l => (l, va l))
          match why with
          | some y => .stay (s.parkGroup c.g false y)
          | none =>
            if s.loadBehind c.g width accs then .notReady
            else
              let c := Ctx.record { c with s := s } q
              let (ret, s) := c.s.openRet c.g d n c.act tag false false acq.isSome
              let g := markEmpty c.g dst
              let c : Ctx := { c with s := s }
              let s := c.finish { g with holds := if acq.isSome then ret :: g.holds else g.holds }
              let s := (lanes.filter fun l => !(accs.any fun a => a.lane == l)).foldl (fun s l => s.deliver ret l 0 false) s
              let s := ((maskLanes c.act).filter fun l => !lanes.contains l).foldl (fun s l => s.deliver ret l 0 false) s
              .done (s.loads c.g ret (hintPrio (hintOf w.m)) width sign accs)

/-- LD_B8 -/
def execLdB8 (w : ML) (s : State) : Host.Outcome State Fault Refusal := loadWith (.ldB8 w) w 1 1 false .raw s
/-- LD_S8 -/
def execLdS8 (w : ML) (s : State) : Host.Outcome State Fault Refusal := loadWith (.ldS8 w) w 1 1 true .i32 s
/-- LD_B16 -/
def execLdB16 (w : ML) (s : State) : Host.Outcome State Fault Refusal := loadWith (.ldB16 w) w 2 1 false .raw s
/-- LD_S16 -/
def execLdS16 (w : ML) (s : State) : Host.Outcome State Fault Refusal := loadWith (.ldS16 w) w 2 1 true .i32 s
/-- LD -/
def execLd (w : ML) (s : State) : Host.Outcome State Fault Refusal := loadWith (.ld w) w 4 1 false (Tag.ofCode w.tag.toNat) s
/-- LD_B64 -/
def execLdB64 (w : ML) (s : State) : Host.Outcome State Fault Refusal := loadWith (.ldB64 w) w 8 2 false .raw s
/-- LD_B128 -/
def execLdB128 (w : ML) (s : State) : Host.Outcome State Fault Refusal := loadWith (.ldB128 w) w 16 4 false .raw s

/-- A STORE of `width` bytes from n rows (R218, R219): only thread lanes write (R20). -/
def storeWith (i : Instr) (w : MS) (width n : Nat) (s : State) : Host.Outcome State Fault Refusal :=
  runWord i w.toHdr s fun c =>
    let rel := ordScope w.ordsc
    let b := w.b.toNat
    let ak := akOf w.m
    let data : VSrc := ⟨b, false, names w.e .b, n⟩
    let srcs := addrSrc w.a.toNat ak (names w.e .a) ++ [data]
    let va := addrLane c.g w.a.toNat ak (w.ofs.signExtend 64)
    if c.held then .notReady
    else if c.thr = 0 then c.noAccess rel
    else if c.releaseWaits rel then .notReady
    else
      let chk : Chk Unit := do
        checkBound c.g (srcs.flatMap VSrc.rows)
        checkFull c.g [] srcs
      c.orElse chk (.done c.advance) <|
        let (c, sp, q) := c.space w.m va
        c.stepSix width sp false true va <|
          let (s, accs, why) := c.s.resolve c.g needW true ((maskLanes c.thr).map fun l => (l, va l))
          match why with
          | some y => .stay (s.parkGroup c.g true y)
          | none =>
            if s.storeBehind c.g width accs then .notReady
            else
              let c := Ctx.record { c with s := s } q
              let s := c.advance.release c.g.core rel
              .done (accs.foldl (c.storeLane (hintPrio (hintOf w.m)) b width) s)

/-- ST_B8 -/
def execStB8 (w : MS) (s : State) : Host.Outcome State Fault Refusal := storeWith (.stB8 w) w 1 1 s
/-- ST_B16 -/
def execStB16 (w : MS) (s : State) : Host.Outcome State Fault Refusal := storeWith (.stB16 w) w 2 1 s
/-- ST -/
def execSt (w : MS) (s : State) : Host.Outcome State Fault Refusal := storeWith (.st w) w 4 1 s
/-- ST_B64 -/
def execStB64 (w : MS) (s : State) : Host.Outcome State Fault Refusal := storeWith (.stB64 w) w 8 2 s
/-- ST_B128 -/
def execStB128 (w : MS) (s : State) : Host.Outcome State Fault Refusal := storeWith (.stB128 w) w 16 4 s

/-- PF (R222): each lane's line is fetched; a lane that cannot be is dropped, as is one whose address is not aligned to the 128 bytes that it fetches (log 65). It never traps: when its
guard or its address registers would trap any other word, every lane is dropped. -/
def execPf (w : ML) (s : State) : Host.Outcome State Fault Refusal :=
  runWord (.pf w) w.toHdr s fun c =>
    let ak := akOf w.m
    let src := addrSrc w.a.toNat ak (names w.e .a)
    let va := addrLane c.g w.a.toNat ak (w.ofs.signExtend 64)
    if c.act = 0 ∨ c.hurtRead.isSome then .done c.advance
    else
      let chk : Chk Unit := do
        checkBound c.g (src.flatMap VSrc.rows)
        checkFull c.g [] src
      match chk with
      | .error .notReady => .notReady
      | .error _ => .done c.advance
      | .ok () =>
        let s := (maskLanes c.thr).foldl (fun s l =>
          if windowOf (va l) = some .global ∧ (va l).toNat % 128 = 0 then
            match s.translate c.g.core c.g.part (va l) needR with
            | (s, .ok f) => if f.attr ≠ 1 then s.toL1 c.g (hintPrio (hintOf w.m)) (leafPa f (va l)) .warm else s
            | (s, .error _) => s
          else s) c.advance
        .done s

/-- ORD of an MA word, M<5:4> (R224): its acquire and its release scope. -/
def maAcq (w : MA) : Option Scope := if bitAt w.m 4 then ordScope w.sc else none
@[inherit_doc maAcq]
def maRel (w : MA) : Option Scope := if bitAt w.m 5 then ordScope w.sc else none

/-- The space an `atom`, `cas` or `red` names, M<1> (R224). -/
def maSpace (w : MA) : Space := if bitAt w.m 1 then .scratch else .global

/-- The address of an MA word's lane (R224). -/
def maAddr (g : Group) (w : MA) : Nat → Dword := addrLane g w.a.toNat false 0

/-- A one- or two-row operand as a 64-bit number. -/
def operand64 (g : Group) (r n lane : Nat) : Dword :=
  (if n = 2 then laneOf (row g (r + 1)).lanes lane else 0) ++ laneOf (row g r).lanes lane

/-- What `atom`, `cas` and `red` share (R224 to R228): checks, ordering, places; `perform` sends one lane's operation. `d` are the rows of the result. DESIGN CHOICE (log 86): with helper
lanes alone the rows of the result keep their values and their tags. -/
def atomicWith (i : Instr) (w : MA) (d : List Nat) (srcs : List (VSrc × Option Tag)) (tag : Tag) (s : State)
    (perform : Ctx → Nat → State → LaneAcc → State) : Host.Outcome State Fault Refusal :=
  runWord i w.toHdr s fun c =>
    let size := if bitAt w.m 0 then 8 else 4
    let acq := maAcq w
    let rel := maRel w
    let va := maAddr c.g w
    let all : List (VSrc × Option Tag) := (⟨w.a.toNat, false, names w.e .a, 2⟩, none) :: srcs
    if c.held then .notReady
    else if c.thr = 0 then c.noAccess (match acq with | some a => some a | none => rel)
    else if c.releaseWaits rel then .notReady
    else
      let chk : Chk Unit := do
        checkBound c.g (d ++ all.flatMap fun x => x.1.rows)
        checkFull c.g d (all.map (·.1))
        checkTags c.g all
      c.orElse chk (.done c.advance) <|
        c.stepSix size (some (maSpace w)) true true va <|
          let (s, accs, why) := c.s.resolve c.g needRW true ((maskLanes c.thr).map fun l => (l, va l))
          match why with
          | some y => .stay (s.parkGroup c.g true y)
          | none =>
            let mine (a : LaneAcc) : Bool :=
              a.space == .global && a.attr != 1 && (s.outstanding c.g.core (a.addr / 128) || s.asyHolds c.g.gid (a.addr / 128))
            let host (a : LaneAcc) : Bool := a.space == .global && a.attr == 1 && (s.hostHeld c.g.gid a.addr size || s.weirAhead c.g.gid 1 a.addr size)
            if (!d.isEmpty && accs.any mine) || accs.any host then .notReady
            else
              let c : Ctx := { c with s := s }
              let (ret, s) := if d.isEmpty then (0, c.s) else c.s.openRet c.g (d.headD 0) d.length c.thr tag false false acq.isSome
              let g := markEmpty c.g d
              let c : Ctx := { c with s := s }
              let s := (c.finish { g with holds := if acq.isSome then ret :: g.holds else g.holds }).release c.g.core rel
              .done (accs.foldl (perform c ret) s)

/-- The result tag of `atom` (R225). -/
def atomTag (op : Nat) (fmt : RedFmt) : Tag := if op < 3 then redTag fmt else if op < 5 then .i32 else .raw

/-- The tag B of an `atom` or `red` must agree with (R225). -/
def atomNeeds (op : Nat) (fmt : RedFmt) : Option Tag := if op < 5 then some (redTag fmt) else none

/-- OP of `atom` and `red` (R225); none is `.exch`. -/
def atomRed (op : Nat) : Option RedOp := if op < 8 then some (RedOp.ofCode op) else none

/-- ATOM (R226). -/
def execAtom (w : MA) (s : State) : Host.Outcome State Fault Refusal :=
  let n := if bitAt w.m 0 then 2 else 1
  let op := atomOp w.c
  let fmt := if bitAt w.m 0 then RedFmt.i64 else RedFmt.ofCode (atomFmt w.c)
  atomicWith (.atom w) w ((List.range n).map (w.d.toNat + ·)) [(⟨w.b.toNat, false, names w.e .b, n⟩, atomNeeds op fmt)] (atomTag op fmt) s
    fun c ret s x => s.atomAcc c.g (hintPrio (hintOf w.m)) x
      { lane := x.lane, ret := some ret, w64 := bitAt w.m 0, cas := false, op := atomRed op, fmt := fmt, b := operand64 c.g w.b.toNat n x.lane, c := 0 }

/-- CAS (R228). -/
def execCas (w : MA) (s : State) : Host.Outcome State Fault Refusal :=
  let n := if bitAt w.m 0 then 2 else 1
  atomicWith (.cas w) w ((List.range n).map (w.d.toNat + ·))
    [(⟨w.b.toNat, false, names w.e .b, n⟩, none), (⟨w.c.toNat, false, names w.e .c, n⟩, none)] .raw s
    fun c ret s x => s.atomAcc c.g (hintPrio (hintOf w.m)) x
      { lane := x.lane, ret := some ret, w64 := bitAt w.m 0, cas := true, op := none, fmt := .i32,
        b := operand64 c.g w.b.toNat n x.lane, c := operand64 c.g w.c.toNat n x.lane }

/-- RED (R79, R227). DESIGN CHOICE (log 79): where lanes of one word name the same element, they combine in increasing lane order; R97 gives them no order. -/
def execRed (w : MA) (s : State) : Host.Outcome State Fault Refusal :=
  let op := atomOp w.c
  let fmt := RedFmt.ofCode (atomFmt w.c)
  atomicWith (.red w) w [] [(⟨w.b.toNat, false, names w.e .b, 1⟩, atomNeeds op fmt)] .raw s
    fun c _ s x =>
      let b := laneOf (row c.g w.b.toNat).lanes x.lane
      let prio := hintPrio (hintOf w.m)
      if x.space = .global ∧ x.attr ≠ 1 then s.toL1 c.g prio x.addr (.red (RedOp.ofCode op) fmt (x.addr % 128) b)
      else s.atomAcc c.g prio x
        { lane := x.lane, ret := none, w64 := false, cas := false, op := atomRed op, fmt := fmt, b := b.zeroExtend 64, c := 0 }

/-- The operation of a `cis`, M<3:0> (R234). -/
def cisOpOf (m : BitVec 6) : CisOp :=
  match fieldN m 3 0 with
  | 7 => .exch
  | 8 => .fma
  | n => .red (RedOp.ofCode n)

/-- The tag the operands of a `cis` must agree with (R234). -/
def cisNeeds (m : BitVec 6) (fmt : RedFmt) : Option Tag :=
  match fieldN m 3 0 with
  | 5 => none
  | 6 => none
  | 7 => none
  | _ => some (redTag fmt)

/-- CIS (R234 to R236). -/
def execCis (w : MA) (s : State) : Host.Outcome State Fault Refusal :=
  runWord (.cis w) w.toHdr s fun c =>
    let fmt := RedFmt.ofCode w.sc.toNat
    let ret := bitAt w.m 5
    let vec := bitAt w.m 4
    let op := cisOpOf w.m
    let need := cisNeeds w.m fmt
    let d : List Nat := if ret then [w.d.toNat] else []
    let pair : List (VSrc × Option Tag) := if vec then [] else [(⟨w.a.toNat, false, names w.e .a, 2⟩, none)]
    let third : List (VSrc × Option Tag) := if op = .fma then [(⟨w.c.toNat, false, names w.e .c, 1⟩, need)] else []
    let srcs := pair ++ [(⟨w.b.toNat, false, names w.e .b, 1⟩, need)] ++ third
    let base := sreg c.g w.a.toNat
    let va (l : Nat) : Dword := if vec then base else addrLane c.g w.a.toNat false 0 l
    let elemVa (l : Nat) : Dword := if vec then base + BitVec.ofNat 64 (4 * l) else va l
    if c.held then .notReady
    else if c.thr = 0 then .done c.advance
    else
      let chk : Chk Unit := do
        checkBound c.g (d ++ srcs.flatMap fun x => x.1.rows)
        checkFull c.g d (srcs.map (·.1))
        checkTags c.g srcs
        if ret ∧ 255 ≤ c.g.cisq.length then .error .notReady
      c.orElse chk (.done c.advance) <|
        match c.badLane (if vec then 128 else 4) (some .cistern) va with
        | some (l, cause) => .trap c.s cause (some l) (va l)
        | none => match c.watchLane 4 true true elemVa with
          | some l => .trap c.s .watch (some l) (elemVa l)
          | none =>
            let (id, s) := if ret then c.s.openRet c.g (d.headD 0) 1 c.thr (redTag fmt) true false false else (0, c.s)
            let r : Option Nat := if ret then some id else none
            let g := markEmpty c.g d
            let g := if ret then { g with cisq := g.cisq ++ [(id, false)] } else g
            let elem (l : Nat) : CisElem :=
              { lane := l, addr := storageKey c.g.core (elemVa l) .cistern, b := laneOf (row c.g w.b.toNat).lanes l,
                c := if op = .fma then laneOf (row c.g w.c.toNat).lanes l else 0 }
            let c : Ctx := { c with s := s }
            let s := c.finish g
            let lanes := maskLanes c.thr
            .done (if vec then s.toNear c.g .cistern (storageKey c.g.core base .cistern) (.cis op fmt r (lanes.map elem))
              else lanes.foldl (fun s l => s.toNear c.g .cistern (elem l).addr (.cis op fmt r [elem l])) s)

/-- The destination of a request near the cores (R73). -/
def nearDest (n : NearReq) : Nat := nearPlace n.space n.addr

@[inherit_doc nearDest]
def nearEnd (n : NearReq) : EndPoint := match n.space with | .scratch => .pad (nearDest n) | _ => .bank (nearDest n)

/-- An earlier request of the same core to the same destination is still under way (R73), or a gated `ast` of the group has yet to read there (R221). -/
def State.nearBehind (s : State) (n : NearReq) : Bool :=
  ((s.near.takeWhile fun x => x.id != n.id).any fun x => x.core == n.core && x.space == n.space && nearDest x == nearDest n) ||
    (n.space == .scratch && s.astHolds n.gid (n.addr / 65536))

/-- The storage of a space near the cores, and a state with it replaced. -/
def State.nearMem (s : State) (sp : Space) : Memory := match sp with | .scratch => s.scratch | _ => s.cistern
@[inherit_doc State.nearMem]
def State.setNear (s : State) (sp : Space) (m : Memory) : State := match sp with | .scratch => { s with scratch := m } | _ => { s with cistern := m }

/-- Bytes written there with their mark (R413); a unit that poisoned data newly poisons is counted (R426). -/
def State.putNear (s : State) (sp : Space) (gen a : Nat) (bs : List Byte) (pois : Bool) : State :=
  let fresh := if pois then (poisonUnits a bs.length).filter fun u => !(s.nearMem sp).poisoned gen (u * poisonUnit) else []
  fresh.foldl (fun s _ => s.countPoison gen) (s.setNear sp ((s.nearMem sp).write gen a bs pois))

/-- One element operation of a bank (R135, R234, R235). -/
def cisNew (op : CisOp) (fmt : RedFmt) (old b c : Word) : Word :=
  match op with
  | .exch => b
  | .red o => Num.combine o fmt old b
  | .fma => Num.bankFma fmt old b c

/-- One element performed at its bank (R235); a poisoned element stays as it is (R413). -/
def State.cisElem (s : State) (gen : Nat) (op : CisOp) (fmt : RedFmt) (ret : Option Nat) (e : CisElem) : State :=
  let old : Word := BitVec.ofNat 32 (ofLe (s.cistern.read gen e.addr 4))
  let pois := s.cistern.anyPoison gen e.addr 4
  let s := if pois then s else { s with cistern := s.cistern.write gen e.addr (leBytes 4 (cisNew op fmt old e.b e.c).toNat) false }
  match ret with
  | some r => s.deliver r e.lane (old.zeroExtend 128) pois
  | none => s

/-- A request performed at its scratchpad or bank (R72, R217, R219, R226, R235). -/
def State.performNear (s : State) (n : NearReq) : State :=
  let s := { s with near := s.near.filter fun x => !(x.id == n.id) }
  let m := s.nearMem n.space
  let reply (s : State) (ret : Nat) (lanes : Mask) : State := s.noteReply ret lanes (nearEnd n) n.core
  match n.act with
  | .load ret lanes width sign =>
    let v := loadWord (m.read n.gen n.addr width) width sign
    let p := m.anyPoison n.gen n.addr width
    reply ((maskLanes lanes).foldl (fun s l => s.deliver ret l v p) s) ret lanes
  | .store bs => (s.setNear n.space (m.write n.gen n.addr bs false)).evalMons n.space (n.addr / 128)
  | .atom a =>
    let (m, old, pois) := atomAt m n.gen n.addr a
    let s := (s.setNear n.space m).evalMons n.space (n.addr / 128)
    match a.ret with
    | some r => reply (s.deliver r a.lane (old.zeroExtend 128) pois) r (1#32 <<< a.lane)
    | none => s
  | .cis op fmt ret elems =>
    let s := (elems.foldl (fun s e => s.cisElem n.gen op fmt ret e) s).evalMons .cistern (n.addr / 128)
    match ret with
    | some r => reply s r (maskOf fun l => elems.any fun e => e.lane == l)
    | none => s

/-- A request to the storage of a space takes place, when it is the next of its core there. -/
def State.nearStep (s : State) (id : Nat) (sp : Space) : Host.Outcome State Fault Refusal :=
  match s.near.find? (fun n => n.id == id && n.space == sp) with
  | some n => if s.nearBehind n then .next s else .next (s.performNear n).settle
  | none => .next s

/-- SCRATCHPAD_ACCESS (R72, R73). -/
def execScratchpadAccess (id : Nat) (s : State) : Host.Outcome State Fault Refusal := s.nearStep id .scratch

/-- CIS_BANK_OPERATION (R72, R235): a bank performs a `cis`, a load or a store. -/
def execCisBankOperation (id : Nat) (s : State) : Host.Outcome State Fault Refusal := s.nearStep id .cistern

/-- An earlier reply of the same sender to the same core has not arrived (R73): one whose return is complete, or a line on its way to the core's cache. -/
def State.retBehind (s : State) (r : Ret) : Bool :=
  (s.rets.any fun x => x.id != r.id && allSent x && x.sent.all fun y => r.sent.any fun z => z.src == y.src && z.dest == y.dest && decide (y.seq < z.seq)) ||
    s.fills.any fun f => r.sent.any fun z => nodeEnd f.node f.line == z.src && agentEnd f.dest f.line == .core z.dest && decide (f.id < z.seq)

/-- A return that has all its values takes place, behind the replies that its senders have sent its core before (R73). -/
def State.retStep (s : State) (id : Nat) (cis : Bool) : Host.Outcome State Fault Refusal :=
  match s.rets.find? (fun r => r.id == id && r.cis == cis) with
  | some r =>
    if retReady r && !s.retBehind r then
      let s := s.land r
      .next (if cis then s.modGroup r.gid fun g => { g with cisq := countDone g.cisq r.id } else s).settle
    else .next s
  | none => .next s

/-- RETURN_LANDS (R214, R215, R233). -/
def execReturnLands (id : Nat) (s : State) : Host.Outcome State Fault Refusal := s.retStep id false

/-- CIS_RETURN (R83, R235): the destination is written; CISOUT falls in issue order. -/
def execCisReturn (id : Nat) (s : State) : Host.Outcome State Fault Refusal := s.retStep id true

end Sys2Proof.Machine
end

