-- ==== Sys2Proof/Machine/Async.lean ====
section
/-! DEFINITION. The in-flight paths (R82 to R85): asynchronous fills and spills, sealed batches, `seal` and `waitc` (R220, R221, R223), and engine errors (R258). -/

namespace Sys2Proof.Machine

/-- Code of a cause of R258. -/
def engCode : EngCause → Nat
  | .malformed => 1 | .shape => 2 | .elemSize => 3 | .translation => 4 | .outside => 5 | .misaligned => 6 | .check => 7 | .scaleFF => 8 | .poisoned => 9

/-- PATH of ENGERR (R258). -/
def pathCode : Path → Nat
  | .asy => 0 | .trv => 1 | .cis => 2 | .qnt => 3

/-- The sticky error bit of a path set (R82). -/
def setErr (g : Group) : Path → Group
  | .asy => { g with errAsy := true }
  | .trv => { g with errTrv := true }
  | .cis => { g with errCis := true }
  | .qnt => { g with errQnt := true }

/-- CMDERR of a command: ENGERR and the sticky bit of the issuing group, when it still runs (R15, R82, R258). -/
def State.engineError (s : State) (gid : Nat) (p : Path) (cause : EngCause) (addr : Nat) : State :=
  s.modGroup gid fun g => { setErr g p with engerr := BitVec.ofNat 64 (pathCode p * 2 ^ 62 + addr / 256 % 2 ^ 48 * 256 + engCode cause) }

/-- The scratch-window address of an offset (R221). -/
def scratchVa (off : Word) : Dword := 0xFE00000000000000 + off.zeroExtend 64

/-- The checks of one lane of `ald` and `ast`, in the order of R221, with the address reported. -/
def State.asyFault (s : State) (p size : Nat) (va sva : Dword) : Option (Cause × Dword) :=
  if va.toNat % size ≠ 0 then some (.align, va)
  else if sva.toNat % size ≠ 0 then some (.align, sva)
  else if windowOf va ≠ some .global then some (.access, va)
  else if windowOf sva ≠ some .scratch ∨ !s.inWindow p sva .scratch then some (.access, sva)
  else none

/-- An access of the group to a scratchpad is still under way (R72, R221). -/
def State.nearBusy (s : State) (gid key : Nat) : Bool :=
  s.near.any fun n => n.gid == gid && n.space == .scratch && n.addr / 65536 == key / 65536

/-- Accesses of a core to a global line wait in its L1 or are on their way, or an `ald` issued on it has yet to read it (R78, R98, R221). -/
def State.pendBusy (s : State) (core line : Nat) : Bool :=
  (s.pends.any fun p => p.core == core && p.line == line) || s.lineBusy core line ||
    (s.asys.any fun a => a.core == core && s.asyHolds a.gid line)

/-- What an access that is made at a home in the step of its issue waits for (R73, R78, R98, R221, log 13): its core's requests to that home slice and its accesses to the line, what is under
way for the line, and at a host address an `ald` of its group. -/
def State.homeBehind (s : State) (g : Group) (attr pa n : Nat) : Bool :=
  if attr = 1 then s.hostHeld g.gid pa n
  else s.pendBusy g.core (pa / 128) || !s.quiet (pa / 128) || s.requestBehind s.nextId (.core g.core) (nodeEnd .home (pa / 128))

/-- Two copies touch a byte of global memory in common. -/
def asyMeet (a b : AsyOp) : Bool :=
  a.elems.any fun x => b.elems.any fun y => x.attr == y.attr && decide (x.pa < y.pa + b.size) && decide (y.pa < x.pa + a.size)

/-- An earlier copy of the same group must come first (R221): an `ast` of the same global bytes, a gated `ald` of them, or a gated `ast` that has yet to read a scratchpad this one
writes. -/
def State.asyBehind (s : State) (op : AsyOp) : Bool :=
  (s.asys.takeWhile fun x => x.id != op.id).any fun x => x.gid == op.gid &&
    ((asyMeet x op && (!x.fill || (!x.read && !op.fill))) ||
      (op.fill && !x.fill && !x.read && x.elems.any fun e => op.elems.any fun f => e.addr / 65536 == f.addr / 65536))

/-- The lines of a copy's global side touch the L2 with its hint (R92, R220). -/
def State.asyTouch (s : State) (op : AsyOp) (attr pa : Nat) (dirty : Bool) : State :=
  if attr = 1 then s else (linesOf pa op.size).foldl (fun s l => s.touchL2 (homeDie l) l op.part op.prio dirty) s

/-- One lane's source bytes as they stand, at the global place given or in scratch (R79, R221), free where two running partitions map them (R371). -/
def State.asySource (s : State) (op : AsyOp) (e : AsyElem) (attr pa : Nat) : AsyElem × State :=
  let gen := s.genOf op.part
  if op.fill then
    let s := (if attr = 1 then s else (s.recallURange pa op.size).blurRange gen pa op.size).asyTouch op attr pa false
    ({ e with bytes := s.peek attr gen pa op.size, pois := s.peekPoison attr gen pa op.size }, s)
  else ({ e with bytes := s.scratch.read gen e.addr op.size, pois := s.scratch.anyPoison gen e.addr op.size }, s)

/-- A copy that starts at its issue reads its source bytes there (R221). DESIGN CHOICE (log 88): R221 bounds the read only by the group's own accesses; other groups' writes it sees as they
stand at the issue. -/
def State.asyRead (s : State) (op : AsyOp) : AsyOp × State :=
  let (es, s) := op.elems.foldl (fun (acc : List AsyElem × State) e =>
    let (e, s) := acc.2.asySource op e e.attr e.pa
    (acc.1 ++ [e], s)) ([], s)
  ({ op with read := true, elems := es }, s)

/-- ALD and AST (R220, R221). -/
def asyWith (i : Instr) (w : MS) (fill : Bool) (s : State) : Host.Outcome State Fault Refusal :=
  runWord i w.toHdr s fun c =>
    let size := 4 * 2 ^ fieldN w.d 1 0
    let ak := akOf w.m
    let b := w.b.toNat
    let srcs := addrSrc w.a.toNat ak (names w.e .a) ++ [⟨b, false, names w.e .b, 1⟩]
    let off : Dword := w.ofs.signExtend 64
    let va (l : Nat) : Dword := addrLane c.g w.a.toNat ak off l + (if ak then BitVec.ofNat 64 (l * size) else 0)
    let sva (l : Nat) : Dword := scratchVa (laneOf (row c.g b).lanes l)
    let lanes := maskLanes c.thr
    if c.held then .notReady
    else if c.thr = 0 then .done c.advance
    else
      let chk : Chk Unit := do
        checkBound c.g (srcs.flatMap VSrc.rows)
        checkFull c.g [] srcs
      c.orElse chk (.done c.advance) <|
        match lanes.findSome? (fun l => (c.s.asyFault c.g.part size (va l) (sva l)).map fun x => (l, x)) with
        | some (l, cause, info) => .trap c.s cause (some l) info
        | none =>
          let hit (l : Nat) : Option Dword :=
            if c.s.watched c.g (va l) size fill (!fill) then some (va l)
            else if c.s.watched c.g (sva l) size (!fill) fill then some (sva l) else none
          match lanes.findSome? (fun l => (hit l).map fun x => (l, x)) with
          | some (l, info) => .trap c.s .watch (some l) info
          | none =>
            match joinBatch c.g.asy with
            | none => .notReady
            | some asy =>
              let (s, accs, why) := c.s.resolve c.g (if fill then needR else needW) false (lanes.map fun l => (l, va l))
              match why with
              | some (.fault l a f) => .stay (s.parkGroup c.g (!fill) (.fault l a f))
              | _ =>
                let keyOf (l : Nat) : Nat := storageKey c.g.core (sva l) .scratch
                let pends (l : Nat) : Bool := (s.pends.any fun p => p.core == c.g.core && p.line == l) || s.lineBusy c.g.core l
                let busy := (accs.any fun a => a.attr != 1 && (pends (a.addr / 128) || !s.quiet (a.addr / 128))) || (fill && s.weirHeld c.g size accs)
                if busy ∨ lanes.any (fun l => s.nearBusy c.g.gid (keyOf l)) then .notReady
                else
                  let elem (l : Nat) : AsyElem :=
                    let a := (accs.find? fun a => a.lane == l).getD { lane := l, space := .global, addr := 0, attr := 1 }
                    { lane := l, va := va l, attr := a.attr, pa := a.addr, addr := keyOf l, bytes := [], pois := false }
                  let (id, s) := s.fresh
                  let gates := s.gatesOf c.g.core 2 c.g.slot
                  let op : AsyOp :=
                    { id := id, gid := c.g.gid, part := c.g.part, core := c.g.core, batch := asy.seq, fill := fill, prio := hintPrio (hintOf w.m), size := size,
                      read := false, elems := lanes.map elem, gates := gates }
                  let (op, s) := if !gates.isEmpty ∨ s.asyBehind op then (op, s) else s.asyRead op
                  let s : State := { s with asys := s.asys ++ [op] }
                  let c : Ctx := { c with s := s.queueGates c.g.core gates (.asy id) }
                  .done (c.finish { c.g with asy := asy })

/-- ALD -/
def execAld (w : MS) (s : State) : Host.Outcome State Fault Refusal := asyWith (.ald w) w true s
/-- AST -/
def execAst (w : MS) (s : State) : Host.Outcome State Fault Refusal := asyWith (.ast w) w false s

/-- What an engine meets at a global address for a partition: the place, a fault, or a page it must wait for (R380, R417). -/
inductive EngPlace
  | at_ (attr pa : Nat)
  | fault
  | wait
  deriving DecidableEq, Repr

/-- An engine's translation of a global address; a write to a COW page waits, and so does a line that is not quiet (R380, R417, log 13). -/
def State.engPlace (s : State) (core p : Nat) (va : Dword) (size : Nat) (n : Need) : State × EngPlace :=
  match s.translate core p va n with
  | (s, .error _) => (s, .fault)
  | (s, .ok l) =>
    let pa := leafPa l va
    if n.w && l.cow then (s, .wait)
    else if l.attr ≠ 1 ∧ !s.quietRange pa size then (s, .wait)
    else (s, .at_ l.attr pa)

/-- The pages still marked COW that an engine's writes wait for are drained next (R417). -/
def State.wantCow (s : State) (core p : Nat) (vas : List Dword) : State :=
  let pages := vas.filterMap fun va => if windowOf va = some .global then (match (s.translate core p va needW).2 with
    | .ok l => if l.cow then some (pageOf l va) else none
    | .error _ => none) else none
  pages.eraseDups.foldl (fun s a => s.wantPage p a) s

/-- Bytes written at a place by `ast`, with its hint (R92, R220), and what the write leaves undefined (R230, R313, R337). -/
def State.asyPoke (s : State) (op : AsyOp) (attr pa : Nat) (bs : List Byte) (pois : Bool) : State :=
  let (bs, s) := s.softBytes pa bs attr
  if attr = 1 then s.poke 1 0 pa bs pois
  else s.softly (s.genOf op.part) pa bs.length fun s => (s.asyTouch op attr pa true).cohPut (s.genOf op.part) pa bs pois

/-- One lane of an asynchronous copy performed (R221): a mapping revoked after issue is CMDERR, and so are poisoned source bytes and a failed check, whose data is written poisoned (R258,
R413). What `ald` leaves in scratch may be an operand of an `mma` (R114). -/
def State.asyElem (s : State) (op : AsyOp) (e : AsyElem) : State :=
  let (s, place) := s.engPlace op.core op.part e.va op.size (if op.fill then needR else needW)
  let failed := s.checks.contains (.asy op.id, e.lane)
  let from_ := if op.fill then e.va.toNat else (scratchVa (BitVec.ofNat 32 (e.addr % 2 ^ 24))).toNat
  let ends (s : State) (e : AsyElem) : State :=
    if e.pois then s.engineError op.gid .asy .poisoned from_ else if failed then s.engineError op.gid .asy .check e.va.toNat else s
  let write (s : State) (e : AsyElem) : State :=
    ((s.putNear .scratch (s.genOf op.part) e.addr e.bytes (e.pois || failed)).evalMons .scratch (e.addr / 128)).modGroup op.gid fun g =>
      { g with scrSince := note g.scrSince (e.addr / 128) }
  match place with
  | .fault => s.engineError op.gid .asy .translation e.va.toNat
  | .at_ attr pa =>
    let (e, s) := if op.read then (e, s) else s.asySource op e attr pa
    let s := ends s e
    if op.fill then write s e else s.asyPoke op attr pa e.bytes (e.pois || failed)
  | .wait => if op.fill then write (ends s e) e else s

/-- Some lane of an operation cannot be performed now. -/
def State.asyWaits (s : State) (op : AsyOp) : Bool :=
  op.elems.any fun e => match (s.engPlace op.core op.part e.va op.size (if op.fill then needR else needW)).2 with
    | .wait => !op.fill || !op.read
    | _ => false

/-- The checks that failed in a command leave with it. -/
def State.dropChecks (s : State) (w : EngineWork) : State := { s with checks := s.checks.filter fun x => x.1 != w }

/-- ASYNC_COPY_PERFORMED (R84, R111, R221, R417): the bytes of all its lanes are written; a copy that was gated reads them first. The accesses of its group that waited for it go on.
DESIGN CHOICE (log 98): its lanes end in increasing order, so where several end with CMDERR, ENGERR keeps the address of the highest of them; R258 does not say which it is. -/
def execAsyncCopyPerformed (id : Nat) (s : State) : Host.Outcome State Fault Refusal :=
  match s.asys.find? (fun a => a.id == id) with
  | some op =>
    if !op.gates.isEmpty ∨ s.asyBehind op then .next s
    else if s.asyWaits op then .next (if op.fill then s else s.wantCow op.core op.part (op.elems.map (·.va)))
    else
      let s := op.elems.foldl (fun s e => s.asyElem op e) { s with asys := s.asys.filter fun a => !(a.id == id) }
      .next ((if op.read then s else op.elems.foldl (fun s e => if e.attr = 1 then s else s.serveLine op.core (e.pa / 128)) s).dropChecks (.asy id))
  | none => .next s

/-- The path's sealed batches. -/
def pathCtl (g : Group) : Path → PathCtl
  | .trv => g.trv
  | _ => g.asy

/-- A group with a path's batches replaced. -/
def setPath (g : Group) (p : Path) (c : PathCtl) : Group :=
  match p with
  | .trv => { g with trv := c }
  | _ => { g with asy := c }

/-- An operation of a batch is not yet performed (R84). -/
def State.batchOpen (s : State) (gid : Nat) (p : Path) (b : Nat) : Bool :=
  match p with
  | .trv => s.travs.any fun t => t.gid == gid && t.batch == b
  | _ => s.asys.any fun a => a.gid == gid && a.batch == b

/-- The oldest sealed batch of an exited group's path, when all its operations are performed (R15, R271). -/
def State.orphanBatch (s : State) (o : Orphan) (path : Path) : State :=
  let c := if path = .trv then o.trv else o.asy
  match c.closed with
  | b :: rest =>
    if s.batchOpen o.gid path b then s
    else
      let o' : Orphan := if path = .trv then { o with trv := { c with closed := rest } } else { o with asy := { c with closed := rest } }
      let s := { s with orphans := if o'.asy.closed.isEmpty && o'.trv.closed.isEmpty then s.orphans.erase o else s.orphans.map fun x => if x = o then o' else x }
      s.pulseSources o.core (if path = .trv then 3 else 2) [o.slot]
  | [] => s

/-- BATCH_COMPLETE (R15, R84, R85, R271): the oldest sealed batch of a path has all its operations performed. The batches of a group that has exited still pulse sluice lines. -/
def execBatchComplete (gid : Nat) (path : Path) (s : State) : Host.Outcome State Fault Refusal :=
  if path = .cis ∨ path = .qnt then .next s
  else match s.group? gid with
    | some g =>
      let c := pathCtl g path
      match c.closed with
      | b :: rest =>
        if s.batchOpen gid path b then .next s
        else
          let s := s.setGroup (setPath g path { c with closed := rest })
          .next (s.pulseSources g.core (if path = .trv then 3 else 2) [g.slot]).settle
      | [] => .next s
    | none => match s.orphans.find? (·.gid == gid) with
      | some o => .next (s.orphanBatch o path).settle
      | none => .next s

/-- SEAL (R84, R223). -/
def execSeal (w : RR) (s : State) : Host.Outcome State Fault Refusal :=
  runScalar (.seal w) w.toHdr s fun c =>
    let p : Path := if bitAt w.m 0 then .trv else .asy
    match sealPath (pathCtl c.g p) with
    | some x => .done (c.finish (setPath c.g p x))
    | none => .notReady

/-- WAITC (R85, R223). -/
def execWaitc (w : RR) (s : State) : Host.Outcome State Fault Refusal :=
  runScalar (.waitc w) w.toHdr s fun c =>
    let p := Path.ofCode (fieldN w.m 1 0)
    let limit := sreg c.g w.a.toNat
    let sealed : Option Group := match p with
      | .asy => (sealPath c.g.asy).map fun x => setPath c.g .asy x
      | .trv => (sealPath c.g.trv).map fun x => setPath c.g .trv x
      | _ => some c.g
    match sealed with
    | none => .notReady
    | some g =>
      if pathOut g p ≤ limit.toNat then .done (c.finish g)
      else .done (c.s.setGroup (setEntry g c.k { entry g c.k with state := .waitPark, wait := .waitc p limit }))

end Sys2Proof.Machine
end

