-- ==== Sys2Proof/Machine/Sync.lean ====
section
/-! DEFINITION. Fences, block and transaction barriers, monitors, meridian time and the step counter (R48 to R50, R86 to R91, R237 to R246). -/

namespace Sys2Proof.Machine

/-- FENCE (R102, R117, R237). -/
def execFence (w : RR) (s : State) : Host.Outcome State Fault Refusal :=
  runWord (.fence w) w.toHdr s fun c => c.fenceOnly (Scope.ofCode (fieldN w.m 2 0))

/-- A first arrival arms the barrier and takes the limit of its phase (R49, R50). -/
def armBar (b : Block) (n : Nat) : Block :=
  let x := barOf b n
  if x.armed then b else { b with bars := b.bars.set n { armed := true, age := 0, limit := b.barlimit, stalled := false } }

/-- BAR (R48, R238): the active thread lanes arrive and the split parks; a phase that is complete releases its splits in the same step. -/
def execBar (w : RI) (s : State) : Host.Outcome State Fault Refusal :=
  runWord (.bar w) w.toHdr s fun c =>
    let n := fieldN w.imm 3 0
    let g := setEntry c.g c.k { entry c.g c.k with state := .barPark, wait := .bar n c.thr }
    .done (((c.s.setGroup g).modBlock g.bid fun b => armBar b n).settleBars g.bid)

/-- Thread lanes that have arrived at barrier n of a block, counted. -/
def State.arrivedCount (s : State) (bid n : Nat) : Nat := (s.groupsOf bid).foldl (fun a g => a + popCount (arrivedAt g n)) 0

/-- The lowest thread of a block that has not arrived (R50), as a record's thread word. -/
def State.missingThread (s : State) (bid n : Nat) : Dword :=
  let missing := (s.groupsOf bid).filterMap fun g => (lowestLane (g.live &&& ~~~arrivedAt g n)).map fun l => (g.group, threadWord g.span g.block g.group l)
  match sortBy (fun a b => decide (a.1 ≤ b.1)) missing with
  | x :: _ => x.2
  | [] => 0

/-- BARSTALL (R50, R384, R385): a phase of a resident block has passed its limit. -/
def execBarstall (bid bar : Nat) (s : State) : Host.Outcome State Fault Refusal :=
  match s.block? bid with
  | some b =>
    let x := barOf b bar
    if resident b ∧ bar < 16 ∧ x.armed ∧ !x.stalled ∧ x.limit ≠ 0 ∧ x.limit.toNat * 1024 ≤ x.age then
      let s' := s.modBlock bid fun b => { b with bars := b.bars.set bar { x with stalled := true } }
      .next (s'.pushFault b.part (recordW0 3 0 false false false false) (s.missingThread bid bar) 0
        (BitVec.ofNat 64 (bar + s.arrivedCount bid bar % 65536 * 16)))
    else .next s
  | none => .next s

/-- A scalar operand's address, which must be global and aligned (R239, R247). -/
def globalAt (va : Dword) (size : Nat) : Chk Unit :=
  if va.toNat % size ≠ 0 then trapNow .align va
  else if windowOf va ≠ some .global then trapNow .access va
  else .ok ()

/-- The place of a scalar's global address, ready for an indivisible step at its home; or the issue that stops it: a park on a fault, or not ready while the line is not quiet or
accesses of the group's core are not performed (R73, R78, R98, R213, log 13). Update-only copies are recalled (R79). -/
def Ctx.homePlace (c : Ctx) (va : Dword) (n : Need) : Except Issue (Ctx × Nat × Nat) :=
  let lane := (lowestLane c.e.ex).getD ((lowestLane c.e.own).getD 0)
  match c.s.translate c.g.core c.g.part va n with
  | (s, .error f) => .error (.stay (s.parkGroup c.g n.w (.fault lane va f)))
  | (s, .ok l) =>
    let pa := leafPa l va
    if n.w && l.cow then .error (.stay (s.parkGroup c.g true (.cow (pageOf l va))))
    else if s.homeBehind c.g l.attr pa 8 ∨ s.weirAhead c.g.gid l.attr pa 8 then .error .notReady
    else .ok ({ c with s := s.recallAt l.attr (s.genOf c.g.part) pa 1 }, l.attr, pa)

/-- A 64-bit word of device, host or peer memory, as an agent at its home reads it. -/
def State.homeDword (s : State) (attr gen pa : Nat) : Dword := BitVec.ofNat 64 (ofLe (s.peek attr gen pa 8))

/-- A barrier word is malformed (R86). -/
def tbarBad (w0 w1 : Dword) : Bool :=
  !zeroAt w0 61 60 || !zeroAt w0 19 0 || !zeroAt w1 63 48 || fieldN w0 59 40 == 0 || decide (fieldN w0 59 40 < fieldN w0 39 20)

/-- The words after an update, OVR included (R87). -/
def tbarNext (w0 w1 : Dword) (op : TbarOp) : Dword × Dword :=
  let expect := fieldN w0 59 40
  let arrived := fieldN w0 39 20
  let pending := fieldN w1 47 0
  let ovr := bitAt w0 62
  let top := 2 ^ 48 - 1
  let (arrived, pending, ovr) := match op with
    | .arrive n =>
      if arrived = expect then (arrived, pending, true)
      else if top < pending + n then (arrived + 1, top, true)
      else (arrived + 1, pending + n, ovr)
    | .bytes n => if pending < n then (arrived, 0, true) else (arrived, pending - n, ovr)
  let done := arrived == expect && pending == 0
  let phase := bitAt w0 63 != done
  (BitVec.ofNat 64 (bitIf phase 63 + bitIf ovr 62 + expect * 2 ^ 40 + (if done then 0 else arrived) * 2 ^ 20),
   BitVec.ofNat 64 (if done then 0 else pending))

/-- What an update of a barrier answers: malformed, or the phase before it and OVR after it. -/
structure TbarAnswer where
  bad   : Bool
  phase : Bool
  ovr   : Bool
  deriving DecidableEq, Repr

/-- A transaction barrier updated by the atomic unit of its home, in one step (R86, R87, R90), which brings the line to itself whatever the word holds (R81). -/
def State.tbarUpdate (s : State) (attr gen pa : Nat) (op : TbarOp) : State × TbarAnswer :=
  let w0 := s.homeDword attr gen pa
  let w1 := s.homeDword attr gen (pa + 8)
  if tbarBad w0 w1 then ((if attr = 1 then s else s.recallAll (pa / 128)), ⟨true, bitAt w0 63, bitAt w0 62⟩)
  else
    let (n0, n1) := tbarNext w0 w1 op
    (s.softPoke attr gen pa (leBytes 8 n0.toNat ++ leBytes 8 n1.toNat) false, ⟨false, bitAt w0 63, bitAt n0 62⟩)

/-- Status of a `tbar` (R239). -/
def tbarStatus (result : Nat) (ovr phase : Bool) : Dword := BitVec.ofNat 64 (result + bitIf ovr 2 + bitIf phase 3)

/-- The storage that orders a location has a free monitor entry (R89); an entry whose compare has come to hold is free (R90). -/
def State.monRoom (s : State) (sp : Space) (addr : Nat) : Bool :=
  let same (m : Mon) : Bool := m.hit.isNone && m.space == sp && match sp with
    | .global => homeDie (m.addr / 128) == homeDie (addr / 128) && homeSlice (m.addr / 128) == homeSlice (addr / 128)
    | .scratch => m.addr / 65536 == addr / 65536
    | .cistern => m.addr / 2 ^ 25 == addr / 2 ^ 25 && natBits m.addr 15 7 == natBits addr 15 7
  let cap := match sp with | .global => 4096 | .scratch => 64 | .cistern => 8
  decide ((s.mons.filter same).length < cap)

/-- A monitor entry allocated; a global line with an entry leaves every cache (R90). -/
def State.addMon (s : State) (sp : Space) (addr part : Nat) (t : MonTest) (who : Waiter) : Nat × State :=
  let s := match sp with | .global => s.recallAll (addr / 128) | _ => s
  let (id, s) := s.fresh
  (id, { s with mons := s.mons ++ [{ id := id, space := sp, addr := addr, part := part, gen := s.genOf part, test := t, who := who, hit := none }] })

/-- A monitor entry freed (R90). -/
def State.freeMon (s : State) (id : Nat) : State := { s with mons := s.mons.filter fun m => !(m.id == id) }

/-- Cycles of a timeout in units of 64 (R428); 0 waits without limit. -/
def timeoutCycles (n : Dword) : Option Nat := if n = 0 then none else some (n.toNat * 64)

/-- TBAR (R239, R240). -/
def execTbar (w : MA) (s : State) : Host.Outcome State Fault Refusal :=
  runOrdered (.tbar w) w.toHdr (ordScope w.sc) s fun c =>
    let va := sreg c.g w.a.toNat
    let b := sreg c.g w.b.toNat
    let d := w.d.toNat
    let mode := fieldN w.m 1 0
    let sc := ordScope w.sc
    c.conclude (globalAt va 16) fun _ =>
      if c.held ∨ (mode ≠ 1 ∧ c.releaseWaits sc) then .notReady
      else match c.homePlace va (if mode = 1 then needR else needRW) with
        | .error i => i
        | .ok (c, attr, pa) =>
          let gen := c.s.genOf c.g.part
          let arrive : State × TbarAnswer :=
            if mode = 1 then
              let w0 := c.s.homeDword attr gen pa
              (c.s, ⟨tbarBad w0 (c.s.homeDword attr gen (pa + 8)), bitAt w0 63, bitAt w0 62⟩)
            else (c.s.release c.g.core sc).tbarUpdate attr gen pa (.arrive (fieldN b 47 0))
          let (s, ans) := arrive
          let c : Ctx := { c with s := s }
          if ans.bad then .done (c.finish (setS c.g d (tbarStatus 2 ans.ovr (if mode = 1 then bitAt b 0 else ans.phase))))
          else if mode = 0 then .done (c.finish (setS c.g d (tbarStatus 0 ans.ovr ans.phase)))
          else
            let ph := if mode = 1 then bitAt b 0 else ans.phase
            if bitAt (s.homeDword attr gen pa) 63 ≠ ph then .done (c.finish (setS c.g d (tbarStatus 0 ans.ovr ph)))
            else if attr ≠ 0 ∨ !s.monRoom .global pa then .done (c.finish (setS c.g d (tbarStatus 3 ans.ovr ph)))
            else
              let (id, s) := s.addMon .global pa c.g.part (.phaseNot ph) (.split c.g.gid c.k)
              .done (s.setGroup (setEntry c.g c.k
                { entry c.g c.k with state := .waitPark, wait := .tbar d id ph (timeoutCycles (sreg c.g w.c.toNat)) }))

/-- A scalar's location in one of the three windows for a monitor or a test (R69, R241, R243). -/
def Ctx.waitPlace (c : Ctx) (va : Dword) (size : Nat) : Except Issue (Ctx × Space × Nat × Nat) :=
  match c.s.addrFault c.g.part size none va with
  | some cause => .error (.trap c.s cause none va)
  | none => match windowOf va with
    | some .global => match c.homePlace va needR with
      | .error i => .error i
      | .ok (c, attr, pa) => .ok (c, .global, attr, pa)
    | some sp =>
      let key := storageKey c.g.core va sp
      if c.s.nearAhead c.g sp key then .error .notReady
      else .ok (c, sp, 0, key)
    | none => .error .notReady

/-- The word at a monitored location, as its storage holds it. -/
def State.locWord (s : State) (sp : Space) (attr gen addr n : Nat) : Dword :=
  match sp with
  | .global => BitVec.ofNat 64 (ofLe (s.peek attr gen addr n))
  | sp => BitVec.ofNat 64 (ofLe ((s.nearMem sp).read gen addr n))

/-- The scope of an acquiring `mwait` (R241). -/
def mwaitScope (w : MA) : Option Scope := if bitAt w.m 1 then ordScope w.sc else none

/-- MWAIT (R89, R241, R242). -/
def execMwait (w : MA) (s : State) : Host.Outcome State Fault Refusal :=
  runOrdered (.mwait w) w.toHdr (mwaitScope w) s fun c =>
    let va := sreg c.g w.a.toNat
    let operand := sreg c.g w.b.toNat
    let d := w.d.toNat
    let w64 := bitAt w.m 2
    let n := if w64 then 8 else 4
    let cond := Cond.ofCode (cond53 w.m)
    let uns := bitAt w.m 0
    let acq := mwaitScope w
    if c.held then .notReady
    else match c.waitPlace va n with
      | .error i => i
      | .ok (c, sp, attr, addr) =>
        if compareWord cond w64 uns (c.s.locWord sp attr (c.s.genOf c.g.part) addr n) operand then .done (c.finish (setS c.g d 0))
        else if attr ≠ 0 ∨ !c.s.monRoom sp addr then
          (if c.releaseWaits acq then .notReady else .done ((c.finish (setS c.g d 1)).release c.g.core acq))
        else
          let (id, s) := c.s.addMon sp addr c.g.part (.cmp cond w64 uns operand) (.split c.g.gid c.k)
          .done (s.setGroup (setEntry c.g c.k
            { entry c.g c.k with state := .waitPark, wait := .mwait d id acq (timeoutCycles (sreg c.g w.c.toNat)) }))

/-- WAITM (R243). -/
def execWaitm (w : RR) (s : State) : Host.Outcome State Fault Refusal :=
  runScalar (.waitm w) w.toHdr s fun c =>
    let d := w.d.toNat
    let deadline := sreg c.g w.c.toNat
    let past := decide (deadline.toNat ≤ (c.s.time (dieOf c.g.core)).toNat)
    let park (s : State) (mon : Option Nat) : State :=
      s.setGroup (setEntry c.g c.k { entry c.g c.k with state := .waitPark, wait := .waitm d mon deadline })
    if bitAt w.m 1 then
      .done (if past then c.finish (setS c.g d 2) else park c.s none)
    else
      let va := sreg c.g w.a.toNat
      let operand := sreg c.g w.b.toNat
      let w64 := bitAt w.m 2
      let n := if w64 then 8 else 4
      let cond := Cond.ofCode (cond53 w.m)
      let uns := bitAt w.m 0
      if c.held then .notReady
      else match c.waitPlace va n with
        | .error i => i
        | .ok (c, sp, attr, addr) =>
          if compareWord cond w64 uns (c.s.locWord sp attr (c.s.genOf c.g.part) addr n) operand then .done (c.finish (setS c.g d 0))
          else if past then .done (c.finish (setS c.g d 2))
          else if attr ≠ 0 ∨ !c.s.monRoom sp addr then .done (c.finish (setS c.g d 1))
          else
            let (id, s) := c.s.addMon sp addr c.g.part (.cmp cond w64 uns operand) (.split c.g.gid c.k)
            .done (park s (some id))

/-- A split's wait on monitor entry `id` ends with the word that made it hold (R90, R240, R242, R243). -/
def matchWait (g : Group) (k id : Nat) (v : Dword) : Group :=
  match (entry g k).wait with
  | .mwait sd m _ _ => if m = id then wakeWith g k sd 0 else g
  | .waitm sd (some m) _ => if m = id then wakeWith g k sd 0 else g
  | .tbar sd m ph _ => if m = id then wakeWith g k sd (tbarStatus 0 (bitAt v 62) ph) else g
  | _ => g

/-- MONITOR_MATCH (R90): an entry whose compare has come to hold is freed, and its split wakes with MATCH. A waiter that is not resident is woken after its restore (R91). -/
def execMonitorMatch (id : Nat) (s : State) : Host.Outcome State Fault Refusal :=
  match s.mons.find? (fun m => m.id == id) with
  | some m => match m.who, s.hitOf m with
    | .split gid k, some v =>
      if (s.group? gid).isSome then .next ((s.freeMon id).modGroup gid fun g => matchWait g k id v) else .next s
    | _, _ => .next s
  | none => .next s

/-- Every split of a resident group whose monitor entry has come to hold wakes with MATCH in the step of the write, and the entry is free (R87, R90). -/
def State.wakeMatches (s : State) : State :=
  s.mons.foldl (fun s m => match execMonitorMatch m.id s with | .next s' => s' | _ => s) s

/-- A split's timed wait ends: its monitor entry is freed, its status is written. -/
def State.timeOut (s : State) (gid k mon sd : Nat) (v : Dword) : State := (s.freeMon mon).modGroup gid fun g => wakeWith g k sd v

/-- TBAR_TIMEOUT (R240, R428). -/
def execTbarTimeout (gid k : Nat) (s : State) : Host.Outcome State Fault Refusal :=
  match s.group? gid with
  | some g => match (entry g k).wait with
    | .tbar sd mon ph (some 0) =>
      let ovr := match s.mons.find? (fun m => m.id == mon) with | some m => bitAt (s.monWord m) 62 | none => false
      .next (s.timeOut gid k mon sd (tbarStatus 1 ovr ph))
    | _ => .next s
  | none => .next s

/-- MWAIT_TIMEOUT (R106, R242, R428): an acquiring wait acts as a fence at its scope. -/
def execMwaitTimeout (gid k : Nat) (s : State) : Host.Outcome State Fault Refusal :=
  match s.group? gid with
  | some g => match (entry g k).wait with
    | .mwait sd mon acq (some 0) =>
      let waits := match acq with | some sc => !s.performedFor gid (some sc) | none => false
      if waits then .next s else .next ((s.timeOut gid k mon sd 2).release g.core acq)
    | _ => .next s
  | none => .next s

/-- WAITM_DEADLINE (R243): the die's meridian time has reached the deadline. -/
def execWaitmDeadline (gid k : Nat) (s : State) : Host.Outcome State Fault Refusal :=
  match s.group? gid with
  | some g => match (entry g k).wait with
    | .waitm sd mon deadline =>
      if deadline.toNat ≤ (s.time (dieOf g.core)).toNat then
        let s := match mon with | some id => s.freeMon id | none => s
        .next (s.modGroup gid fun g => wakeWith g k sd 2)
      else .next s
    | _ => .next s
  | none => .next s

/-- GETM (R244): one sample of the die's meridian counter, returned under R214. -/
def execGetm (w : RR) (s : State) : Host.Outcome State Fault Refusal :=
  runWord (.getm w) w.toHdr s fun c =>
    let d := w.d.toNat
    let dst := [d, d + 1]
    if c.act = 0 then .done c.advance
    else
      let chk : Chk Unit := do
        checkBound c.g dst
        checkFull c.g dst []
      c.orElse chk (.done (c.finish (writeZeros c.g dst c.act .raw))) <|
        let (id, s) := c.s.openRet c.g d 2 c.act .raw false false false
        let t := s.time (dieOf c.g.core)
        let s := (maskLanes c.act).foldl (fun s l => s.deliver id l (t.zeroExtend 128) false) s
        let c : Ctx := { c with s := s }
        .done (c.finish (markEmpty c.g dst))

/-- STEP (R245, R246): the `.adv` form orders as `fence.system` even where its guard holds in no lane (R28, R103). -/
def execStep (w : RI) (s : State) : Host.Outcome State Fault Refusal :=
  runOrdered (.step w) w.toHdr (if bitAt w.m 0 then none else some .system) s fun c =>
    let d := w.d.toNat
    if bitAt w.m 0 then .done (c.finish (setS c.g d (c.s.part c.g.part).stepCtr))
    else
      let n : Dword := w.imm.zeroExtend 64
      if c.s.performedFor c.g.gid (some .system) then
        let (s, v) := (c.s.perform c.g.core (some .system)).stepAdvance c.g.part n
        let c : Ctx := { c with s := s }
        .done (c.finish (setS c.g d v))
      else .done (c.s.setGroup (setEntry c.g c.k { entry c.g c.k with state := .waitPark, wait := .stepAdv d n }))

end Sys2Proof.Machine
end

