-- ==== Sys2Proof/Machine/Weir.lean ====
section
/-! DEFINITION. The weir (R229 to R233, R427): pushes and pops, the switch ports that hold and pair them, and their execution at the home. -/

namespace Sys2Proof.Machine

/-- One bit of the check of R412: polynomial 0x8BB7, unreflected. -/
def crcBit (c : BitVec 16) : BitVec 16 := if c.getLsbD 15 then (c <<< 1) ^^^ 0x8BB7 else c <<< 1

/-- The check over bytes (R412): initial value 0. -/
def crcBytes (bs : List Byte) : BitVec 16 :=
  bs.foldl (fun (c : BitVec 16) (b : Byte) =>
    (List.range 8).foldl (fun c _ => crcBit c) (c ^^^ BitVec.ofNat 16 (b.toNat * 256))) 0

/-- The check code of a weir value: over its 8 bytes and 24 zero bytes (R229, R412). -/
def weirCheck (v : Dword) : BitVec 16 := crcBytes (leBytes 8 v.toNat ++ List.replicate 24 0)

/-- The switch ports between a core and the home of a line (R427). -/
def weirRoute (core line : Nat) : List Port :=
  let die := dieOf core
  let up : Port := .uplink die (clusterOf core % 16 / 8)
  let home := homeDie line
  if die = home then [up, .toSlice die (homeSlice line)] else [up, .toDie die home, .toSlice home (homeSlice line)]

/-- KIND of a weir word, M<3:2> (R231). -/
def weirKindOf (m : BitVec 6) : WeirKind := match fieldN m 3 2 with | 1 => .stack | 2 => .pool | _ => .queue

/-- KIND of a header (R229). -/
def weirKindCode : WeirKind → Nat
  | .stack => 1
  | .pool => 2
  | .queue => 3

/-- The distance from an address to the end of its page: the smaller of the two leaf pages (R229). -/
def pageRoom (l : Leaf) (va : Dword) : Nat :=
  let size := min l.size1 l.size2
  size - va.toNat % size

/-- One lane's request sent (R232). DESIGN CHOICE (log 57): R427 names the ports toward the slices of this device; a request for an object in host or peer memory meets none. -/
def State.sendWeir (s : State) (g : Group) (ret : Nat) (push : Bool) (kind : WeirKind) (v : Dword) (va : Dword) (a : LaneAcc) : State :=
  let room := match s.walk g.part va.toNat needRW with | .ok l => pageRoom l va | .error _ => 0
  let (id, s) := s.fresh
  { s with weir := s.weir ++ [
      { id := id, gid := g.gid, core := g.core, ret := ret, lane := a.lane, push := push, part := g.part, gen := homeGen (s.genOf g.part) a.addr,
        attr := a.attr, pa := a.addr, limit := room, kind := kind, value := v, check := weirCheck v,
        ports := if a.attr = 0 then weirRoute g.core (a.addr / 128) else [], held := none }] }

/-- A weir operation waits for its core's accesses under way to the lines of its object's region (R98), and for its group's `ald` of them (R221). -/
def State.weirWaits (s : State) (g : Group) (va : Dword) (a : LaneAcc) : Bool :=
  let room := match s.walk g.part va.toNat needRW with | .ok l => pageRoom l va | .error _ => 0
  let len := max 64 (min room (64 + 16 * ofLe (s.peek a.attr (homeGen (s.genOf g.part) a.addr) a.addr 4)))
  let within (line : Nat) : Bool := decide (a.addr / 128 ≤ line) && decide (line ≤ (a.addr + len - 1) / 128)
  if a.attr = 1 then s.hostHeld g.gid a.addr len
  else (s.pends.any fun p => p.core == g.core && within p.line) || (s.reqs.any fun r => within r.line && s.lineBusy g.core r.line) ||
    (s.txns.any fun t => within t.req.line && s.lineBusy g.core t.req.line) || s.asys.any fun x => x.core == g.core && x.elems.any fun e => within (e.pa / 128) && s.asyHolds x.gid (e.pa / 128)

/-- WPUSH and WPOP (R231, R232). -/
def weirWith (i : Instr) (w : MA) (push : Bool) (s : State) : Host.Outcome State Fault Refusal :=
  runWord i w.toHdr s fun c =>
    let d := w.d.toNat
    let n := if push then 1 else 3
    let dst := (List.range n).map (d + ·)
    let acq := maAcq w
    let rel := maRel w
    let va := maAddr c.g w
    let b := w.b.toNat
    let srcs : List VSrc := ⟨w.a.toNat, false, names w.e .a, 2⟩ :: (if push then [⟨b, false, names w.e .b, 2⟩] else [])
    if c.held then .notReady
    else if c.act = 0 then c.noAccess (match acq with | some a => some a | none => rel)
    else if c.releaseWaits rel then .notReady
    else
      let chk : Chk Unit := do
        checkBound c.g (dst ++ srcs.flatMap VSrc.rows)
        checkFull c.g dst srcs
      c.orElse chk (.done (c.finish (writeZeros (writeZeros c.g (dst.take (n - 1)) c.act .raw) [d + n - 1] c.act .i32))) <|
        c.stepSix 64 (some .global) true true va <|
          let (s, accs, why) := c.s.resolve c.g needRW true ((maskLanes c.thr).map fun l => (l, va l))
          match why with
          | some y => .stay (s.parkGroup c.g true y)
          | none =>
            if accs.any fun a => s.weirWaits c.g (va a.lane) a then .notReady
            else
              let (ret, s) := s.openRet c.g d n c.act .i32 false true acq.isSome
              let g := markEmpty c.g dst
              let c : Ctx := { c with s := s }
              let s := (c.finish { g with holds := if acq.isSome then ret :: g.holds else g.holds }).release c.g.core rel
              let s := (maskLanes (c.act &&& c.g.helpers)).foldl (fun s l => s.deliver ret l 0 false) s
              .done (accs.foldl (fun s a => s.sendWeir c.g ret push (weirKindOf w.m) (if push then operand64 c.g b 2 a.lane else 0) (va a.lane) a) s)

/-- WPUSH -/
def execWpush (w : MA) (s : State) : Host.Outcome State Fault Refusal := weirWith (.wpush w) w true s
/-- WPOP -/
def execWpop (w : MA) (s : State) : Host.Outcome State Fault Refusal := weirWith (.wpop w) w false s

/-- A request leaves the network. -/
def State.dropWeir (s : State) (id : Nat) : State := { s with weir := s.weir.filter fun x => !(x.id == id) }

/-- Who answers a request (R232): the port it stands at, or its home (R81). -/
def weirEnd (w : WeirReq) : EndPoint := match w.ports with | p :: _ => .port p | [] => nodeEnd .home (w.pa / 128)

/-- The answer to a request (R73, R233): RESULT, PAIRED, and for a pop the value, poisoned when its check fails. A host object answers its core through no slice. -/
def State.answerWeir (s : State) (w : WeirReq) (result : Nat) (paired : Bool) (value : Dword) (bad : Bool) : State :=
  let status := result + bitIf paired 8
  let s := (s.dropWeir w.id).deliver w.ret w.lane (if w.push then BitVec.ofNat 128 status else BitVec.ofNat 128 (value.toNat + status * 2 ^ 64)) (bad && !w.push)
  if w.attr = 1 then s else s.noteReply w.ret (1#32 <<< w.lane) (weirEnd w) w.core

/-- Two requests may pair (R232). -/
def weirPairs (a b : WeirReq) : Bool := a.push != b.push && a.part == b.part && a.attr == b.attr && a.pa == b.pa && a.kind == b.kind && a.kind != .queue

/-- A push and a pop paired at a port (R112, R232, R233). -/
def State.pairWeir (s : State) (a b : WeirReq) : State :=
  let (push, pop) := if a.push then (a, b) else (b, a)
  (s.answerWeir push 0 true 0 false).answerWeir pop 0 true push.value (push.check != weirCheck push.value)

/-- Requests a port holds, the oldest first. DESIGN CHOICE (log 57): the oldest is the one that was issued first; R232 does not say whether age counts from the issue or from the hold. -/
def State.heldAt (s : State) (p : Port) : List WeirReq := s.weir.filter fun x => x.held.isSome && x.ports.head? == some p

/-- An earlier request of the same core to the same home slice has not gone further (R73); a request that a port holds is off the path. A host object has no home slice: its
group's earlier requests for it go first. -/
def State.weirBehind (s : State) (w : WeirReq) : Bool :=
  s.weir.any fun x => decide (x.id < w.id) && x.held.isNone && x.core == w.core && decide (w.ports.length ≤ x.ports.length) && (x.attr == 1) == (w.attr == 1) &&
    if w.attr = 1 then x.gid == w.gid && x.pa == w.pa else nodeEnd .home (x.pa / 128) == nodeEnd .home (w.pa / 128)

/-- A request changed in place. -/
def State.modWeir (s : State) (id : Nat) (f : WeirReq → WeirReq) : State := { s with weir := s.weir.map fun x => if x.id = id then f x else x }

/-- WEIR_PORT_ARRIVAL (R112, R113, R232, R427): a request reaches the next switch port of its path; it pairs, is held, or goes on. -/
def execWeirPortArrival (id : Nat) (s : State) : Host.Outcome State Fault Refusal :=
  match s.weir.find? (fun x => x.id == id && x.held.isNone) with
  | some w => match w.ports with
    | p :: rest =>
      if s.weirBehind w then .next s
      else match (s.heldAt p).find? (weirPairs w) with
        | some o => .next (s.pairWeir w o).settle
        | none =>
          let win := (s.part w.part).weirwin.toNat
          if win ≠ 0 ∧ w.kind ≠ .queue ∧ (s.heldAt p).length < Config.weirEntries then .next (s.modWeir id fun x => { x with held := some win })
          else .next (s.modWeir id fun x => { x with ports := rest })
    | [] => .next s
  | none => .next s

/-- WEIR_WINDOW_EXPIRY (R232): the window of a held request has passed; it is forwarded. -/
def execWeirWindowExpiry (id : Nat) (s : State) : Host.Outcome State Fault Refusal :=
  match s.weir.find? (fun x => x.id == id) with
  | some w => match w.held, w.ports with
    | some 0, _ :: rest => .next (s.modWeir id fun x => { x with held := none, ports := rest })
    | _, _ => .next s
  | none => .next s

/-- A header's words and whether it is malformed for a request (R229). -/
def weirBad (h : Nat → Dword) (w : WeirReq) : Bool :=
  let cap := fieldN (h 0) 31 0
  let kind := fieldN (h 0) 63 56
  !(kind == 1 || kind == 2 || kind == 3) || !zeroAt (h 0) 55 32 || cap == 0 || decide (cap < (h 1).toNat) ||
    (if kind = 3 then decide (cap ≤ (h 2).toNat) else h 2 != 0) || ([3, 4, 5, 6, 7].any fun i => h i != 0) ||
    decide (w.limit < 64 + 16 * cap) || kind != weirKindCode w.kind

/-- The entry an operation on a well-formed header touches (R230). -/
def weirIndex (h : Nat → Dword) (w : WeirReq) : Nat :=
  let cap := fieldN (h 0) 31 0
  let count := (h 1).toNat
  let head := (h 2).toNat
  if w.push then (if w.kind = .queue then (head + count) % cap else count)
  else if w.kind = .queue then head else count - 1

/-- One operation on header and entry (R230), as one step. -/
def State.weirHome (s : State) (w : WeirReq) : State :=
  let s := s.recallAt w.attr w.gen w.pa 64
  let h (i : Nat) : Dword := s.homeDword w.attr w.gen (w.pa + 8 * i)
  if weirBad h w then s.answerWeir w 3 false 0 false
  else
    let cap := fieldN (h 0) 31 0
    let count := (h 1).toNat
    let head := (h 2).toNat
    let i := weirIndex h w
    let entryAt (i : Nat) : Nat := w.pa + 64 + 16 * i
    let put (s : State) (a : Nat) (v : Nat) (n : Nat) : State := s.poke w.attr w.gen a (leBytes n v) false
    if w.push then
      if count = cap then s.answerWeir w 2 false 0 false
      else
        let i := if w.kind = .queue then (head + count) % cap else count
        let s := put s (entryAt i) (w.value.toNat + w.check.toNat * 2 ^ 64) 16
        (put s (w.pa + 8) (count + 1) 8).answerWeir w 0 false 0 false
    else if count = 0 then s.answerWeir w 1 false 0 false
    else
      let v := s.homeDword w.attr w.gen (entryAt i)
      let code := (s.homeDword w.attr w.gen (entryAt i + 8)).truncate 16
      let pois := s.peekPoison w.attr w.gen (entryAt i) 16
      let s := s.recallAt w.attr w.gen (entryAt i) 16
      let s := put s (w.pa + 8) (count - 1) 8
      let s := if w.kind = .queue then put s (w.pa + 16) ((head + 1) % cap) 8 else s
      s.answerWeir w 0 false v (pois || code != weirCheck v)

/-- WEIR_HOME_EXECUTE (R81, R113, R230): an operation that paired nowhere is executed at the header's home, once its lines are quiet and in
no page still marked COW (R417, log 13). -/
def execWeirHomeExecute (id : Nat) (s : State) : Host.Outcome State Fault Refusal :=
  match s.weir.find? (fun x => x.id == id) with
  | some w =>
    let h (i : Nat) : Dword := s.homeDword w.attr w.gen (w.pa + 8 * i)
    let lines := (w.pa / 128) :: if weirBad h w then [] else [(w.pa + 64 + 16 * weirIndex h w) / 128]
    if !w.ports.isEmpty ∨ s.weirBehind w ∨ (w.attr ≠ 1 ∧ (s.requestBehind w.id (.core w.core) (nodeEnd .home (w.pa / 128)) ∨ !lines.all s.quiet)) then .next s
    else if w.attr ≠ 1 ∧ lines.any s.cowLine then .next ((lines.filter s.cowLine).foldl (fun s l => s.wantLine l) s)
    else .next (s.weirHome w).settle
  | none => .next s

end Sys2Proof.Machine
end

