-- ==== Sys2Proof/Machine/CoherOps.lean ====
section
/-! DEFINITION. The steps of the coherence protocol (R73 to R81): requests at directories, probes and their answers, replies, evicted update-only lines, and atomics at the home. -/

namespace Sys2Proof.Machine

/-- An earlier request of the same source to the same destination has not been taken up (R73). -/
def State.reqBehind (s : State) (r : Req) : Bool := s.requestBehind r.id (agentEnd r.src r.line) (nodeEnd r.node r.line)

/-- An earlier reply of the same source to the same destination has not arrived (R73): lines on their way to caches, answers and evictions on their way to directories, values for
registers. -/
def State.replyBehind (s : State) (id : Nat) (src dest : EndPoint) : Bool :=
  (s.fills.any fun f => decide (f.id < id) && nodeEnd f.node f.line == src && agentEnd f.dest f.line == dest) ||
    (s.answers.any fun a => decide (a.id < id) && agentEnd a.src a.line == src && nodeEnd a.node a.line == dest) ||
    (s.uevicts.any fun u => decide (u.id < id) && EndPoint.core u.core == src && nodeEnd .home u.line == dest) ||
    (s.rets.any fun r => allSent r && r.sent.all fun x => decide (x.seq < id) && x.src == src && EndPoint.core x.dest == dest)

/-- An earlier probe of the same source to the same destination has not arrived (R73). -/
def State.probeBehind (s : State) (p : Probe) : Bool :=
  s.probes.any fun x => !x.held && decide (x.id < p.id) && nodeEnd x.node x.line == nodeEnd p.node p.line && agentEnd x.dest x.line == agentEnd p.dest p.line

/-- A directory works on a line, a slice holds a probe of it until its caches have answered, or a reply that makes a cache update-only is under way (R74, R76, R79). -/
def State.nodeBusy (s : State) (n : Node) (line : Nat) : Bool :=
  (s.txns.any fun t => t.node == n && t.req.line == line) || (s.fills.any fun f => f.line == line && isU f.st) ||
    (match n with | .home => false | .slice d => s.probes.any fun p => p.held && p.line == line && p.dest == .slice d)

/-- A request leaves the network. -/
def State.dropReq (s : State) (id : Nat) : State := { s with reqs := s.reqs.filter fun x => !(x.id == id) }

/-- The home's touch of a line for a request (R375 to R377). -/
def State.touchFor (s : State) (r : Req) : State :=
  match r.node with
  | .home => s.touchL2 (homeDie r.line) r.line r.part r.prio (match r.kind with | .getS => false | .getU _ _ => false | _ => true)
  | .slice _ => s

/-- The accesses that waited for a request of their L1 which has ended without a reply (R90). -/
def State.serveSrc (s : State) (r : Req) : State := match r.src with | .l1 c => s.serveLine c r.line | _ => s

/-- A store on its way to the home of a page still marked COW waits there (R417). -/
def State.storeHeld (s : State) (r : Req) : Bool := match r.kind with | .store _ _ => s.cowLine r.line | _ => false

/-- HOME_REQUEST (R75 to R79, R417): a directory takes up the next request of a source. -/
def execHomeRequest (id : Nat) (s : State) : Host.Outcome State Fault Refusal :=
  match s.reqs.find? (fun r => r.id == id) with
  | some r => match r.kind with
    | .atom _ _ => .next s
    | _ =>
      if s.reqBehind r ∨ s.nodeBusy r.node r.line then .next s
      else if s.storeHeld r then .next (s.wantLine r.line)
      else .next ((((s.dropReq id).touchFor r).takeUp r).serveSrc r).settle
  | none => .next s

/-- An atomic that would write nothing stands behind its group's weir operations on the bytes that it reads (R98). One that writes makes their region undefined (R230). -/
def State.failsBehind (s : State) (r : Req) (off : Nat) (a : AtomOp) : Bool :=
  let n := if a.w64 then 8 else 4
  let pa := r.line * 128 + off
  s.weirAhead r.gid 0 pa n && (atomNew a (BitVec.ofNat 64 (ofLe (s.peek 0 r.gen pa n)))).isNone

/-- ATOMIC_AT_HOME (R80, R81, R417): the home brings the line to itself and performs one atomic. -/
def execAtomicAtHome (id : Nat) (s : State) : Host.Outcome State Fault Refusal :=
  match s.reqs.find? (fun r => r.id == id) with
  | some r => match r.kind with
    | .atom off a =>
      if s.reqBehind r ∨ !s.quiet r.line ∨ s.failsBehind r off a then .next s
      else if s.cowLine r.line then .next (s.wantLine r.line)
      else .next (((((s.dropReq id).touchFor r).recallAll r.line).atomFor r off a).serveSrc r).settle
    | _ => .next s
  | none => .next s

/-- A cache holds a probe (R74): an L1 while a reply with the line is still to come, a slice also while its own caches are being sent it or answer for it. -/
def State.probeHeld (s : State) (p : Probe) : Bool :=
  (s.fills.any fun f => f.line == p.line && f.dest == p.dest && f.node == p.node) ||
    (match p.dest with
     | .slice d => (s.fills.any fun f => f.line == p.line && f.node == .slice d) || (s.txns.any fun t => t.node == .slice d && t.req.line == p.line && !t.wantUp)
     | _ => false)

/-- PROBE_ARRIVAL (R74): held while a reply with the line is still to come, otherwise applied and answered. -/
def execProbeArrival (id : Nat) (s : State) : Host.Outcome State Fault Refusal :=
  match s.probes.find? (fun p => p.id == id && !p.held) with
  | some p =>
    if s.probeBehind p then .next s
    else if s.probeHeld p then .next { s with probes := s.probes.map fun x => if x.id = id then { x with held := true } else x }
    else .next (State.applyProbe { s with probes := s.probes.filter fun x => !(x.id == id) } p)
  | none => .next s

/-- The probes of a line that no cache has to hold any longer are applied (R74). -/
def State.applyHeld (s : State) (line : Nat) : State :=
  (s.probes.filter fun p => p.held && p.line == line).foldl (fun s p =>
    if s.probeHeld p then s else State.applyProbe { s with probes := s.probes.filter fun x => !(x.id == p.id) } p) s

/-- A directory whose transaction has every answer: a requester-side slice that has meanwhile lost the line asks the home again (R77). -/
def State.closeTxn (s : State) (t : Txn) : State :=
  let s := { s with txns := s.txns.erase t }
  match t.node with
  | .home => (s.grant .home t.req).serveSrc t.req
  | .slice d => if sliceServes (s.heldAs (.slice d) t.req.line) t.req.kind then s.grant (.slice d) t.req else s.askHome d t.req

/-- What a probe's answer tells the directory (R76): the data, and whether its sender still has a copy. -/
def State.takeAnswer (s : State) (a : Answer) : State :=
  let s := if a.kept then s.noteShared a.node a.line a.src a.val.isSome else s.noteGone a.node a.line a.src
  match a.val with | some v => s.putNode a.node a.line v | none => s

/-- PROBE_ANSWER_ARRIVAL (R73, R74, R76, R77): data is taken in; a request that waits for no further answer is finished. -/
def execProbeAnswerArrival (id : Nat) (s : State) : Host.Outcome State Fault Refusal :=
  match s.answers.find? (fun a => a.id == id) with
  | some a =>
    if s.replyBehind id (agentEnd a.src a.line) (nodeEnd a.node a.line) then .next s
    else
      let s := { s with answers := s.answers.filter fun x => !(x.id == id) }
      if a.wb then .next (s.takeWb a)
      else
        let s := s.takeAnswer a
        match s.txns.find? (fun t => t.node == a.node && t.req.line == a.line && !t.wantUp) with
        | some t =>
          let t' := { t with left := t.left.erase a.src }
          let s := { s with txns := s.txns.map fun x => if x = t then t' else x }
          .next ((if t'.left.isEmpty then s.closeTxn t' else s).applyHeld a.line).settle
        | none => .next s
  | none => .next s

/-- Stores, and updates of a stubbed line (R422), that wait in a core's L1 for a line the home will not grant go to the home (R90), behind what an `ald` has still to read (R221). -/
def State.storesHome (s : State) (core line : Nat) : Nat → State
  | 0 => s
  | n + 1 => match s.nextPend core line with
    | some p =>
      let kind : Option ReqKind := match p.act with
        | .store off bs _ => some (.store off bs)
        | .red op fmt off b => some (.atom off { lane := 0, ret := none, w64 := false, cas := false, op := some op, fmt := fmt, b := b.zeroExtend 64, c := 0 })
        | _ => none
      match kind with
      | some kind =>
        let (id, s) := { s with pends := s.pends.erase p }.fresh
        let r : Req := { id := id, gid := p.gid, line := line, src := .l1 core, node := .home, gen := p.gen, part := p.part, prio := p.prio, kind := kind, seen := p.seen, again := p.again }
        State.storesHome { s with reqs := s.reqs ++ [r] } core line n
      | none => s
    | none => s

/-- A reply reaches an L1: the line is installed, the waiting accesses served (R74, R92, R93). -/
def State.fillL1 (s : State) (core : Nat) (f : Fill) : State :=
  match f.st with
  | .i => (s.storesHome core f.line (s.pends.length + 1)).serveLine core f.line
  | st =>
    let hint := match s.pends.find? (fun p => p.core == core && p.line == f.line) with | some p => p.prio | none => 1
    let old := match s.l1Line? core f.line with | some l => l.prio | none => 0
    ((s.makeRoom core f.line).putL1 { core := core, line := f.line, st := st, val := f.val, prio := max hint old }).serveLine core f.line

/-- A reply reaches a requester-side slice: the line takes a way of the mask there with `.en`, if there is one (R92, R377), and the request that waited for it is served (R77). -/
def State.fillSlice (s : State) (d : Nat) (f : Fill) : State :=
  let mine (t : Txn) : Bool := t.node == .slice d && t.req.line == f.line && t.wantUp
  let ts := s.txns.filter mine
  let s := { s with txns := s.txns.filter fun t => !mine t }
  match f.st with
  | .i => ts.foldl (fun s t => s.sendFill (.slice d) t.req .i f.val) s
  | st =>
    let s := s.putSlice { die := d, line := f.line, st := st, val := f.val }
    let s := match ts.head? with | some t => if isU st then s else s.touchL2 d f.line t.req.part 1 false | none => s
    ts.foldl (fun s t => s.serve (.slice d) t.req) s

/-- FILL_ARRIVAL (R73, R74, R77, R90, R93). -/
def execFillArrival (id : Nat) (s : State) : Host.Outcome State Fault Refusal :=
  match s.fills.find? (fun f => f.id == id) with
  | some f =>
    if s.replyBehind id (nodeEnd f.node f.line) (agentEnd f.dest f.line) then .next s
    else
      let s := { s with fills := s.fills.filter fun x => !(x.id == id) }
      let s := match f.dest with | .l1 c => s.fillL1 c f | .slice d => s.fillSlice d f | _ => s
      .next (s.applyHeld f.line).settle
  | none => .next s

/-- U_LINE_EVICTION (R73, R80): an evicted update-only line is combined into the home's value when it arrives. -/
def execULineEviction (id : Nat) (s : State) : Host.Outcome State Fault Refusal :=
  match s.uevicts.find? (fun u => u.id == id) with
  | some u =>
    if s.replyBehind id (.core u.core) (nodeEnd .home u.line) then .next s
    else
      let s := { s with uevicts := s.uevicts.filter fun x => !(x.id == id) }
      .next (s.putHome u.line (combineLine u.op u.fmt (s.homeVal u.line) u.val))
  | none => .next s

end Sys2Proof.Machine
end

