-- ==== Sys2Proof/Machine/Control.lean ====
section
/-! DEFINITION. Branches, calls, joins and the ends of lanes; yield, trap, sleep and nop (R159 to R168, R428, R429). -/

namespace Sys2Proof.Machine

/-- The target of a relative word: PC + 8 × IMM (R143, R160). -/
def Ctx.relative (c : Ctx) (imm : BitVec 27) : Dword := c.e.pc + imm.signExtend 64 * 8

/-- The lanes that do not take the branch (R24). -/
def Ctx.left (c : Ctx) : Mask := c.e.ex &&& ~~~c.act

/-- A split with EX zero moves on a branch whose target depends on no lane, under `(p0)` (R160). -/
def Ctx.movesEmpty (c : Ctx) : Bool := c.e.ex == 0 && c.h.pg == 0 && !c.h.pn

/-- The split of the word moved whole. -/
def Ctx.moveTo (c : Ctx) (g : Group) (pc : Dword) : State := c.s.setGroup (setEntry g c.k { entry g c.k with pc := pc })

/-- SPLITFULL (R153, R278). -/
def Ctx.splitFull (c : Ctx) : Issue := .trap c.s .splitfull none 0

/-- BRA (R160). -/
def execBra (w : WI) (s : State) : Host.Outcome State Fault Refusal :=
  runWord (.bra w) w.toHdr s fun c =>
    let t := c.relative w.imm
    if c.e.ex = 0 then .done (if c.movesEmpty then c.moveTo c.g t else c.advance)
    else match branchSplit c.g c.k t c.act c.left with
      | some g => .done (c.s.setGroup g)
      | none => c.splitFull

/-- The lowest active lane whose target is misaligned (R155). -/
def badTarget (act : Mask) (target : Nat → Dword) : Option Nat := (maskLanes act).find? fun l => !zeroAt (target l) 2 0

/-- A branch by per-lane targets (R161): alignment, then the split table. With helper lanes alone a misaligned target is taken with bits 2:0 cleared (R20, log 69). -/
def Ctx.branchLanes (c : Ctx) (target : Nat → Dword) : Issue :=
  match (if c.thr = 0 then none else badTarget c.act target) with
  | some l => .trap c.s .align (some l) (target l)
  | none => match branchParts c.g c.k c.act c.left (fun l => target l &&& ~~~7) with
    | some g => .done (c.s.setGroup g)
    | none => c.splitFull

/-- A branch to one scalar target (R161, R429): it divides as R24 does, so SPLITFULL comes before ALIGN (R153). -/
def Ctx.branchScalar (c : Ctx) (t : Dword) : Issue :=
  if c.act ≠ 0 then
    if (branchParts c.g c.k c.act c.left fun _ => t).isNone then c.splitFull else c.branchLanes fun _ => t
  else if c.movesEmpty then (if zeroAt t 2 0 then .done (c.moveTo c.g t) else .trap c.s .align none t)
  else .done c.advance

/-- A branch whose targets a vector source gives: its row checks first; without an active lane the split goes on (R28, R160). With helper
lanes alone a row that cannot be read gives zero as the target (R20, log 69). DESIGN CHOICE (log 90): SPLITFULL stands behind these checks and behind ALIGN, since only the targets show how
many entries are needed; R153 and R161 give it no place here. -/
def Ctx.branchVector (c : Ctx) (src : VSrc) (target : Nat → Dword) : Issue :=
  if c.act = 0 then .done c.advance
  else
    let chk : Chk Unit := do
      checkBound c.g src.rows
      checkFull c.g [] [src]
    match chk with
    | .ok () => c.branchLanes target
    | .error .notReady => .notReady
    | .error (.trap cause lane info) => if c.thr = 0 then c.branchLanes (fun _ => 0) else .trap c.s cause lane info

/-- BRX (R161). -/
def execBrx (w : RR) (s : State) : Host.Outcome State Fault Refusal :=
  runWord (.brx w) w.toHdr s fun c =>
    let base := sreg c.g w.a.toNat
    let b := rrSrc w .b
    if b.z then c.branchScalar base
    else c.branchVector b fun l => base + 8 * (srcLane c.g b 0 l).zeroExtend 64

/-- The link rows of a vector call (R162). -/
def linkRows (g : Group) (d : Nat) (m : Mask) (link : Dword) : Group :=
  writeRows g [d, d + 1] m .raw fun _ => [field link 31 0, field link 63 32]

/-- CALL (R160, R162). -/
def execCall (w : WI) (s : State) : Host.Outcome State Fault Refusal :=
  runWord (.call w) w.toHdr s fun c =>
    let t := c.relative w.imm
    let d := w.d.toNat
    let link := pcNext c.e
    let vec := w.mw.getLsbD 0
    if c.e.ex = 0 then
      if c.movesEmpty then .done (c.moveTo (if vec then c.g else setS c.g d link) t) else .done c.advance
    else match branchSplit c.g c.k t c.act c.left with
      | none => c.splitFull
      | some g =>
        if c.act = 0 then .done c.advance
        else if !vec then .done (c.s.setGroup (setS g d link))
        else
          let chk : Chk Unit := do
            checkBound c.g [d, d + 1]
            checkFull c.g [d, d + 1] []
          match chk with
          | .ok () => .done (c.s.setGroup (linkRows g d c.act link))
          | .error .notReady => .notReady
          | .error (.trap cause lane info) =>
            if c.thr = 0 then .done (c.s.setGroup (writeZeros g [d, d + 1] c.act .raw)) else .trap c.s cause lane info

/-- RET (R161). -/
def execRet (w : RR) (s : State) : Host.Outcome State Fault Refusal :=
  runWord (.ret w) w.toHdr s fun c =>
    let a := w.a.toNat
    if w.m.getLsbD 0 then c.branchScalar (sreg c.g a)
    else
      let src := rrSrc w .a 2
      c.branchVector src fun l => srcLane c.g src 1 l ++ srcLane c.g src 0 l

/-- JOIN, the RR word (R26, R163). -/
def execJoin (w : RR) (s : State) : Host.Outcome State Fault Refusal :=
  runWord (.join w) w.toHdr s fun c => .done (c.s.setGroup (joinAt c.g c.k c.e.pc .none))

/-- JOIN_LABEL, the WI word (R163). -/
def execJoinLabel (w : WI) (s : State) : Host.Outcome State Fault Refusal :=
  runWord (.joinLabel w) w.toHdr s fun c => .done (c.s.setGroup (joinAt c.g c.k (c.relative w.imm) .none))

/-- No split-table entry of a group is valid (R27). -/
def noSplit (g : Group) : Bool := entries.all fun k => (entry g k).state == .free

/-- What a step that retired lanes of a group comes to (R27): the group's end, or the joins and barriers that the retired lanes no longer hold up. -/
def State.afterRetire (s : State) (g : Group) : State :=
  if noSplit g then (s.setGroup g).endGroup g.gid else (s.setGroup (releaseJoin g)).settleBars g.bid

/-- EXIT (R27, R164). -/
def execExit (w : RR) (s : State) : Host.Outcome State Fault Refusal :=
  runWord (.exit w) w.toHdr s fun c => .done (c.s.afterRetire (retire c.g c.k c.act))

/-- The split is passed over at its partition's next issue turn (R165). -/
def Ctx.yields (c : Ctx) : State := c.finish (setEntry c.g c.k { entry c.g c.k with passed := true })

/-- Where the descriptor of stage queue q of a group's block stands in scratch (R36). -/
def State.stagePlace (s : State) (g : Group) (q : Nat) : Option Nat :=
  match s.launchOf g, s.block? g.bid with
  | some l, some b => (l.params.stages.find? fun x => x.1 == q).map fun x => b.cluster * 2 ^ 24 + b.firstCore * 2 ^ 16 + b.scratchRow * 128 + x.2
  | _, _ => none

/-- HEAD, TAIL and DEPTH of that queue. -/
def State.stageQueue (s : State) (g : Group) (q : Nat) : Option (Word × Word × Word) :=
  (s.stagePlace g q).map fun a =>
    let word (i : Nat) : Word := BitVec.ofNat 32 (ofLe (s.scratch.read (s.genOf g.part) (a + 4 * i) 4))
    (word 0, word 1, word 2)

/-- The loads by which a movable yield reads the descriptors stay behind its group's earlier accesses, as any load does (R37, R73, R98, R217). -/
def Ctx.stageWaits (c : Ctx) : Bool :=
  let place (q : Nat) : Bool := match c.s.stagePlace c.g q with | some a => c.s.nearAhead c.g .scratch a || c.s.nearAhead c.g .scratch (a + 8) | none => false
  ((c.s.launchOf c.g).bind fun l => l.params.roles[c.g.role]?).any (·.movable) && (c.held || place c.g.role || (decide (0 < c.g.role) && place (c.g.role - 1)))

/-- A stage queue is full, or empty (R36). -/
def queueFull (q : Option (Word × Word × Word)) : Bool := match q with | some (h, t, d) => decide (d.toNat ≤ (t - h).toNat) | none => false
@[inherit_doc queueFull]
def queueEmpty (q : Option (Word × Word × Word)) : Bool := match q with | some (h, t, _) => t == h | none => false

/-- The stage a movable yield moves its group to (R37). -/
def State.stageMove (s : State) (g : Group) : Option (Nat × RoleDecl) :=
  match s.launchOf g with
  | none => none
  | some l =>
    let roles := l.params.roles
    let st := g.role
    let ok (r : Nat) : Option (Nat × RoleDecl) := match roles[r]? with | some d => if d.movable then some (r, d) else none | none => none
    let mine := match roles[st]? with | some d => d.movable | none => false
    let target : Option (Nat × RoleDecl) :=
      if !mine then none
      else if st + 1 < roles.length ∧ queueFull (s.stageQueue g st) ∧ (ok (st + 1)).isSome then ok (st + 1)
      else if 0 < st ∧ queueEmpty (s.stageQueue g (st - 1)) then ok (st - 1)
      else none
    let alone := ((s.groupsOf g.bid).filter fun x => x.role == st).length == 1
    match target with
    | some (r, d) => if alone || decide (g.allot + s.poolFree g < d.regs) then none else some (r, d)
    | none => none

/-- A role switch begun by split k: it joins at its own PC, then waits for register writes, then is made (R34). -/
def State.beginSwitch (s : State) (g : Group) (k : Nat) (sd : Option Nat) (r : Nat) : State :=
  let g' := joinAt g k (entry g k).pc (.rolesw sd r false)
  let s := s.setGroup g'
  match entries.find? (fun j => match (entry g' j).wait with | .rolesw _ _ _ => true | _ => false) with
  | some j => s.trySwitch g' j
  | none => s

/-- The role switch of a movable yield (R37): the join at its own PC returns to held lanes first; with no split elsewhere and no register write outstanding the switch is made. None
where it would have to park, which a yield never does (R165, log 66). -/
def State.switchNow (s : State) (g : Group) (k r : Nat) : Option State :=
  let g' := joinAt g k (entry g k).pc (.rolesw none r false)
  match entries.find? fun j => (entry g' j).own &&& (entry g k).own != 0 && (match (entry g' j).wait with | .rolesw _ _ _ => true | _ => false) with
  | none => some (s.setGroup g')
  | some j => if (entry g' j).state = .waitPark ∧ !s.writesOut g ∧ g.mmas.isEmpty then some ((s.setGroup g').trySwitch g' j) else none

/-- YIELD (R37, R165). -/
def execYield (w : RR) (s : State) : Host.Outcome State Fault Refusal :=
  runWord (.yield w) w.toHdr s fun c =>
    if w.m.getLsbD 0 && c.stageWaits then .notReady
    else match (if w.m.getLsbD 0 then c.s.stageMove c.g else none).bind fun x => c.s.switchNow c.g c.k x.1 with
    | some s => .done s
    | none => .done c.yields

/-- TRAP (R167): SOFTTRAP with the zero-extended code. -/
def execTrap (w : RI) (s : State) : Host.Outcome State Fault Refusal :=
  runScalar (.trap w) w.toHdr s fun c => .trap c.s .softtrap none (w.imm.zeroExtend 64)

/-- The split parks in a wait at its PC (R23: STATE 100). -/
def Ctx.park (c : Ctx) (g : Group) (w : Wait) : State :=
  c.s.setGroup (setEntry g c.k { entry g c.k with state := .waitPark, wait := w })

/-- SLEEP (R166); `sleep 0` is `yield.plain`. -/
def execSleep (w : RI) (s : State) : Host.Outcome State Fault Refusal :=
  runWord (.sleep w) w.toHdr s fun c =>
    if w.imm = 0 then .done c.yields else .done (c.park c.g (.sleep w.imm.toNat))

/-- NOP (R168). -/
def execNop (w : RR) (s : State) : Host.Outcome State Fault Refusal :=
  runWord (.nop w) w.toHdr s fun c => .done c.advance

/-- The split of an entry that waits, changed when its wait is over. -/
def State.endWait (s : State) (gid k : Nat) (f : Group → Wait → Option Group) : Host.Outcome State Fault Refusal :=
  match s.group? gid with
  | some g => match f g (entry g k).wait with
    | some g' => .next (s.setGroup g')
    | none => .next s
  | none => .next s

/-- SLEEP_EXPIRY (R166, R428): the cycles are spent. -/
def execSleepExpiry (gid k : Nat) (s : State) : Host.Outcome State Fault Refusal :=
  s.endWait gid k fun g w => match w with
    | .sleep 0 => some (wakeSplit g k)
    | _ => none

/-- ROLE_SWITCH (R34): the joined split of a `rolesw` has no register write left to wait for. -/
def execRoleSwitch (gid k : Nat) (s : State) : Host.Outcome State Fault Refusal :=
  match s.group? gid with
  | some g => match (entry g k).wait with
    | .rolesw _ _ false => .next (s.trySwitch g k)
    | _ => .next s
  | none => .next s

/-- Linear index of a group's first thread (R17). -/
def linearOf (g : Group) : Nat := (g.span * g.nblocks + g.block) * g.ngroups + g.group

/-- A group with a split that waits for rows to grow (R34). -/
def growing (g : Group) : Bool := entries.any fun k => match (entry g k).wait with | .rolesw _ _ true => true | _ => false

/-- ROLESW_GROW_RESUME (R34): rows have been freed, and no parked grower of the pool comes before this one. -/
def execRoleswGrowResume (gid k : Nat) (s : State) : Host.Outcome State Fault Refusal :=
  match s.group? gid with
  | some g => match (entry g k).wait with
    | .rolesw _ _ true =>
      if (s.groupsOf g.bid).any fun x => x.core == g.core && growing x && decide (linearOf x < linearOf g) then .next s
      else .next (s.trySwitch g k)
    | _ => .next s
  | none => .next s

end Sys2Proof.Machine
end

