-- ==== Sys2Proof/Machine/Matrix.lean ====
section
/-! DEFINITION. The gang and the matrix array (R247 to R257, R114, R115, R123, R132): gang set-up, the rendezvous, the joint product, tile moves. -/

namespace Sys2Proof.Machine

/-- A proposed GANG value is malformed for a group (R249). -/
def gangBad (slot : Nat) (v : Dword) : Bool :=
  let n := fieldN v 2 0
  let at_ (i : Nat) : Nat := fieldN v (6 * i + 8) (6 * i + 3)
  let listed := (List.range n).map at_
  !zeroAt v 63 39 || n == 1 || n == 7 || ((List.range 6).any fun i => decide (n ≤ i) && at_ i != 0) || (listed.any fun x => decide (48 ≤ x)) ||
    !decide listed.Nodup || (n != 0 && !listed.contains slot)

/-- GANGSET (R249, R252). -/
def execGangset (w : RR) (s : State) : Host.Outcome State Fault Refusal :=
  runWord (.gangset w) w.toHdr s fun c =>
    let v := sreg c.g w.a.toNat
    let d := w.d.toNat
    if !c.g.mmas.isEmpty then .notReady
    else
      let s := c.s.leaveGang c.g
      match s.group? c.g.gid with
      | none => .notReady
      | some g =>
        let c : Ctx := { c with s := s, g := g }
        let member (slot : Nat) : Bool := s.groups.any fun x => x.core == g.core && x.slot == slot && x.bid == g.bid
        if gangBad g.slot v then .done (c.finish (setS g d 1))
        else if !(gangSlots v).all member then .done (c.finish (setS g d 2))
        else .done (c.finish (setS { g with gang := v } d 0))

/-- OPFENCE (R114, R115, R256). -/
def execOpfence (w : RR) (s : State) : Host.Outcome State Fault Refusal :=
  runWord (.opfence w) w.toHdr s fun c =>
    if c.s.opfenceDone c.g then .done (c.finish (c.s.fenced c.g))
    else .done (c.s.setGroup (setEntry c.g c.k { entry c.g c.k with state := .waitPark, wait := .opfence }))

/-- MMWAIT (R254, R256): it covers every product that is no longer outstanding. -/
def execMmwait (w : RR) (s : State) : Host.Outcome State Fault Refusal :=
  runWord (.mmwait w) w.toHdr s fun c =>
    let one := bitAt w.m 0
    if c.g.mmas.length ≤ (if one then 1 else 0) then
      let c : Ctx := { c with s := c.s.coverProducts c.g.gid }
      match c.g.matErr with
      | [] => .done c.advance
      | m :: r => .trap (c.s.setGroup { c.g with matErr := r }) .matrixerr none (BitVec.ofNat 64 m.2)
    else .done (c.s.setGroup (setEntry c.g c.k { entry c.g c.k with state := .waitPark, wait := .mmwait one }))

/-- The tag of A and B rows by TYPE (R251). -/
def mmaTags (m : BitVec 6) : Tag × Tag :=
  match fieldN m 5 4 with
  | 0 => (.bf16x2, .bf16x2)
  | 1 => (.f16x2, .f16x2)
  | 2 => (.bf16x2, .d2p8x4)
  | _ => (.i8x4, .i8x4)

/-- The member index of a slot in a gang (R247). -/
def memberIndex (gang : Dword) (slot : Nat) : Nat := (gangSlots gang).idxOf slot

/-- Steps 3 to 5 of a member's own word (R153, R250, R251): tile, runs, poison, tags. -/
def mmaCheck (g : Group) (w : RR) : Chk Unit := do
  let n := fieldN g.gang 2 0
  let i := memberIndex g.gang g.slot
  let q := if bScratch w.m ∨ n = 0 then 0 else (quartersOf n i).length
  let aRun := (List.range (aRows w.m)).map (w.a.toNat + ·)
  let bRun := (List.range (q * quarterRows w.m)).map (w.b.toNat + ·)
  let cRun := if fieldN w.m 5 4 = 2 then (List.range q).map (w.c.toNat + ·) else []
  if g.tileCnt ≤ w.d.toNat then trapNow .regbound (idxInfo w.d.toNat)
  checkBound g (aRun ++ bRun ++ cRun)
  match (aRun ++ bRun ++ cRun).find? (fun r => (row g r).full && (row g r).poison) with
  | some r => trapNow .poison (idxInfo r)
  | none => pure ()
  let bad (t : Tag) (rows : List Nat) : Option Nat := rows.find? fun r => !agrees (row g r).tag t
  match (bad (mmaTags w.m).1 aRun <|> bad (mmaTags w.m).2 bRun <|> bad .blk cRun) with
  | some r => trapNow .tagmismatch (tagInfo g r)
  | none => pure ()

/-- The scratch address of a B tile: alignment, then the quota of each of its rows, which may lie with several cores (R13, R251). -/
def State.bscFault (s : State) (p : Nat) (m : BitVec 6) (va : Dword) : Option Cause :=
  if va.toNat % 128 ≠ 0 then some .align
  else
    let okAt (a : Dword) : Bool := windowOf a == some .scratch && s.inWindow p a .scratch
    if (List.range (bscRows m 0).length).all fun i => okAt (va + BitVec.ofNat 64 (128 * i)) then none else some .access

/-- Where the operands of a product come from: the groups of its members, and its scratch tile. -/
structure MmaEnv where
  m    : BitVec 6
  gs   : List (MmaMember × Group)
  bsc  : Nat → Word
  n    : Nat

/-- The member that holds a quarter, and its place in that member's run (R251). -/
def holderOf (n q : Nat) : Nat × Nat :=
  match n, q with
  | 2, q => (q / 2, q % 2)
  | 3, 0 => (0, 0)
  | 3, 1 => (0, 1)
  | 3, q => (q - 1, 0)
  | _, q => (q, 0)

/-- Row j of quarter q in a lane. -/
def MmaEnv.bWord (e : MmaEnv) (q j lane : Nat) : Word :=
  if bScratch e.m then e.bsc ((q * quarterRows e.m + j) * 128 + 4 * lane)
  else
    let (i, k) := holderOf e.n q
    match e.gs[i]? with
    | some (x, g) => laneOf (row g (x.b + k * quarterRows e.m + j)).lanes lane
    | none => 0

/-- The scale byte of column n and K block s (R251). -/
def MmaEnv.scale (e : MmaEnv) (n s : Nat) : Byte :=
  let q := n / 16
  let w : Word := if bScratch e.m then e.bsc (8192 + q * 128 + 4 * (n % 16))
    else
      let (i, k) := holderOf e.n q
      match e.gs[i]? with
      | some (x, g) => laneOf (row g (x.c + k)).lanes (n % 16)
      | none => 0
  (w >>> (8 * s)).truncate 8

/-- Element (r, kk) of a member's A, as its raw bits (R251). -/
def aElem (m : BitVec 6) (x : MmaMember) (g : Group) (r kk : Nat) : Nat :=
  let word (j l : Nat) : Word := laneOf (row g (x.a + j)).lanes l
  match fieldN m 5 4 with
  | 3 => Num.elemOf (word (kk % 32 / 4) (2 * r + kk / 32)) 8 (kk % 4)
  | 2 => Num.elemOf (word (kk % 64 / 2) (2 * r + kk / 64)) 16 (kk % 2)
  | _ => Num.elemOf (word (kk % 16 / 2) (2 * r + kk / 16)) 16 (kk % 2)

/-- Element (kk, n) of B, as its raw bits (R251). -/
def MmaEnv.bElem (e : MmaEnv) (kk n : Nat) : Nat :=
  let q := n / 16
  let c := n % 16
  match fieldN e.m 5 4 with
  | 3 => Num.elemOf (e.bWord q (c / 2) (2 * (kk / 4) + c % 2)) 8 (kk % 4)
  | 2 => Num.elemOf (e.bWord q c (kk / 4)) 8 (kk % 4)
  | _ => Num.elemOf (e.bWord q (c / 2) kk) 16 (c % 2)

/-- A signed byte. -/
def i8Of (n : Nat) : Int := (BitVec.ofNat 8 n).toInt

/-- Element (r, n) of a member's product over its accumulator (R132, R253). -/
def MmaEnv.elem (e : MmaEnv) (x : MmaMember) (g : Group) (acc : Word) (r n : Nat) : Word :=
  let fz := bitAt e.m 0
  let rnd := Rnd.ofCode (fieldN e.m 2 1)
  let ks (s : Nat) : List Nat := (List.range 32).map (32 * s + ·)
  match fieldN e.m 5 4 with
  | 3 => [0, 1].foldl (fun acc s => Num.ikstep acc ((ks s).map fun kk => i8Of (aElem e.m x g r kk) * i8Of (e.bElem kk n))) acc
  | 2 => [0, 1, 2, 3].foldl (fun acc s => Num.kstep acc ((ks s).map fun kk =>
      Num.fprod (Num.fdec Num.bf16 fz (aElem e.m x g r kk)) (Num.d2p8Scaled (BitVec.ofNat 8 (e.bElem kk n)) (e.scale n s))) rnd fz) acc
  | t =>
    let f := if t = 0 then Num.bf16 else Num.fp16
    Num.kstep acc ((ks 0).map fun kk => Num.fprod (Num.fdec f fz (aElem e.m x g r kk)) (Num.fdec f fz (e.bElem kk n))) rnd fz

/-- A scale byte of the product is 0xFF (R123), with the member and row that hold it. DESIGN CHOICE (log 80): a scale byte in scratch lies in no row, and its TAGMISMATCH names row 0 with tag BLK. -/
def MmaEnv.badScale (e : MmaEnv) : Option Nat :=
  if fieldN e.m 5 4 ≠ 2 then none
  else ((List.range 64).find? fun n => (List.range 4).any fun s => e.scale n s == 0xFF).map fun n =>
    if bScratch e.m then 0
    else
      let (i, k) := holderOf e.n (n / 16)
      match e.gs[i]? with | some (x, _) => x.c + k | none => 0

/-- A member's group: as it runs, or as it stood when it exited (R15). -/
def State.memberGroup (s : State) (kept : List Group) (gid : Nat) : Option Group :=
  match s.group? gid with
  | some g => some g
  | none => kept.find? (·.gid == gid)

/-- The operands of a list of members as they stand. -/
def State.mmaEnv (s : State) (m : BitVec 6) (bsc gen : Nat) (ms : List MmaMember) (kept : List Group) : MmaEnv :=
  { m := m, n := ms.length, gs := ms.filterMap fun x => (s.memberGroup kept x.gid).map fun g => (x, g),
    bsc := fun off => BitVec.ofNat 32 (ofLe (s.scratch.read gen (bsc + off) 4)) }

/-- Some member has written an operand since its last `opfence` (R114). -/
def State.mmaHazard (s : State) (m : BitVec 6) (bsc : Nat) (ms : List MmaMember) (kept : List Group) : Bool :=
  ms.zipIdx.any fun x => match s.memberGroup kept x.1.gid with
    | none => false
    | some g => (operandRows m ms.length x.2 x.1).any g.since.contains || (bscRows m bsc).any g.scrSince.contains

/-- The members of a rendezvous in member order (R247, R248). -/
def State.inOrder (s : State) (z : Rendezvous) : List (MmaMember × Nat) :=
  let i (x : MmaMember) : Nat := match s.group? x.gid with | some g => memberIndex z.gang g.slot | none => 0
  sortBy (fun a b => decide (i a.1 ≤ i b.1)) z.members

/-- The rendezvous is complete (R252): the scale bytes are checked, then all members go on with the product outstanding. -/
def State.meet (s : State) (z : Rendezvous) (gen : Nat) : State :=
  let s := { s with rends := s.rends.erase z }
  let ms := s.inOrder z
  let members := ms.map (·.1)
  let key := match ms with
    | (x, _) :: _ => match s.group? x.gid with | some g => storageKey g.core z.bsc .scratch | none => 0
    | [] => 0
  match (s.mmaEnv z.m key gen members []).badScale with
  | some r => ms.foldl (fun s x => match s.group? x.1.gid with
      | some g => s.takeTrap g.gid x.2 (entry g x.2).ex .tagmismatch none (BitVec.ofNat 64 (r + Tag.code .blk * 2 ^ 16))
      | none => s) s
  | none =>
    let hazard := s.mmaHazard z.m key members []
    let (id, s) := s.fresh
    let gates := members.flatMap (·.gates)
    let s : State := { s with products := s.products ++
      [{ id := id, core := z.core, m := z.m, bsc := key, members := members, hazard := hazard, gates := gates, kept := [], left := members.map (·.gid) }] }
    let s := s.queueGates z.core gates (.mma id)
    ms.foldl (fun s x => s.modGroup x.1.gid fun g =>
      { setEntry g x.2 (wakeAt (entry g x.2) (pcNext (entry g x.2))) with mmas := g.mmas ++ [id] }) s

/-- MMA (R250 to R252, R255). DESIGN CHOICE (log 96): while a group stands at a rendezvous, an `mma` of another split of it is not ready, which R252 does not settle. -/
def execMma (w : RR) (s : State) : Host.Outcome State Fault Refusal :=
  runWord (.mma w) w.toHdr s fun c =>
    if 2 ≤ c.g.mmas.length then .notReady
    else if c.s.rends.any fun z => z.core == c.g.core && z.members.any fun m => m.1.gid == c.g.gid then .notReady
    else c.conclude (mmaCheck c.g w) fun _ =>
      let bsc := if bScratch w.m then sreg c.g w.b.toNat else 0
      match (if bScratch w.m then c.s.bscFault c.g.part w.m bsc else none) with
      | some cause => .trap c.s cause none bsc
      | none =>
        if fieldN c.g.gang 2 0 = 0 then .trap c.s .gangerr none c.g.gang
        else
          let member : MmaMember := { gid := c.g.gid, tile := w.d.toNat, unit := c.g.tileBase + w.d.toNat, a := w.a.toNat, b := w.b.toNat, c := w.c.toNat, gates := c.s.gatesOf c.g.core 1 c.g.slot }
          match c.s.rends.find? (fun z => z.core == c.g.core && (gangSlots z.gang).contains c.g.slot) with
          | some z =>
            if z.m ≠ w.m ∨ z.gang ≠ c.g.gang ∨ z.bsc ≠ bsc then .trap (c.s.gangErr z) .gangerr none z.gang
            else
              let s := c.s.setGroup (setEntry c.g c.k { entry c.g c.k with state := .gangPark, wait := .mma c.word })
              let z' : Rendezvous := { z with members := z.members ++ [(member, c.k)] }
              let s : State := { s with rends := s.rends.map fun x => if x = z then z' else x }
              .done (if z'.members.length = fieldN z.gang 2 0 then s.meet z' (s.genOf c.g.part) else s)
          | none =>
            let s := c.s.setGroup (setEntry c.g c.k { entry c.g c.k with state := .gangPark, wait := .mma c.word })
            .done { s with rends := s.rends ++ [{ core := c.g.core, m := w.m, gang := c.g.gang, bsc := bsc, members := [(member, c.k)] }] }

/-- A row of A of a member, a B or scale row of any member, or the scratch tile is poisoned when the product reads it (R254, R413). -/
def State.mmaPoison (s : State) (p : Product) (gen i : Nat) : Bool :=
  (p.members.zipIdx.any fun y => match s.memberGroup p.kept y.1.gid with
    | some h =>
      let rows := operandRows p.m p.members.length y.2 y.1
      (if y.2 = i then rows else rows.drop (aRows p.m)).any fun r => (row h r).poison
    | none => false) ||
    ((bscRows p.m p.bsc).any fun r => s.scratch.anyPoison gen (r * 128) 128)

/-- One member's accumulator written (R253, R254): undefined after a hazard (R114); poisoned when both runs mismatched or an operand is poisoned (R413), and then its `mmwait` raises
MATRIXERR. A tile newly poisoned is counted (R426). -/
def State.writeProduct (s : State) (p : Product) (env : MmaEnv) (bad : Bool) (i : Nat) (x : MmaMember) (g : Group) : State :=
  let gen := s.genOf g.part
  let t := s.tileAt g.core x.unit gen
  let pois := s.mmaPoison p gen i
  let (words, s) := if p.hazard then s.freeWords 1024
    else ((List.range 1024).map fun e => env.elem x g (t.words.getD e 0) (e / 64) (e % 64), s)
  let s := if (bad || pois) && !t.poison then s.countPoison gen else s
  let s := s.putTile { t with words := words, poison := t.poison || bad || pois }
  s.modGroup x.gid fun g => { g with mmas := g.mmas.filter (· != p.id), matErr := if bad || pois then g.matErr ++ [(p.id, x.tile)] else g.matErr }

/-- MMA_PRODUCT_COMPLETE (R253 to R255, R271): the oldest product of a core completes. `bad1` and `bad2` are the member indexes whose checksums mismatched in the first run and
in its rerun. -/
def execMmaProductComplete (core : Nat) (bad1 bad2 : List Nat) (s : State) : Host.Outcome State Fault Refusal :=
  match s.products.find? (fun p => p.core == core) with
  | some p =>
    if !p.gates.isEmpty then .next s
    else
      let gen := match p.members with | x :: _ => (match s.memberGroup p.kept x.gid with | some g => s.genOf g.part | none => 0) | [] => 0
      let p := { p with hazard := p.hazard || s.mmaHazard p.m p.bsc p.members p.kept, left := p.left.filter fun i => (s.group? i).isSome }
      let env := s.mmaEnv p.m p.bsc gen p.members p.kept
      let before := s
      let s := { s with products := s.products.filter fun x => !(x.id == p.id), spent := if p.left.isEmpty then s.spent else s.spent ++ [p] }
      let s := p.members.zipIdx.foldl (fun s x => match before.group? x.1.gid with
        | some g => s.writeProduct p env (bad1.contains x.2 && bad2.contains x.2) x.2 x.1 g
        | none => s) s
      let slots := p.members.filterMap fun x => (before.memberGroup p.kept x.gid).map (·.slot)
      .next (s.pulseSources core 1 slots).settle
  | none => .next s

/-- A product accumulates into a tile of a group (R114). -/
def inTile (g : Group) (tile : Nat) (p : Product) : Bool := p.members.any fun x => x.gid == g.gid && x.tile == tile

/-- A product of the group whose `mmwait` has not returned accumulates into a tile (R114). -/
def State.tileBusy (s : State) (g : Group) (tile : Nat) : Bool := (s.openProducts g.gid).any (inTile g tile)

/-- The accumulators of the products that accumulate into a tile become undefined: of an outstanding one when it completes, of a completed one at once (R114). -/
def State.spoil (s : State) (g : Group) (tile : Nat) : State :=
  let s := { s with products := s.products.map fun p => if inTile g tile p then { p with hazard := true } else p }
  (s.spent.filter fun p => p.left.contains g.gid && inTile g tile p).foldl (fun s p => s.spoilTiles p) s

/-- The byte stride of a tile move (R257). -/
def tileStride (v : Dword) : Nat := if fieldN v 31 0 = 0 then 256 else fieldN v 31 0

/-- The addresses of the 32 half rows of 128 bytes of a tile in memory. -/
def tileVa (base : Dword) (stride i : Nat) : Dword := base + BitVec.ofNat 64 (i / 2 * stride + i % 2 * 128)

/-- What `tld` and `tst` share (R257): checks, and the place of every 128 bytes; `go` has the context, the places in order, and whether they are scratch. -/
def tileMove (i : Instr) (w : RR) (wr : Bool) (s : State) (go : Ctx → List (Nat × Nat) → Bool → Issue) : Host.Outcome State Fault Refusal :=
  runWord i w.toHdr s fun c =>
    let base := sreg c.g w.a.toNat
    let sv := sreg c.g w.b.toNat
    let stride := tileStride sv
    let sp : Space := if fieldN w.m 5 4 = 0 then .global else .scratch
    let vas := (List.range 32).map (tileVa base stride)
    if c.g.tileCnt ≤ w.d.toNat then .trap c.s .regbound none (idxInfo w.d.toNat)
    else if c.held then .notReady
    else if base.toNat % 128 ≠ 0 ∨ stride % 128 ≠ 0 ∨ stride < 256 then .trap c.s .align none base
    else match vas.find? (fun va => (c.s.addrFault c.g.part 128 (some sp) va).isSome) with
      | some va => .trap c.s .access none va
      | none => match vas.find? (fun va => c.s.watched c.g va 128 (!wr) wr) with
        | some va => .trap c.s .watch none va
        | none =>
          let lane := (lowestLane c.e.ex).getD ((lowestLane c.e.own).getD 0)
          let g0 := { c.g with helpers := 0 }
          let (s, accs, why) := c.s.resolve g0 (if wr then needW else needR) wr (vas.map fun va => (lane, va))
          match why with
          | some y => .stay (s.parkGroup c.g wr y)
          | none =>
            let busy := accs.any fun a =>
              if a.space == .global then s.homeBehind c.g a.attr a.addr 128 else s.nearBusy c.g.gid a.addr || s.nearAhead c.g .scratch a.addr
            if busy || (!wr && s.weirHeld c.g 128 accs) then .notReady
            else
              let c : Ctx := { c with s := s }
              go c (accs.map fun a => (a.attr, a.addr)) (sp == .scratch)

/-- The 32 words of 128 bytes. -/
def rowWords (bs : List Byte) : List Word := (List.range 32).map fun i => BitVec.ofNat 32 (leAt bs (4 * i) 4)

/-- A tile that is written whole is no longer marked by a restore (R254, R388). -/
def Ctx.healTile (c : Ctx) (tile : BitVec 9) : Ctx := { c with g := { c.g with hurt := c.g.hurt.filter fun x => !(tileCode tile).contains x } }

/-- TLD (R254, R257): the tile is written and its poison mark cleared, unless the data it loads is poisoned (R413). -/
def execTld (w : RR) (s : State) : Host.Outcome State Fault Refusal :=
  tileMove (.tld w) w false s fun c places scr =>
    let gen := c.s.genOf c.g.part
    let c : Ctx := if scr then c else { c with s := places.foldl (fun s x => s.recallAt x.1 gen x.2 128) c.s }
    let unit := c.g.tileBase + w.d.toNat
    let bytes (x : Nat × Nat) : List Byte := if scr then c.s.scratch.read gen x.2 128 else c.s.peek x.1 gen x.2 128
    let pois (x : Nat × Nat) : Bool := if scr then c.s.scratch.anyPoison gen x.2 128 else c.s.peekPoison x.1 gen x.2 128
    let words := places.flatMap fun x => rowWords (bytes x)
    let s := (c.s.putTile { core := c.g.core, unit := unit, gen := gen, words := words, poison := places.any pois }).spoil c.g w.d.toNat
    let c : Ctx := { c.healTile w.d with s := s }
    .done c.advance

/-- TST (R254, R257): the tile is stored; a poisoned tile as poisoned data. While a product still accumulates into it, what is stored is undefined (R114). -/
def execTst (w : RR) (s : State) : Host.Outcome State Fault Refusal :=
  tileMove (.tst w) w true s fun c places scr =>
    let gen := c.s.genOf c.g.part
    let unit := c.g.tileBase + w.d.toNat
    let t := c.s.tileAt c.g.core unit gen
    let (words, s) := if c.s.tileBusy c.g w.d.toNat then c.s.freeWords 1024 else (t.words, c.s)
    let data (i : Nat) : List Byte := ((words.drop (32 * i)).take 32).flatMap fun x => leBytes 4 x.toNat
    let put (s : State) (x : (Nat × Nat) × Nat) : State :=
      if scr then
        ((s.putNear .scratch gen x.1.2 (data x.2) t.poison).evalMons .scratch (x.1.2 / 128)).modGroup c.g.gid
          fun g => { g with scrSince := note g.scrSince (x.1.2 / 128) }
      else s.softPoke x.1.1 gen x.1.2 (data x.2) t.poison
    let c : Ctx := { c with s := s }
    .done ((places.zipIdx.foldl put c.advance).spoil c.g w.d.toNat)

/-- TZERO (R254, R257). -/
def execTzero (w : RR) (s : State) : Host.Outcome State Fault Refusal :=
  runWord (.tzero w) w.toHdr s fun c =>
    let unit := c.g.tileBase + w.d.toNat
    if c.g.tileCnt ≤ w.d.toNat then .trap c.s .regbound none (idxInfo w.d.toNat)
    else
      let s := (c.s.putTile { core := c.g.core, unit := unit, gen := c.s.genOf c.g.part, words := List.replicate 1024 0, poison := false }).spoil c.g w.d.toNat
      let c : Ctx := { c.healTile w.d with s := s }
      .done c.advance

end Sys2Proof.Machine
end

