-- ==== Sys2Proof/Machine/Engines.lean ====
section
/-! DEFINITION. The traverse, copy and quantisation engines, the record cache, and the sluice matrix (R258 to R272). -/

namespace Sys2Proof.Machine

/-- Where an engine finds a data address (R14, R69, R258, R265): memory by `attr`, a scratchpad of its cluster or a bank of its die, a cause that ends the command, or a wait. -/
inductive DataPlace
  | mem (attr pa : Nat)
  | near (sp : Space) (key : Nat)
  | fail (c : EngCause)
  | wait
  deriving DecidableEq, Repr

/-- An engine's data address of `size` bytes within one page (R258, R380, R417). -/
def State.dataPlace (s : State) (core p : Nat) (va : Dword) (size : Nat) (n : Need) : DataPlace :=
  match windowOf va with
  | none => .fail .outside
  | some .global => match (s.engPlace core p va size n).2 with
    | .at_ attr pa => .mem attr pa
    | .fault => .fail .translation
    | .wait => .wait
  | some sp => if s.inWindow p va sp then .near sp (storageKey core va sp) else .fail .outside

/-- Bytes at a place as an engine of a partition reads them, with poison. -/
def State.placeRead (s : State) (gen size : Nat) : DataPlace → List Byte × Bool
  | .mem attr pa => (s.peek attr gen pa size, s.peekPoison attr gen pa size)
  | .near sp key => ((s.nearMem sp).read gen key size, (s.nearMem sp).anyPoison gen key size)
  | _ => ([], false)

/-- Bytes written at a place by an engine. -/
def State.placeWrite (s : State) (gen : Nat) (bs : List Byte) (pois : Bool) : DataPlace → State
  | .mem attr pa => s.softPoke attr gen pa bs pois
  | .near sp key => (s.putNear sp gen key bs pois).evalMons sp (key / 128)
  | _ => s

/-- Two places of `n` and `m` bytes share a byte of memory (R262, R267). -/
def placesMeet (a : DataPlace) (n : Nat) (b : DataPlace) (m : Nat) : Bool :=
  match a, b with
  | .mem x p, .mem y q => x == y && decide (p < q + m) && decide (q < p + n)
  | .near x p, .near y q => x == y && decide (p < q + m) && decide (q < p + n)
  | _, _ => false

/-- The outcome of an engine's read of a record: its bytes, a cause, or a wait. -/
inductive RecRead
  | got (bytes : List Byte)
  | fail (c : EngCause)
  | wait

/-- The key of a record in the cache: its device-physical address, or a host or peer address apart from it (R263). -/
def recKey (attr pa : Nat) : Nat := pa + attr * 2 ^ 60

/-- A record read through a cluster's record cache (R263). -/
def State.readRec (s : State) (core p : Nat) (va : Dword) : State × RecRead :=
  match windowOf va with
  | some .global =>
    let (s, place) := s.engPlace core p va 64 needR
    match place with
    | .fault => (s, .fail .translation)
    | .wait => (s, .wait)
    | .at_ attr pa =>
      let cl := clusterOf core
      let gen := s.genOf p
      let key := recKey attr pa
      match s.recs.find? (fun r => r.cluster == cl && r.part == p && r.gen == gen && r.pa == key) with
      | some r => ({ s with recs := s.recs.erase r ++ [r] }, if r.pois then .fail .poisoned else .got r.bytes)
      | none =>
        let s := s.recallAt attr gen pa 64
        let (bytes, pois) := s.placeRead gen 64 (.mem attr pa)
        let mine := s.recs.filter fun r => r.cluster == cl
        let recs := if Config.recordEntries ≤ mine.length then (match mine.head? with | some r => s.recs.erase r | none => s.recs) else s.recs
        ({ s with recs := recs ++ [{ cluster := cl, part := p, gen := gen, pa := key, bytes := bytes, pois := pois }] },
         if pois then .fail .poisoned else .got bytes)
  | _ => (s, .fail .outside)

/-- Two scalar addresses that must be 64-byte aligned and global (R262). -/
def bothGlobal (a b : Dword) : Chk Unit := do
  if a.toNat % 64 ≠ 0 then trapNow .align a
  if b.toNat % 64 ≠ 0 then trapNow .align b
  globalAt a 64
  globalAt b 64

/-- TRAV (R262): the command joins the open TRV batch. -/
def execTrav (w : RR) (s : State) : Host.Outcome State Fault Refusal :=
  runScalar (.trav w) w.toHdr s fun c =>
    let a := sreg c.g w.a.toNat
    let b := sreg c.g w.b.toNat
    c.conclude (bothGlobal a b) fun _ =>
      match joinBatch c.g.trv with
      | none => .notReady
      | some trv =>
        let (id, s) := c.s.fresh
        let gates := s.gatesOf c.g.core 3 c.g.slot
        let cmd : TravCmd :=
          { id := id, gid := c.g.gid, part := c.g.part, core := c.g.core, batch := trv.seq, src := a, dst := b, dmw := sreg c.g w.c.toNat,
            gates := gates, recs := none }
        let s : State := { s with travs := s.travs ++ [cmd] }
        let c : Ctx := { c with s := s.queueGates c.g.core gates (.trav id) }
        .done (c.finish { c.g with trv := trv })

/-- RCFENCE (R264). -/
def execRcfence (w : RR) (s : State) : Host.Outcome State Fault Refusal :=
  runScalar (.rcfence w) w.toHdr s fun c =>
    let c : Ctx := { c with s := { c.s with recs := c.s.recs.filter fun r => r.cluster != clusterOf c.g.core } }
    .done c.advance

/-- A shape record (R259): base, rank, LOG2ESZ, extents and strides of the axes below the rank. -/
structure Shape where
  base : Dword
  rank : Nat
  esz  : Nat
  ext  : List Nat
  str  : List Int
  deriving DecidableEq, Repr

/-- A record's fields. -/
def shapeOf (b : List Byte) : Shape :=
  let k := leAt b 8 1
  let rank := k / 16
  let axes := List.range (min rank 8)
  { base := BitVec.ofNat 64 (leAt b 0 8), rank := rank, esz := k % 16, ext := axes.map fun i => leAt b (16 + 6 * i) 2 + 1,
    str := axes.map fun i => (BitVec.ofNat 32 (leAt b (18 + 6 * i) 4)).toInt }

/-- A reserved field, or a field outside its limits, in a record (R259, R262). -/
def shapeMalformed (b : List Byte) : Bool :=
  let rank := leAt b 8 1 / 16
  leAt b 9 7 != 0 || rank == 0 || decide (8 < rank) || (List.range 8).any fun i => decide (rank ≤ i) && leAt b (16 + 6 * i) 6 != 0

/-- One destination axis of a mapping (R261): a source axis, a digit of one (divisor, radix), or a run of axes merged; and whether it is reversed. -/
inductive AxisMap
  | whole (a : Nat)
  | digit (a div radix : Nat)
  | merged (a c : Nat)
  deriving DecidableEq, Repr

/-- AXIS, KIND and REV of slot j of a DMW (R260). -/
def dmwAxis (d : Dword) (j : Nat) : Nat := fieldN d (6 * j + 5) (6 * j + 3)
@[inherit_doc dmwAxis]
def dmwKind (d : Dword) (j : Nat) : Nat := fieldN d (6 * j + 2) (6 * j + 1)
@[inherit_doc dmwAxis]
def dmwRev (d : Dword) (j : Nat) : Bool := bitAt d (6 * j)

/-- The product of a list. -/
def prodOf (l : List Nat) : Nat := l.foldl (· * ·) 1

/-- The slots from j on that split the same axis (R261). -/
def splitRun (d : Dword) (rank j : Nat) : List Nat :=
  ((List.range rank).drop j).takeWhile fun i => dmwKind d i == 2 && dmwAxis d i == dmwAxis d j

/-- The least count of source axes from a whose extents multiply to e (R261). -/
def mergeCount (ext : List Nat) (a e : Nat) : Option Nat :=
  ((List.range (ext.length - a)).map (· + 1)).find? fun c => prodOf ((ext.drop a).take c) == e

/-- The mapping of destination axes (R261), slots from j on; none is cause 0x02. -/
def mapAxes (d : Dword) (src dst : Shape) : Nat → Nat → Option (List AxisMap)
  | 0, _ => some []
  | fuel + 1, j =>
    if dst.rank ≤ j then some []
    else
      let a := dmwAxis d j
      let e := dst.ext.getD j 0
      match dmwKind d j with
      | 1 => if src.ext[a]? = some e then (mapAxes d src dst fuel (j + 1)).map fun r => .whole a :: r else none
      | 2 =>
        let run := splitRun d dst.rank j
        let exts := run.map fun i => dst.ext.getD i 0
        if run.length < 2 ∨ src.ext[a]? ≠ some (prodOf exts) then none
        else (mapAxes d src dst fuel (j + run.length)).map fun r =>
          ((List.range run.length).map fun t => .digit a (prodOf (exts.drop (t + 1))) (exts.getD t 1)) ++ r
      | 3 => match mergeCount src.ext a e with
        | some c => (mapAxes d src dst fuel (j + 1)).map fun r => .merged a c :: r
        | none => none
      | _ => none

/-- The source axes a mapping covers, in order, the digits of one split run counting once; `last` is the axis of the run under way. -/
def coveredFrom : Option Nat → List AxisMap → List Nat
  | _, [] => []
  | _, .whole a :: r => a :: coveredFrom none r
  | last, .digit a _ _ :: r => (if last = some a then [] else [a]) ++ coveredFrom (some a) r
  | _, .merged a c :: r => (List.range c).map (a + ·) ++ coveredFrom none r

@[inherit_doc coveredFrom]
def coveredAxes (ms : List AxisMap) : List Nat := coveredFrom none ms

/-- The mapping of a command, or cause 0x02 (R261, R262). -/
def mappingOf (d : Dword) (src dst : Shape) : Option (List AxisMap) :=
  if fieldN d 51 48 ≠ dst.rank ∨ (List.range 8).any (fun j => decide (dst.rank ≤ j) && fieldN d (6 * j + 5) (6 * j) != 0) then none
  else match mapAxes d src dst 8 0 with
    | some ms =>
      let cov := coveredAxes ms
      if cov.length = src.rank ∧ (List.range src.rank).all cov.contains then some ms else none
    | none => none

/-- The index of destination axis j for a source index (R261). -/
def axisIndex (src : Shape) (i : List Nat) : AxisMap → Nat
  | .whole a => i.getD a 0
  | .digit a div radix => i.getD a 0 / div % radix
  | .merged a c => (List.range c).foldl (fun v t => v * src.ext.getD (a + t) 1 + i.getD (a + t) 0) 0

/-- A source index from its position in row-major order. -/
def unrank : List Nat → Nat → List Nat
  | [], _ => []
  | _ :: es, n => (n / prodOf es) :: unrank es (n % prodOf es)

/-- The address of an element (R261). -/
def elemVa (s : Shape) (idx : List Nat) : Dword :=
  let off : Int := (idx.zip s.str).foldl (fun o x => o + (x.1 : Int) * x.2) 0
  s.base + BitVec.ofInt 64 (off * (2 ^ s.esz : Nat))

/-- The pairs of source and destination addresses of a command (R261). DESIGN CHOICE (log 28): the elements move in row-major order of the source, in one step; R261 leaves their order to the
engine. -/
def elemPairs (d : Dword) (src dst : Shape) (ms : List AxisMap) : List (Dword × Dword) :=
  (List.range (prodOf src.ext)).map fun n =>
    let i := unrank src.ext n
    let dj := ms.zipIdx.map fun m =>
      let v := axisIndex src i m.1
      if dmwRev d m.2 then dst.ext.getD m.2 1 - 1 - v else v
    (elemVa src i, elemVa dst dj)

/-- The checks of R262 after both records are read: a cause and whether it names the destination record. -/
def travCheck (d : Dword) (sb db : List Byte) : Option (EngCause × Bool) :=
  let src := shapeOf sb
  let dst := shapeOf db
  let badEsz (s : Shape) : Bool := s.esz == 0 || decide (3 < s.esz)
  if shapeMalformed sb then some (.malformed, false)
  else if shapeMalformed db then some (.malformed, true)
  else if !zeroAt d 63 56 then some (.malformed, false)
  else if badEsz src then some (.elemSize, false)
  else if badEsz dst then some (.elemSize, true)
  else if src.esz ≠ dst.esz ∨ fieldN d 55 52 ≠ src.esz then some (.elemSize, false)
  else if src.base.toNat % 2 ^ src.esz ≠ 0 then some (.misaligned, false)
  else if dst.base.toNat % 2 ^ dst.esz ≠ 0 then some (.misaligned, true)
  else if (mappingOf d src dst).isNone then some (.shape, false)
  else none

/-- A traverse command is over: with an error reported, its operation performed either way (R84, R85). -/
def State.endTrav (s : State) (t : TravCmd) (err : Option (EngCause × Nat)) : State :=
  let s := { s with travs := s.travs.filter fun x => !(x.id == t.id) }
  match err with
  | some (c, a) => s.engineError t.gid .trv c a
  | none => s

/-- TRAV_COMMAND_BEGIN (R259 to R263): the engine reads the records of the next command of its cluster and makes its checks. -/
def execTravCommandBegin (id : Nat) (s : State) : Host.Outcome State Fault Refusal :=
  match s.travs.find? (fun t => t.id == id && t.recs.isNone) with
  | some t =>
    let first := (s.travs.takeWhile fun x => x.id != id).all fun x => clusterOf x.core != clusterOf t.core || x.recs.isSome
    if !first ∨ !t.gates.isEmpty then .next s
    else
      let (s1, a) := s.readRec t.core t.part t.src
      match a with
      | .wait => .next s
      | .fail c => .next (s1.endTrav t (some (c, t.src.toNat)))
      | .got sb =>
        let (s2, b) := s1.readRec t.core t.part t.dst
        match b with
        | .wait => .next s
        | .fail c => .next (s2.endTrav t (some (c, t.dst.toNat)))
        | .got db => match travCheck t.dmw sb db with
          | some (c, d) => .next (s2.endTrav t (some (c, if d then t.dst.toNat else t.src.toNat)))
          | none => .next { s2 with travs := s2.travs.map fun x => if x.id = id then { x with recs := some (sb, db) } else x }
  | none => .next s

/-- What an engine's translation of a data address leaves: TLB entries, and update-only copies of the tables' lines combined (R79, R381). -/
def State.engSeen (s : State) (core p : Nat) (va : Dword) (n : Need) : State := if windowOf va = some .global then (s.translate core p va n).1 else s

/-- A group's engine command has written n bytes in scratch: an operand of an `mma` that stands there has been written (R114). -/
def State.notePlace (s : State) (gid n : Nat) : DataPlace → State
  | .near .scratch key => s.modGroup gid fun g => { g with scrSince := (Sys2Proof.Machine.linesOf key n).foldl note g.scrSince }
  | _ => s

/-- Update-only copies of the lines an engine reads are recalled, and the L2 touched (R79, R92). -/
def State.recallPlace (s : State) (gen size : Nat) : DataPlace → State
  | .mem attr pa => s.recallAt attr gen pa size
  | _ => s

/-- Elements from the k-th on moved one after another until a cause is met (R258, R262); a failed check leaves its element poisoned. -/
def State.moveElems (s : State) (w : EngineWork) (gid core p gen size : Nat) : Nat → List (Dword × Dword) → State × Option (EngCause × Nat)
  | _, [] => (s, none)
  | k, (a, b) :: rest =>
    let s := s.engSeen core p a needR
    match s.dataPlace core p a size needR with
    | .fail c => (s, some (c, a.toNat))
    | from_ =>
      let s := s.engSeen core p b needW
      match s.dataPlace core p b size needW with
      | .fail c => (s, some (c, b.toNat))
      | dest =>
        let s := s.recallPlace gen size from_
        let (bytes, pois) := s.placeRead gen size from_
        let failed := s.checks.contains (w, k)
        let s := (s.placeWrite gen bytes (pois || failed) dest).notePlace gid size dest
        if pois then (s, some (.poisoned, a.toNat))
        else if failed then (s, some (.check, a.toNat))
        else s.moveElems w gid core p gen size (k + 1) rest

/-- n bytes of a place become free values, poisoned where they were (R7, R413). -/
def State.freePlace (s : State) (gen n : Nat) (at_ : DataPlace) : State :=
  let (bs, s) := s.freeBytes n
  s.placeWrite gen bs (s.placeRead gen n at_).2 at_

/-- Destination elements of a command whose regions overlap hold undefined values, those an error kept it from reaching too (R262). -/
def State.freeElems (s : State) (core p gen size : Nat) : List (Dword × Dword) → State
  | [] => s
  | (_, b) :: rest => (s.freePlace gen size (s.dataPlace core p b size needW)).freeElems core p gen size rest

/-- TRAV_COMMAND_PERFORMED (R84, R261, R262): the elements of a begun command are moved. -/
def execTravCommandPerformed (id : Nat) (s : State) : Host.Outcome State Fault Refusal :=
  match s.travs.find? (fun t => t.id == id) with
  | some t => match t.recs with
    | none => .next s
    | some (sb, db) =>
      let src := shapeOf sb
      let dst := shapeOf db
      let size := 2 ^ src.esz
      let pairs := elemPairs t.dmw src dst ((mappingOf t.dmw src dst).getD [])
      let from_ := pairs.map fun x => s.dataPlace t.core t.part x.1 size needR
      let dest := pairs.map fun x => s.dataPlace t.core t.part x.2 size needW
      if (from_ ++ dest).contains .wait then .next (s.wantCow t.core t.part (pairs.map (·.2)))
      else
        let gen := s.genOf t.part
        let (s', err) := s.moveElems (.trav t.id) t.gid t.core t.part gen size 0 pairs
        let meet := from_.any fun a => dest.any fun b => placesMeet a size b size
        let s' := if meet then s'.freeElems t.core t.part gen size pairs else s'
        .next ((s'.dropChecks (.trav t.id)).endTrav t err)
  | none => .next s

/-- A copy channel of a cluster (R266). -/
def State.channel (s : State) (cl ch : Nat) : Channel :=
  (s.chans.find? fun c => c.cluster == cl && c.ch == ch).getD { cluster := cl, ch := ch, chains := [], cur := none, parked := none }

/-- A copy channel stored. -/
def State.putChannel (s : State) (c : Channel) : State := { s with chans := (s.chans.filter fun x => !(x.cluster == c.cluster && x.ch == c.ch)) ++ [c] }

/-- XCHAIN (R266). DESIGN CHOICE (log 98): the chain that a channel is running counts among its 16 heads; R266 does not say. -/
def execXchain (w : RR) (s : State) : Host.Outcome State Fault Refusal :=
  runWord (.xchain w) w.toHdr s fun c =>
    let rel := Scope.ofCode (fieldN w.m 5 3)
    if !c.executes then c.noAccess rel
    else
      let a := sreg c.g w.a.toNat
      c.conclude (globalAt a 64) fun _ =>
        let x := c.s.channel (clusterOf c.g.core) (fieldN (sreg c.g w.b.toNat) 3 0)
        if Config.chainHeads ≤ x.chains.length ∨ c.releaseWaits rel then .notReady
        else
          let s := c.s.putChannel { x with chains := x.chains ++ [{ gid := c.g.gid, part := c.g.part, core := c.g.core, head := a }] }
          let c : Ctx := { c with s := s }
          .done (c.advance.release c.g.core rel)

/-- The cause of a transfer record goes to the ENGERR of the group that issued its chain, while that group runs (R6, R258). A channel is none of the paths that PATH names: its two bits are free
values, and no sticky bit is set (R82, log 98). -/
def State.chainCause (s : State) (h : ChainHead) (c : Option EngCause) (rec_ : Dword) : State :=
  match c with
  | none => s
  | some c => if (s.anyGroup? h.gid).isNone then s
    else
      let (w, s) := s.free
      s.modGroup h.gid fun g => { g with engerr := BitVec.ofNat 64 (fieldN w 1 0 * 2 ^ 62 + rec_.toNat / 256 % 2 ^ 48 * 256 + engCode c) }

/-- A chain ends; an error is reported with the record's address (R267, R384), and ends it with CMDERR (R6, R258). DESIGN CHOICE (log 85): a chain has no thread of its own; its record names lane 0 of the
group that issued it, and the thread word is 0 when that group has ended. -/
def State.endChain (s : State) (x : Channel) (h : ChainHead) (err : Option (EngCause × Dword)) : State :=
  let s := s.putChannel { x with chains := x.chains.drop 1, cur := none, parked := none }
  match err with
  | some (c, a) =>
    let who := match s.anyGroup? h.gid with | some g => threadWord g.span g.block g.group 0 | none => 0
    (s.chainCause h (some c) a).pushFault h.part (recordW0 4 (engCode c) false false false false) who a (s.time (dieOf h.core))
  | none => s

/-- A transfer record's fields as the record cache gives them (R265). -/
structure Xfer where
  src  : Dword
  dst  : Dword
  len  : Nat
  tbar : Dword
  next : Dword
  bad  : Bool
  deriving DecidableEq, Repr

/-- A transfer record read, with the word w5 that the channel has read from memory (R6, R267). -/
def xferOf (w5 : Dword) (b : List Byte) : Xfer :=
  let w (i : Nat) : Dword := BitVec.ofNat 64 (leAt b (8 * i) 8)
  { src := w 0, dst := w 1, len := fieldN (w 2) 47 0, tbar := w 3, next := w 4,
    bad := !zeroAt (w 2) 63 48 || !zeroAt w5 63 40 || !zeroAt w5 31 1 || w 6 != 0 || w 7 != 0 }

/-- A copy cut into pieces that cross no 64-byte boundary on either side. -/
def copyPieces (src dst : Dword) : Nat → Nat → List (Dword × Dword × Nat)
  | 0, _ => []
  | fuel + 1, left =>
    if left = 0 then []
    else
      let n := min left (min (64 - src.toNat % 64) (64 - dst.toNat % 64))
      (src, dst, n) :: copyPieces (src + BitVec.ofNat 64 n) (dst + BitVec.ofNat 64 n) fuel (left - n)

/-- Pieces from the k-th on copied one after another until a cause is met (R258, R267); a failed check leaves its piece poisoned. -/
def State.copyMove (s : State) (w : EngineWork) (gid core p gen : Nat) : Nat → List (Dword × Dword × Nat) → State × Option EngCause
  | _, [] => (s, none)
  | k, (a, b, n) :: rest =>
    let s := s.engSeen core p a needR
    match s.dataPlace core p a n needR with
    | .fail c => (s, some c)
    | from_ =>
      let s := s.engSeen core p b needW
      match s.dataPlace core p b n needW with
      | .fail c => (s, some c)
      | dest =>
        let s := s.recallPlace gen n from_
        let (bytes, pois) := s.placeRead gen n from_
        let failed := s.checks.contains (w, k)
        let s := (s.placeWrite gen bytes (pois || failed) dest).notePlace gid n dest
        if pois then (s, some .poisoned) else if failed then (s, some .check) else s.copyMove w gid core p gen (k + 1) rest

/-- DST of a copy whose ranges share a byte is undefined, also behind the point where an error ended it (R267). -/
def State.copyFree (s : State) (core p gen : Nat) : List (Dword × Dword × Nat) → State
  | [] => s
  | (_, b, n) :: rest => (s.freePlace gen n (s.dataPlace core p b n needW)).copyFree core p gen rest

/-- The transaction barrier of a record told of its bytes (R87, R88, R107, R267). -/
def State.postBytes (s : State) (core p : Nat) (tbar : Dword) (n : Nat) : State × Option EngCause :=
  if tbar = 0 then (s, none)
  else if tbar.toNat % 16 ≠ 0 then (s, some .misaligned)
  else
    let s := s.engSeen core p tbar needRW
    match s.dataPlace core p tbar 16 needRW with
    | .mem attr pa =>
      let (s, ans) := (s.recallAt attr (s.genOf p) pa 16).tbarUpdate attr (s.genOf p) pa (.bytes n)
      (s, if ans.bad then some .malformed else none)
    | .fail c => (s, some c)
    | _ => (s, some .outside)

/-- COPY_RECORD (R107, R265, R267): a channel takes the record it stands at. A reserved bit in a record is a malformed record, whose
CMDERR of cause 0x01 ends the chain (R6, R258). -/
def execCopyRecord (cluster ch : Nat) (s : State) : Host.Outcome State Fault Refusal :=
  let x := s.channel cluster ch
  match x.chains with
  | [] => .next s
  | h :: _ =>
    if x.parked.isSome then .next s
    else
      let rec_ := x.cur.getD h.head
      if rec_.toNat % 64 ≠ 0 then .next (s.endChain x h (some (.misaligned, rec_)))
      else
        let s := s.engSeen h.core h.part (rec_ + 40) needRW
        match s.dataPlace h.core h.part (rec_ + 40) 8 needRW with
        | .fail c => .next (s.endChain x h (some (c, rec_)))
        | .mem attr pa =>
          let gen := s.genOf h.part
          let s := s.recallAt attr gen pa 8
          let w5 := s.homeDword attr gen pa
          if (s.placeRead gen 8 (.mem attr pa)).2 then .next (s.endChain x h (some (.poisoned, rec_)))
          else if !bitAt w5 0 then
            if attr ≠ 0 ∨ !s.monRoom .global pa then .next s
            else
              let (id, s) := s.addMon .global pa h.part .ownSet (.channel cluster ch)
              .next (s.putChannel { x with cur := some rec_, parked := some id })
          else
            let (s1, r) := s.readRec h.core h.part rec_
            match r with
            | .wait => .next s
            | .fail c => .next (s1.endChain x h (some (c, rec_)))
            | .got b =>
              let f := xferOf w5 b
              if f.bad then .next (s1.endChain x h (some (.malformed, rec_)))
              else
                let pieces := copyPieces f.src f.dst (f.len / 32 + 3) f.len
                let from_ := pieces.map fun p => (s1.dataPlace h.core h.part p.1 p.2.2 needR, p.2.2)
                let dest := pieces.map fun p => (s1.dataPlace h.core h.part p.2.1 p.2.2 needW, p.2.2)
                let tb := if f.tbar = 0 ∨ f.tbar.toNat % 16 ≠ 0 then DataPlace.fail .outside else s1.dataPlace h.core h.part f.tbar 16 needRW
                if (from_ ++ dest).any (fun p => p.1 == .wait) ∨ tb = .wait then
                  .next (s.wantCow h.core h.part (f.tbar :: pieces.map (·.2.1)))
                else
                  let (s2, err) := s1.copyMove (.copy cluster ch) h.gid h.core h.part gen 0 pieces
                  let meet := from_.any fun a => dest.any fun b => placesMeet a.1 a.2 b.1 b.2
                  let s2 := (if meet then s2.copyFree h.core h.part gen pieces else s2).dropChecks (.copy cluster ch)
                  let (s3, terr) := s2.postBytes h.core h.part f.tbar f.len
                  let cause := match err with | some c => some c | none => terr
                  let status := match cause with | some c => engCode c | none => 0
                  let s4 := (s3.chainCause h cause rec_).poke attr gen pa (leBytes 8 (status * 2 ^ 32)) false
                  if f.next = 0 then .next (s4.endChain x h none)
                  else if f.next.toNat % 64 ≠ 0 then .next (s4.endChain x h (some (.misaligned, rec_)))
                  else .next (s4.putChannel { x with cur := some f.next })
        | .near _ _ => .next (s.endChain x h (some (.outside, rec_)))
        | .wait => .next (s.wantCow h.core h.part [rec_ + 40])

/-- COPY_OWN_WAKE (R89, R267): the word a parked channel waits for has been handed to the engine. -/
def execCopyOwnWake (cluster ch : Nat) (s : State) : Host.Outcome State Fault Refusal :=
  let x := s.channel cluster ch
  match x.parked with
  | some id =>
    if s.mons.any fun m => m.id == id && (s.hitOf m).isSome then .next ((s.freeMon id).putChannel { x with parked := none }) else .next s
  | none => .next s

/-- QSUB (R83, R268). -/
def execQsub (w : RR) (s : State) : Host.Outcome State Fault Refusal :=
  runScalar (.qsub w) w.toHdr s fun c =>
    let a := sreg c.g w.a.toNat
    c.conclude (globalAt a 64) fun _ =>
      if 255 ≤ c.g.qntq.length then .notReady
      else
        let (id, s) := c.s.fresh
        let cmd : QntCmd := { id := id, gid := c.g.gid, part := c.g.part, die := dieOf c.g.core, core := c.g.core, addr := a }
        let c : Ctx := { c with s := { s with qnts := s.qnts ++ [cmd] } }
        .done (c.finish { c.g with qntq := c.g.qntq ++ [(id, false)] })

/-- The record of a quantisation command (R268). -/
structure QntRec where
  src      : Dword
  dst      : Dword
  scales   : Dword
  nblk     : Nat
  supplied : Bool
  bf       : Bool
  bad      : Bool
  deriving DecidableEq, Repr

/-- A quantisation record read. -/
def qntOf (b : List Byte) : QntRec :=
  let w (i : Nat) : Dword := BitVec.ofNat 64 (leAt b (8 * i) 8)
  { src := w 0, dst := w 1, scales := w 2, nblk := fieldN (w 3) 31 0, supplied := bitAt (w 4) 2, bf := fieldN (w 4) 1 0 == 1,
    bad := !zeroAt (w 3) 63 32 || !zeroAt (w 4) 63 3 || decide (2 ≤ fieldN (w 4) 1 0) || w 5 != 0 || w 6 != 0 || w 7 != 0 }

/-- Bytes of one block's input. -/
def qntSize (q : QntRec) : Nat := if q.bf then 64 else 128

/-- The 32 values of a block's input bytes. -/
def qntValues (q : QntRec) (bs : List Byte) : List Num.Val :=
  (List.range 32).map fun i => if q.bf then Num.fdec Num.bf16 false (leAt bs (2 * i) 2) else Num.fdec Num.fp32 false (leAt bs (4 * i) 4)

/-- One block (R124, R268): its cause when it ends the command. A failed check leaves its output poisoned (R258). -/
def State.qntBlock (s : State) (w : EngineWork) (gid core p gen : Nat) (q : QntRec) (k : Nat) : State × Option (EngCause × Nat) :=
  let src := q.src + BitVec.ofNat 64 (k * qntSize q)
  let dst := q.dst + BitVec.ofNat 64 (k * 32)
  let sc := q.scales + BitVec.ofNat 64 k
  let s := ((s.engSeen core p src needR).engSeen core p dst needW).engSeen core p sc (if q.supplied then needR else needW)
  match s.dataPlace core p src (qntSize q) needR, s.dataPlace core p dst 32 needW, s.dataPlace core p sc 1 (if q.supplied then needR else needW) with
  | .fail c, _, _ => (s, some (c, src.toNat))
  | _, .fail c, _ => (s, some (c, dst.toNat))
  | _, _, .fail c => (s, some (c, sc.toNat))
  | from_, dest, at_ =>
    let s := s.recallPlace gen (qntSize q) from_
    let s := if q.supplied then s.recallPlace gen 1 at_ else s
    let (bytes, pois) := s.placeRead gen (qntSize q) from_
    let (given, spois) := if q.supplied then s.placeRead gen 1 at_ else ([], false)
    let xs := qntValues q bytes
    let scale : Byte := if q.supplied then given.headD 0 else Num.d2p8scale xs
    if pois ∨ spois then
      let s := (s.placeWrite gen (List.replicate 32 0) true dest).notePlace gid 32 dest
      (if q.supplied then s else (s.placeWrite gen [0] true at_).notePlace gid 1 at_, some (.poisoned, if pois then src.toNat else sc.toNat))
    else if scale = 0xFF then (s, some (.scaleFF, sc.toNat))
    else
      let s := if q.supplied then s else (s.placeWrite gen [scale] false at_).notePlace gid 1 at_
      let failed := s.checks.contains (w, k)
      ((s.placeWrite gen (xs.map fun x => Num.d2p8q x scale) failed dest).notePlace gid 32 dest, if failed then some (.check, src.toNat) else none)

/-- The blocks of a command from k on. -/
def State.qntBlocks (s : State) (w : EngineWork) (gid core p gen : Nat) (q : QntRec) : Nat → Nat → State × Option (EngCause × Nat)
  | 0, _ => (s, none)
  | n + 1, k =>
    let (s, err) := s.qntBlock w gid core p gen q k
    match err with
    | some e => (s, some e)
    | none => s.qntBlocks w gid core p gen q n (k + 1)

/-- A quantisation command is over (R83, R85, R258). -/
def State.endQnt (s : State) (c : QntCmd) (err : Option (EngCause × Nat)) : State :=
  let s := { s with qnts := s.qnts.filter fun x => !(x.id == c.id) }
  let s := match err with | some (e, a) => s.engineError c.gid .qnt e a | none => s
  (s.modGroup c.gid fun g => { g with qntq := countDone g.qntq c.id }).settle

/-- QUANTISATION_COMMAND (R124, R268): the oldest submission of a die's engine. -/
def execQuantisationCommand (die : Nat) (s : State) : Host.Outcome State Fault Refusal :=
  match s.qnts.find? (fun c => c.die == die) with
  | some c =>
    let s := s.engSeen c.core c.part c.addr needR
    match s.dataPlace c.core c.part c.addr 64 needR with
    | .fail e => .next (s.endQnt c (some (e, c.addr.toNat)))
    | .mem attr pa =>
      let gen := s.genOf c.part
      let s := s.recallAt attr gen pa 64
      let (b, pois) := s.placeRead gen 64 (.mem attr pa)
      let q := qntOf b
      let ks := List.range q.nblk
      let places := ks.flatMap fun k =>
        [s.dataPlace c.core c.part (q.src + BitVec.ofNat 64 (k * qntSize q)) (qntSize q) needR,
         s.dataPlace c.core c.part (q.dst + BitVec.ofNat 64 (k * 32)) 32 needW,
         s.dataPlace c.core c.part (q.scales + BitVec.ofNat 64 k) 1 (if q.supplied then needR else needW)]
      if pois then .next (s.endQnt c (some (.poisoned, c.addr.toNat)))
      else if q.bad then .next (s.endQnt c (some (.malformed, c.addr.toNat)))
      else if q.src.toNat % qntSize q ≠ 0 ∨ q.dst.toNat % 32 ≠ 0 then .next (s.endQnt c (some (.misaligned, c.addr.toNat)))
      else if places.contains .wait then
        .next (s.wantCow c.core c.part (ks.flatMap fun k => [q.dst + BitVec.ofNat 64 (k * 32)] ++ if q.supplied then [] else [q.scales + BitVec.ofNat 64 k]))
      else
        let (s, err) := s.qntBlocks (.qnt c.id) c.gid c.core c.part gen q q.nblk 0
        .next ((s.dropChecks (.qnt c.id)).endQnt c err)
    | _ => .next s
  | none => .next s

/-- The partition owns sluice line k: it owns slot 3k (R269). -/
def State.ownsSlot (s : State) (p slot : Nat) : Bool := inRange slot (fieldN (s.part p).quota 5 0) (fieldN (s.part p).quota 11 6)

/-- The check of a sluice instruction's line (R269). -/
def State.slCheck (s : State) (p line : Nat) : Chk Unit := if s.ownsSlot p (3 * line) then .ok () else trapNow .access 0

/-- A configuration is malformed for a partition (R270). -/
def State.slBad (s : State) (p : Nat) (c : BitVec 20) : Bool :=
  let slotBad (x : Nat) : Bool := decide (48 ≤ x) || !s.ownsSlot p x
  decide (4 ≤ slTarget c) || decide (4 ≤ slSrc c) || slotBad (slTslot c) || slotBad (slSslot c)

/-- SLSET (R270). -/
def execSlset (w : RI) (s : State) : Host.Outcome State Fault Refusal :=
  runScalar (.slset w) w.toHdr s fun c =>
    let line := fieldN w.imm 3 0
    let cfg : BitVec 20 := (sreg c.g w.a.toNat).truncate 20
    c.conclude (c.s.slCheck c.g.part line) fun _ =>
      if c.s.slBad c.g.part cfg then .done (c.finish (setS c.g w.d.toNat 1))
      else
        let l := c.s.slLine c.g.core line
        let c : Ctx := { c with s := c.s.putSlLine { l with owner := some c.g.gid, cfg := cfg, count := 0 } }
        .done (c.finish (setS c.g w.d.toNat 0))

/-- SLPULSE (R271, R272). -/
def execSlpulse (w : RI) (s : State) : Host.Outcome State Fault Refusal :=
  runScalar (.slpulse w) w.toHdr s fun c =>
    let line := fieldN w.imm 3 0
    c.conclude (c.s.slCheck c.g.part line) fun _ => .done (c.advance.pulse c.g.core line)

/-- SLWAIT (R111, R271, R272). -/
def execSlwait (w : RI) (s : State) : Host.Outcome State Fault Refusal :=
  runScalar (.slwait w) w.toHdr s fun c =>
    let line := fieldN w.imm 3 0
    c.conclude (c.s.slCheck c.g.part line) fun _ =>
      let l := c.s.slLine c.g.core line
      if l.count ≠ 0 ∧ l.waiters.isEmpty then
        let c : Ctx := { c with s := c.s.putSlLine { l with count := l.count - 1 } }
        .done c.advance
      else
        let s := c.s.putSlLine { l with waiters := l.waiters ++ [.split c.g.gid c.k] }
        .done (s.setGroup (setEntry c.g c.k { entry c.g c.k with state := .waitPark, wait := .slwait line }))

/-- SLUICE_GATE_RELEASE (R111, R271): the consumer that has waited longest for a line takes a pulse and starts. -/
def execSluiceGateRelease (core line : Nat) (s : State) : Host.Outcome State Fault Refusal :=
  let l := s.slLine core line
  if l.count = 0 ∨ l.waiters.isEmpty then .next s else .next ((s.takePulse l).servePulses core line l.waiters.length)

end Sys2Proof.Machine
end

