-- ==== Sys2Proof/Machine/System.lean ====
section
/-! DEFINITION. System registers, role switches, cache and site maintenance, breakpoints and the debugger's instructions (R273 to R289, R394, R395). -/

namespace Sys2Proof.Machine

/-- The selector of `getsr` and `setsr` (R273). -/
def srSel (w : RI) : Nat := fieldN w.imm 9 0

/-- GETSR (R273): the 64-bit value into a scalar, or bits 31:0 into a row, each lane its own value. -/
def execGetsr (w : RI) (s : State) : Host.Outcome State Fault Refusal :=
  if bitAt w.m 0 then
    runWord (.getsr w) w.toHdr s fun c =>
      c.vector [w.d.toNat] [] noCheck .i32 fun lane => [(sysReg c.s c.g c.k (srSel w) lane).truncate 32]
  else runScalarG (.getsr w) w.toHdr s fun c => setS c.g w.d.toNat (sysReg c.s c.g c.k (srSel w) 0)

/-- SETSR (R5, R273, R277); BARLIMIT belongs to the block, and its new value applies from the next phase (R49). -/
def execSetsr (w : RI) (s : State) : Host.Outcome State Fault Refusal :=
  runScalar (.setsr w) w.toHdr s fun c =>
    let v := sreg c.g w.a.toNat
    let s := c.finish (writeSysReg c.g c.k (srSel w) v)
    .done (if srSel w = 0x014 then s.modBlock c.g.bid fun b => { b with barlimit := field v 31 0 } else s)

/-- ROLESW (R34, R274): an undeclared role gives 1; a declared one begins the switch. -/
def execRolesw (w : RI) (s : State) : Host.Outcome State Fault Refusal :=
  runScalar (.rolesw w) w.toHdr s fun c =>
    let r := fieldN w.imm 1 0
    match c.s.roleOf c.g r with
    | none => .done (c.finish (setS c.g w.d.toNat 1))
    | some _ => .done (c.s.beginSwitch c.g c.k (some w.d.toNat) r)

/-- SITEARM (R69, R247, R275, R302, R311): every history byte of the line's sixteen sites is cleared in one write at the sidecar's home, which waits for a
page still marked COW and has it drained next (R417). -/
def execSitearm (w : RR) (s : State) : Host.Outcome State Fault Refusal :=
  runScalar (.sitearm w) w.toHdr s fun c =>
    let line := sreg c.g w.a.toNat &&& ~~~127
    if windowOf line ≠ some .global then .trap c.s .access none (sreg c.g w.a.toNat)
    else match c.s.translate c.g.core c.g.part line needX with
    | (s, .error f) =>
      let lane := (lowestLane c.e.ex).getD ((lowestLane c.e.own).getD 0)
      .stay (s.parkGroup c.g false (.fault lane (sreg c.g w.a.toNat) f))
    | (s, .ok _) =>
      let c : Ctx := { c with s := s }
      match s.sidecar c.g.part line with
      | none => .done (c.finish (setS c.g w.d.toNat 1))
      | some x =>
        let held := s.wantLine (x.side / 128)
        if s.homeBehind c.g x.sideAttr x.side 16 then .notReady
        else if x.sideAttr ≠ 1 ∧ s.cowLine (x.side / 128) then (if held.parts = s.parts then .notReady else .stay held)
        else
          let c : Ctx := { c with s := s.poke x.sideAttr (s.genOf c.g.part) x.side (List.replicate 16 0) false }
          .done (c.finish (setS c.g w.d.toNat 0))

/-- The lane a record names for a word of a split: the lowest active one (R283, R385). -/
def Ctx.firstLane (c : Ctx) : Nat := (lowestLane c.act).getD ((lowestLane c.e.ex).getD ((lowestLane c.e.own).getD 0))

/-- BKPT (R282); a debugger breakpoint under DBKPT halts the group at the word (R283). -/
def execBkpt (w : RI) (s : State) : Host.Outcome State Fault Refusal :=
  runScalar (.bkpt w) w.toHdr s fun c =>
    if bitAt w.imm 17 ∧ (c.s.part c.g.part).dbkpt then
      .stay ((c.s.setGroup { c.g with halt := true }).trapHaltRecord c.g .bkpt c.firstLane c.e.pc)
    else .trap c.s .bkpt none (w.imm.zeroExtend 64)

/-- The eight words of a mailbox record (R289). -/
def Ctx.mboxRecord (c : Ctx) (w : RR) (index : Dword) : List Dword :=
  [BitVec.ofNat 64 (w.m.toNat + c.g.block * 2 ^ 6 + c.g.group * 2 ^ 10 + c.g.span * 2 ^ 20), c.e.pc, c.g.live ++ c.e.ex, sreg c.g w.a.toNat,
   sreg c.g w.b.toNat, sreg c.g w.c.toNat, c.s.time (dieOf c.g.core), index]

/-- CAP of a mailbox is in range (R289). -/
def capOk (cap : Nat) : Bool := (List.range 17).any fun n => cap == 2 ^ n

/-- DBGMB (R289): one indivisible step at the header's home, a release at system scope, which orders even where its guard holds in no lane (R28, R103). -/
def execDbgmb (w : RR) (s : State) : Host.Outcome State Fault Refusal :=
  runOrdered (.dbgmb w) w.toHdr (some .system) s fun c =>
    let d := w.d.toNat
    let va := (c.s.part c.g.part).mbox
    if c.releaseWaits (some .system) then .notReady
    else if va = 0 then
      let c : Ctx := { c with s := c.s.release c.g.core (some .system) }
      .done (c.finish (setS c.g d 2))
    else c.conclude (globalAt va 64) fun _ =>
      match c.homePlace va needRW with
      | .error i => i
      | .ok (c, attr, pa) =>
        let gen := c.s.genOf c.g.part
        let wr := c.s.homeDword attr gen pa
        let rd := c.s.homeDword attr gen (pa + 8)
        let cap := fieldN (c.s.homeDword attr gen (pa + 16)) 31 0
        if !capOk cap || wr - rd == BitVec.ofNat 64 cap then
          let c : Ctx := { c with s := c.s.release c.g.core (some .system) }
          .done (c.finish (setS c.g d 1))
        else
          match c.homePlace (va + 64 + 64 * BitVec.ofNat 64 (wr.toNat % cap)) needW with
          | .error i => i
          | .ok (c, attr', pa') =>
            let bs := (c.mboxRecord w wr).flatMap fun x => leBytes 8 x.toNat
            let s := c.s.release c.g.core (some .system)
            let s := (s.poke attr' gen pa' bs false).poke attr gen pa (leBytes 8 (wr + 1).toNat) false
            let c : Ctx := { c with s := s }
            .done (c.finish (setS c.g d 0))

/-- ACCESS as a group-level refusal (R278, R284). -/
def Ctx.refusedAccess (c : Ctx) : Issue := .trap c.s .access none 0

/-- The group that R284's scalar names in the issuing group's launch: resident, saved or swapped, and not ended (R285). -/
def Ctx.target (c : Ctx) (a : Dword) : Option Nat := c.s.peerGid c.g.lid (fieldN a 37 14) (fieldN a 13 10) (fieldN a 9 0)

/-- Code of STATE in a split-table entry (R23). -/
def splitCode : SplitState → Nat
  | .free => 0
  | .runnable => 1
  | .joinPark => 2
  | .barPark => 3
  | .waitPark => 4
  | .gangPark => 5

/-- The four words of a split-table entry (R23). -/
def entryWords (e : Entry) : List Dword :=
  [(e.pc &&& ~~~7) ||| BitVec.ofNat 64 (splitCode e.state), (e.rpc &&& ~~~7) ||| BitVec.ofNat 64 (bitIf e.rv 0), e.own ++ e.ex,
   e.rmask ++ (e.age.zeroExtend 32 : Word)]

/-- The split table as the saved context and a dump present it (R23, R285). -/
def splitBytes (g : Group) : List Byte := entries.flatMap fun k => (entryWords (entry g k)).flatMap fun x => leBytes 8 x.toNat

/-- A group set going again after a halt: words fetched before are discarded (R394). -/
def unhalt (g : Group) : Group :=
  if g.halt280 then g
  else { refetch g with halt := false }

/-- HALTG (R284, R285, R394, R395). Every step is whole, so a group always stands at an instruction boundary. -/
def execHaltg (w : RR) (s : State) : Host.Outcome State Fault Refusal :=
  runScalar (.haltg w) w.toHdr s fun c =>
    let mode := fieldN w.m 1 0
    let a := sreg c.g w.a.toNat
    let b := sreg c.g w.b.toNat
    let d := w.d.toNat
    if !c.g.hmode then c.refusedAccess
    else if mode = 2 ∧ b.toNat % 128 ≠ 0 then .trap c.s .align none b
    else if mode = 2 ∧ (windowOf b ≠ some .scratch ∨ !c.s.inWindow c.g.part b .scratch) then .trap c.s .access none b
    else match c.target a with
      | none => .done (c.finish (setS c.g d 1))
      | some t =>
        if t = c.g.gid then .done (c.finish (setS c.g d 2))
        else match c.s.anyGroup? t with
          | none => .done (c.finish (setS c.g d 1))
          | some x =>
            let s := c.finish (setS c.g d 0)
            if mode = 0 then .done (s.modGroup t fun x => { x with halt := true })
            else if mode = 1 then .done (s.modGroup t unhalt)
            else if !x.halt then .done (c.finish (setS c.g d 3))
            else
              let key := storageKey c.g.core b .scratch
              if c.s.nearBusy c.g.gid key then .notReady
              else .done (State.evalMons { s with scratch := s.scratch.write (s.genOf c.g.part) key (splitBytes x) false } .scratch (key / 128))

/-- The entry a step of a halted group may issue (R286): named, or some runnable one. -/
def stepReady (x : Group) (sel : Nat) : Bool :=
  let ok (k : Nat) : Bool := (entry x k).state == .runnable && !x.stopped.getLsbD k
  x.park == .none && x.begun && (if sel < 4 then ok sel else sel == 4 && entries.any ok)

/-- STEPG (R286, R394): the split waits until the target has issued its one instruction. A group of a block that is swapped out or saved can issue none (R285, R392). -/
def execStepg (w : RR) (s : State) : Host.Outcome State Fault Refusal :=
  runScalar (.stepg w) w.toHdr s fun c =>
    let sel := fieldN (sreg c.g w.b.toNat) 2 0
    let d := w.d.toNat
    if !c.g.hmode then c.refusedAccess
    else match (c.target (sreg c.g w.a.toNat)).bind c.s.anyGroup? with
      | none => .done (c.finish (setS c.g d 1))
      | some x =>
        if !x.halt then .done (c.finish (setS c.g d 2))
        else if (c.s.group? x.gid).isNone || !stepReady x sel || x.stepReq.isSome then .done (c.finish (setS c.g d 3))
        else
          .done ((c.park c.g (.stepg d)).modGroup x.gid fun x =>
            { unhalt { x with halt280 := false } with halt := true, halt280 := x.halt280, stepReq := some { entry := sel, by_ := some (c.g.gid, c.k, d) } })

/-- WATCHSET (R284, R287): the slot stands for every core from this step on, and the split parks until its core's next turn (log 46). -/
def execWatchset (w : RR) (s : State) : Host.Outcome State Fault Refusal :=
  runScalar (.watchset w) w.toHdr s fun c =>
    let a := sreg c.g w.a.toNat
    let b := sreg c.g w.b.toNat
    let n := fieldN b 3 0
    if !c.g.hmode then c.refusedAccess
    else if n < 2 ∨ 12 < n ∨ a.toNat % 2 ^ n ≠ 0 then .done (c.finish (setS c.g w.d.toNat 1))
    else
      let slot : WatchSlot := { en := bitAt b 6, wr := bitAt b 5, rd := bitAt b 4, log2len := n, addr := a, cluster := clusterOf c.g.core }
      .done ((c.park c.g (.watchset w.d.toNat)).modPart c.g.part fun p => { p with watches := vset p.watches (fieldN w.m 1 0) slot })

/-- ERET (R280, R281, R394). -/
def execEret (w : RR) (s : State) : Host.Outcome State Fault Refusal :=
  runScalar (.eret w) w.toHdr s fun c =>
    if c.g.hmode then .done (c.s.setGroup (trapReturn c.g c.k (bitAt w.m 0)))
    else .stay (c.s.takeTrap c.g.gid c.k c.act .access none 0 true)

/-- A line written back from one L1, staying clean there (R276). -/
def State.cwbL1 (s : State) (core line : Nat) : State := match s.l1Line? core line with | some l => s.cleanLine l | none => s

/-- A dirty requester-side copy written back, staying clean (R276). -/
def State.cleanSlice (s : State) (line : Nat) (l : SliceLine) : State :=
  if l.line = line ∧ dirtySt l.st then
    let s := if l.st = CState.m then s else s.noteShared .home line (.slice l.die) false
    (s.putSlice { l with st := if l.st = CState.m then .e else .s }).putHome line l.val
  else s

/-- `cwb.l2` (R276). -/
def State.cwbL2 (s : State) (line : Nat) : State :=
  let s := (s.l1.filter fun l => l.line == line).foldl (fun s l => s.cleanLine l) s
  let s := s.slices.foldl (fun s l => s.cleanSlice line l) s
  { s with ways := s.ways.map fun w => if w.line = line then { w with dirty := false } else w }

/-- `cinv.l1` (R276). -/
def State.cinvL1 (s : State) (core line : Nat) : State := (s.cwbL1 core line).evictL1 core line

/-- `cinv.l2` (R276). -/
def State.cinvL2 (s : State) (line : Nat) : State :=
  let s := s.recallAll line
  { s with ways := s.ways.filter fun w => !(w.line == line) }

/-- What a cache maintenance word does to lines (R276); lines of host memory are in no cache (R374). -/
def Ctx.maintainLines (c : Ctx) (s : State) (places : List (Nat × Nat)) (act : State → Nat → State) : Issue :=
  let lines := ((places.filter fun x => x.1 != 1).map fun x => x.2 / 128).eraseDups
  if lines.any fun x => s.pendBusy c.g.core x || !s.quiet x then .notReady
  else
    let c : Ctx := { c with s := s }
    .done (lines.foldl act c.advance)

/-- A cache maintenance word with a scalar address (R28, R247, R276): one line, whatever EX holds. -/
def Ctx.maintainOne (c : Ctx) (va : Dword) (act : State → Nat → State) : Issue :=
  if !c.executes then .done c.advance
  else if windowOf va ≠ some .global then .trap c.s .access none va
  else match c.s.translate c.g.core c.g.part va ⟨false, false, false⟩ with
    | (s, .error f) => .stay (s.parkGroup c.g false (.fault ((lowestLane c.e.ex).getD ((lowestLane c.e.own).getD 0)) va f))
    | (s, .ok l) => c.maintainLines s [(l.attr, leafPa l va)] act

/-- A cache maintenance word (R276): every active thread lane's line, or a scalar's. -/
def maintain (i : Instr) (w : ML) (s : State) (l1 : Nat → State → Nat → State) (l2 : State → Nat → State) : Host.Outcome State Fault Refusal :=
  runWord i w.toHdr s fun c =>
    let ak := akOf w.m
    let src := addrSrc w.a.toNat ak (names w.e .a)
    let va := addrLane c.g w.a.toNat ak (w.ofs.signExtend 64)
    let act (s : State) (x : Nat) : State := if bitAt w.d 0 then l2 s x else l1 c.g.core s x
    if c.held then .notReady
    else if ak then c.maintainOne (va 0) act
    else if c.thr = 0 then .done c.advance
    else
      let chk : Chk Unit := do
        checkBound c.g (src.flatMap VSrc.rows)
        checkFull c.g [] src
      c.orElse chk (.done c.advance) <|
        match c.badLane 1 (some .global) va with
        | some (l, cause) => .trap c.s cause (some l) (va l)
        | none =>
          let (s, accs, why) := c.s.resolve c.g ⟨false, false, false⟩ false ((maskLanes c.thr).map fun l => (l, va l))
          match why with
          | some y => .stay (s.parkGroup c.g false y)
          | none => c.maintainLines s (accs.map fun a => (a.attr, a.addr)) act

/-- CWB -/
def execCwb (w : ML) (s : State) : Host.Outcome State Fault Refusal := maintain (.cwb w) w s (fun core s x => s.cwbL1 core x) State.cwbL2
/-- CINV -/
def execCinv (w : ML) (s : State) : Host.Outcome State Fault Refusal := maintain (.cinv w) w s (fun core s x => s.cinvL1 core x) State.cinvL2

end Sys2Proof.Machine
end

