-- ==== Sys2Proof/Machine/Sites.lean ====
section
/-! DEFINITION. Site steps at the home of a code line: quickening and widening (R307 to R316). -/

namespace Sys2Proof.Machine

/-- The code word at a device-physical address, as its home's atomic unit reads it. -/
def State.codeWord (s : State) (x : SiteStep) : Dword := BitVec.ofNat 64 (ofLe (s.peek x.attr x.gen x.pa 8))

/-- An earlier request of the same source to the same home, or an earlier site step of it to host memory, has not been performed (R73). -/
def State.siteBehind (s : State) (x : SiteStep) : Bool :=
  if x.placeAttr = 1 then s.sites.any fun y => decide (y.id < x.id) && y.placeAttr == 1 && y.source == x.source
  else s.requestBehind x.id x.source (nodeEnd .home (x.place / 128))

/-- A site step lies in a page that a fix has still to copy (R417). -/
def State.siteCow (s : State) (x : SiteStep) : Bool := x.placeAttr != 1 && s.cowLine (x.place / 128)

/-- A site step may act: it is not overtaking another, its line is quiet, and no fix has still to copy its page (R73, R308, R417). -/
def State.siteReady (s : State) (x : SiteStep) : Bool :=
  !s.siteBehind x && (x.placeAttr == 1 || s.quiet (x.place / 128)) && !s.siteCow x

/-- What a site step that may not act yet does: the page that it waits for is drained next (R417). -/
def State.siteStays (s : State) (x : SiteStep) : State := if s.siteCow x then s.wantLine (x.place / 128) else s

/-- A sidecar byte after one more widening (R302, R310). -/
def flipByte (b : Byte) : Byte :=
  let flips := min (fieldN b 1 0 + 1) 3
  BitVec.ofNat 8 (flips + bitIf (bitAt b 2 || flips == 3) 2)

/-- A site step without its message. -/
def State.dropSite (s : State) (id : Nat) : State := { s with sites := s.sites.filter fun x => !(x.id == id) }

/-- The compare-and-swap of a site step (R307, R308, R309): whether it succeeded. Update-only copies of the line are recalled before the compare (R79); a poisoned unit is not written
(R413). -/
def State.siteSwap (s : State) (x : SiteStep) : State × Bool :=
  let s := s.dropSite x.id
  let s := if x.attr = 1 then s else (s.recallURange x.pa 8).blurRange x.gen x.pa 8
  if s.codeWord x = x.expect ∧ !s.peekPoison x.attr x.gen x.pa 8 then (s.poke x.attr x.gen x.pa (leBytes 8 x.new.toNat) false, true) else (s, false)

/-- SITE_STEP_QUICKEN (R307, R308). -/
def execSiteStepQuicken (id : Nat) (s : State) : Host.Outcome State Fault Refusal :=
  match s.sites.find? (fun x => x.id == id && !x.widen) with
  | some x => .next (if s.siteReady x then (s.siteSwap x).1 else s.siteStays x)
  | none => .next s

/-- The sidecar's count of a widening that has rewritten its word (R310); a poisoned unit is not written (R413). -/
def State.siteCount (s : State) (x : SiteStep) : State :=
  let s := s.dropSite x.id
  let s := if x.sideAttr = 1 then s else (s.recallURange x.side 1).blurRange x.gen x.side 1
  if s.peekPoison x.sideAttr x.gen x.side 1 then s else s.poke x.sideAttr x.gen x.side [flipByte (s.sideByte x.sideAttr x.gen x.side)] false

/-- SITE_STEP_WIDEN (R309, R310, R312): a step that succeeds goes on to the sidecar's home, as a new message, where it counts one flip. -/
def execSiteStepWiden (id : Nat) (s : State) : Host.Outcome State Fault Refusal :=
  match s.sites.find? (fun x => x.id == id && x.widen) with
  | some x =>
    if !s.siteReady x then .next (s.siteStays x)
    else if x.rewritten then .next (s.siteCount x)
    else
      let (s, done) := s.siteSwap x
      if done then
        let (id, s) := s.fresh
        .next { s with sites := s.sites ++ [{ x with id := id, rewritten := true }] }
      else .next s
  | none => .next s

end Sys2Proof.Machine
end

