-- ==== Sys2Proof/Machine/Packet.lean ====
section
/-! DEFINITION. Command packets (R341 to R346, R349, R350, R415, R420): their fields, their validation and their values. -/

namespace Sys2Proof.Machine

/-- Codes of a status record (R348). -/
inductive Code
  | done | unknownType | unknownField | malformed | nofit | badSignal | timeout | killed | overflow | graphErr | fault | lateCut
  deriving DecidableEq, Repr

/-- The number of a code (R348). -/
def Code.num : Code → Nat
  | .done => 0
  | .unknownType => 1
  | .unknownField => 2
  | .malformed => 3
  | .nofit => 4
  | .badSignal => 5
  | .timeout => 6
  | .killed => 7
  | .overflow => 8
  | .graphErr => 9
  | .fault => 10
  | .lateCut => 11

/-- A status record (R348). -/
def statusWord (seq : Word) (tag : Nat) (late : Bool) (c : Code) : Dword :=
  BitVec.ofNat 64 (seq.toNat * 2 ^ 32 + tag % 2 ^ 15 * 2 ^ 17 + bitIf late 16 + c.num)

/-- SEQ, LEN and TYPE of a packet's header (R341). -/
def pkSeq (b : List Byte) : Word := BitVec.ofNat 32 (leAt b 4 4)
@[inherit_doc pkSeq]
def pkLen (b : List Byte) : Nat := leAt b 2 2
@[inherit_doc pkSeq]
def pkType (b : List Byte) : Nat := leAt b 0 2

/-- A field of a packet (R342): its double word, whether it ends within the packet, its value, and whether its padding is zero. -/
structure Fld where
  tag   : Nat
  mand  : Bool
  clean : Bool
  fits  : Bool
  val   : List Byte
  deriving DecidableEq, Repr

/-- The fields that follow a packet's header, up to the first whose end cannot be told. -/
def fieldsFrom : Nat → List Byte → List Fld
  | 0, _ => []
  | n + 1, b =>
    if b.isEmpty then []
    else
      let vlen := leAt b 0 2
      let room := (vlen + 7) / 8 * 8
      let f : Fld := { tag := leAt b 2 2 % 32768, mand := decide (32768 ≤ leAt b 2 2), fits := decide (8 + room ≤ b.length),
                       clean := leAt b 4 4 == 0 && ((b.drop (8 + vlen)).take (room - vlen)).all (· == 0), val := (b.drop 8).take vlen }
      if f.fits then f :: fieldsFrom n (b.drop (8 + room)) else [f]

/-- The fields of a packet. -/
def fieldsOf (b : List Byte) : List Fld := fieldsFrom b.length (b.drop 8)

/-- Mandatory and optional tags of a packet type, with their lengths (R344, R346, R349, R415, R420); none is a type not listed. -/
def packetTags (type : Nat) : Option (List (Nat × Nat) × List (Nat × Nat)) :=
  let both : List (Nat × Nat) := [(0x00B, 0), (0x00C, 24)]
  match type with
  | 1 => some ([(0x001, 16), (0x002, 16), (0x004, 8)],
      [(0x003, 8), (0x005, 16), (0x006, 8), (0x007, 8), (0x008, 8), (0x009, 8), (0x00A, 8)] ++ both)
  | 2 => some ([(0x00C, 24)], [(0x00B, 0)])
  | 3 => some ([(0x010, 24)], both)
  | 4 => some ([(0x010, 24), (0x011, 8)], both)
  | 5 => some ([(0x010, 24), (0x012, 8)], both)
  | 6 => some ([(0x013, 16)], both)
  | 7 => some ([], both)
  | 8 => some ([(0x020, 16), (0x022, 16), (0x023, 16)], [(0x021, 8), (0x024, 8)] ++ both)
  | 9 => some ([(0x030, 16)], both)
  | _ => none

/-- A packet of this type acts as AFTER (R344). -/
def actsAfter (type : Nat) : Bool := type == 2 || type == 4 || type == 5 || type == 7 || type == 8 || type == 9

/-- The next packet starts only when one of this type has completed (R344, R345). -/
def blocking (type : Nat) : Bool := decide (2 ≤ type) && type != 6

/-- Reserved bits within a known field's value are zero (R6, R343). -/
def reservedOk (tag : Nat) (v : List Byte) : Bool :=
  let w (i : Nat) : Dword := dwordAt v (8 * i)
  match tag with
  | 0x001 => zeroAt (w 1) 63 32
  | 0x004 => zeroAt (w 0) 31 24
  | 0x005 => zeroAt (w 1) 7 5 && zeroAt (w 1) 31 18 && zeroAt (w 1) 63 43
  | 0x006 => zeroAt (w 0) 31 2
  | 0x008 => zeroAt (w 0) 63 32
  | 0x00C => zeroAt (w 2) 63 2
  | 0x010 => zeroAt (w 2) 31 4
  | 0x011 => zeroAt (w 0) 63 16
  | 0x012 => zeroAt (w 0) 31 16
  | 0x013 => zeroAt (w 1) 63 13
  | 0x020 => zeroAt (w 1) 63 1
  | 0x022 => zeroAt (w 1) 63 16
  | 0x023 => zeroAt (w 0) 63 24
  | 0x030 => zeroAt (w 0) 63 24 && zeroAt (w 1) 63 6
  | _ => true

/-- A register allotment of a packet is in its limits (R349). -/
def regsOk (n : Nat) : Bool := decide (8 ≤ n) && decide (n ≤ 512) && n % 8 == 0

/-- A known field's value is in the limits its own bits show (R346, R349, R415). -/
def limitsOk (tag : Nat) (v : List Byte) : Bool :=
  let w (i : Nat) : Dword := dwordAt v (8 * i)
  match tag with
  | 0x001 =>
    let spans := fieldN (w 0) 31 0
    let nb := fieldN (w 0) 47 32
    let ng := fieldN (w 0) 63 48
    let t := fieldN (w 1) 31 0
    decide (1 ≤ spans) && decide (spans ≤ 2 ^ 24) && decide (1 ≤ nb) && decide (nb ≤ 16) && decide (1 ≤ ng) && decide (ng ≤ 1024) &&
      decide (32 * (ng - 1) < t) && decide (t ≤ 32 * ng)
  | 0x002 => zeroAt (w 0) 2 0
  | 0x004 => regsOk (fieldN (w 0) 15 0) && decide (fieldN (w 0) 23 16 ≤ 16) && decide (fieldN (w 0) 63 32 ≤ 65536) && fieldN (w 0) 63 32 % 128 == 0
  | 0x005 => zeroAt (w 0) 2 0 && regsOk (fieldN (w 1) 17 8) && decide (1 ≤ fieldN (w 1) 42 32) && decide (fieldN (w 1) 42 32 ≤ 1024)
  | 0x006 => fieldN (w 0) 63 32 % 16 == 0
  | 0x007 => zeroAt (w 0) 2 0
  | 0x010 => zeroAt (w 0) 2 0 && decide (fieldN (w 2) 2 0 ≤ 5)
  | 0x011 => decide (1 ≤ fieldN (w 0) 15 0)
  | 0x012 => decide (1 ≤ fieldN (w 0) 15 0) && decide (1 ≤ fieldN (w 0) 63 32)
  | 0x013 => zeroAt (w 0) 4 0 && decide (1 ≤ fieldN (w 1) 12 0) && decide (fieldN (w 1) 12 0 ≤ 4096)
  | 0x022 => zeroAt (w 0) 3 0 && decide (1 ≤ fieldN (w 1) 15 0) && decide (fieldN (w 1) 15 0 ≤ 4096)
  | 0x023 => zeroAt (w 1) 15 0
  | 0x024 => decide (1 ≤ (w 0).toNat) && decide ((w 0).toNat ≤ 400)
  | _ => true

/-- The value of a tag, when the packet gives it. -/
def fieldVal (fs : List Fld) (tag : Nat) : Option (List Byte) := (fs.find? (·.tag == tag)).map (·.val)

/-- The values of a tag that may stand more than once. -/
def fieldVals (fs : List Fld) (tag : Nat) : List (List Byte) := (fs.filter (·.tag == tag)).map (·.val)

/-- A completion signal (R346). -/
def signalOfVal (v : List Byte) : SignalRec :=
  { addr := dwordAt v 0, operand := dwordAt v 8,
    op := match fieldN (dwordAt v 16) 1 0 with | 0 => .set | 1 => .add | 2 => .sub | _ => .arrive }

/-- The packet's signal, when it could be parsed (R343): one SIGNAL field of the right form, in a packet whose type is known. -/
def signalOf (b : List Byte) : Option SignalRec :=
  match packetTags (pkType b) with
  | none => none
  | some _ => match (fieldsOf b).filter (·.tag == 0x00C) with
    | [f] => if f.fits && f.clean && f.val.length == 24 && reservedOk 0x00C f.val then some (signalOfVal f.val) else none
    | _ => none

/-- A packet carries AFTER or acts as it (R345). -/
def afterOf (b : List Byte) : Bool := actsAfter (pkType b) || (fieldsOf b).any fun f => f.tag == 0x00B && (packetTags (pkType b)).isSome

/-- A watched word (R346). -/
def watchOfVal (v : List Byte) : WatchRec :=
  let w := dwordAt v 16
  { addr := dwordAt v 0, operand := dwordAt v 8, cond := Cond.ofCode (fieldN w 2 0), uns := bitAt w 3, timeout := fieldN w 63 32 }

/-- The first of the four steps of R343 a packet fails, with the tag of the offending field; none passes. -/
def invalid (b : List Byte) : Option (Code × Nat) :=
  match packetTags (pkType b) with
  | none => some (.unknownType, 0)
  | some (mand, opt) =>
    let fs := fieldsOf b
    let known (t : Nat) : Option Nat := ((mand ++ opt).find? (·.1 == t)).map (·.2)
    let bad2 (f : Fld) : Bool := !f.fits || f.tag == 0 || !f.clean || (match known f.tag with
      | some n => f.val.length != n || !reservedOk f.tag f.val
      | none => false)
    match fs.find? bad2 with
    | some f => some (.malformed, f.tag)
    | none => match fs.find? (fun f => f.mand && (known f.tag).isNone) with
      | some f => some (.unknownField, f.tag)
      | none =>
        let ks := fs.filter fun f => (known f.tag).isSome
        match ks.find? (fun f => f.tag != 5 && f.tag != 6 && decide (1 < (ks.filter (·.tag == f.tag)).length)) with
        | some f => some (.malformed, f.tag)
        | none => match mand.find? (fun m => !(ks.any (·.tag == m.1))) with
          | some m => some (.malformed, m.1)
          | none => match ks.find? (fun f => !limitsOk f.tag f.val) with
            | some f => some (.malformed, f.tag)
            | none => none

/-- The role that a ROLE field declares, with its number (R349). -/
def roleOfVal (v : List Byte) : Nat × RoleDecl :=
  let w := dwordAt v 8
  (fieldN w 1 0, { entry := dwordAt v 0, prio := fieldN w 3 2, movable := bitAt w 4, regs := fieldN w 17 8, groups := fieldN w 42 32 })

/-- The values of a valid LAUNCH packet, or the field that breaks R350 or a limit that spans fields (R349). -/
def launchOfFields (fs : List Fld) : Except Nat LaunchParams :=
  let v (t : Nat) : List Byte := (fieldVal fs t).getD []
  let grid := v 1
  let res := dwordAt (v 4) 0
  let entry := dwordAt (v 2) 0
  let ng := leAt grid 6 2
  let regs := fieldN res 15 0
  let scratch := fieldN res 63 32
  let decls := (fieldVals fs 5).map roleOfVal
  let n := decls.length
  let roles := if n = 0 then [{ entry := entry, prio := 0, movable := false, regs := regs, groups := ng }]
    else (List.range n).filterMap fun i => (decls.find? (·.1 == i)).map (·.2)
  let stages := (fieldVals fs 6).map fun b => (fieldN (dwordAt b 0) 1 0, fieldN (dwordAt b 0) 63 32)
  let rolesOk : Bool := roles.length == max n 1 && decide (n ≤ 4) && roles.foldl (fun a r => a + r.groups) 0 == ng &&
    (match roles with | r :: _ => r.entry == entry && r.regs == regs | [] => false)
  let stagesOk : Bool := stages.all fun x => decide (x.1 + 1 < roles.length) && decide (x.2 + 16 ≤ scratch) && (stages.filter (·.1 == x.1)).length == 1
  if !rolesOk then .error 5
  else if !stagesOk then .error 6
  else .ok { nspans := leAt grid 0 4, nblocks := leAt grid 4 2, ngroups := ng, threads := leAt grid 8 4, data := dwordAt (v 2) 8,
             args := dwordAt (v 3) 0, tiles := fieldN res 23 16, scratch := scratch, roles := roles, stages := stages, trap := dwordAt (v 7) 0,
             barlimit := match fieldVal fs 8 with | some b => field (dwordAt b 0) 31 0 | none => 0x4000,
             backsight := dwordAt (v 9) 0, start := (fieldVal fs 0xA).map fun b => dwordAt b 0 }

/-- The values of a FIX packet (R415); WHEN is mandatory under TIME. -/
def fixOfFields (fs : List Fld) : Except Nat FixParams :=
  let v (t : Nat) : List Byte := (fieldVal fs t).getD []
  let byTime := bitAt (dwordAt (v 0x20) 8) 0
  if byTime ∧ (fieldVal fs 0x21).isNone then .error 0x21
  else .ok { n := dwordAt (v 0x20) 0, byTime := byTime, when_ := (fieldVal fs 0x21).map fun b => dwordAt b 0, list := dwordAt (v 0x22) 0,
             ranges := fieldN (dwordAt (v 0x22) 8) 15 0, node := field (dwordAt (v 0x23) 0) 23 0, offset := dwordAt (v 0x23) 8,
             rate := match fieldVal fs 0x24 with | some b => (dwordAt b 0).toNat | none => 400 }

/-- VALIDATION of a packet (R343): its values, or the code and tag it is rejected with. BADSIGNAL is not decided here. -/
def validate (b : List Byte) : Except (Code × Nat) Packet :=
  match invalid b with
  | some e => .error e
  | none =>
    let fs := fieldsOf b
    let v (t : Nat) : List Byte := (fieldVal fs t).getD []
    let watch := watchOfVal (v 0x10)
    let pack (body : PacketBody) : Except (Code × Nat) Packet := .ok { seq := pkSeq b, after := afterOf b, signal := signalOf b, body := body }
    match pkType b with
    | 1 => match launchOfFields fs with | .ok l => pack (.launch l) | .error t => .error (.malformed, t)
    | 2 => pack .signal
    | 3 => pack (.wait watch)
    | 4 => pack (.cond watch (fieldN (dwordAt (v 0x11) 0) 15 0))
    | 5 => pack (.loop watch (fieldN (dwordAt (v 0x12) 0) 15 0) (fieldN (dwordAt (v 0x12) 0) 63 32))
    | 6 => pack (.graph (dwordAt (v 0x13) 0) (fieldN (dwordAt (v 0x13) 8) 12 0))
    | 7 => pack .fence
    | 8 => match fixOfFields fs with | .ok f => pack (.fix f) | .error t => .error (.malformed, t)
    | _ => pack (.migrate (field (dwordAt (v 0x30) 0) 23 0) (fieldN (dwordAt (v 0x30) 8) 5 0))

end Sys2Proof.Machine
end

