-- ==== Sys2Proof/Machine/Launch.lean ====
section
/-! DEFINITION. Smooth weighted round robin (R41), the quota of a core (R364, R366), the placement of blocks and spans (R29, R30, R32, R335, R351), the start of groups
(R19, R68, R352), and migration waves (R38, R39). -/

namespace Sys2Proof.Machine

/-- A credit by key; one never kept is zero. -/
def creditOf (cs : List ((Nat × Nat) × Int)) (k : Nat × Nat) : Int := match cs.find? (fun c => c.1 == k) with | some c => c.2 | none => 0

/-- A credit stored; a zero is not kept. -/
def putCredit (cs : List ((Nat × Nat) × Int)) (k : Nat × Nat) (v : Int) : List ((Nat × Nat) × Int) :=
  let rest := cs.filter fun c => c.1 != k
  if v = 0 then rest else (k, v) :: rest

/-- One turn of smooth weighted round robin (R41) among contenders with their weights, in the order that breaks ties: the winner, and the credits after the turn. -/
def wrrTurn (cs : List ((Nat × Nat) × Int)) (who : List ((Nat × Nat) × Nat)) : Option ((Nat × Nat) × List ((Nat × Nat) × Int)) :=
  let total : Nat := who.foldl (fun a w => a + w.2) 0
  let cs := who.foldl (fun cs w => putCredit cs w.1 (creditOf cs w.1 + w.2)) cs
  match who with
  | [] => none
  | w :: ws =>
    let best := ws.foldl (fun b x => if creditOf cs b.1 < creditOf cs x.1 then x else b) w
    some (best.1, putCredit cs best.1 (creditOf cs best.1 - total))

/-- What a partition owns in each core of its placement (R364). -/
structure Quota where
  slotBase  : Nat
  slots     : Nat
  rows      : Nat
  scrBase   : Nat
  scrRows   : Nat
  tiles     : Nat
  deriving DecidableEq, Repr

/-- The fields of QUOTA (R364). -/
def quotaOf (p : Part) : Quota :=
  { slotBase := fieldN p.quota 5 0, slots := fieldN p.quota 11 6, rows := 8 * fieldN p.quota 24 18, scrBase := fieldN p.quota 33 25,
    scrRows := fieldN p.quota 43 34, tiles := fieldN p.quota 52 48 }

/-- Cluster c of the package belongs to the placement (R363). -/
def placed (p : Part) (cluster : Nat) : Bool := bitAt p.place cluster

/-- The allotment of the role that group i of a block starts in (R350), and the role's number. -/
def startRole (l : LaunchParams) (i : Nat) : Nat × RoleDecl :=
  let rec go : Nat → Nat → List RoleDecl → Nat × RoleDecl
    | _, _, [] => (0, { entry := 0, prio := 0, movable := false, regs := 8, groups := 0 })
    | n, base, d :: ds => if i < base + d.groups then (n, d) else go (n + 1) (base + d.groups) ds
  go 0 0 l.roles

/-- The headroom of a pool (R32, R351). -/
def headroom (l : LaunchParams) : Nat :=
  let regs := l.roles.map (·.regs)
  regs.foldl max 0 - regs.foldl min 512

/-- How many of `left` groups from group i on one core's whole quota takes (R29). -/
def shareFrom (q : Quota) (l : LaunchParams) (i left : Nat) : Nat :=
  let fits (n : Nat) : Bool :=
    decide (n ≤ q.slots) && decide ((List.range n).foldl (fun a k => a + (startRole l (i + k)).2.regs) 0 + headroom l ≤ q.rows) && decide (n * l.tiles ≤ q.tiles)
  ((List.range (min left q.slots)).filter fun n => fits (n + 1)).length

/-- The shares of a block's cores (R29): none when some group fits on no core. -/
def sharesFrom (q : Quota) (l : LaunchParams) : Nat → Nat → Nat → Option (List Nat)
  | _, _, 0 => some []
  | 0, _, _ + 1 => none
  | fuel + 1, i, left => match shareFrom q l i left with
    | 0 => none
    | n => (sharesFrom q l fuel (i + n) (left - n)).map (n :: ·)

/-- The shares of a block of a launch. -/
def shares (q : Quota) (l : LaunchParams) : Option (List Nat) := sharesFrom q l l.ngroups 0 l.ngroups

/-- Rows of the pool of core number k of a block's run, whose groups start at i (R351). -/
def poolSize (l : LaunchParams) (i n : Nat) : Nat := (List.range n).foldl (fun a k => a + (startRole l (i + k)).2.regs) 0 + headroom l

/-- Slots of a core that groups of a partition hold. -/
def State.slotsUsed (s : State) (p core : Nat) : List Nat := (s.groups.filter fun g => g.part == p && g.core == core).map (·.slot)

/-- The free slots of a core in the partition's range, lowest first. -/
def State.slotsFree (s : State) (p core : Nat) : List Nat :=
  let q := quotaOf (s.part p)
  let used := s.slotsUsed p core
  (List.range q.slots).filterMap fun i => if used.contains (q.slotBase + i) then none else some (q.slotBase + i)

/-- Register rows of a core that blocks of a partition hold: pools of runs, and rows of groups moved off their runs (R39, R351). -/
def State.rowsUsed (s : State) (p core : Nat) : Nat :=
  let pools := s.blocks.foldl (fun a b => if b.part = p ∧ resident b then
    (match poolIndex b core with | some i => a + b.poolRows.getD i 0 | none => a) else a) 0
  s.groups.foldl (fun a g => if g.part = p ∧ g.core = core then
    (match s.block? g.bid with
     | some b => if (poolIndex b core).isNone then a + s.reserve g else a
     | none => a) else a) pools

/-- Tile units of a core that groups of a partition hold. -/
def State.tilesUsed (s : State) (p core : Nat) : Nat :=
  s.groups.foldl (fun a g => if g.part = p ∧ g.core = core then a + g.tileCnt else a) 0

/-- Scratch rows lo to lo + n − 1 of a core are free of the partition's blocks. -/
def State.scratchFree (s : State) (p core lo n : Nat) : Bool :=
  s.blocks.all fun b => !(b.part == p && resident b && (poolIndex b core).isSome && decide (b.scratchRow < lo + n) && decide (lo < b.scratchRow + b.scratchRows))

/-- A core has room for a share (R29). -/
def State.coreRoom (s : State) (p : Nat) (l : LaunchParams) (core i n : Nat) : Bool :=
  let q := quotaOf (s.part p)
  decide (n ≤ (s.slotsFree p core).length) && decide (s.rowsUsed p core + poolSize l i n ≤ q.rows) && decide (s.tilesUsed p core + n * l.tiles ≤ q.tiles)

/-- The first group of each core of a run, with its share. -/
def runParts (sh : List Nat) : List (Nat × Nat × Nat) :=
  (sh.foldl (fun (acc : List (Nat × Nat × Nat) × Nat × Nat) n => (acc.1 ++ [(acc.2.1, acc.2.2, n)], acc.2.1 + 1, acc.2.2 + n)) ([], 0, 0)).1

/-- The lowest rows, the same on every core of a run, that are free for a block's scratch. -/
def State.scratchBase (s : State) (p first n rows : Nat) : Option Nat :=
  let q := quotaOf (s.part p)
  if rows = 0 then some q.scrBase
  else (List.range (q.scrRows + 1 - rows)).findSome? fun i =>
    let lo := q.scrBase + i
    if (List.range n).all fun k => s.scratchFree p (first + k) lo rows then some lo else none

/-- The lowest free run of a cluster for a block, with its scratch rows (R29). -/
def State.freeRun (s : State) (p : Nat) (l : LaunchParams) (cluster : Nat) : Option (Nat × List Nat × Nat) :=
  match shares (quotaOf (s.part p)) l with
  | none => none
  | some sh => (List.range (257 - sh.length)).findSome? fun c =>
    let first := cluster * 256 + c
    if (runParts sh).all fun x => s.coreRoom p l (first + x.1) x.2.1 x.2.2 then
      (s.scratchBase p first sh.length (l.scratch / 128)).map fun r => (c, sh, r)
    else none

/-- A launch can never run in its partition's quota and placement (R351). -/
def State.noFit (s : State) (p : Nat) (l : LaunchParams) : Bool :=
  let q := quotaOf (s.part p)
  match shares q l with
  | none => true
  | some sh => decide (256 < sh.length) || decide (q.scrRows < l.scratch / 128) ||
      !((List.range 4).any fun d => decide (l.nblocks ≤ ((List.range 16).filter fun c => placed (s.part p) (16 * d + c)).length))

/-- The lanes of a group at its start (R19): threads and helper lanes. -/
def startLanes (l : LaunchParams) (i : Nat) : Mask × Mask :=
  if i + 1 < l.ngroups then (0xFFFFFFFF, 0)
  else
    let t := l.threads - 32 * (l.ngroups - 1)
    (maskOf fun j => decide (j < t), maskOf fun j => decide (t ≤ j) && decide (j / 4 * 4 < t))

/-- A path with nothing in it (R82). -/
def pathZero : PathCtl := { seq := 0, count := 0, closed := [] }

/-- A GROUP AT ITS START (R19, R21, R23, R33, R68, R277). -/
def newGroup (l : Launch) (gid bid core slot span block i : Nat) (begun : Bool) : Group :=
  let (role, d) := startRole l.params i
  let (live, helpers) := startLanes l.params i
  let e : Entry := { entryFree with pc := d.entry, state := .runnable, own := live ||| helpers, ex := live ||| helpers }
  { gid := gid, lid := l.lid, bid := bid, part := l.part, core := core, slot := slot, span := span, block := block, group := i,
    ngroups := l.params.ngroups, nblocks := l.params.nblocks, nspans := l.params.nspans, rows := [],
    s := ((Vector.replicate 64 0).set 0 l.params.args).set 1 l.params.data, x := Vector.replicate 8 (Vector.replicate 32 0),
    pr := Vector.replicate 8 0, split := (Vector.replicate 4 entryFree).set 0 e, live := live, helpers := helpers, role := role, prio := d.prio,
    allot := d.regs, gang := 0, engerr := 0, errAsy := false, errTrv := false, errCis := false, errQnt := false, asy := pathZero,
    trv := pathZero, cisq := [], qntq := [], trapbase := l.params.trap, trapcause := 0, traplanes := 0, trappc := 0, trapinfo := 0,
    hsave := Vector.replicate 4 0, ss := false, hmode := false, stopped := 0, halt := false, halt280 := false, preHalt := false, park := .none, pair := none,
    xshufs := [], tileBase := slot * 16, tileCnt := l.params.tiles, mmas := [], matErr := [], begun := begun, holds := [], since := [],
    scrSince := [], stepReq := none, lines := [], rewind := none, hurt := [], region := [], rerun := none }

/-- A barrier nothing has reached (R48). -/
def barZero : Bar := { armed := false, age := 0, limit := 0, stalled := false }

/-- The groups of a core's share: numbers fresh, slots the lowest free ones. -/
def State.placeShare (s : State) (l : Launch) (bid core span block i n : Nat) (begun : Bool) : State :=
  (List.range n).foldl (fun s k =>
    match s.slotsFree l.part core with
    | slot :: _ =>
      let (gid, s) := s.fresh
      { s with groups := s.groups ++ [newGroup l gid bid core slot span block (i + k) begun] }
    | [] => s) s

/-- A BLOCK PLACED on a run of a cluster (R29, R32, R351). -/
def State.placeBlock (s : State) (l : Launch) (cluster span block : Nat) (run : Nat × List Nat × Nat) (begun : Bool) : State :=
  let (c, sh, scr) := run
  let (bid, s) := s.fresh
  let parts := runParts sh
  let s := parts.foldl (fun s x => s.placeShare l bid (cluster * 256 + c + x.1) span block x.2.1 x.2.2 begun) s
  let gids : List (Nat × Nat) := (s.groupsOf bid).map fun g => (g.group, g.gid)
  let b : Block :=
    { bid := bid, lid := l.lid, part := l.part, span := span, block := block, cluster := cluster, firstCore := c, ncores := sh.length,
      gids := gids, bars := List.replicate 16 barZero, barlimit := l.params.barlimit, pools := parts.map fun _ => headroom l.params,
      poolRows := parts.map fun x => poolSize l.params x.2.1 x.2.2, scratchRow := scr, scratchRows := l.params.scratch / 128,
      tilesPer := l.params.tiles, placedAt := s.time (cluster / 16), image := none, swapped := false }
  let s : State := { s with blocks := s.blocks ++ [b] }
  s.modLaunch l.lid fun x => { x with gids := x.gids ++ gids.map fun y => y.2 }

/-- The groups of a launch on a die may issue (R352): no START, or it has come. -/
def State.startCome (s : State) (l : LaunchParams) (die : Nat) : Bool :=
  match l.start with
  | none => true
  | some t => decide (t.toNat ≤ (s.time die).toNat)

/-- The blocks of a span placed on a die in increasing number (R30); none when one of them finds no room. -/
def State.placeSpan (s : State) (l : Launch) (die span : Nat) : Option State :=
  let begun := s.startCome l.params die
  let r := (List.range l.params.nblocks).foldl (fun (acc : Option (State × List Nat)) b => acc.bind fun (s, taken) =>
    ((List.range 16).findSome? fun c =>
      let cl := die * 16 + c
      if !placed (s.part l.part) cl || taken.contains cl then none
      else (s.freeRun l.part l.params cl).map fun run => (cl, run)).map fun (cl, run) => (s.placeBlock l cl span b run begun, cl :: taken)) (some (s, []))
  r.map fun (s, _) => s.modLaunch l.lid fun x =>
    { x with nextSpan := x.nextSpan + 1, late := x.late || (match l.params.start with | some t => decide (t.toNat < (s.time die).toNat) | none => false) }

/-- Free group slots of a partition on a die (R335). -/
def State.dieFree (s : State) (p die : Nat) : Nat :=
  (List.range 16).foldl (fun a c => if placed (s.part p) (die * 16 + c) then
    (List.range 256).foldl (fun a k => a + (s.slotsFree p (die * 4096 + c * 256 + k)).length) a else a) 0

/-- A group may be selected for a wave (R39). -/
def movable (g : Group) : Bool :=
  g.gang == 0 && g.mmas.isEmpty && g.asy.count == 0 && g.asy.closed.isEmpty && g.cisq.isEmpty

/-- No access of a group is under way in its core's L1 or from its core to a scratchpad, a bank or a home, and it has read no store that is not performed: its next access on another core
would not stay behind such a one (R11, R98). -/
def State.allPerformed (s : State) (gid : Nat) : Bool :=
  !((s.pends.any fun x => x.gid == gid || x.seen.contains gid) || (s.near.any fun x => x.gid == gid) || (s.reqs.any fun r => r.gid == gid || r.seen.contains gid) ||
    (s.txns.any fun t => t.req.gid == gid || t.req.seen.contains gid) || s.weir.any fun w => w.gid == gid)

/-- A sluice line of a partition on a core that is configured, pulsed or waited for (R269 to R272). -/
def State.slUsed (s : State) (p core : Nat) : List SluiceLine :=
  s.sluice.filter fun l => l.core == core && s.ownsSlot p (3 * l.line) && (l.owner.isSome || l.count != 0 || !l.waiters.isEmpty)

/-- Another group of the partition stands on a core. -/
def State.sharesCore (s : State) (g : Group) (core : Nat) : Bool := s.groups.any fun x => x.gid != g.gid && x.part == g.part && x.core == core

/-- No sluice line ties a group to its core (R11): none of its partition is in use there, or those in use are its own, name no slot but its own and have no other group waiting, and no
other group of the partition stands there that might pulse one or wait for it. -/
def State.slAlone (s : State) (g : Group) : Bool :=
  let used := s.slUsed g.part g.core
  used.isEmpty || (!s.sharesCore g g.core && used.all fun l =>
    l.owner == some g.gid && (slSrc l.cfg == 0 || slSslot l.cfg == g.slot) && (slTarget l.cfg == 0 || slTslot l.cfg == g.slot) && l.waiters.all (s.slMine g.gid))

/-- A core is as free of sluice lines in use as a moved group has to find it (R11); one that brings lines along stands there alone of its partition. -/
def State.slFree (s : State) (g : Group) (core : Nat) : Bool :=
  (s.slUsed g.part core).isEmpty && ((s.slUsed g.part g.core).isEmpty || !s.sharesCore g core)

/-- A group may be moved now: it runs (R38), may be selected, and its program cannot observe the move (R11): its accesses are performed, and no sluice line ties
it to its core (log 97). -/
def State.mayMove (s : State) (g : Group) : Bool := movable g && !g.halt && s.allPerformed g.gid && s.slAlone g

/-- Rows free to a group of a block on a core: its block's pool there, or, off the run, the partition's range. -/
def State.rowsFor (s : State) (g : Group) (core : Nat) : Nat :=
  match s.block? g.bid with
  | none => 0
  | some b => match poolIndex b core with
    | some i => b.pools.getD i 0
    | none => (quotaOf (s.part g.part)).rows - s.rowsUsed g.part core

/-- Rows that a group needs on a core: its allotment from its block's pool, or its reserve off the run. -/
def State.rowsNeeded (s : State) (g : Group) (core : Nat) : Nat :=
  match s.block? g.bid with
  | some b => if (poolIndex b core).isSome then g.allot else s.reserve g
  | none => g.allot

/-- A sluice line's configuration with a slot's new number in place of the old one (R270). -/
def slMoved (cfg : BitVec 20) (old new : Nat) : BitVec 20 :=
  let at_ (on : Bool) (x : Nat) : Nat := if on && x == old then new else x
  BitVec.ofNat 20 (slSrc cfg + at_ (slSrc cfg != 0) (slSslot cfg) * 2 ^ 4 + slTarget cfg * 2 ^ 10 + at_ (slTarget cfg != 0) (slTslot cfg) * 2 ^ 14)

/-- The whole state of a group, with its sluice lines and tiles, moved to another core and slot (R39); its lines name its new slot. -/
def State.relocate (s : State) (g : Group) (core slot : Nat) : State :=
  let s := s.modBlock g.bid fun b => movePool (movePool b g.core g.allot 0) core 0 g.allot
  let base := slot * 16
  let s : State := { s with
    tiles := s.tiles.map (fun t => if t.core = g.core ∧ g.tileBase ≤ t.unit ∧ t.unit < g.tileBase + g.tileCnt then
      { t with core := core, unit := t.unit - g.tileBase + base } else t),
    sluice := s.sluice.map fun l => if l.owner = some g.gid then { l with core := core, cfg := slMoved l.cfg g.slot slot } else l }
  s.modGroup g.gid fun g => { refetch g with core := core, slot := slot, tileBase := base }

/-- One move of a wave: allowed within the partition's ranges in one cluster, to a free slot with room (R38, R39). -/
def State.moveGroup (s : State) (p : Nat) (m : GroupMove) : Option State :=
  match s.group? m.gid with
  | none => none
  | some g =>
    let q := quotaOf (s.part p)
    if g.part = p ∧ s.mayMove g ∧ clusterOf g.core = clusterOf m.core ∧ g.core ≠ m.core ∧ (s.slotsFree p m.core).contains m.slot ∧
        s.rowsNeeded g m.core ≤ s.rowsFor g m.core ∧ s.tilesUsed p m.core + g.tileCnt ≤ q.tiles ∧ s.slFree g m.core then some (s.relocate g m.core m.slot)
    else none

/-- A group moved to the lowest slot of the lowest core of its cluster outside a run that takes it (R38). -/
def State.moveOff (s : State) (p : Nat) (g : Group) (first n : Nat) : Option State :=
  (List.range 256).findSome? fun k =>
    let core := clusterOf g.core * 256 + k
    if first ≤ core ∧ core < first + n then none
    else (s.slotsFree p core).head?.bind fun slot => s.moveGroup p { gid := g.gid, core := core, slot := slot }

/-- Groups moved off a core of a run until it has room for its share (R38). -/
def State.clearCore (s : State) (p : Nat) (l : LaunchParams) (first n : Nat) (x : Nat × Nat × Nat) : State :=
  (s.groups.filter fun g => g.core == first + x.1).foldl (fun s g =>
    if s.coreRoom p l (first + x.1) x.2.1 x.2.2 then s else (s.moveOff p g first n).getD s) s

/-- The wave in a cluster that opens a run for a block (R38): the lowest run that can be cleared (log 72). -/
def State.waveIn (s : State) (p : Nat) (l : LaunchParams) (cluster : Nat) : Option State :=
  match shares (quotaOf (s.part p)) l with
  | none => none
  | some sh => (List.range (257 - sh.length)).findSome? fun c =>
    let s' := (runParts sh).foldl (fun s x => s.clearCore p l (cluster * 256 + c) sh.length x) s
    if (s'.freeRun p l cluster).isSome then some s' else none

/-- A launch has had its one migration wave (R38). -/
def State.markWaved (s : State) (lid : Nat) : State := s.modLaunch lid fun x => { x with waved := true }

/-- A span placed on a die after the one wave of its launch in one of the die's clusters (R38). -/
def State.waveSpan (s : State) (l : Launch) (die : Nat) : Option State :=
  if l.waved then none
  else (List.range 16).findSome? fun c =>
    let cl := die * 16 + c
    if placed (s.part l.part) cl then (s.waveIn l.part l.params cl).bind fun s' => (s'.markWaved l.lid).placeSpan l die l.nextSpan else none

/-- The next span of a launch placed on the die with the most free slots among those that can take it, as they stand or after the one wave of the launch (R335, R38). -/
def State.dispatchSpan (s : State) (l : Launch) : Option State :=
  let cands := (List.range 4).filterMap fun d => ((s.placeSpan l d l.nextSpan).orElse fun _ => s.waveSpan l d).map fun s' => (d, s')
  match cands with
  | [] => none
  | c :: cs => some (cs.foldl (fun b x => if s.dieFree l.part b.1 < s.dieFree l.part x.1 then x else b) c).2

/-- A launch has spans left to place, and its partition runs (R335, R357). -/
def State.mayPlace (s : State) (l : Launch) : Bool := decide (l.nextSpan < l.params.nspans) && !l.killed && (s.part l.part).state == .run

/-- SPAN_DISPATCH (R29, R30, R335). -/
def execSpanDispatch (lid : Nat) (s : State) : Host.Outcome State Fault Refusal :=
  match s.launch? lid with
  | some l => if s.mayPlace l then .next ((s.dispatchSpan l).getD s) else .next s
  | none => .next s

/-- Groups of a launch whose START has come begin (R352). -/
def State.beginLaunch (s : State) (l : Launch) : State :=
  { s with groups := s.groups.map fun g => if g.lid = l.lid ∧ s.startCome l.params (dieOf g.core) then { g with begun := true } else g }

/-- LAUNCH_START_TIME (R352). -/
def execLaunchStartTime (lid : Nat) (s : State) : Host.Outcome State Fault Refusal :=
  match s.launch? lid with
  | some l => .next (s.beginLaunch l)
  | none => .next s

/-- MIGRATION_WAVE (R38, R39): one wave, with the moves that the distributor chooses, for a waiting launch that no die can take as things stand; it runs only where it opens the room, so that
fragmented slots alone were in the way, and the span is placed with it. -/
def execMigrationWave (lid : Nat) (moves : List GroupMove) (s : State) : Host.Outcome State Fault Refusal :=
  match s.launch? lid with
  | some l =>
    if !s.mayPlace l || l.waved || (List.range 4).any fun d => (s.placeSpan l d l.nextSpan).isSome then .next s
    else match moves.foldl (fun (acc : Option State) m => acc.bind fun s => s.moveGroup l.part m) (some s) with
      | none => .next s
      | some s' => .next (((s'.markWaved lid).dispatchSpan { l with waved := true }).getD s)
  | none => .next s

end Sys2Proof.Machine
end

