-- ==== Sys2Proof/Machine/Cp.lean ====
section
/-! DEFINITION. The command processor as a coherent agent (R336): its reads and writes of partition memory, completion signals and status (R347, R348), watched words (R346),
and the end of a packet (R345, R353). -/

namespace Sys2Proof.Machine

/-- Why an access of the command processor is not made: a line of it is not quiet (log 13), its page is still to be copied by a fix (R417), or there is no translation (R340). -/
inductive CpStop | wait | cow (page : Nat) | fault
  deriving DecidableEq, Repr

/-- An access of the command processor. -/
abbrev Cp := Except CpStop

/-- The place of an address of a partition (R15, R368): the command processor translates with the partition's tables. -/
def State.cpPlace (s : State) (p : Nat) (va : Dword) (n : Need) : Cp (Nat × Nat) :=
  if windowOf va ≠ some .global then .error .fault
  else match s.walk p va.toNat n with
    | .error _ => .error .fault
    | .ok l =>
      if n.w && l.cow then .error (.cow (pageOf l va))
      else if l.attr ≠ 1 ∧ !s.quiet (leafPa l va / 128) then .error .wait
      else .ok (l.attr, leafPa l va)

/-- What an access that is not made leaves: the page a write waits for is drained next (R417). -/
def State.heldUp (s : State) (p : Nat) : CpStop → State
  | .cow page => s.wantPage p page
  | _ => s

/-- An aligned double word read (R336); a poisoned one counts as one that cannot be read. -/
def State.cpRead (s : State) (p : Nat) (va : Dword) : Cp Dword := do
  let (attr, pa) ← s.cpPlace p va needR
  let gen := s.genOf p
  if s.peekPoison attr gen pa 8 then throw .fault
  pure (s.agentDword attr gen pa)

/-- Double words read from va on; each has free values of its own where what it reads is free (R371). -/
def State.cpReads (s : State) (p : Nat) (va : Dword) (n : Nat) : Cp (List Byte) := do
  let ws ← (List.range n).mapM fun i => State.cpRead { s with freeCtr := s.freeCtr + 128 * i } p (va + BitVec.ofNat 64 (8 * i))
  pure (ws.flatMap fun w => leBytes 8 w.toNat)

/-- What reads of the command processor leave at the homes of their lines (R76, R336): each is shared with the Binnacle's coherent agents, an owner's data brought home; update-only copies
of the tables on the way are recalled (R79). -/
def State.cpSeen (s : State) (p : Nat) (va : Dword) (n : Nat) : State :=
  (List.range n).foldl (fun s i =>
    let a := va + BitVec.ofNat 64 (8 * i)
    if i ≠ 0 ∧ a.toNat % 128 ≠ 0 then s
    else match s.cpPlace p a needR with
      | .error _ => s
      | .ok (attr, pa) =>
        let s := s.recallTables p a.toNat
        if attr = 1 then s else ((s.recallAt attr (s.genOf p) pa 8).shareLine (pa / 128)).noteGrant .home (pa / 128) .binnacle .s) s

/-- A double word written (R336). -/
def State.cpWrite (s : State) (p : Nat) (va : Dword) (v : Dword) : Cp State := do
  let (attr, pa) ← s.cpPlace p va needW
  pure ((s.recallTables p va.toNat).poke attr (s.genOf p) pa (leBytes 8 v.toNat) false)

/-- A write that is left out where it has no translation. -/
def State.cpTry (s : State) (p : Nat) (va : Dword) (v : Dword) : Cp State :=
  match s.cpWrite p va v with
  | .error .fault => .ok s
  | r => r

/-- A signal that R347 refuses: misaligned, or more than a SET outside device memory, be it in a window. -/
def State.badSignal (s : State) (p : Nat) (x : SignalRec) : Bool :=
  !zeroAt x.addr 3 0 || (x.op != .set && (windowOf x.addr != some .global || match s.walk p x.addr.toNat ⟨false, false, false⟩ with
    | .ok l => l.attr != 0
    | .error _ => true))

/-- A queue of a partition. -/
def State.queue? (s : State) (p q : Nat) : Option Queue := (s.part p).queues.find? (·.q == q)

/-- A queue changed in place. -/
def State.modQueue (s : State) (p q : Nat) (f : Queue → Queue) : State :=
  s.modPart p fun x => { x with queues := x.queues.map fun y => if y.q = q then f y else y }

/-- STATUS of a queue (R337, R348). -/
def State.queueStatus (s : State) (p q : Nat) (v : Dword) : Cp State :=
  match s.queue? p q with
  | some x => s.cpTry p (x.desc + 32) v
  | none => .ok s

/-- The status of an update of a malformed barrier (R86): the SEQ of the packet, and the CODE of CMDERR, to which R348 gives no number (log 75). -/
def cmdErrStatus (status : Dword) : Dword := BitVec.ofNat 64 (fieldN status 63 32 * 2 ^ 32 + Config.cmdErrCode.toNat)

/-- A COMPLETION SIGNAL of a packet of queue q acts (R347): status first, then the operation on VALUE at its home. An atomic on a poisoned unit writes nothing (R413). An arrival on a malformed
barrier leaves the word as it is, and STATUS of the queue says CMDERR, since the barrier takes no status (R86, log 75). -/
def State.signal (s : State) (p q : Nat) (x : SignalRec) (status : Dword) : Cp State := do
  if s.badSignal p x then return s
  let gen := s.genOf p
  match x.op with
  | .arrive => match s.cpPlace p x.addr needRW with
    | .ok (attr, pa) =>
      let (s, ans) := (s.recallTables p x.addr.toNat).tbarUpdate attr gen pa (.arrive (fieldN x.operand 47 0))
      if ans.bad then s.queueStatus p q (cmdErrStatus status) else pure s
    | .error .fault => pure s
    | .error e => throw e
  | .set =>
    let s ← s.cpTry p (x.addr + 8) status
    s.cpTry p x.addr x.operand
  | op =>
    let s ← s.cpTry p (x.addr + 8) status
    match s.cpPlace p x.addr needRW with
    | .ok (attr, pa) =>
      if (s.recallURange pa 8).cohPoison gen pa 8 then pure s
      else
        let v := s.agentDword attr gen pa
        pure (s.poke attr gen pa (leBytes 8 (if op = .add then v + x.operand else v - x.operand).toNat) false)
    | .error .fault => pure s
    | .error e => throw e

/-- The number of a queue state (R337). -/
def qstateNum : QState → Nat
  | .run => 0
  | .error => 1
  | .halted => 2

/-- STATE of a queue, in its descriptor and as the scheduler knows it (R337). -/
def State.queueState (s : State) (p q : Nat) (st : QState) : Cp State :=
  match s.queue? p q with
  | some x => (s.modQueue p q fun x => { x with st := st }).cpTry p (x.desc + 40) (BitVec.ofNat 64 (qstateNum st))
  | none => .ok s

/-- A monitor entry that a wait of the command processor holds is freed. -/
def State.freeCp (s : State) (w : CpWait) : State := match w.mon with | some id => s.freeMon id | none => s

/-- A queue goes to ERROR (R340, R346): nothing further starts. -/
def State.queueError (s : State) (p q : Nat) (seq : Word) (c : Code) : Cp State := do
  let s := match s.queue? p q with
    | some x => (match x.park with | some w => s.freeCp w | none => s).modQueue p q fun x => { x with park := none, raw := none }
    | none => s
  let s ← s.queueState p q .error
  s.queueStatus p q (statusWord seq 0 false c)

/-- A PACKET COMPLETES (R345, R347, R353): it is no longer open, and its signal acts. -/
def State.finishPacket (s : State) (p q pk : Nat) (sig : Option SignalRec) (status : Dword) : Cp State :=
  let s := s.modQueue p q fun x => { x with open_ := x.open_.filter (· != pk), block := if x.block = some pk then none else x.block }
  match sig with
  | some x => s.signal p q x status
  | none => .ok s

/-- One packet of an open loop's body has been passed (R346). -/
def passed (x : Queue) : Queue := { x with loop := x.loop.map fun l => { l with done := l.done + 1 } }

/-- RDIDX as read and in the descriptor (R337, R340). -/
def State.putRdidx (s : State) (p q : Nat) (v : Dword) : Cp State :=
  match s.queue? p q with
  | some x => (s.modQueue p q fun x => { x with rdidx := v }).cpTry p (x.desc + 24) v
  | none => .ok s

/-- A packet is REJECTED (R343): status to the queue and to the signal that could be parsed, but for BADSIGNAL (R347). -/
def State.rejectPacket (s : State) (p q : Nat) (raw : List Byte) (c : Code) (tag : Nat) : Cp State := do
  let v := statusWord (pkSeq raw) tag false c
  let s := s.modQueue p q fun x => passed { x with raw := none, nextPk := x.nextPk + 1 }
  let s ← s.queueStatus p q v
  match signalOf raw with
  | some x => if c = .badSignal then pure s else s.signal p q x v
  | none => pure s

/-- A launch of a packet of this queue is still being placed (R345). -/
def State.placing (s : State) (p q : Nat) : Bool :=
  s.launches.any fun l => l.part == p && l.q == q && l.node.isNone && !l.killed && decide (l.nextSpan < l.params.nspans)

/-- The order of starts allows the copied packet (R345), in a queue that may start packets (R338, R340, R357). -/
def State.inTurn (s : State) (p : Nat) (x : Queue) : Bool :=
  (s.part p).state == .run && x.st == .run && x.enabled && x.block.isNone && !s.placing p x.q &&
    (match x.raw with | some raw => !afterOf raw || x.open_.isEmpty | none => false)

/-- A MIGRATE of some queue of the partition waits to begin (R421). -/
def State.migrateWaits (s : State) (p : Nat) : Bool :=
  (s.part p).queues.any fun x => s.inTurn p x && (match x.raw with | some raw => pkType raw == 9 | none => false)

/-- The start condition of the copied packet: a MIGRATE waits until the partition has no fix, and holds every further FIX back (R421). -/
def State.mayStart (s : State) (p : Nat) (x : Queue) : Bool :=
  s.inTurn p x && (match x.raw with
    | some raw => if pkType raw = 9 then (s.part p).fixes.isEmpty else if pkType raw = 8 then !s.migrateWaits p else true
    | none => false)

/-- The scheduler thread that serves a queue (R335). -/
def threadOf (p q : Nat) : Nat := (p + q) % 4

/-- The queues that contend for a turn of a scheduler thread (R335), lowest number first. -/
def State.contenders (s : State) (t : Nat) : List ((Nat × Nat) × Nat) :=
  let all := (List.range 40).flatMap fun p => (s.part p).queues.filterMap fun x =>
    if threadOf p x.q = t ∧ s.mayStart p x then some ((p, x.q), 2 ^ x.prio) else none
  sortBy (fun a b => decide (a.1.2 < b.1.2 ∨ (a.1.2 = b.1.2 ∧ a.1.1 ≤ b.1.1))) all

/-- A queue takes its scheduler's turn (R335): the copied packet and the state with the credits moved on; none when the packet may not start or another queue's turn comes. -/
def State.takeTurn (s : State) (p q : Nat) : Option (List Byte × State) :=
  match (s.queue? p q).bind (·.raw), wrrTurn s.qcredits (s.contenders (threadOf p q)) with
  | some raw, some (w, cs) => if w = (p, q) then some (raw, { s with qcredits := cs }) else none
  | _, _ => none

/-- An aligned double word at a partition-physical address (R415). -/
def State.physRead (s : State) (p : Nat) (ipa : Nat) : Cp Dword :=
  match s.stage2 p ipa needR with
  | .error _ => .error .fault
  | .ok l =>
    let pa := l.at_ ipa
    let attr := fieldN l.pte 9 8
    if attr ≠ 1 ∧ !s.quiet (pa / 128) then .error .wait else .ok (s.agentDword attr (s.genOf p) pa)

/-- What reads of n bytes at partition-physical addresses leave at the homes of their lines (R76, R79): update-only copies recalled, of the tables on the way too. -/
def State.physSeen (s : State) (p ipa n : Nat) : State :=
  (List.range ((ipa % 128 + n + 127) / 128)).foldl (fun s i =>
    let a := if i = 0 then ipa else ipa / 128 * 128 + 128 * i
    match s.stage2 p a ⟨false, false, false⟩ with
    | .error _ => s
    | .ok l =>
      let pa := l.at_ a
      (s.recallTables2 p a).recallAt (fieldN l.pte 9 8) (s.genOf p) pa (min (128 - pa % 128) (ipa + n - a))) s

/-- The ranges of a fix set: base and pages (R415). -/
def State.fixRanges (s : State) (p : Nat) (f : FixParams) : Cp (List (Nat × Nat)) :=
  (List.range f.ranges).mapM fun i => do
    let base ← s.physRead p (f.list.toNat + 16 * i)
    let n ← s.physRead p (f.list.toNat + 16 * i + 8)
    pure (base.toNat, n.toNat)

/-- The pages of ranges, in range order (R417). -/
def fixPages (rs : List (Nat × Nat)) : List Nat := rs.flatMap fun r => (List.range r.2).map fun k => r.1 + 65536 * k

/-- Ranges that overlap, are misaligned, or name pages that stage 2 does not map as device memory (R415). -/
def State.badRanges (s : State) (p : Nat) (rs : List (Nat × Nat)) : Bool :=
  let pages := fixPages rs
  rs.any (fun r => r.1 % 65536 != 0) || pages.any (fun a => decide (1 < (pages.filter (· == a)).length)) ||
    pages.any fun a => match s.stage2 p a ⟨false, false, false⟩ with
      | .ok l => fieldN l.pte 9 8 != 0
      | .error _ => true

/-- Why a copied packet is rejected when its start condition holds (R343, R346, R347, R351, R415); none is a packet that starts. -/
def State.rejectReason (s : State) (p : Nat) (x : Queue) (raw : List Byte) : Cp (Option (Code × Nat)) :=
  match validate raw with
  | .error e => .ok (some e)
  | .ok pk =>
    if (match pk.signal with | some y => s.badSignal p y | none => false) then .ok (some (.badSignal, 0x00C))
    else match pk.body with
      | .loop .. => .ok (if x.loop.isSome then some (.malformed, 0x012) else none)
      | .launch l => .ok (if s.noFit p l then some (.nofit, 0) else none)
      | .fix f => match s.fixRanges p f with
        | .error .fault => .ok (some (.fault, 0x022))
        | .error e => .error e
        | .ok rs => .ok (if s.badRanges p rs then some (.malformed, 0x022) else none)
      | _ => .ok none

/-- What the reads of a copied packet leave, beside its ring's: a FIX reads its list of ranges (R415). -/
def State.listSeen (s : State) (p : Nat) (raw : List Byte) : State :=
  match validate raw with
  | .ok pk => match pk.body with
    | .fix f => s.physSeen p f.list.toNat (16 * f.ranges)
    | _ => s
  | .error _ => s

/-- The end of a command processor's step: made, or not enabled; one whose accesses cannot translate puts the queue in ERROR (R340), under the SEQ of the packet it acts for (R348). -/
def cpEndSeq (s : State) (p q : Nat) (seq : Word) (r : Cp State) : Host.Outcome State Fault Refusal :=
  match r with
  | .ok s' => .next s'.settle
  | .error .fault => match s.queueError p q seq .fault with
    | .ok s' => .next s'
    | .error e => .next (s.heldUp p e)
  | .error e => .next (s.heldUp p e)

/-- The end of a step that acts for no packet. -/
def cpEnd (s : State) (p q : Nat) (r : Cp State) : Host.Outcome State Fault Refusal := cpEndSeq s p q 0 r

/-- A packet starts (R335, R345): it takes its turn, passes validation and gets its number; `go` says what one of its type does, none for another type. A packet that is to be
rejected is left for QUEUE_PACKET_READ. -/
def startPacket (s : State) (p q : Nat) (go : State → Nat → Packet → Option (Cp State)) : Host.Outcome State Fault Refusal :=
  match s.takeTurn p q, s.queue? p q with
  | some (raw, s1), some x => match s1.rejectReason p x raw, validate raw with
    | .ok none, .ok pk =>
      let s1 := s1.modQueue p q fun x => passed { x with raw := none, nextPk := x.nextPk + 1, open_ := x.open_ ++ [x.nextPk] }
      match go s1 x.nextPk pk with
      | some r => cpEndSeq s p q pk.seq r
      | none => .next s
    | _, _ => .next s
  | _, _ => .next s

/-- A watched word's test on a value (R346, R354). -/
def wordTest (w : WatchRec) (v : Dword) : Bool := compareWord w.cond true w.uns v w.operand

/-- A wait on a word begins (R89, R340, R346): a monitor entry at its home, or, without room or outside device memory, a re-read after 1 µs. -/
def State.watch (s : State) (p : Nat) (va : Dword) (t : MonTest) (who : Waiter) (deadline : Option Nat) : Cp (State × CpWait) := do
  let (attr, pa) ← s.cpPlace p va needR
  if attr = 0 ∧ s.monRoom .global pa then
    let (id, s) := s.addMon .global pa p t who
    pure (s, { mon := some id, deadline := deadline, reread := none })
  else pure (s, { mon := none, deadline := deadline, reread := some (s.nowNs + 1000) })

/-- What a wait may do now: read its word again because its monitor was hit or its time to re-read has come. -/
def State.mayReread (s : State) (w : CpWait) (timer : Bool) : Bool :=
  match w.mon, w.reread with
  | some id, _ => !timer && s.mons.any fun m => m.id == id && (s.hitOf m).isSome
  | none, some t => timer && decide (t ≤ s.nowNs)
  | none, none => !timer

/-- A wait of a queue or a run on a predicate word (R346). -/
def watchTest (w : WatchRec) : MonTest := .cmp w.cond true w.uns w.operand

end Sys2Proof.Machine
end

