-- ==== Sys2Proof/Machine/Command.lean ====
section
/-! DEFINITION. Queues and the packets that act at once (R337 to R340, R345, R346, R351, R353): enabling, reading, LAUNCH, SIGNAL, WAIT, COND, LOOP, FENCE, and the completion
of a launch. -/

namespace Sys2Proof.Machine

/-- A queue as its descriptor gives it (R337, R338), with what started packets of an earlier use of the number still need. -/
def queueOf (q : Nat) (desc : Dword) (w : Nat → Dword) (old : Option Queue) (st : QState) : Queue :=
  { q := q, desc := desc, descPa := none, enabled := true, ring := w 0 &&& ~~~0xFFF, log2 := fieldN (w 1) 4 0, prio := fieldN (w 1) 9 8, rdidx := w 3, readAt := w 3,
    st := st, park := none, raw := none, nextPk := match old with | some o => o.nextPk | none => 0,
    open_ := match old with | some o => o.open_ | none => [], block := old.bind (·.block), waitp := old.bind (·.waitp), skip := 0, loop := none,
    runs := match old with | some o => o.runs | none => [] }

/-- A descriptor breaks R338: a reserved bit, or a ring size out of range. -/
def badDescriptor (w : Nat → Dword) : Bool :=
  !zeroAt (w 0) 11 0 || !zeroAt (w 1) 63 10 || !zeroAt (w 1) 7 5 || !zeroAt (w 5) 63 2 || decide (fieldN (w 1) 4 0 < 12) || decide (30 < fieldN (w 1) 4 0)

/-- The scheduler's monitor entry on ENABLE (R338): kept, and armed anew for the word as it stands. -/
def State.enableMon (s : State) (p : Nat) (pa : Nat) (v : Dword) : State :=
  let mine (m : Mon) : Bool := m.who == .queue p 64
  if s.mons.any fun m => mine m && m.hit.isNone && m.addr == pa then s
  else
    let s : State := { s with mons := s.mons.filter fun m => !mine m }
    if s.monRoom .global pa then (s.addMon .global pa p (.changed v) (.queue p 64)).2 else s

/-- QUEUE_ENABLE (R338): ENABLE is read, and queue q taken up from its descriptor or closed to further packets. -/
def execQueueEnable (p q : Nat) (s : State) : Host.Outcome State Fault Refusal :=
  let x := s.part p
  let tab := x.qtabUsed
  if 40 ≤ p ∨ 64 ≤ q ∨ x.state ≠ .run then .next s
  else match s.cpPlace p tab needR with
    | .error _ => .next s
    | .ok (attr, pa) =>
      let v := s.agentDword attr x.gen pa
      let s := (if attr = 0 then s.enableMon p pa v else s).cpSeen p tab 1
      let old := s.queue? p q
      let on := match old with | some o => o.enabled | none => false
      if bitAt v q = on then .next s
      else if !bitAt v q then
        let s := match old.bind (·.park) with | some w => s.freeCp w | none => s
        .next (s.modQueue p q fun o => { o with enabled := false, park := none })
      else
        let desc := tab + 64 + 64 * BitVec.ofNat 64 q
        let put (n : Queue) : State := s.modPart p fun x => { x with queues := (x.queues.filter fun y => !(y.q == q)) ++ [n] }
        match s.cpPlace p desc needR, s.cpReads p desc 8 with
        | .ok (dattr, dpa), .ok bs =>
          let w (i : Nat) : Dword := dwordAt bs (8 * i)
          let n := { queueOf q desc w old .run with descPa := if dattr = 0 then some dpa else none }
          let put (n : Queue) : State := (put n).cpSeen p desc 8
          if dattr ≠ 0 ∨ attr ≠ 0 then cpEnd s p q ((put n).queueError p q 0 .fault)
          else if badDescriptor w then cpEnd s p q ((put n).queueError p q 0 .malformed)
          else .next (put n)
        | .error .fault, _ => cpEnd s p q ((put (queueOf q desc (fun _ => 0) old .run)).queueError p q 0 .fault)
        | _, .error .fault => cpEnd s p q ((put (queueOf q desc (fun _ => 0) old .run)).queueError p q 0 .fault)
        | _, _ => .next s

/-- Byte k of a queue's stream (R337). -/
def ringAt (x : Queue) (k : Dword) : Dword := x.ring + BitVec.ofNat 64 (k.toNat % 2 ^ x.log2)

/-- The double word at byte k of the stream: each of its bytes wraps around the end of the ring by itself, so that an RDIDX which is no multiple of 8 may split it (R337). -/
def State.ringWord (s : State) (p : Nat) (x : Queue) (k : Dword) : Cp Dword :=
  if k.toNat % 8 = 0 then s.cpRead p (ringAt x k)
  else do
    let bs ← (List.range 8).mapM fun i => do
      let a := ringAt x (k + BitVec.ofNat 64 i)
      let w ← s.cpRead p (a &&& ~~~7)
      pure (BitVec.ofNat 8 (w.toNat / 256 ^ (a.toNat % 8)))
    pure (BitVec.ofNat 64 (ofLe bs))

/-- What reading it leaves at its lines (R76, R79). -/
def State.ringSeen (s : State) (p : Nat) (x : Queue) (k : Dword) : State :=
  if k.toNat % 8 = 0 then s.cpSeen p (ringAt x k) 1 else (s.cpSeen p (ringAt x k &&& ~~~7) 1).cpSeen p (ringAt x (k + 7) &&& ~~~7) 1

/-- The queue parks on WRIDX (R340). -/
def State.parkQueue (s : State) (p : Nat) (x : Queue) (t : MonTest) : Cp State := do
  let (s, w) ← s.watch p (x.desc + 16) t (.queue p x.q) none
  pure (s.modQueue p x.q fun x => { x with park := some w })

/-- The scheduler serves a queue's ring (R339, R340): the next packet is copied, or skipped (R346), or the queue parks on WRIDX. -/
def State.readRing (s : State) (p : Nat) (x : Queue) : Cp State := do
  let s := match x.park with | some w => s.freeCp w | none => s
  let s := s.modQueue p x.q fun x => { x with park := none }
  let wr ← s.cpRead p (x.desc + 16)
  let s := s.cpSeen p (x.desc + 16) 1
  if 2 ^ x.log2 < (wr - x.rdidx).toNat then s.queueError p x.q 0 .overflow
  else if wr = x.readAt then s.parkQueue p x (.changed wr)
  else
    let h ← s.ringWord p x x.readAt
    let s := s.ringSeen p x x.readAt
    let len := fieldN h 31 16
    if len = 0 then s.queueError p x.q (field h 63 32) .malformed
    else if (wr - x.readAt).toNat < 8 * len then s.parkQueue p x (.changed wr)
    else
      let ws ← (List.range len).mapM fun i => s.ringWord p x (x.readAt + BitVec.ofNat 64 (8 * i))
      let s := (List.range len).foldl (fun s i => s.ringSeen p x (x.readAt + BitVec.ofNat 64 (8 * i))) s
      let next := x.readAt + BitVec.ofNat 64 (8 * len)
      let s := s.modQueue p x.q fun x =>
        if x.skip = 0 then { x with raw := some (ws.flatMap fun w => leBytes 8 w.toNat), readAt := next }
        else passed { x with skip := x.skip - 1, readAt := next }
      if x.loop.isSome then pure s else s.putRdidx p x.q next

/-- SEQ of the packet whose header the scheduler reads (R348); 0 while it can read none. -/
def State.ringSeq (s : State) (p : Nat) (x : Queue) : Word :=
  match s.cpRead p (x.desc + 16), s.ringWord p x x.readAt with
  | .ok wr, .ok h => if wr = x.readAt then 0 else field h 63 32
  | _, _ => 0

/-- A loop's body has been read to its end (R346). -/
def bodyRead (x : Queue) : Bool := match x.loop with | some l => decide (l.body ≤ l.done + if x.raw.isSome then 1 else 0) | none => false

/-- QUEUE_PACKET_READ (R340, R343): the next packet is copied, or the copied one rejected when its turn comes. -/
def execQueuePacketRead (p q : Nat) (s : State) : Host.Outcome State Fault Refusal :=
  match s.queue? p q with
  | none => .next s
  | some x =>
    if (s.part p).state ≠ .run ∨ x.st ≠ .run ∨ !x.enabled then .next s
    else match x.raw with
      | some raw => match s.takeTurn p q with
        | none => .next s
        | some (_, s1) => match s1.rejectReason p x raw with
          | .ok (some (c, t)) => cpEnd s p q ((s1.listSeen p raw).rejectPacket p q raw c t)
          | _ => .next s
      | none =>
        if bodyRead x || !(match x.park with | some w => s.mayReread w false | none => true) then .next s
        else cpEndSeq s p q (s.ringSeq p x) (s.readRing p x)

/-- A launch no span of which has been placed. -/
def newLaunch (lid p q pk : Nat) (seq : Word) (l : LaunchParams) (sig : Option SignalRec) (node : Option (Nat × Nat)) : Launch :=
  { lid := lid, part := p, q := q, seq := seq, pk := pk, params := l, nextSpan := 0, killed := false, late := false, waved := false, signal := sig,
    node := node, gids := [] }

/-- LAUNCH (R345, R349 to R351): the launch waits for its spans to be placed. -/
def execLaunch (p q : Nat) (s : State) : Host.Outcome State Fault Refusal :=
  startPacket s p q fun s n pk => match pk.body with
    | .launch l =>
      let (lid, s) := s.fresh
      some (.ok { s with launches := s.launches ++ [newLaunch lid p q n pk.seq l pk.signal none] })
    | _ => none

/-- The status of a packet that has done its work (R348). -/
def doneStatus (seq : Word) : Dword := statusWord seq 0 false .done

/-- SIGNAL (R344, R347). -/
def execSignal (p q : Nat) (s : State) : Host.Outcome State Fault Refusal :=
  startPacket s p q fun s n pk => match pk.body with
    | .signal => some (s.finishPacket p q n pk.signal (doneStatus pk.seq))
    | _ => none

/-- FENCE (R344, R346). -/
def execFencePacket (p q : Nat) (s : State) : Host.Outcome State Fault Refusal :=
  startPacket s p q fun s n pk => match pk.body with
    | .fence => some (s.finishPacket p q n pk.signal (doneStatus pk.seq))
    | _ => none

/-- A WAIT's word is read (R346): it completes, or waits on. -/
def State.waitRead (s : State) (p q : Nat) (w : WaitRun) : Cp State := do
  let s := s.freeCp w.on
  let v ← s.cpRead p w.watch.addr
  let s := s.cpSeen p w.watch.addr 1
  if wordTest w.watch v then
    (s.modQueue p q fun x => { x with waitp := none }).finishPacket p q w.pk w.signal (doneStatus w.seq)
  else
    let (s, on) ← s.watch p w.watch.addr (watchTest w.watch) (.queue p q) w.on.deadline
    pure (s.modQueue p q fun x => { x with waitp := some { w with on := on } })

/-- The time a WAIT gives up (R346). -/
def State.deadlineOf (s : State) (us : Nat) : Option Nat := if us = 0 then none else some (s.nowNs + 1000 * us)

/-- WAIT (R346): it starts, or its word is read again after its monitor was hit. -/
def execWait (p q : Nat) (s : State) : Host.Outcome State Fault Refusal :=
  match (s.queue? p q).bind (·.waitp) with
  | some w =>
    if (s.part p).state == .run && s.mayReread w.on false then cpEndSeq s p q w.seq (s.waitRead p q w) else .next s
  | none => startPacket s p q fun s n pk => match pk.body with
    | .wait w =>
      let s := s.modQueue p q fun x => { x with block := some n }
      let on : CpWait := { mon := none, deadline := s.deadlineOf w.timeout, reread := none }
      some (s.waitRead p q { pk := n, seq := pk.seq, signal := pk.signal, watch := w, on := on })
    | _ => none

/-- A deadline has passed. -/
def State.passedBy (s : State) (w : CpWait) : Bool := match w.deadline with | some t => decide (t ≤ s.nowNs) | none => false

/-- WAIT_TIMEOUT (R346): the queue goes to ERROR. -/
def execWaitTimeout (p q : Nat) (s : State) : Host.Outcome State Fault Refusal :=
  match (s.queue? p q).bind (·.waitp) with
  | some w =>
    if (s.part p).state == .run && s.passedBy w.on then
      cpEnd s p q (((s.freeCp w.on).modQueue p q fun x =>
        { x with waitp := none, block := none, open_ := x.open_.filter (· != w.pk) }).queueError p q w.seq .timeout)
    else .next s
  | none => .next s

/-- COND (R346). -/
def execCond (p q : Nat) (s : State) : Host.Outcome State Fault Refusal :=
  startPacket s p q fun s n pk => match pk.body with
    | .cond w skip => some do
      let v ← s.cpRead p w.addr
      let s := s.cpSeen p w.addr 1
      let s := if wordTest w v then s else s.modQueue p q fun x => { x with skip := skip }
      s.finishPacket p q n pk.signal (doneStatus pk.seq)
    | _ => none

/-- The test after a loop's body (R346). -/
def State.loopTest (s : State) (p q : Nat) (l : QLoop) : Cp State := do
  let v ← s.cpRead p l.watch.addr
  let s := s.cpSeen p l.watch.addr 1
  if wordTest l.watch v ∧ l.execs + 1 < l.count then
    pure (s.modQueue p q fun x => { x with readAt := l.start, loop := some { l with done := 0, execs := l.execs + 1 } })
  else match s.queue? p q with
    | none => pure s
    | some x =>
      let s ← (s.modQueue p q fun x => { x with loop := none }).putRdidx p q x.readAt
      s.finishPacket p q l.pk l.signal (doneStatus l.seq)

/-- LOOP (R346): it opens, or, once every packet of its body has completed, tests. -/
def execLoop (p q : Nat) (s : State) : Host.Outcome State Fault Refusal :=
  match s.queue? p q with
  | none => .next s
  | some x => match x.loop with
    | some l =>
      if (s.part p).state == .run && x.st == .run && x.raw.isNone && decide (l.body ≤ l.done) && x.open_.isEmpty && !s.placing p q then
        cpEndSeq s p q l.seq (s.loopTest p q l)
      else .next s
    | none => startPacket s p q fun s n pk => match pk.body with
      | .loop w body count =>
        let l (at_ : Dword) : QLoop :=
          { pk := n, seq := pk.seq, signal := pk.signal, watch := w, start := at_, body := body, count := count, done := 0, execs := 0 }
        some (.ok (s.modQueue p q fun x => { x with open_ := x.open_.filter (· != n), loop := some (l x.readAt) }))
      | _ => none

/-- Engine commands of a launch's groups are outstanding (R15, R353). -/
def State.engineBusy (s : State) (gids : List Nat) : Bool :=
  (s.asys.any fun a => gids.contains a.gid) || (s.travs.any fun t => gids.contains t.gid) || (s.qnts.any fun c => gids.contains c.gid) ||
    (s.chans.any fun c => c.chains.any fun h => gids.contains h.gid) || s.products.any fun x => x.members.any fun m => gids.contains m.gid

/-- Every block of a launch has ended, and so has every engine command of its groups: the launch completes (R353), though its signal may have writes still to wait for. -/
def State.launchEnded (s : State) (l : Launch) : Bool :=
  (l.killed || decide (l.params.nspans ≤ l.nextSpan)) && !(s.blocks.any fun b => b.lid == l.lid) && !s.engineBusy l.gids

/-- It has ended and its groups' writes have been performed, so that its signal may be written (R353). -/
def State.launchOver (s : State) (l : Launch) : Bool := s.launchEnded l && l.gids.all fun g => !s.unperformed g true true

/-- Every dirty line of every L1 reaches its home, so that a launch's writes are performed at system scope (R109, R353). -/
def State.cleanAll (s : State) : State := s.l1.foldl (fun s l => s.cleanLine l) s

/-- A graph run of a queue changed in place. -/
def State.modRun (s : State) (p q r : Nat) (f : GRun → GRun) : State :=
  s.modQueue p q fun x => { x with runs := x.runs.map fun y => if y.r = r then f y else y }

/-- LAUNCH_COMPLETE (R353, R358, R359): signal and status; a launch of a graph node completes its node (R356). -/
def execLaunchComplete (lid : Nat) (s : State) : Host.Outcome State Fault Refusal :=
  match s.launch? lid with
  | none => .next s
  | some l =>
    if !s.launchOver l then .next s
    else
      let s1 := s.cleanAll
      let s1 : State := { s1 with launches := s1.launches.filter fun x => !(x.lid == lid) }
      let v := statusWord l.seq 0 l.late (if l.killed then .killed else .done)
      match l.node with
      | none => cpEnd s l.part l.q (s1.finishPacket l.part l.q l.pk l.signal v)
      | some (r, i) =>
        let s1 := s1.modRun l.part l.q r fun x => { x with open_ := x.open_.filter (· != i) }
        cpEnd s l.part l.q (match l.signal with | some y => s1.signal l.part l.q y v | none => .ok s1)

end Sys2Proof.Machine
end

