-- ==== Sys2Proof/Machine/Graph.lean ====
section
/-! DEFINITION. Graphs (R354 to R356): a run's checks, its nodes, its end, and the re-reads of waits that hold no monitor entry (R340, R346). -/

namespace Sys2Proof.Machine

/-- A node (R354). -/
def nodeOf (b : List Byte) : GNode :=
  let w := dwordAt b 0
  { count := fieldN w 63 32, link := fieldN w 31 16, uns := bitAt w 12, code := fieldN w 11 9, after := bitAt w 8, kind := fieldN w 7 0,
    addr := dwordAt b 8, operand := dwordAt b 16 }

/-- The bits of a node that its kind does not allow (R354, R355). -/
def nodeBits (b : List Byte) : Bool :=
  let n := nodeOf b
  let w := dwordAt b 0
  decide (5 < n.kind) || !zeroAt w 15 13 || dwordAt b 24 != 0 || (n.count != 0 && n.kind != 5 && n.kind != 3) || (n.link != 0 && n.kind != 5 && n.kind != 4) ||
    ((n.kind == 3 || n.kind == 4 || n.kind == 5) && decide (5 < n.code)) || (n.kind == 2 && decide (3 < n.code))

/-- The loop bodies of nodes 0 to i − 1, first and last node. -/
def bodiesBefore (ns : List GNode) (i : Nat) : List (Nat × Nat) :=
  (List.range i).filterMap fun j => match ns[j]? with | some n => if n.kind = 5 then some (n.link, j) else none | none => none

/-- Node i breaks a rule of R355, `last` being the END: a loop that ends above, never runs, overlaps another without nesting or nests deeper than four; a COND that points
back or past the END. -/
def nodeBad (ns : List GNode) (last i : Nat) (n : GNode) : Bool :=
  let before := bodiesBefore ns i
  let around (m : Nat) : Nat := (before.filter fun b => decide (b.1 ≤ m) && decide (m ≤ b.2)).length
  match n.kind with
  | 5 => decide (i ≤ n.link) || n.count == 0 || (before.any fun b => decide (b.1 < n.link) && decide (n.link ≤ b.2)) ||
      (List.range i).any fun m => decide (n.link ≤ m) && decide (4 ≤ around m)
  | 4 => decide (n.link ≤ i) || decide (last < n.link)
  | _ => false

/-- The checks at the start of a run (R355): the nodes up to the first END, or the index of the node that breaks them. -/
def graphNodes (bs : List (List Byte)) : Except Nat (List GNode) :=
  let ns := bs.map nodeOf
  match ns.findIdx? (fun n => n.kind == 0) with
  | none => .error ((bs.findIdx? nodeBits).getD (bs.length - 1))
  | some last =>
    let upto := ns.take (last + 1)
    match (bs.take (last + 1)).findIdx? nodeBits, (List.range (last + 1)).find? (fun i => match upto[i]? with | some n => nodeBad upto last i n | none => false) with
    | some i, some j => .error (min i j)
    | some i, none => .error i
    | none, some j => .error j
    | none, none => .ok upto

/-- A run as it begins (R355). -/
def newRun (r : Nat) (seq : Word) (sig : Option SignalRec) (ns : List GNode) : GRun :=
  { r := r, seq := seq, signal := sig, nodes := ns, pos := 0, runs := ns.map fun _ => 0, open_ := [], waiting := none, result := none }

/-- GRAPH (R355): the nodes are copied and checked, and the run begins or ends with GRAPHERR. DESIGN CHOICE (log 76): a reserved bit in a node ends the packet with GRAPHERR, as R355 says, where R6 calls the same end CMDERR. -/
def execGraph (p q : Nat) (s : State) : Host.Outcome State Fault Refusal :=
  startPacket s p q fun s n pk => match pk.body with
    | .graph nodes count => some (
      match (List.range count).mapM (fun i => s.cpReads p (nodes + BitVec.ofNat 64 (32 * i)) 4) with
      | .error .fault => s.finishPacket p q n pk.signal (statusWord pk.seq 0 false .fault)
      | .error e => .error e
      | .ok bs => match graphNodes bs with
        | .error i => s.finishPacket p q n pk.signal (statusWord pk.seq i false .graphErr)
        | .ok ns => .ok (((List.range count).foldl (fun s i => s.cpSeen p (nodes + BitVec.ofNat 64 (32 * i)) 4) s).modQueue p q fun x => { x with runs := x.runs ++ [newRun n pk.seq pk.signal ns] }))
    | _ => none

/-- A run of a queue. -/
def State.run? (s : State) (p q r : Nat) : Option GRun := (s.queue? p q).bind fun x => x.runs.find? (·.r == r)

/-- The run ends once every started node has completed (R355, R356, R359): the packet completes. -/
def State.endRun (s : State) (p q : Nat) (g : GRun) (status : Dword) : Cp State :=
  (s.modQueue p q fun x => { x with runs := x.runs.filter fun y => y.r != g.r }).finishPacket p q g.r g.signal status

/-- The status a run ends with. -/
def runStatus (g : GRun) : Dword :=
  match g.result with
  | some (code, i) => BitVec.ofNat 64 (g.seq.toNat * 2 ^ 32 + i % 2 ^ 15 * 2 ^ 17 + code)
  | none => doneStatus g.seq

/-- A run ends with a code and a node's index: it starts no further node (R355, R356). -/
def State.failRun (s : State) (p q : Nat) (g : GRun) (c : Code) (i : Nat) : Cp State :=
  let s := match g.waiting with | some w => s.freeCp w | none => s
  let g := { g with waiting := none, result := some (c.num, i) }
  if g.open_.isEmpty then s.endRun p q g (runStatus g) else .ok (s.modRun p q g.r fun _ => g)

/-- A LAUNCH node of a run is still being placed (R345, R356). -/
def State.nodePlacing (s : State) (p q r : Nat) : Bool :=
  s.launches.any fun l => l.part == p && l.q == q && (match l.node with | some (r', _) => r' == r | none => false) && !l.killed &&
    decide (l.nextSpan < l.params.nspans)

/-- The node a run stands at, when it is of the kind and may start (R356, R357). -/
def State.nodeAt (s : State) (p q r kind : Nat) : Option (GRun × GNode) :=
  match s.queue? p q, s.run? p q r with
  | some x, some g => match g.nodes[g.pos]? with
    | some n =>
      if n.kind = kind ∧ (s.part p).state = .run ∧ x.st = .run ∧ g.result.isNone ∧ g.waiting.isNone ∧ !s.nodePlacing p q r ∧
          (g.open_.isEmpty ∨ !(n.after || kind == 2 || kind == 4 || kind == 5)) then some (g, n) else none
    | none => none
  | _, _ => none

/-- A run goes on at a node. -/
def State.goTo (s : State) (p q r i : Nat) : State := s.modRun p q r fun g => { g with pos := i }

/-- A node's step: an access that cannot translate ends the run with FAULT. -/
def nodeStep (s : State) (p q : Nat) (g : GRun) (r : Cp State) : Host.Outcome State Fault Refusal :=
  match r with
  | .error .fault => cpEnd s p q (s.failRun p q g .fault g.pos)
  | r => cpEnd s p q r

/-- The predicate word of a node (R354, R356). -/
def nodeWatch (n : GNode) : WatchRec := { addr := n.addr, operand := n.operand, cond := Cond.ofCode n.code, uns := n.uns, timeout := n.count }

/-- A node whose predicate word is misaligned ends its run with MALFORMED, as the packet would be rejected (R346). -/
def State.nodeRead (s : State) (p q : Nat) (g : GRun) (n : GNode) (go : State → Dword → Cp State) : Cp State :=
  if !zeroAt n.addr 2 0 then s.failRun p q g .malformed g.pos
  else do
    let v ← s.cpRead p n.addr
    go (s.cpSeen p n.addr 1) v

/-- NODE_LAUNCH (R355, R356): the packet image is read and validated each time; a rejected one's status goes where R343 sends it, and the run ends. -/
def execNodeLaunch (p q r : Nat) (s : State) : Host.Outcome State Fault Refusal :=
  match s.nodeAt p q r 1 with
  | none => .next s
  | some (g, n) => nodeStep s p q g <|
    if !zeroAt n.addr 2 0 then s.failRun p q g .malformed g.pos
    else do
      let h ← s.cpRead p n.addr
      let raw ← s.cpReads p n.addr (max 1 (fieldN h 31 16))
      let s := s.cpSeen p n.addr (max 1 (fieldN h 31 16))
      let reject (c : Code) (tag : Nat) : Cp State := do
        let v := statusWord (pkSeq raw) tag false c
        let s ← s.queueStatus p q v
        let s ← s.failRun p q g c g.pos
        match signalOf raw with
        | some y => if c = .badSignal then pure s else s.signal p q y v
        | none => pure s
      match validate raw with
      | .error (c, t) => reject c t
      | .ok pk => match pk.body with
        | .launch l =>
          if (match pk.signal with | some y => s.badSignal p y | none => false) then reject .badSignal 0x00C
          else if s.noFit p l then reject .nofit 0
          else
            let (lid, s) := s.fresh
            let s : State := { s with launches := s.launches ++ [newLaunch lid p q g.r pk.seq l pk.signal (some (r, g.pos))] }
            pure (s.modRun p q r fun g => { g with open_ := g.open_ ++ [g.pos], pos := g.pos + 1 })
        | _ => reject .malformed 0

/-- NODE_SIGNAL (R347, R356). -/
def execNodeSignal (p q r : Nat) (s : State) : Host.Outcome State Fault Refusal :=
  match s.nodeAt p q r 2 with
  | none => .next s
  | some (g, n) =>
    let op : SigOp := match n.code with | 0 => .set | 1 => .add | 2 => .sub | _ => .arrive
    let y : SignalRec := { addr := n.addr, operand := n.operand, op := op }
    nodeStep s p q g (if s.badSignal p y then s.failRun p q g .badSignal g.pos
      else (s.goTo p q r (g.pos + 1)).signal p q y (doneStatus g.seq))

/-- A WAIT node's word is read (R356). -/
def State.nodeWaitRead (s : State) (p q : Nat) (g : GRun) (n : GNode) (on : CpWait) : Cp State :=
  let s := s.freeCp on
  s.nodeRead p q g n fun s v =>
    if wordTest (nodeWatch n) v then .ok (s.modRun p q g.r fun g => { g with waiting := none, pos := g.pos + 1 })
    else do
      let (s, on) ← s.watch p n.addr (watchTest (nodeWatch n)) (.run p q g.r) on.deadline
      pure (s.modRun p q g.r fun g => { g with waiting := some on })

/-- NODE_WAIT (R346, R356): it starts, or its word is read again after its monitor was hit. -/
def execNodeWait (p q r : Nat) (s : State) : Host.Outcome State Fault Refusal :=
  match s.run? p q r with
  | none => .next s
  | some g => match g.waiting, g.nodes[g.pos]? with
    | some on, some n =>
      if (s.part p).state == .run && s.mayReread on false then nodeStep s p q g (s.nodeWaitRead p q g n on) else .next s
    | _, _ => match s.nodeAt p q r 3 with
      | none => .next s
      | some (g, n) => nodeStep s p q g (s.nodeWaitRead p q g n { mon := none, deadline := s.deadlineOf n.count, reread := none })

/-- NODE_WAIT_TIMEOUT (R356): the run ends with TIMEOUT and the queue stays in RUN. -/
def execNodeWaitTimeout (p q r : Nat) (s : State) : Host.Outcome State Fault Refusal :=
  match s.run? p q r with
  | none => .next s
  | some g => match g.waiting with
    | some on => if (s.part p).state == .run && s.passedBy on then nodeStep s p q g (s.failRun p q g .timeout g.pos) else .next s
    | none => .next s

/-- runs(i) of a run whose control passes onward from node a to node b: those of the nodes passed are cleared (R356). -/
def passNodes (runs : List Nat) (a b : Nat) : List Nat := runs.zipIdx.map fun x => if a ≤ x.2 ∧ x.2 < b then 0 else x.1

/-- NODE_COND (R356): control that it takes past a LOOP begins that loop afresh when it comes back. -/
def execNodeCond (p q r : Nat) (s : State) : Host.Outcome State Fault Refusal :=
  match s.nodeAt p q r 4 with
  | none => .next s
  | some (g, n) => nodeStep s p q g (s.nodeRead p q g n fun s v =>
      let i := if wordTest (nodeWatch n) v then g.pos + 1 else n.link
      .ok (s.modRun p q r fun g => { g with runs := passNodes g.runs g.pos i, pos := i }))

/-- NODE_LOOP (R356). -/
def execNodeLoop (p q r : Nat) (s : State) : Host.Outcome State Fault Refusal :=
  match s.nodeAt p q r 5 with
  | none => .next s
  | some (g, n) => nodeStep s p q g (s.nodeRead p q g n fun s v =>
      let k := g.runs.getD g.pos 0 + 1
      let again := wordTest (nodeWatch n) v && decide (k < n.count)
      .ok (s.modRun p q r fun g => { g with runs := g.runs.set g.pos (if again then k else 0), pos := if again then n.link else g.pos + 1 }))

/-- A run stands at its END with every node complete (R356): END starts nothing, so its queue need not start nodes (R357). -/
def State.atEnd (s : State) (p q : Nat) (g : GRun) : Bool :=
  g.open_.isEmpty && !s.nodePlacing p q g.r && (match g.nodes[g.pos]? with | some n => n.kind == 0 | none => false)

/-- A run has failed, or stands at its END, and every node it started has completed, though launches of it may have their writes still to wait for (R353, R358, R359). -/
def State.runEnded (s : State) (p q : Nat) (g : GRun) : Bool :=
  (g.result.isSome || (!s.nodePlacing p q g.r && (match g.nodes[g.pos]? with | some n => n.kind == 0 | none => false))) &&
    g.open_.all fun i => s.launches.all fun l => !(l.part == p && l.q == q && l.node == some (g.r, i)) || s.launchEnded l

/-- NODE_END (R356): the run completes when every started node has; a run that has failed or been killed ends here too. -/
def execNodeEnd (p q r : Nat) (s : State) : Host.Outcome State Fault Refusal :=
  match s.run? p q r with
  | some g => if (g.open_.isEmpty ∧ g.result.isSome) ∨ s.atEnd p q g then cpEnd s p q (s.endRun p q g (runStatus g)) else .next s
  | none => .next s

/-- MONITOR_REREAD (R340, R346): a wait that holds no monitor entry and whose time has come reads its word again: a started WAIT, the scheduler's at WRIDX of a queue it serves, or a WAIT
node's. What has started goes on in a queue that is in ERROR. -/
def execMonitorReread (p q : Nat) (s : State) : Host.Outcome State Fault Refusal :=
  match s.queue? p q with
  | none => .next s
  | some x =>
    let due (w : Option CpWait) : Bool := match w with | some w => s.mayReread w true | none => false
    let waitp := x.waitp.filter fun w => due (some w.on)
    let ring : Bool := x.st == .run && x.enabled && x.raw.isNone && !bodyRead x && due x.park
    if (s.part p).state ≠ .run then .next s
    else match waitp, ring, x.runs.find? (fun g => due g.waiting) with
      | some w, _, _ => cpEndSeq s p q w.seq (s.waitRead p q w)
      | none, true, _ => cpEndSeq s p q (s.ringSeq p x) (s.readRing p x)
      | none, false, some g => match g.waiting, g.nodes[g.pos]? with
        | some on, some n => nodeStep s p q g (s.nodeWaitRead p q g n on)
        | _, _ => .next s
      | none, false, none => .next s

end Sys2Proof.Machine
end

