-- ==== Sys2Proof/Machine/Image.lean ====
section
/-! DEFINITION. Saved images (R290, R387 to R390, R392) and backsight saving (R322 to R326): what is written, where, and how a block is taken out of its cores and put back. -/

namespace Sys2Proof.Machine

/-- Bytes of an image, with the numbers of its 32-byte units that are poisoned. -/
structure Img where
  bytes : List Byte
  pois  : List Nat
  deriving DecidableEq, Repr

/-- Double words as bytes. -/
def dwordsBytes (ws : List Dword) : List Byte := ws.flatMap fun w => leBytes 8 w.toNat

/-- A byte list of exactly n bytes. -/
def padTo (n : Nat) (b : List Byte) : List Byte := (b ++ List.replicate (n - b.length) 0).take n

/-- Rows as bytes. -/
def laneBytes (v : Lanes) : List Byte := v.toList.flatMap fun w => leBytes 4 w.toNat

/-- The byte of a row in an image (R389): tag, full, poison. -/
def rowByte (r : VRow) : Byte := BitVec.ofNat 8 (Tag.code r.tag + bitIf r.full 3 + bitIf r.poison 4)

/-- Cycles a wait has still to count (R389, R428). -/
def waitRem : Wait → Option Nat
  | .mwait _ _ _ r => r
  | .tbar _ _ _ r => r
  | .sleep r => some r
  | .xpair _ _ r => r
  | _ => none

/-- The remaining wait count of a group: its first split that counts one (R389). -/
def groupRem (g : Group) : Nat := ((entries.filterMap fun k => waitRem (entry g k).wait).headD 0)

/-- Bit t set for each tile t of a group that is poisoned (R389). -/
def State.tilePoison (s : State) (g : Group) : Nat :=
  (List.range g.tileCnt).foldl (fun a t => a + bitIf (s.tileAt g.core (g.tileBase + t) (s.genOf g.part)).poison t) 0

/-- FLAGS (R389). -/
def State.flagsWord (s : State) (g : Group) : Dword :=
  let pair : Nat := match g.pair.bind s.anyGroup? with | some o => 4 + o.group * 16 + o.block * 2 ^ 14 | none => 0
  BitVec.ofNat 64 (bitIf g.halt 0 + bitIf g.halt280 1 + pair + s.tilePoison g * 2 ^ 32)

/-- The sluice lines a group configured: on its core, or kept while it is saved (R290). -/
def State.linesOf (s : State) (g : Group) : List SluiceLine := g.lines ++ s.sluice.filter fun l => l.owner == some g.gid

/-- Sluice lines in an image (R389). -/
def State.lineWords (s : State) (g : Group) : List Dword :=
  (List.range 16).map fun n => match (s.linesOf g).find? (·.line == n) with
    | some l => BitVec.ofNat 64 (l.cfg.toNat + l.count.toNat * 2 ^ 32)
    | none => 0

/-- An unmatched exchange in an image (R389). -/
def xshufBytes (x : XShuf) : List Byte := dwordsBytes [BitVec.ofNat 64 (x.xtag.toNat + x.active.toNat * 2 ^ 32), 0] ++ laneBytes x.val ++ dwordsBytes [0, 0]

/-- The first 1,024 bytes of a group image (R389): split table, control words, sluice lines, unmatched exchanges. -/
def State.controlBytes (s : State) (g : Group) : List Byte :=
  splitBytes g ++
    dwordsBytes ([roleReg g, g.gang, inflightReg g, g.engerr, g.trapbase, trapctlReg g, g.trapcause, g.traplanes, g.trappc, g.trapinfo] ++ g.hsave.toList ++
      [BitVec.ofNat 64 (groupRem g), s.flagsWord g]) ++
    dwordsBytes (s.lineWords g) ++ padTo 640 ((g.xshufs.take 4).flatMap xshufBytes)

/-- A full group image (R389). -/
def State.groupBytes (s : State) (g : Group) : List Byte :=
  s.controlBytes g ++ dwordsBytes g.s.toList ++ (g.x.toList.flatMap fun x => x.toList.flatMap fun h => leBytes 2 h.toNat) ++
    padTo 128 ((List.range 8).flatMap fun j => leBytes 4 (preg g j).toNat) ++ padTo 512 ((List.range g.allot).map fun i => rowByte (row g i)) ++
    ((List.range g.allot).flatMap fun i => laneBytes (row g i).lanes) ++
    ((List.range g.tileCnt).flatMap fun t => (s.tileAt g.core (g.tileBase + t) (s.genOf g.part)).words.flatMap fun w => leBytes 4 w.toNat)

/-- A save-set entry (R322, R389): its code, its row byte, its value in 128 bytes. -/
def saveEntry (g : Group) (code : Nat) : List Byte :=
  let i := code % 512
  match code / 8192 with
  | 0 => dwordsBytes [BitVec.ofNat 64 code, (rowByte (row g i)).zeroExtend 64] ++ laneBytes (row g i).lanes
  | 1 => dwordsBytes [BitVec.ofNat 64 code, 0] ++ padTo 128 (dwordsBytes [sreg g i])
  | 2 => dwordsBytes [BitVec.ofNat 64 code, 0] ++ padTo 128 ((xreg g i).toList.flatMap fun h => leBytes 2 h.toNat)
  | _ => dwordsBytes [BitVec.ofNat 64 code, 0] ++ padTo 128 (leBytes 4 (preg g i).toNat)

/-- A point of a backsight table (R322), with absolute addresses. -/
structure BsPoint where
  start  : Nat
  stop   : Nat
  recipe : Nat
  codes  : List Nat
  deriving DecidableEq, Repr

/-- A save code names a register of its class (R322). -/
def codeOk (c : Nat) : Bool :=
  c / 512 % 16 == 0 && (match c / 8192 with
    | 0 => true
    | 1 => decide (c % 512 < 64)
    | 2 => decide (c % 512 < 8)
    | 3 => decide (c % 512 < 8)
    | _ => false)

/-- One entry of a table, or none when it is malformed (R323). -/
def bsEntry (base : Nat) (w : Nat → Dword) : Option BsPoint :=
  let st := fieldN (w 0) 31 0
  let en := fieldN (w 0) 63 32
  let re := fieldN (w 1) 63 32
  let n := fieldN (w 1) 3 0
  let code (j : Nat) : Nat := if j < 4 then fieldN (w 2) (16 * j + 15) (16 * j) else fieldN (w 3) (16 * j - 49) (16 * j - 64)
  let used := (List.range n).map code
  let rest := ((List.range 8).drop n).map code
  if !zeroAt (w 1) 31 4 || n == 0 || decide (8 < n) || decide (en ≤ st) || st % 8 != 0 || en % 8 != 0 || re % 8 != 0 || !used.all codeOk ||
      !rest.all (· == 0) then none
  else some { start := base + st, stop := base + en, recipe := base + re, codes := used }

/-- A launch's backsight table (R322, R323): its points, none when it is malformed or cannot be read. -/
def State.bsTable (s : State) (p : Nat) (table : Dword) : Option (List BsPoint) :=
  let rd (va : Dword) : Option Dword := match s.walk p va.toNat needR with
    | .ok l => some (s.homeDword l.attr (s.genOf p) (leafPa l va))
    | .error _ => none
  match rd table, rd (table + 8) with
  | some w0, some base =>
    let n := fieldN w0 15 0
    if !zeroAt w0 63 16 || n == 0 || decide (4096 < n) then none
    else
      let pts := (List.range n).mapM fun i =>
        let a := table + 16 + BitVec.ofNat 64 (32 * i)
        match rd a, rd (a + 8), rd (a + 16), rd (a + 24) with
        | some x, some y, some z, some u => bsEntry base.toNat fun j => match j with | 0 => x | 1 => y | 2 => z | _ => u
        | _, _, _, _ => none
      match pts with
      | none => none
      | some ps => if (ps.zip (ps.drop 1)).all (fun x => decide (x.1.start < x.2.start) && decide (x.1.stop ≤ x.2.start)) then some ps else none
  | _, _ => none

/-- The instruction at a code address of a partition, as memory stands; none where there is none. -/
def State.codeAt (s : State) (p at_ : Nat) : Option (Option Instr) :=
  match s.walk p at_ ⟨false, false, false⟩ with
  | .ok l => match decodeWord (s.homeDword l.attr (s.genOf p) (leafPa l (BitVec.ofNat 64 at_))) with
    | .ok i => some (some i)
    | .error _ => some none
  | .error _ => none

/-- The addresses of a point's recipe (R327): to its first `bra`, at most 32 words. -/
def State.recipeEnd (s : State) (p : Nat) (at_ : Nat) : Nat → Nat
  | 0 => at_
  | n + 1 =>
    match s.codeAt p at_ with
    | some i => if (match i with | some (.bra _) => true | _ => false) then at_ + 8 else s.recipeEnd p (at_ + 8) n
    | none => at_

/-- What the command processor's reads of the backsight tables of a partition's launches, and of the recipes in their code, leave at their lines (R76, R79, R323, R327). -/
def State.tablesSeen (s : State) (p : Nat) : State :=
  (s.launches.filter fun l => l.part == p && l.params.backsight != 0).foldl (fun s l =>
    let n := match s.cpRead p l.params.backsight with | .ok w => fieldN w 15 0 | .error _ => 0
    let s := s.cpSeen p l.params.backsight (if n ≤ 4096 then 2 + 4 * n else 2)
    ((s.bsTable p l.params.backsight).getD []).foldl (fun s pt => s.cpSeen p (BitVec.ofNat 64 pt.recipe) ((s.recipeEnd p pt.recipe 32 - pt.recipe) / 8)) s) s

/-- The point a group is rewound to in a backsight save, when it may be (R324). -/
def State.rewindPoint (s : State) (g : Group) (pts : List BsPoint) : Option BsPoint :=
  let es := (entries.map (entry g ·)).filter (·.state != .free)
  if g.tileCnt ≠ 0 ∨ g.gang ≠ 0 ∨ !g.mmas.isEmpty ∨ !g.xshufs.isEmpty ∨ g.pair.isSome ∨ g.hmode ∨ g.halt280 ∨ g.preHalt ∨
      es.any (fun e => e.state == .barPark || e.state == .gangPark) then none
  else pts.find? fun p =>
    let stop := s.recipeEnd g.part p.recipe 32
    es.all fun e =>
      let pc := e.pc.toNat
      (decide (p.start ≤ pc) && decide (pc < p.stop)) || (decide (p.recipe ≤ pc) && decide (pc < stop))

/-- The lanes of a group that have not exited, over its entries (R325). -/
def lanesLeft (g : Group) : Mask := entries.foldl (fun m k => m ||| (entry g k).own ||| (entry g k).rmask) 0

/-- A REWOUND GROUP (R325, R326) as it starts again at its recipe, before its save set is put back: control state kept, all else as at group start. -/
def rewound (l : Option Launch) (g : Group) (recipe : Nat) : Group :=
  let lanes := lanesLeft g
  let e : Entry := { entryFree with pc := BitVec.ofNat 64 recipe, state := .runnable, own := lanes, ex := lanes }
  let (args, data) := match l with | some l => (l.params.args, l.params.data) | none => (0, 0)
  { g with rows := [], s := ((Vector.replicate 64 0).set 0 args).set 1 data, x := Vector.replicate 8 (Vector.replicate 32 0), pr := Vector.replicate 8 0,
           split := (Vector.replicate 4 entryFree).set 0 e, trapcause := 0, traplanes := 0, trappc := 0, trapinfo := 0,
           hsave := Vector.replicate 4 0, stopped := 0, holds := [], since := [], scrSince := [], park := .none, hurt := [] }

/-- The rows of a save set. -/
def saveRows (codes : List Nat) : List Nat := (codes.filter fun c => c / 8192 == 0).map (· % 512)

/-- How each group of a partition is saved: `none` full, else its point (R324). -/
def State.howSaved (s : State) (back : Bool) (g : Group) : Option BsPoint :=
  if !back then none
  else match s.launchOf g with
    | none => none
    | some l => if l.params.backsight = 0 then none
      else (s.bsTable g.part l.params.backsight).bind fun pts => s.rewindPoint g pts

/-- A group's image, full or rewound (R325, R389). -/
def State.imageOf (s : State) (back : Bool) (g : Group) : List Byte :=
  match s.howSaved back g with
  | none => s.groupBytes g
  | some pt => s.controlBytes (rewound (s.launchOf g) g pt.recipe) ++ pt.codes.flatMap (saveEntry g)

/-- A block's groups in group order. -/
def State.blockGroups (s : State) (b : Block) : List Group :=
  (sortBy (fun x y => decide (x.1 ≤ y.1)) b.gids).filterMap fun x => s.anyGroup? x.2

/-- Lanes that have arrived at barrier n of a block, in its saved form too (R389). -/
def arrivedIn (gs : List Group) (n : Nat) : Nat := gs.foldl (fun a g => a + popCount (arrivedAt g n)) 0

/-- The key of a block's first scratch byte on core number i of its run. -/
def scratchKey (b : Block) (i : Nat) : Nat := b.cluster * 2 ^ 24 + (b.firstCore + i) * 65536 + b.scratchRow * 128

/-- The place in a group's image of a register of its own, by save code, or of a tile (R389). -/
def regPlace (how : Option BsPoint) (g : Group) (code : Nat) : Nat :=
  match how with
  | some pt => 0x400 + 144 * pt.codes.idxOf code + 16
  | none => match code / 8192 with | 4 => 0xA80 + 128 * g.allot + 4096 * (code % 512) | 1 => 0x400 + 8 * (code % 512) | 2 => 0x600 + 64 * (code % 512) | _ => 0x800 + 4 * (code % 512)

/-- The units of a group's image at a that hold registers marked poisoned (R388). -/
def State.hurtUnits (s : State) (back : Bool) (g : Group) (a : Nat) : List Nat :=
  let how := s.howSaved back g
  let codes := match how with | some pt => g.hurt.filter pt.codes.contains | none => g.hurt
  codes.flatMap fun c => let at_ := a + regPlace how g c; if c / 8192 = 2 then [at_ / 32, at_ / 32 + 1] else [at_ / 32]

/-- A BLOCK'S IMAGE (R389): header, barriers, scratch rows, groups. -/
def State.blockImage (s : State) (back : Bool) (b : Block) : Img :=
  let gs := s.blockGroups b
  let gen := s.genOf b.part
  let images := gs.flatMap (s.imageOf back)
  let n := b.scratchRows * 128
  let scratch := (List.range b.ncores).flatMap fun i => s.scratch.read gen (scratchKey b i) n
  let total := 128 + scratch.length + images.length
  let head := dwordsBytes [BitVec.ofNat 64 (b.span + b.block * 2 ^ 24 + gs.length * 2 ^ 28),
    BitVec.ofNat 64 (b.cluster / 16 + b.cluster % 16 * 4 + b.firstCore * 2 ^ 6 + b.ncores * 2 ^ 14 + b.scratchRows * 2 ^ 23),
    BitVec.ofNat 64 total, b.barlimit.zeroExtend 64, 0, 0, 0, 0]
  let bars := (List.range 16).flatMap fun i => leBytes 4 (arrivedIn gs i + bitIf (barOf b i).armed 16)
  let pois := (List.range b.ncores).flatMap fun i => (List.range (n / 32)).filterMap fun u =>
    if s.scratch.poisoned gen (scratchKey b i + 32 * u) then some (4 + i * (n / 32) + u) else none
  let hurt := (gs.foldl (fun (acc : List Nat × Nat) g => (acc.1 ++ s.hurtUnits back g acc.2, acc.2 + (s.imageOf back g).length)) ([], 128 + scratch.length)).1
  let pois := pois ++ hurt
  { bytes := head ++ bars ++ scratch ++ images, pois := pois }

/-- n bytes at a partition-physical address, with the poison of each 32-byte unit from there; none on a stage-2 fault. -/
def State.physBytes (s : State) (p ipa n : Nat) : Option Img :=
  let byte (i : Nat) : Option (Byte × Bool) := match s.stage2 p (ipa + i) needR with
    | .error _ => none
    | .ok l =>
      let pa := l.at_ (ipa + i)
      let attr := fieldN l.pte 9 8
      some ((s.peek attr (s.genOf p) pa 1).headD 0, s.peekPoison attr (s.genOf p) pa 1)
  ((List.range n).mapM byte).map fun bs =>
    { bytes := bs.map (·.1), pois := ((bs.zipIdx.filter fun x => x.1.2).map fun x => x.2 / 32).eraseDups }

/-- Bytes written at partition-physical addresses of the save area, page by page (R387, R388): the address of the first page that cannot take them, with the stage-2 fault that stops
it if it is one, or the state. -/
def State.physWrite (s : State) (p : Nat) : Nat → Nat → List Byte → Except (Nat × Option WalkFault) State
  | 0, _, _ => .ok s
  | fuel + 1, ipa, bs =>
    if bs.isEmpty then .ok s
    else
      let s := s.recallTables2 p ipa
      match s.stage2 p ipa needW with
      | .error f => .error (ipa, some f)
      | .ok l =>
        if !bitAt l.pte 6 then .error (ipa, none)
        else
          let n := 65536 - ipa % 65536
          (s.poke l.attr (s.genOf p) (l.at_ ipa) (bs.take n) false).physWrite p fuel (ipa + n) (bs.drop n)

/-- A 32-byte unit at a partition-physical address marked poisoned. -/
def State.physPoison (s : State) (p ipa : Nat) : State :=
  match s.stage2 p ipa ⟨false, false, false⟩ with
  | .error _ => s
  | .ok l =>
    let pa := l.at_ ipa / 32 * 32
    let attr := fieldN l.pte 9 8
    s.poke attr (s.genOf p) pa (s.peek attr (s.genOf p) pa 32) true

/-- An image written (R387, R388), its poisoned units marked. -/
def State.writeImage (s : State) (p ipa : Nat) (m : Img) : Except (Nat × Option WalkFault) State :=
  (s.physWrite p (m.bytes.length + 1) ipa m.bytes).map fun s => m.pois.foldl (fun s u => s.physPoison p (ipa + 32 * u)) s

/-- The block image at a partition-physical address, as long as its header says (R389). -/
def State.imageAt (s : State) (p at_ : Nat) : Option Img := (s.physBytes p at_ 64).bind fun h => s.physBytes p at_ (leAt h.bytes 16 8)

/-- The image of a block that is already swapped out, unchanged (R392). -/
def State.keptImage (s : State) (p : Nat) (b : Block) : Option Img := b.image.bind (s.imageAt p)

/-- The blocks of a partition. -/
def State.partBlocks (s : State) (p : Nat) : List Block := s.blocks.filter (·.part == p)

/-- A block's image in a save of its partition. -/
def State.savedImage (s : State) (p : Nat) (back : Bool) (b : Block) : Img :=
  if resident b then s.blockImage back b else (s.keptImage p b).getD { bytes := [], pois := [] }

/-- Bytes a save would use now (R360, R387). -/
def State.saveBytes (s : State) (p : Nat) (back : Bool) : Nat :=
  (s.partBlocks p).foldl (fun a b => a + (s.savedImage p back b).bytes.length) 64

/-- SAVENEED (R360). -/
def State.saveNeed (s : State) (p : Nat) : Nat := s.saveBytes p false

/-- A group meets rule 3 of R328: a single split, EX = OWN equal to every lane that has not exited, RV = 0. -/
def wholeSplit (g : Group) : Bool :=
  match (entries.map (entry g ·)).filter (·.state != .free) with
  | [e] => e.ex == e.own && !e.rv && e.own == lanesLeft g
  | _ => false


/-- A word of a point's region, or of its recipe, writes a register of the save set (R327, R328, rule 1). -/
def State.writesSaved (s : State) (p : Nat) (pt : BsPoint) (rstop : Nat) : Bool :=
  let words := (List.range ((pt.stop - pt.start) / 8)).map (fun i => pt.start + 8 * i) ++ (List.range ((rstop - pt.recipe) / 8)).map fun i => pt.recipe + 8 * i
  words.any fun a => match s.codeAt p a with
    | some (some i) => (writesOf i).any pt.codes.contains
    | _ => false

/-- Rules 1 to 3 of R328 hold of a group that is rewound to a point: as far as it has run there, in the code, and, for a group that has still to issue START, in its splits. -/
def State.keepsRules (s : State) (g : Group) (pt : BsPoint) (rstop : Nat) : Bool :=
  (match g.region.find? (·.1 == pt.start) with | some x => x.2 | none => wholeSplit g) && !s.writesSaved g.part pt rstop &&
    (wholeSplit g || entries.all fun k => (entry g k).state == .free || (entry g k).pc.toNat != pt.start) &&
    (match g.rerun with | some r => !(r.broken && r.start == pt.start) | none => true)

/-- A group as it is kept beside its image: what the image holds is left out. A rewound one runs its region again (R326), with free values where it has broken a rule of R328. -/
def keptGroup (s : State) (how : Option BsPoint) (g : Group) : Group :=
  let g1 : Group := match how with
    | some pt =>
      let rstop := s.recipeEnd g.part pt.recipe 32
      let kept := s.keepsRules g pt rstop
      { rewound (s.launchOf g) g pt.recipe with
        rewind := some pt.codes, region := [(pt.start, kept)],
        rerun := some { start := pt.start, stop := pt.stop, recipe := pt.recipe, rstop := rstop, broken := !kept, regs := [], stores := [], late := [] } }
    | none => g
  { g1 with rows := [], s := Vector.replicate 64 0, x := Vector.replicate 8 (Vector.replicate 32 0), pr := Vector.replicate 8 0, engerr := 0,
            trapcause := 0, traplanes := 0, trappc := 0, trapinfo := 0, hsave := Vector.replicate 4 0, since := [], scrSince := [],
            lines := s.linesOf g, stepReq := none, hurt := [] }

/-- A block taken out of its cores (R387, R392): its image stands at `at_`; its slots, rows and tile units are free, and what they hold stays in place. Of a rewound group's returns the
writes are discarded; its `cis` still count down (R83, R325). -/
def State.takeOut (s : State) (back swapped : Bool) (b : Block) (at_ : Nat) : State :=
  let gs := s.groupsOf b.bid
  let kept := gs.map fun g => keptGroup s (s.howSaved back g) g
  let ids := gs.map (·.gid)
  let rewoundIds := (gs.filter fun g => (s.howSaved back g).isSome).map (·.gid)
  let s : State := { s with
    groups := s.groups.filter (fun g => g.bid != b.bid), saved := s.saved ++ kept,
    rets := s.rets.filterMap (fun r => if !rewoundIds.contains r.gid then some r else if r.cis then some { r with count := 0 } else none),
    mons := s.mons.filter (fun m => !rewoundIds.any fun i => monOf i m),
    sluice := s.sluice.filterMap (fun l => match l.owner with
      | some o =>
        let rest := l.waiters.filter fun w => !ids.any fun i => s.slMine i w
        if !ids.contains o then some l else if rest.isEmpty then none else some { l with owner := none, cfg := 0, count := 0, waiters := rest }
      | none => some l) }
  s.modBlock b.bid fun b => { b with image := some at_, swapped := swapped }

/-- A row from its image: lanes, row byte, and poison of the units that held it (R388, R389). -/
def rowOf (lanes : List Byte) (byte : Byte) (bad : Bool) : VRow :=
  { lanes := lanesOf fun l => BitVec.ofNat 32 (leAt lanes (4 * l) 4), tag := Tag.ofCode (fieldN byte 2 0), full := bitAt byte 3, poison := bitAt byte 4 || bad }

/-- Some unit of the bytes from a to a + n of an image is poisoned. -/
def Img.hurt (m : Img) (a n : Nat) : Bool := m.pois.any fun u => decide (a / 32 ≤ u) && decide (u ≤ (a + n - 1) / 32)

/-- A state of a split-table entry from its code. -/
def splitOf (n : Nat) : SplitState :=
  match n with
  | 1 => .runnable
  | 2 => .joinPark
  | 3 => .barPark
  | 4 => .waitPark
  | 5 => .gangPark
  | _ => .free

/-- A split-table entry from its image; the reason of a park is the one it was saved with. -/
def entryOf (b : List Byte) (old : Entry) : Entry :=
  let w (i : Nat) : Dword := dwordAt b (8 * i)
  let st := splitOf (fieldN (w 0) 2 0)
  { old with pc := w 0 &&& ~~~7, state := st, rpc := w 1 &&& ~~~7, rv := bitAt (w 1) 0, own := field (w 2) 63 32, ex := field (w 2) 31 0,
             rmask := field (w 3) 63 32, age := field (w 3) 15 0, wait := if st = .runnable ∨ st = .free then .none else old.wait, ibuf := none }

/-- The control words of a group image (R389). INFLIGHT stays as it is kept, with the completions that have come since (R290), and so does a halt that has come since (R285). -/
def controlOf (m : Img) (a : Nat) (g : Group) : Group :=
  let w (i : Nat) : Dword := dwordAt m.bytes (a + 128 + 8 * i)
  let flags := w 15
  { g with
    split := Vector.ofFn (fun i : Fin 4 => entryOf (m.bytes.drop (a + 32 * i.val)) (entry g i.val)),
    gang := w 1, engerr := if g.engerr = 0 then w 3 else g.engerr, trapbase := w 4 &&& ~~~7, hmode := bitAt (w 5) 1, ss := bitAt (w 5) 0, trapcause := w 6,
    traplanes := w 7, trappc := w 8, trapinfo := w 9, hsave := Vector.ofFn (fun i : Fin 4 => w (10 + i.val)), halt := g.halt || bitAt flags 0,
    halt280 := bitAt flags 1 }

/-- The sluice lines of a group put back on its core from its image (R290, R389), in place of what pulses may have left there since. Other groups that waited for a line still do, and those
that have begun to wait since stand behind them; its pulses go to the first of them (R271). -/
def State.putLines (s : State) (m : Img) (a : Nat) (g : Group) : State :=
  g.lines.foldl (fun s l =>
    let w := dwordAt m.bytes (a + 256 + 8 * l.line)
    let now := (s.slLine g.core l.line).waiters
    let waiters := (l.waiters.filter (s.slWaits l.line)) ++ now.filter fun x => !l.waiters.contains x
    (s.putSlLine { l with core := g.core, cfg := field w 19 0, count := field w 47 32, waiters := waiters }).servePulses g.core l.line (waiters.length + 1)) s

/-- The scalar, index and predicate registers, and the tiles, that units of a full group image at a leave poisoned, by save code and tile code (R388). -/
def hurtRegs (m : Img) (a : Nat) (g : Group) : List Nat :=
  ((List.range 64).filter fun i => m.hurt (a + 0x400 + 8 * i) 8).map (8192 + ·) ++ ((List.range 8).filter fun i => m.hurt (a + 0x600 + 64 * i) 64).map (16384 + ·) ++
    ((List.range 8).filter fun i => i != 0 && m.hurt (a + 0x800 + 4 * i) 4).map (24576 + ·) ++
    ((List.range g.tileCnt).filter fun i => m.hurt (a + 0xA80 + 128 * g.allot + 4096 * i) 4096).map (32768 + ·)

/-- Registers from a full group image (R389). -/
def registersOf (m : Img) (a : Nat) (g : Group) : Group :=
  let b := m.bytes.drop a
  let rows : List (Nat × VRow) := (List.range g.allot).foldl (fun rows i =>
    let at_ := 0xA80 + 128 * i
    mapPut rowZero rows i (rowOf (b.drop at_) (b.getD (0x880 + i) 0) (m.hurt (a + at_) 128 || m.hurt (a + 0x880 + i) 1))) []
  let shuf := g.xshufs.zipIdx.map fun x => if x.2 < 4 then
      let at_ := 0x180 + 160 * x.2
      { x.1 with xtag := BitVec.ofNat 8 (leAt b at_ 1), active := BitVec.ofNat 32 (leAt b (at_ + 4) 4),
                 val := lanesOf (fun l => BitVec.ofNat 32 (leAt b (at_ + 16 + 4 * l) 4)) }
    else x.1
  { g with
    rows := rows, s := Vector.ofFn (fun i : Fin 64 => dwordAt b (0x400 + 8 * i.val)),
    x := Vector.ofFn (fun i : Fin 8 => lanesOf fun l => BitVec.ofNat 16 (leAt b (0x600 + 2 * (32 * i.val + l)) 2)),
    pr := Vector.ofFn (fun i : Fin 8 => BitVec.ofNat 32 (leAt b (0x800 + 4 * i.val) 4)), xshufs := shuf, hurt := hurtRegs m a g }

/-- A save-set entry put back (R326, R389), poisoned where its units are (R388). -/
def putSaved (m : Img) (a : Nat) (g : Group) : Group :=
  let b := m.bytes.drop a
  let code := leAt b 0 2
  let i := code % 512
  let v := b.drop 16
  let mark (g : Group) (n : Nat) : Group := if m.hurt (a + 16) n then { g with hurt := note g.hurt code } else g
  match code / 8192 with
  | 0 => { g with rows := mapPut rowZero g.rows i (rowOf v (b.getD 8 0) (m.hurt a 144)) }
  | 1 => mark (setS g i (dwordAt v 0)) 8
  | 2 => mark (setX g i 0xFFFFFFFF (lanesOf fun l => BitVec.ofNat 16 (leAt v (2 * l) 2))) 64
  | _ => mark (setP g i 0xFFFFFFFF (BitVec.ofNat 32 (leAt v 0 4))) 4

/-- Bytes of a group's image (R389). -/
def imageSize (g : Group) : Nat :=
  match g.rewind with
  | some codes => 0x400 + 144 * codes.length
  | none => 0xA80 + 128 * g.allot + 4096 * g.tileCnt

/-- The tiles of a full group image put back on its core (R388, R389). -/
def State.putTiles (s : State) (m : Img) (a : Nat) (g : Group) : State :=
  let mask := fieldN (dwordAt m.bytes (a + 128 + 120)) 47 32
  (List.range g.tileCnt).foldl (fun s t =>
    let at_ := a + 0xA80 + 128 * g.allot + 4096 * t
    let words := (List.range 1024).map fun i => BitVec.ofNat 32 (leAt m.bytes (at_ + 4 * i) 4)
    s.putTile { core := g.core, unit := g.tileBase + t, gen := s.genOf g.part, words := words, poison := mask.testBit t || m.hurt at_ 4096 }) s

/-- A group put back from its image at offset a (R326, R389, R390); an access parked on a fault is retried (R391). One held for a START that has come begins now (R352). -/
def State.putGroup (s : State) (m : Img) (a : Nat) (g : Group) : State :=
  let s := s.putLines m a g
  let g := { g with begun := g.begun || (match s.launchOf g with | some l => s.startCome l.params (dieOf g.core) | none => false) }
  match g.rewind with
  | some codes =>
    let g := { rewound (s.launchOf g) (controlOf m a g) (fieldN (dwordAt m.bytes a) 63 3 * 8) with lines := [], rewind := none }
    let g := (List.range codes.length).foldl (fun g i => putSaved m (a + 0x400 + 144 * i) g) g
    { s with groups := s.groups ++ [g] }
  | none =>
    let g := { registersOf m a (controlOf m a g) with lines := [], rewind := none, park := if g.park = .fault then .none else g.park }
    { s.putTiles m a g with groups := s.groups ++ [g] }

/-- Sealed batches of a restored group whose operations have all been performed are counted, and their pulses given, before it issues again (R290); the fuel is the number of its
batches. -/
def State.catchUp (s : State) (gid : Nat) : Nat → State
  | 0 => s
  | n + 1 =>
    match execBatchComplete gid .asy s, execBatchComplete gid .trv s with
    | .next a, _ => if a = s then (match execBatchComplete gid .trv s with | .next b => if b = s then s else b.catchUp gid n | _ => s) else a.catchUp gid n
    | _, _ => s

/-- A BLOCK PUT BACK where it was (R390, R392): scratch rows, barriers, groups. `halted` says that its groups come back with their halt bit set. -/
def State.putBack (s : State) (p : Nat) (halted : Bool) (b : Block) (m : Img) : State :=
  let gs := s.blockGroups b
  let gen := s.genOf p
  let n := b.scratchRows * 128
  let s := (List.range b.ncores).foldl (fun (s : State) i =>
    let at_ := 128 + i * n
    let mem := s.scratch.write gen (scratchKey b i) ((m.bytes.drop at_).take n) false
    let mem := (List.range (n / 32)).foldl (fun mem u => if m.pois.contains (4 + i * (n / 32) + u) then mem.setPoison (scratchKey b i + 32 * u) true else mem) mem
    { s with scratch := mem }) s
  let ids := gs.map (·.gid)
  let s : State := { s with saved := s.saved.filter fun g => !ids.contains g.gid }
  let start := 128 + b.ncores * n
  let s := (gs.foldl (fun (acc : State × Nat) g => (acc.1.putGroup m acc.2 g, acc.2 + imageSize g)) (s, start)).1
  let s := s.modBlock b.bid fun b => { b with
    image := none, swapped := false, barlimit := field (dwordAt m.bytes 24) 31 0,
    bars := b.bars.zipIdx.map fun x => { x.1 with armed := (leAt m.bytes (64 + 4 * x.2) 4).testBit 16 } }
  ids.foldl (fun s i => if halted then s.modGroup i fun g => { g with halt := true } else s) s

/-- The sealed batches of a group. -/
def batches (g : Group) : Nat := g.asy.closed.length + g.trv.closed.length

/-- Blocks put back together with their images (R390, R392): when all stand again, the completions that came in the meantime are applied (R290). -/
def State.putBacks (s : State) (p : Nat) (halted : Bool) (ims : List (Block × Img)) : State :=
  let s := ims.foldl (fun s i => s.putBack p halted i.1 i.2) s
  (s.groups.filter fun g => ims.any fun i => i.1.bid == g.bid).foldl (fun s g => s.catchUp g.gid (batches g + 1)) s

/-- A byte list with n bytes from a on replaced. -/
def blank (b : List Byte) (a n : Nat) (x : Byte) : List Byte := if n = 0 then b else spliceBytes b a (List.replicate n x)

/-- AN IMAGE UNDER ANOTHER GENERATION (R368, R390): scratch rows, vector rows and tile units read zero, rows full with tag RAW; their poison is not read. -/
def foreignImage (b : Block) (gs : List Group) (m : Img) : Img :=
  let start := 128 + b.ncores * (b.scratchRows * 128)
  let one (acc : List Byte × Nat) (g : Group) : List Byte × Nat := (match g.rewind with
    | some codes => (List.range codes.length).foldl (fun x i =>
        let e := acc.2 + 0x400 + 144 * i
        if leAt x e 2 / 8192 = 0 then blank (blank x (e + 8) 1 8) (e + 16) 128 0 else x) acc.1
    | none => blank (blank (blank acc.1 (acc.2 + 0x880) g.allot 8) (acc.2 + 0xA80) (128 * g.allot + 4096 * g.tileCnt) 0) (acc.2 + 128 + 124) 2 0,
    acc.2 + imageSize g)
  { bytes := (gs.foldl one (blank m.bytes 128 (start - 128) 0, start)).1, pois := [] }

/-- The resources a saved block left are free of the partition's other blocks (R390). -/
def State.roomBack (s : State) (b : Block) : Bool :=
  let gs := s.blockGroups b
  let q := quotaOf (s.part b.part)
  let cores := (List.range b.ncores).map fun i => b.cluster * 256 + b.firstCore + i
  (gs.all fun g => (s.slotsFree b.part g.core).contains g.slot) &&
    (cores.zipIdx.all fun x => decide (s.rowsUsed b.part x.1 + b.poolRows.getD x.2 0 ≤ q.rows) &&
      s.scratchFree b.part x.1 b.scratchRow b.scratchRows) &&
    (gs.all fun g => cores.contains g.core || decide (s.rowsUsed b.part g.core + ((gs.filter fun x => x.core == g.core).foldl (fun a x => a + s.reserve x) 0) ≤ q.rows)) &&
    gs.all fun g => decide (s.tilesUsed b.part g.core + ((gs.filter fun x => x.core == g.core).foldl (fun a x => a + x.tileCnt) 0) ≤ q.tiles)

end Sys2Proof.Machine
end

