-- ==== Sys2Proof/Machine/Partition.lean ====
section
/-! DEFINITION. The driver's commands to a partition (R361, R362, R365, R367, R370, R382, R385 to R392, R419), its registers (R360, R364, R375, R376, R383, R407, R426), the
scrubber (R370) and the swap of idle blocks (R392). -/

namespace Sys2Proof

/-- A partition-physical page lies in the leaf of a COW page (R379, R417). -/
def CowPage.covers (c : CowPage) (page : Nat) : Bool := decide (c.leaf ≤ page) && decide (page < c.leaf + c.size)

end Sys2Proof

namespace Sys2Proof.Machine

/-- RESULT of a partition's last command (R361). -/
def State.result (s : State) (p : Nat) (r : PResult) : State := s.modPart p fun x => { x with result := r, busy := false, pending := none }

/-- A PCMD write is taken (R360, R362): from the PF, or a command the VF may write; not while BUSY; only in the states allowed, else BADSTATE. -/
def command (s : State) (p : Nat) (ok : Bool) (allowed : List PState) (go : Part → Host.Outcome State Fault Refusal) : Host.Outcome State Fault Refusal :=
  let x := s.part p
  if 40 ≤ p ∨ !ok ∨ x.busy then .next s
  else if !allowed.contains x.state then .next (s.result p .badstate)
  else go x

/-- OPEN (R362, R408): no partition opens before READY. -/
def State.cmdOpen (s : State) (p : Nat) (ok : Bool) : Host.Outcome State Fault Refusal :=
  command s p ok [.free] fun _ =>
    if s.dev.ready then
      let s : State := { s with dev := { s.dev with opened := true } }
      .next ((s.modPart p fun x => { x with state := .config }).result p .ok)
    else .next (s.result p .badstate)

/-- OPEN -/
def execOpenPart (p : Nat) (vf : Bool) (s : State) : Host.Outcome State Fault Refusal := s.cmdOpen p (!vf)

/-- Base and count of each range a partition owns in a core (R364): slots, rows in eights, scratch rows, tiles, with the sizes of the core. -/
def ranges (x : Part) : List (Nat × Nat × Nat) :=
  let q := x.quota
  [(fieldN q 5 0, fieldN q 11 6, 48), (fieldN q 17 12, fieldN q 24 18, 64), (fieldN q 33 25, fieldN q 43 34, 512), (fieldN q 47 44, fieldN q 52 48, 16)]

/-- Base and count of the cistern rows (R367). -/
def cisRange (x : Part) : Nat × Nat × Nat := (fieldN x.cisrange 8 0, fieldN x.cisrange 19 10, 512)

/-- CREATE fails with RANGE (R365, R367). -/
def badRange (x : Part) : Bool :=
  (ranges x ++ [cisRange x]).any (fun r => decide (r.2.2 < r.1 + r.2.1) || decide (r.2.2 < r.2.1)) ||
    fieldN x.quota 11 6 == 0 || fieldN x.quota 24 18 == 0 || x.place == 0

/-- Two ranges intersect. -/
def rangesMeet (a b : Nat × Nat × Nat) : Bool := decide (0 < a.2.1) && decide (0 < b.2.1) && decide (a.1 < b.1 + b.2.1) && decide (b.1 < a.1 + a.2.1)

/-- Two placements share a die (R365, R367). -/
def shareDie (a b : Dword) : Bool := (List.range 4).any fun d => fieldN a (16 * d + 15) (16 * d) != 0 && fieldN b (16 * d + 15) (16 * d) != 0

/-- CREATE fails with OVERLAP (R365, R367). -/
def State.overlaps (s : State) (p : Nat) : Bool :=
  let x := s.part p
  (List.range 40).any fun o =>
    let y := s.part o
    o != p && y.state != .free &&
      ((x.place &&& y.place != 0 && ((ranges x).zip (ranges y)).any fun r => rangesMeet r.1 r.2) || (shareDie x.place y.place && rangesMeet (cisRange x) (cisRange y)))

/-- The lowest free generation (R370). -/
def State.lowestGen (s : State) : Option Nat := (List.range 64).find? s.dev.freeGens.contains

/-- CREATE (R245, R287, R337, R365, R370). -/
def State.cmdCreate (s : State) (p : Nat) (ok : Bool) : Host.Outcome State Fault Refusal :=
  command s p ok [.config] fun x =>
    if badRange x then .next (s.result p .range)
    else if s.overlaps p then .next (s.result p .overlap)
    else match s.lowestGen with
      | none => .next (s.result p .nogen)
      | some g =>
        let s : State := { s with dev := { s.dev with freeGens := s.dev.freeGens.erase g } }
        .next ((s.modPart p fun x => { x with
          state := .run, gen := g, stepCtr := 0, watches := Vector.replicate 4 WatchSlot.reset, queues := [], fixes := [], qtabUsed := x.qtable }).result p .ok)

/-- CREATE -/
def execCreate (p : Nat) (vf : Bool) (s : State) : Host.Outcome State Fault Refusal := s.cmdCreate p (!vf)

/-- A copy channel without the chains of a partition (R362). -/
def chanWithout (p : Nat) (c : Channel) : Channel :=
  let cur : Bool := match c.chains with | h :: _ => h.part == p | [] => false
  { c with chains := c.chains.filter (fun h => h.part != p), cur := if cur then none else c.cur, parked := if cur then none else c.parked }

/-- The engine commands of a partition end (R362). -/
def State.endEngines (s : State) (p : Nat) : State :=
  let mine (gid : Nat) : Bool := match s.anyGroup? gid with | some g => g.part == p | none => false
  { s with asys := s.asys.filter (fun a => a.part != p), travs := s.travs.filter (fun t => t.part != p), qnts := s.qnts.filter (fun c => c.part != p),
           chans := s.chans.map (chanWithout p), products := s.products.filter (fun x => !x.members.any fun m => mine m.gid),
           rends := s.rends.filter (fun z => !z.members.any fun m => mine m.1.gid) }

/-- Groups and blocks of a list of blocks removed, resident, saved or swapped (R359, R391). -/
def State.removeBlocks (s : State) (bs : List Block) : State :=
  let ids := bs.map (·.bid)
  let live := (s.groups.filter fun g => ids.contains g.bid).map (·.gid)
  let kept := (s.saved.filter fun g => ids.contains g.bid).map (·.gid)
  let s := live.foldl (fun s gid => s.endGroup gid) s
  { s with saved := s.saved.filter (fun g => !ids.contains g.bid), blocks := s.blocks.filter (fun b => !ids.contains b.bid),
           mons := s.mons.filter (fun m => !kept.any fun i => monOf i m) }

/-- COW of the pages a fix has still to copy is cleared (R418, R419). -/
def State.clearCow (s : State) (p : Nat) (f : FixRun) : State := f.left.foldl (fun s a => s.setCow p a.page false) s

/-- What waited for leaves whose COW bit has been cleared goes on (R417, R418): groups parked on their pages try their access again, stores in L1 caches are performed, fault records are
written. -/
def State.unparkCow (s : State) (p : Nat) (cs : List CowPage) : State :=
  let s : State := { s with groups := s.groups.map fun g => if g.part = p then (match g.park with
      | .cow a => if cs.any (·.covers a) then { refetch g with park := .none } else g
      | _ => g) else g }
  let held := (s.pends.filter fun x => cs.any fun c => decide (c.base ≤ x.line * 128) && decide (x.line * 128 < c.base + c.size)).map fun x => (x.core, x.line)
  let s := held.eraseDups.foldl (fun s x => s.serveLine x.1 x.2) s
  s.flushFaults p (s.part p).fqHeld.length

/-- Every packet in progress of a partition completes with KILLED (R362): launches, runs, waits, loops, fixes. -/
def State.killPackets (s : State) (p : Nat) : Cp State := do
  let status (seq : Word) : Dword := statusWord seq 0 false .killed
  let s ← (s.launches.filter fun l => l.part == p).foldlM (fun s l => match l.signal with
    | some y => s.signal p l.q y (status l.seq)
    | none => pure s) s
  (s.part p).queues.foldlM (fun s x => do
    let sigs : List (Word × Option SignalRec) := (x.runs.map fun g => (g.seq, g.signal)) ++
      (match x.waitp with | some w => [(w.seq, w.signal)] | none => []) ++ (match x.loop with | some l => [(l.seq, l.signal)] | none => []) ++
      ((s.part p).fixes.filterMap fun f => if f.q = x.q then some (f.seq, f.signal) else none)
    sigs.foldlM (fun s y => match y.2 with | some z => s.signal p x.q z (status y.1) | none => pure s) s) s

/-- A command performed whole, or the state in which it waits for something under way (R362). -/
abbrev Done := Except State State

/-- Something of a partition has completed and its signal is still to be written (R353, R357): a launch, or a run of a graph. -/
def State.endsPending (s : State) (p : Nat) : Bool :=
  (s.launches.any fun l => l.part == p && s.launchEnded l) || (s.part p).queues.any fun x => x.runs.any (s.runEnded p x.q)

/-- The writes of a partition's groups that stand parked on pages still marked COW are discarded (R419): stores in L1 caches and on their way, atomics, weir operations. -/
def State.dropParked (s : State) (p : Nat) : State :=
  let reqs := s.reqs.filter fun r => r.part == p && s.cowLine r.line && (match r.kind with | .store _ _ => true | .atom _ _ => true | _ => false)
  let weir := s.weir.filter fun w => w.part == p && w.attr != 1 && s.cowLine (w.pa / 128)
  let lost := (reqs.filterMap fun r => match r.kind with | .atom _ a => a.ret | _ => none) ++ weir.map (·.ret)
  { s with pends := s.pends.filter (fun x => !(x.part == p && writing x.act && s.cowLine x.line)), reqs := s.reqs.filter (fun r => !reqs.contains r),
           weir := s.weir.filter (fun w => !weir.contains w), rets := s.rets.filter fun r => !lost.contains r.id }

/-- DESTROY performed (R362, R370, R419), once what has completed has its signals (R353). The registers 4 to 7 of its measurements and its quote leave with the partition (R425, log 89). -/
def State.destroyNow (s : State) (p : Nat) : Done :=
  if s.endsPending p then .error s else
  let x := s.part p
  let s1 := ((s.endEngines p).dropParked p).removeBlocks (s.partBlocks p)
  let s1 := x.fixes.foldl (fun s f => s.clearCow p f) s1
  match s1.killPackets p with
  | .error e => .error (s.heldUp p e)
  | .ok s2 =>
    let s2 : State := { s2 with
      launches := s2.launches.filter (fun l => l.part != p), mons := s2.mons.filter (fun m => m.part != p),
      dev := { s2.dev with scrub := s2.dev.scrub ++ [x.gen] } }
    .ok ((s2.modPart p fun x => { x with
      state := .free, gen := 0, queues := [], fixes := [], saving := .none, qtabUsed := 0, fqHeld := [], measure := Vector.replicate 4 0, quote := none }).result p .ok)

/-- STATE of every enabled queue of a partition set to HALTED (R357, R386). -/
def State.queuesHalt (s : State) (p : Nat) : Cp State :=
  (s.part p).queues.foldlM (fun s x =>
    if x.enabled then (s.modQueue p x.q fun y => { y with failed := y.st == .error || (y.st == .halted && y.failed) }).queueState p x.q .halted else pure s) s

/-- STATE of every enabled queue of a partition as it stood before it was HALTED (R357). DESIGN CHOICE (log 32): a queue that stood in ERROR returns to ERROR; R357 says that STATE returns to RUN
and that processing resumes where it stood. -/
def State.queuesRun (s : State) (p : Nat) : Cp State :=
  (s.part p).queues.foldlM (fun s x => if x.enabled then s.queueState p x.q (if x.failed then .error else .run) else pure s) s

/-- Every group of a partition changed, resident or saved. -/
def State.modGroups (s : State) (p : Nat) (f : Group → Group) : State :=
  let one (g : Group) : Group := if g.part = p then f g else g
  { s with groups := s.groups.map one, saved := s.saved.map one }

/-- HALT performed (R357, R386): every step is whole, so every group stands at an instruction boundary. -/
def State.haltNow (s : State) (p : Nat) : Done :=
  match s.queuesHalt p with
  | .error e => .error (s.heldUp p e)
  | .ok s1 =>
    let s1 := s1.modGroups p fun g => { g with preHalt := g.halt, halt := true }
    .ok ((s1.modPart p fun x => { x with state := .halted, haltTime := s1.now }).result p .ok)

/-- The queues of a partition whose queue table has changed are served no longer (R337). -/
def State.reTable (s : State) (p : Nat) : State :=
  s.modPart p fun x =>
    if x.qtable = x.qtabUsed then x
    else { x with qtabUsed := x.qtable, queues := x.queues.map fun y => { y with enabled := false, park := none, raw := none, skip := 0, loop := none } }

/-- RESUME performed (R337, R357, R386, R394). -/
def State.resumeNow (s : State) (p : Nat) : Done :=
  match s.queuesRun p with
  | .error e => .error (s.heldUp p e)
  | .ok s1 =>
    let s1 := s1.modGroups p unhalt
    .ok (((s1.reTable p).modPart p fun x => { x with state := .run }).result p .ok)

/-- A launch counts as started and has not completed (R345, R353, R359, R362). -/
def State.inProgress (s : State) (l : Launch) : Bool := decide (l.params.nspans ≤ l.nextSpan) && !s.launchEnded l

/-- KILL performed (R359, R362, R391, R392, R419): started, incomplete launches and runs of the queue lose their groups; a swapped block of a partition that runs is queued for restore, and
lost when it comes back. A FIX that has not cut is disarmed. What has completed stands. -/
def State.killNow (s : State) (p q : Nat) : Done :=
  let x := s.part p
  let gone : List GRun := match s.queue? p q with | some y => y.runs.filter fun g => !s.runEnded p q g | none => []
  let runs : List Nat := gone.map (·.r)
  let hit (l : Launch) : Bool := l.part == p && l.q == q && (s.inProgress l || (match l.node with | some (r, _) => runs.contains r && !s.launchEnded l | none => false))
  let ls := (s.launches.filter hit).map (·.lid)
  let s1 := (gone.filterMap (·.waiting)).foldl (fun s w => s.freeCp w) (s.removeBlocks (s.blocks.filter fun b => ls.contains b.lid && !(b.swapped && x.state == .run)))
  let s1 : State := { s1 with launches := s1.launches.map fun l => if ls.contains l.lid then { l with killed := true } else l }
  let kill (g : GRun) : GRun := if runs.contains g.r then { g with waiting := none, result := some (Code.killed.num, 0) } else g
  let s1 := s1.modQueue p q fun y => { y with runs := y.runs.map kill }
  let armed := x.fixes.filter fun f => f.q == q && f.cut.isNone
  let s1 := s1.modPart p fun x => { x with fixes := x.fixes.filter fun f => !(f.q == q && f.cut.isNone) }
  match armed.foldlM (fun (s : State) f => s.finishPacket p q f.pk f.signal (statusWord f.seq 0 false .killed)) s1 with
  | .ok s2 => .ok (s2.result p .ok)
  | .error e => .error (s.heldUp p e)

/-- An access of an L1 as TLBINV notes it: whoever reads it meanwhile. -/
def pendKey (x : Pend) : Pend := { x with seen := [] }

/-- Accesses of a partition that have been translated and wait in an L1 to be performed (R382). -/
def State.pendsOf (s : State) (p : Nat) : List Pend := (s.pends.filter fun x => x.part == p).map pendKey

/-- The numbers of its other accesses under way (R382): requests to homes, weir operations, site steps, elements of asynchronous copies. -/
def State.accessesOf (s : State) (p : Nat) : List Nat :=
  ((s.reqs.filter fun x => x.part == p).map (·.id)) ++ ((s.txns.filter fun x => x.req.part == p).map (·.req.id)) ++ ((s.weir.filter fun x => x.part == p).map (·.id)) ++
    ((s.sites.filter fun x => x.part == p).map (·.id)) ++ (s.asys.filter fun x => x.part == p).map (·.id)

/-- TLBINV performed (R382): no TLB holds a covered entry, and every access noted when it was taken has been performed. -/
def State.tlbinvNow (s : State) (p : Nat) (parg : Dword) (pends : List Pend) (ids : List Nat) : Done :=
  if (s.pendsOf p).any pends.contains || (s.accessesOf p).any ids.contains then .error s else .ok ((s.tlbInvalidate p parg).result p .ok)

/-- A command performed whole, while nothing it needs is under way. -/
def State.perform? (s : State) (p : Nat) : Pcmd → Done
  | .destroy => s.destroyNow p
  | .halt => s.haltNow p
  | .resume => s.resumeNow p
  | .kill q => s.killNow p q
  | .tlbinv parg pends ids => s.tlbinvNow p parg pends ids

/-- A command is taken (R362): it is performed at once, or BUSY stands until it can be. -/
def State.take (s : State) (p : Nat) (c : Pcmd) : State :=
  match s.perform? p c with
  | .ok s => s
  | .error s => s.modPart p fun x => { x with busy := true, pending := some c }

/-- The commands that stand BUSY and can now be performed (R362). -/
def State.pendingCommands (s : State) : State :=
  (List.range Config.partitions).foldl (fun s p => match (s.part p).pending with
    | some c => match s.perform? p c with | .ok s => s | .error s => s
    | none => s) s

/-- DESTROY (R362, R370, R419). -/
def State.cmdDestroy (s : State) (p : Nat) (ok : Bool) : Host.Outcome State Fault Refusal :=
  command s p ok [.config, .run, .halted, .saved] fun x =>
    if x.state = .config then .next ((s.modPart p fun x => { x with state := .free }).result p .ok) else .next (s.take p .destroy)

/-- DESTROY -/
def execDestroy (p : Nat) (vf : Bool) (s : State) : Host.Outcome State Fault Refusal := s.cmdDestroy p (!vf)

/-- HALT (R357, R386). -/
def State.cmdHalt (s : State) (p : Nat) (ok : Bool) : Host.Outcome State Fault Refusal := command s p ok [.run] fun _ => .next (s.take p .halt)

/-- HALT -/
def execHalt (p : Nat) (vf : Bool) (s : State) : Host.Outcome State Fault Refusal := s.cmdHalt p (!vf)

/-- RESUME (R337, R357, R386, R394). -/
def State.cmdResume (s : State) (p : Nat) (ok : Bool) : Host.Outcome State Fault Refusal := command s p ok [.halted] fun _ => .next (s.take p .resume)

/-- RESUME -/
def execResume (p : Nat) (vf : Bool) (s : State) : Host.Outcome State Fault Refusal := s.cmdResume p (!vf)

/-- A SAVE record (R384, R385); a stage-2 fault of the write is told in it. -/
def State.saveRecord (s : State) (p addr : Nat) (f : Option WalkFault) : State :=
  s.pushFault p (recordW0 5 0 (f.any (·.malf)) (f.any (·.stage2)) f.isSome false) 0 (BitVec.ofNat 64 addr) s.now

/-- The first page of the save area that lacks PIN or cannot be written, with the fault (R387). -/
def State.badSavePage (s : State) (p : Nat) : Option (Nat × Option WalkFault) :=
  let x := s.part p
  let base := x.savebase.toNat
  (List.range ((base % 65536 + x.savesize.toNat + 65535) / 65536)).findSome? fun i =>
    let a := if i = 0 then base else base / 65536 * 65536 + 65536 * i
    match s.stage2 p a needW with
    | .ok l => if bitAt l.pte 6 then none else some (a, none)
    | .error f => some (a, some f)

/-- Some launch of the partition has a malformed backsight table (R323). -/
def State.anyBadTable (s : State) (p : Nat) : Bool :=
  s.launches.any fun l => l.part == p && l.params.backsight != 0 && (s.bsTable p l.params.backsight).isNone

/-- SAVEFULL and SAVEBACK (R387): the checks; the image is written by a step of its own. -/
def State.cmdSave (s : State) (p : Nat) (ok back : Bool) : Host.Outcome State Fault Refusal :=
  command s p ok [.halted] fun x =>
    let s := if back then (s.tablesSeen p).modPart p fun x => { x with badtable := s.anyBadTable p } else s
    if x.savesize.toNat < s.saveBytes p back then .next (s.result p .toosmall)
    else match s.badSavePage p with
      | some a => .next ((s.saveRecord p a.1 a.2).result p .refused)
      | none => .next (s.modPart p fun x => { x with busy := true, saving := if back then .back else .full })

/-- SAVEFULL -/
def execSavefull (p : Nat) (vf : Bool) (s : State) : Host.Outcome State Fault Refusal := s.cmdSave p (!vf) false
/-- SAVEBACK -/
def execSaveback (p : Nat) (vf : Bool) (s : State) : Host.Outcome State Fault Refusal := s.cmdSave p (!vf) true

/-- A traverse command writes scratch (R387): by its destination record, as it was read or as it stands. -/
def State.travScratch (s : State) (t : TravCmd) : Bool :=
  match t.recs with
  | some (_, db) => windowOf (shapeOf db).base == some .scratch
  | none => match s.walk t.part t.dst.toNat needR with
    | .ok l => windowOf (s.homeDword l.attr (s.genOf t.part) (leafPa l t.dst)) == some .scratch
    | .error _ => false

/-- What a save waits for (R325, R387): products, register returns, and operations of the partition that write scratch rows; a rewound group's returns only into its save set. A launch
or a run whose work has ended completes and signals first (R358). -/
def State.saveWaits (s : State) (p : Nat) (back : Bool) : Bool :=
  let gs := s.groups.filter (·.part == p)
  let ids := gs.map (·.gid)
  let counts (r : Ret) : Bool := match s.group? r.gid with
    | none => false
    | some g => match s.howSaved back g with
      | none => true
      | some pt => (saveRows pt.codes).any fun i => decide (r.row ≤ i) && decide (i < r.row + r.count)
  (s.products.any fun x => x.members.any fun m => ids.contains m.gid) || (s.rets.any fun r => ids.contains r.gid && counts r) ||
    (s.asys.any fun a => a.part == p && a.fill) || (s.travs.any fun t => t.part == p && s.travScratch t) || (s.near.any fun n => ids.contains n.gid) ||
    s.endsPending p

/-- Every line of the save area is quiet (log 13). -/
def State.areaQuiet (s : State) (p n : Nat) : Bool :=
  (List.range ((n + 127) / 128)).all fun i => match s.stage2 p ((s.part p).savebase.toNat + 128 * i) ⟨false, false, false⟩ with
    | .ok l => l.attr == 1 || s.quiet (l.at_ ((s.part p).savebase.toNat + 128 * i) / 128)
    | .error _ => true

/-- The 64 KiB pages of a partition-physical range that are still marked COW (R417). -/
def State.cowPages (s : State) (p ipa n : Nat) : List Nat :=
  ((List.range ((ipa + n + 65535) / 65536 - ipa / 65536)).map fun i => (ipa / 65536 + i) * 65536).filter fun a => match s.stage2 p a ⟨false, false, false⟩ with
    | .ok l => bitAt l.pte 62
    | .error _ => false

/-- A write of an image waits for such pages, which are drained next (R417). -/
def State.cowWaits (s : State) (p : Nat) (pages : List Nat) : State := pages.foldl (fun s a => s.wantPage p a) s

/-- The blocks of a save with their images and the places of these, and the byte after the last (R389). -/
def State.layout (s : State) (p : Nat) (back : Bool) : List (Block × Img × Nat) × Nat :=
  (s.partBlocks p).foldl (fun acc b =>
    let m := s.savedImage p back b
    (acc.1 ++ [(b, m, acc.2)], acc.2 + m.bytes.length)) ([], (s.part p).savebase.toNat + 64)

/-- The header of a save area (R389). -/
def State.saveHeader (s : State) (p : Nat) (back : Bool) (code n used first : Nat) : List Byte :=
  let x := s.part p
  dwordsBytes [BitVec.ofNat 64 (code + bitIf back 16 + bitIf x.badtable 17 + n * 2 ^ 32), BitVec.ofNat 64 used, x.haltTime, BitVec.ofNat 64 x.gen,
    BitVec.ofNat 64 first, 0, 0, 0]

/-- The pages of a save area that can be written hold free values (R388, log 3). -/
def State.spoilArea (s : State) (p : Nat) : Nat → Nat → State
  | 0, _ => s
  | fuel + 1, ipa =>
    let x := s.part p
    let last := x.savebase.toNat + x.savesize.toNat
    let n := min (65536 - ipa % 65536) (last - ipa)
    if last ≤ ipa then s
    else match s.stage2 p ipa needW with
      | .error _ => s.spoilArea p fuel (ipa + n)
      | .ok l =>
        let bs : List Byte := (List.range n).map fun i => (Config.freeWord (s.freeCtr + i)).truncate 8
        let s := if bitAt l.pte 6 then State.poke { s with freeCtr := s.freeCtr + n } l.attr (s.genOf p) (l.at_ ipa) bs false else s
        s.spoilArea p fuel (ipa + n)

/-- SAVE_IMAGE_WRITE (R387 to R389, R417): the image is written once nothing is waited for; `bad` lists the 32-byte units, by number within the area, that an uncorrectable error
meets. -/
def execSaveImageWrite (p : Nat) (bad : List Nat) (s : State) : Host.Outcome State Fault Refusal :=
  let x := s.part p
  let back : Bool := x.saving == .back
  if 40 ≤ p ∨ x.saving = .none ∨ s.saveWaits p back then .next s
  else
    let (imgs, last) := s.layout p back
    let base := x.savebase.toNat
    let used := last - base
    let hurt := bad.filter fun u => decide (32 * u < used)
    let first := match hurt.foldl (fun (m : Option Nat) u => some (match m with | some v => min u v | none => u)) none with
      | some u => base + 32 * u
      | none => 0
    let code := if hurt.isEmpty then 0 else 6
    if !s.areaQuiet p used then .next s
    else if !(s.cowPages p base used).isEmpty then .next (s.cowWaits p (s.cowPages p base used))
    else
      let s := (if back then s.tablesSeen p else s).modPart p fun x => { x with saveAt := base }
      let head : Img := { bytes := s.saveHeader p back code imgs.length used first, pois := [] }
      let written := ((base, head) :: imgs.map fun i => (i.2.2, i.2.1)).foldl (fun (acc : Except (Nat × Option WalkFault) State) i => acc.bind fun s => s.writeImage p i.1 i.2) (.ok s)
      match written with
      | .error a =>
        if !s.areaQuiet p x.savesize.toNat then .next s
        else if !(s.cowPages p base x.savesize.toNat).isEmpty then .next (s.cowWaits p (s.cowPages p base x.savesize.toNat))
        else
          let s := s.spoilArea p (x.savesize.toNat / 65536 + 2) base
          .next (((s.saveRecord p a.1 a.2).modPart p fun x => { x with saving := .none }).result p .refused)
      | .ok s =>
        let s := hurt.foldl (fun s u => s.physPoison p (base + 32 * u)) s
        let s := imgs.foldl (fun s i => if resident i.1 then s.takeOut back false i.1 i.2.2 else s.modBlock i.1.bid fun b => { b with image := some i.2.2 }) s
        let s := if hurt.isEmpty then s else s.saveRecord p first none
        .next ((s.modPart p fun x => { x with saving := .none, state := .saved }).result p (if hurt.isEmpty then .ok else .poisoned))

/-- THE SAVE AREA AS IT STANDS (R389, R390): GEN of its header, and the partition's saved and swapped blocks, each with the image that stands at its own place in the area, wherever SAVEBASE
has put that area meanwhile, and that place. The images of blocks that a KILL has removed are passed over (R391). -/
def State.savedArea (s : State) (p : Nat) : Option (Nat × List (Block × Img × Nat)) :=
  let base := (s.part p).savebase.toNat
  (s.physBytes p base 64).bind fun h =>
    ((s.partBlocks p).mapM fun (b : Block) => b.image.bind fun i =>
      let at_ := i - (s.part p).saveAt + base
      (s.imageAt p at_).map fun m => (b, m, at_)).map fun r => (leAt h.bytes 24 8, r)

/-- RESTORE (R326, R390): each block goes back to what it left; an image under another generation reads zero in its scratch and rows. -/
def State.cmdRestore (s : State) (p : Nat) (ok : Bool) : Host.Outcome State Fault Refusal :=
  command s p ok [.saved] fun _ =>
    match s.savedArea p with
    | none => .next (s.result p .waiting)
    | some (gen, ims) =>
      let back := ims.filter fun i => !i.1.swapped
      if !back.all (fun i => s.roomBack i.1) then .next (s.result p .waiting)
      else
        let s := ims.foldl (fun s i => (s.physSeen p i.2.2 i.2.1.bytes.length).modBlock i.1.bid fun b => { b with image := some i.2.2 })
          (s.physSeen p (s.part p).savebase.toNat 64)
        let back := back.map fun i => (i.1, if gen = (s.part p).gen then i.2.1 else foreignImage i.1 (s.blockGroups i.1) i.2.1)
        .next (((s.putBacks p true back).modPart p fun x => { x with state := .halted }).result p .ok)

/-- RESTORE -/
def execRestore (p : Nat) (vf : Bool) (s : State) : Host.Outcome State Fault Refusal := s.cmdRestore p (!vf)

/-- KILL (R359, R362, R391, R419). -/
def State.cmdKill (s : State) (p : Nat) (ok : Bool) : Host.Outcome State Fault Refusal :=
  command s p ok [.run, .halted, .saved] fun x => .next (s.take p (.kill (fieldN x.parg 5 0)))

/-- KILL -/
def execKill (p : Nat) (vf : Bool) (s : State) : Host.Outcome State Fault Refusal := s.cmdKill p (!vf)

/-- REPLAY (R385, R391): every access parked on a fault is tried again at its group's next issue. -/
def State.cmdReplay (s : State) (p : Nat) (ok : Bool) : Host.Outcome State Fault Refusal :=
  command s p ok [.run] fun _ =>
    let s : State := { s with groups := s.groups.map fun g => if g.part = p ∧ g.park = .fault then { refetch g with park := .none } else g }
    .next (s.result p .ok)

/-- REPLAY -/
def execReplay (p : Nat) (_vf : Bool) (s : State) : Host.Outcome State Fault Refusal := s.cmdReplay p true

/-- TLBINV (R382): from the VF for stage 1 only (R360). The TLBs are cleared when it is taken; BUSY stands until every access of the partition that was under way then has been performed
(log 74). -/
def State.cmdTlbinv (s : State) (p : Nat) (vf : Bool) : Host.Outcome State Fault Refusal :=
  command s p (!vf || !bitAt (s.part p).parg 1) [.run, .halted, .saved] fun x =>
    let s := s.tlbInvalidate p x.parg
    .next (s.take p (.tlbinv x.parg (s.pendsOf p) (s.accessesOf p)))

/-- TLBINV -/
def execTlbinv (p : Nat) (vf : Bool) (s : State) : Host.Outcome State Fault Refusal := s.cmdTlbinv p vf

/-- The launches of a queue in ring order, those of a run in node order (R362). -/
def State.ringOrder (s : State) (p q : Nat) : List Launch :=
  let key (l : Launch) : Nat × Nat := (l.pk, match l.node with | some (_, i) => i + 1 | none => 0)
  sortBy (fun a b => decide ((key a).1 < (key b).1 ∨ ((key a).1 = (key b).1 ∧ (key a).2 ≤ (key b).2)))
    (s.launches.filter fun l => l.part == p && l.q == q && s.inProgress l)

/-- GSTEP (R286, R362): the group issues one instruction; BUSY stands until it has. -/
def State.cmdGstep (s : State) (p : Nat) (ok : Bool) : Host.Outcome State Fault Refusal :=
  command s p ok [.run, .halted] fun x =>
    let a := x.parg
    let sel := fieldN a 40 38
    let gid := (s.ringOrder p (fieldN a 46 41)).findSome? fun l => s.peerGid l.lid (fieldN a 37 14) (fieldN a 13 10) (fieldN a 9 0)
    match gid.bind s.group? with
    | none => .next (s.result p .badstate)
    | some g =>
      if !g.halt || g.halt280 || !stepReady g sel || g.stepReq.isSome then .next (s.result p .badstate)
      else
        let s := s.modGroup g.gid fun g => { unhalt g with halt := true, stepReq := some { entry := sel, by_ := none } }
        .next (s.modPart p fun x => { x with busy := true })

/-- GSTEP -/
def execGstep (p : Nat) (_vf : Bool) (s : State) : Host.Outcome State Fault Refusal := s.cmdGstep p true

/-- WAYMASKd written (R375, R376): added ways are used from the next fill; removed ones are closed at once and walked. -/
def State.putWaymask (s : State) (p d : Nat) (v : Dword) : State :=
  let x := s.part p
  if 40 ≤ p ∨ 4 ≤ d ∨ vget x.walk d false then s
  else
    let old := vget x.waymask d 0
    let new : BitVec 24 := field v 23 0
    s.modPart p fun x => { x with waymask := vset x.waymask d new, walk := vset x.walk d (old &&& ~~~new != 0) }

/-- WAYMASK_WRITE (R360: PF only). -/
def execWaymaskWrite (p : Nat) (die : Nat) (value : Dword) (vf : Bool) (s : State) : Host.Outcome State Fault Refusal :=
  .next (if vf then s else s.putWaymask p die value)

/-- The lines of a partition in ways of a die that are no longer in its mask (R376). -/
def State.walked (s : State) (p d : Nat) : List L2Way :=
  s.ways.filter fun w => w.die == d && w.part == p && !(vget (s.part p).waymask d 0).getLsbD w.way

/-- Nothing is under way for the line in a way, so that the slice may give it up. -/
def State.wayIdle (s : State) (w : L2Way) : Bool := if w.die = homeDie w.line then s.quiet w.line else s.sliceIdle w.die w.line

/-- Ways walked out (R376): a line at its home is recalled from every cache and written back, a requester-side slice gives its line up; then no way holds it. -/
def State.clearWays (s : State) (ws : List L2Way) : State :=
  let s := ws.foldl (fun s w => if w.die = homeDie w.line then s.recallAll w.line else s.evictSlice w.die w.line) s
  { s with ways := s.ways.filter fun w => !(ws.any fun x => x.die == w.die && x.line == w.line) }

/-- WAY_WALK_END (R376): every such line has been recalled, written back and invalidated. -/
def execWayWalkEnd (p : Nat) (die : Nat) (s : State) : Host.Outcome State Fault Refusal :=
  let ws := s.walked p die
  if !vget (s.part p).walk die false || ws.any (fun w => !s.wayIdle w) then .next s
  else .next ((s.clearWays ws).modPart p fun x => { x with walk := vset x.walk die false })

/-- FQCTL written (R383): DROPPED is cleared by any write. -/
def putFqctl (v : Dword) (x : Part) : Part := { x with fqEn := bitAt v 8, fqLog2 := field v 4 0, fqDrop := 0 }

/-- FQCTL_WRITE -/
def execFqctlWrite (p : Nat) (value : Dword) (s : State) : Host.Outcome State Fault Refusal := .next (s.modPart p (putFqctl value))

/-- FWDCLR written (R407, R423): the stub of the line is removed. -/
def State.clearStub (s : State) (v : Dword) : State :=
  { s with dev := { s.dev with stubs := s.dev.stubs.filter fun t => t.line != v.toNat / 128 } }

/-- FWDCLR -/
def execFwdclr (value : Dword) (s : State) : Host.Outcome State Fault Refusal := .next (s.clearStub value)

/-- A register of a partition's block that holds what is written to it (R360, R364, R367), by offset, with its reserved bits masked; none for the others. -/
def putReg (r : Nat) (v : Dword) (vf : Bool) (x : Part) : Option Part :=
  let config : Bool := x.state == .config
  match r with
  | 0x010 => some { x with parg := v }
  | 0x018 => if vf ∨ !config then none else some { x with place := v }
  | 0x020 => if vf ∨ !config then none else some { x with quota := v &&& 0x1FFFFFFFFFFFFF }
  | 0x028 => if vf ∨ !config then none else some { x with cisrange := v &&& 0xFFDFF }
  | 0x050 => if vf then none else some { x with s2root := v &&& ~~~0x7FF }
  | 0x058 => some { x with s1root := v &&& ~~~0x7FF }
  | 0x060 => some { x with qtable := v }
  | 0x068 => some { x with fqbase := v &&& ~~~0xFFF }
  | 0x070 => some (putFqctl v x)
  | 0x080 => some { x with fqrd := v }
  | 0x088 => some { x with mbox := v }
  | 0x090 => if vf then none else some { x with weirwin := field v 7 0 }
  | 0x098 => if vf then none else some { x with savebase := v &&& ~~~0xFFF }
  | 0x0A0 => if vf then none else some { x with savesize := v }
  | 0x0B0 => some { x with swap := if vf then x.swap else bitAt v 0, dbkpt := bitAt v 1 }
  | _ => none

/-- A PCMD write by its OP (R361, R362). -/
def State.pcmd (s : State) (p op : Nat) (vf : Bool) : Host.Outcome State Fault Refusal :=
  match op with
  | 0x1 => s.cmdOpen p (!vf)
  | 0x2 => s.cmdCreate p (!vf)
  | 0x3 => s.cmdDestroy p (!vf)
  | 0x4 => s.cmdHalt p (!vf)
  | 0x5 => s.cmdResume p (!vf)
  | 0x6 => s.cmdSave p (!vf) false
  | 0x7 => s.cmdSave p (!vf) true
  | 0x8 => s.cmdRestore p (!vf)
  | 0x9 => s.cmdKill p (!vf)
  | 0xA => s.cmdReplay p true
  | 0xB => s.cmdTlbinv p vf
  | 0xC => s.cmdGstep p true
  | _ => .next s

/-- PWRLIMIT written (R407): values outside 1,200 to 3,200 W are ignored. -/
def State.putPower (s : State) (v : Dword) : State :=
  let w := fieldN v 11 0
  if 1200 ≤ w ∧ w ≤ 3200 then { s with dev := { s.dev with pwrlimit := field v 11 0 } } else s

/-- A register of BAR0 written (R5, R6, R360, R407): `vf` says that the write came through the partition's virtual function, whose block is addressed here at its place in the
physical function; a write narrower than a double word is ignored. -/
def execRegisterWrite (offset : Nat) (value : Dword) (bytes : Nat) (vf : Bool) (s : State) : Host.Outcome State Fault Refusal :=
  if bytes ≠ 8 then .next s
  else if offset < 0x100000 then
    if vf then .next s
    else if offset = 0x010 then .next (s.putPower value)
    else if offset = 0x018 then .next (s.clearStub value)
    else .next s
  else
    let p := (offset - 0x100000) / 0x1000
    let r := (offset - 0x100000) % 0x1000
    if 40 ≤ p then .next s
    else if r = 0x008 then s.pcmd p (fieldN value 3 0) vf
    else if 0x030 ≤ r ∧ r ≤ 0x048 ∧ r % 8 = 0 then .next (if vf then s else s.putWaymask p ((r - 0x030) / 8) value)
    else match putReg r value vf (s.part p) with
      | some x => .next (s.modPart p fun _ => x)
      | none => .next s

/-- Codes of RESULT and STATE (R361). -/
def resultNum : PResult → Nat
  | .ok => 0
  | .badstate => 1
  | .overlap => 2
  | .range => 3
  | .nogen => 4
  | .refused => 5
  | .poisoned => 6
  | .toosmall => 7
  | .waiting => 8
@[inherit_doc resultNum]
def stateNum : PState → Nat
  | .free => 0
  | .config => 1
  | .run => 2
  | .halted => 3
  | .saved => 4

/-- Spares left in the most-used cluster of a die (R414, R426). -/
def State.sparesLeft (s : State) (die : Nat) : Nat :=
  8 - (List.range 16).foldl (fun m c => max m ((s.dev.spares.filter fun x => x.1 == die * 16 + c).length)) 0

/-- WHAT A REGISTER OF BAR0 READS (R360, R361, R375, R383, R407, R426): a narrower access reads zero; a virtual function sees its partition's block and its counters. -/
def State.readReg (s : State) (offset bytes : Nat) (vf : Bool) : Dword :=
  let n (x : Nat) : Dword := BitVec.ofNat 64 x
  if bytes ≠ 8 then 0
  else if offset < 0x100000 then
    if vf then 0
    else match offset with
      | 0x000 => n (s.dev.err.toNat * 2 ^ 16 + s.dev.faildie.toNat * 2 ^ 8 + s.dev.stage.toNat * 16 + bitIf s.dev.ready 0)
      | 0x010 => s.dev.pwrlimit.zeroExtend 64
      | 0x100 => n s.dev.power
      | 0x108 => n s.dev.overlimit
      | 0x110 => n s.dev.corrected
      | 0x118 => n s.dev.poisoned
      | 0x120 => n (vget s.dev.firstPois 0 0)
      | 0x128 => n (vget s.dev.firstPois 1 0)
      | 0x130 => n (vget s.dev.firstPois 2 0)
      | 0x138 => n (vget s.dev.firstPois 3 0)
      | 0x140 => n s.dev.repairs
      | 0x148 => n ((List.range 4).foldl (fun a k => a + s.sparesLeft k * 2 ^ (8 * k)) 0)
      | 0x150 => n s.dev.matbusy
      | 0x158 => n s.dev.issued
      | 0x160 => n s.dev.fixbytes
      | _ => 0
  else
    let p := (offset - 0x100000) / 0x1000
    let r := (offset - 0x100000) % 0x1000
    let x := s.part p
    if 40 ≤ p then 0
    else match r with
      | 0x000 => n (resultNum x.result * 2 ^ 24 + bitIf x.busy 23 + bitIf x.badtable 16 + x.gen * 2 ^ 8 + stateNum x.state)
      | 0x010 => x.parg
      | 0x018 => x.place
      | 0x020 => x.quota
      | 0x028 => x.cisrange
      | 0x030 => n (fieldN (vget x.waymask 0 0) 23 0 + bitIf (vget x.walk 0 false) 32)
      | 0x038 => n (fieldN (vget x.waymask 1 0) 23 0 + bitIf (vget x.walk 1 false) 32)
      | 0x040 => n (fieldN (vget x.waymask 2 0) 23 0 + bitIf (vget x.walk 2 false) 32)
      | 0x048 => n (fieldN (vget x.waymask 3 0) 23 0 + bitIf (vget x.walk 3 false) 32)
      | 0x050 => x.s2root
      | 0x058 => x.s1root
      | 0x060 => x.qtable
      | 0x068 => x.fqbase
      | 0x070 => n (x.fqDrop.toNat * 2 ^ 32 + bitIf x.fqEn 8 + x.fqLog2.toNat)
      | 0x078 => x.fqwr
      | 0x080 => x.fqrd
      | 0x088 => x.mbox
      | 0x090 => x.weirwin.zeroExtend 64
      | 0x098 => x.savebase
      | 0x0A0 => x.savesize
      | 0x0A8 => n (s.saveNeed p)
      | 0x0B0 => n (bitIf x.swap 0 + bitIf x.dbkpt 1)
      | 0x818 => n x.poisoned
      | 0x850 => n x.matbusy
      | 0x858 => n x.issued
      | 0x860 => n x.fixbytes
      | _ => 0

/-- A storage without the units of a generation (R370): they read zero at generation 0. -/
def scrubbed (m : Memory) (gen : Nat) : Memory :=
  { bytes := m.bytes.filter (fun c => m.genOf c.1 != gen), gens := m.gens.filter (fun x => x.2 != gen),
    pois := m.pois.filter (fun x => m.genOf (x.1 * poisonUnit) != gen) }

/-- A line of a generation rewritten as zero at generation 0 (R370). -/
def scrubbedLine (gen : Nat) (v : LineVal) : LineVal := if v.gen = gen then { bytes := List.replicate 128 0, gen := 0, pois := 0 } else v

/-- Something in flight still carries a generation. -/
def State.genInFlight (s : State) (gen : Nat) : Bool :=
  (s.reqs.any fun r => r.gen == gen) || (s.txns.any fun t => t.req.gen == gen) || (s.pends.any fun x => x.gen == gen) || (s.near.any fun x => x.gen == gen) ||
    (s.weir.any fun x => x.gen == gen) || (s.sites.any fun x => x.gen == gen) || (s.fills.any fun f => f.val.gen == gen) ||
    (s.answers.any fun a => match a.val with | some v => v.gen == gen | none => false) || s.uevicts.any fun u => u.val.gen == gen

/-- GENERATION_SCRUB (R370): every unit of a released generation has been rewritten, and the value is free again. -/
def execGenerationScrub (gen : Nat) (s : State) : Host.Outcome State Fault Refusal :=
  if !s.dev.scrub.contains gen || s.genInFlight gen then .next s
  else .next { s with
    dram := scrubbed s.dram gen, scratch := scrubbed s.scratch gen, cistern := scrubbed s.cistern gen,
    l1 := s.l1.map (fun l => { l with val := scrubbedLine gen l.val }), slices := s.slices.map (fun l => { l with val := scrubbedLine gen l.val }),
    tiles := s.tiles.filter (fun t => t.gen != gen), recs := s.recs.filter (fun r => r.gen != gen),
    icache := s.icache.map (fun l => { l with val := scrubbedLine gen l.val }),
    dev := { s.dev with scrub := s.dev.scrub.erase gen, freeGens := s.dev.freeGens ++ [gen] } }

/-- Every split of a group is parked in `mwait` or `waitc`, with nothing of it outstanding (R392), nor an operation that writes scratch rows (R387). -/
def State.idleGroup (s : State) (g : Group) : Bool :=
  !g.halt && g.mmas.isEmpty && g.xshufs.isEmpty && !(s.rets.any fun r => r.gid == g.gid) && !(s.asys.any fun a => a.gid == g.gid && a.fill) &&
    !(s.travs.any fun t => t.gid == g.gid && s.travScratch t) && !(s.near.any fun n => n.gid == g.gid) && entries.all fun k =>
    let e := entry g k
    e.state == .free || (e.state == .waitPark && (match e.wait with | .mwait .. => true | .waitc .. => true | _ => false))

/-- A block of the partition waits for room (R392). -/
def State.wantsRoom (s : State) (p : Nat) : Bool :=
  s.launches.any fun l => l.part == p && s.mayPlace l && (s.dispatchSpan l).isNone

/-- Where a swapped block's image goes (R392): behind what a full save would use, and behind the images already there. -/
def State.swapPlace (s : State) (p : Nat) : Nat :=
  (s.partBlocks p).foldl (fun a b => match b.image with
    | some i => max a (i + (match s.keptImage p b with | some m => m.bytes.length | none => 0))
    | none => a) ((s.part p).savebase.toNat + s.saveNeed p)

/-- BLOCK_SWAP_OUT (R91, R392, R417). -/
def execBlockSwapOut (bid : Nat) (s : State) : Host.Outcome State Fault Refusal :=
  match s.block? bid with
  | none => .next s
  | some b =>
    let x := s.part b.part
    let m := s.blockImage false b
    let at_ := s.swapPlace b.part
    if !x.swap || x.state != .run || !resident b || b.gids.isEmpty || !(s.groupsOf bid).all s.idleGroup || !s.wantsRoom b.part ||
        decide (x.savebase.toNat + x.savesize.toNat < at_ + m.bytes.length) || !s.areaQuiet b.part (at_ - x.savebase.toNat + m.bytes.length) then .next s
    else if !(s.cowPages b.part at_ m.bytes.length).isEmpty then .next (s.cowWaits b.part (s.cowPages b.part at_ m.bytes.length))
    else match s.writeImage b.part at_ m with
      | .error _ => .next s
      | .ok s => .next (s.takeOut false true b at_)

/-- A swapped group has something to go on for (R91, R392): a match, a completion that satisfies its `waitc`, or a timeout. -/
def State.wakes (s : State) (g : Group) : Bool :=
  entries.any fun k => match (entry g k).wait with
    | .waitc path limit =>
      let open_ : Nat := match path with
        | .asy | .trv => ((pathCtl g path).closed.dropWhile fun b => !s.batchOpen g.gid path b).length
        | _ => pathOut g path
      decide (open_ ≤ limit.toNat)
    | .mwait _ id _ rem => rem == some 0 || s.mons.any fun m => m.id == id && (s.hitOf m).isSome
    | _ => false

/-- A launch of a block has been killed (R359, R392). -/
def State.blockKilled (s : State) (b : Block) : Bool := s.launches.any fun l => l.lid == b.lid && l.killed

/-- BLOCK_SWAP_IN (R91, R359, R392): a block queued for restore goes back to the resources it left, once they are free; one queued by a kill is removed then. -/
def execBlockSwapIn (bid : Nat) (s : State) : Host.Outcome State Fault Refusal :=
  match s.block? bid with
  | none => .next s
  | some b =>
    if !b.swapped || (s.part b.part).state != .run || !(s.blockKilled b || (s.blockGroups b).any s.wakes) || !s.roomBack b then .next s
    else match s.keptImage b.part b with
      | none => .next s
      | some m =>
        let s1 := ((b.image.map fun i => s.physSeen b.part i m.bytes.length).getD s).putBacks b.part false [(b, m)]
        .next (if s.blockKilled b then s1.removeBlocks [b] else s1).settle

end Sys2Proof.Machine
end

