-- ==== Sys2Proof/Machine/Device.lean ====
section
/-! DEFINITION. The device as a whole (R407 to R414, R424 to R426): power-up, meridian alignment, power windows, errors, spares and repair, measurements and quotes. -/

namespace Sys2Proof.Machine

/-- A failed stage of power-up (R408): ERR, and FAILDIE where the failure names a die or link; STAGE stays. -/
def State.bootFails (s : State) (err faildie : Nat) : State :=
  s.modDev fun d => { d with err := BitVec.ofNat 8 err, faildie := BitVec.ofNat 8 faildie }

/-- Power-up stands at this stage and has not failed (R408). -/
def State.bootAt (s : State) (stage : Nat) : Bool := s.dev.stage.toNat == stage && s.dev.err == 0

/-- The device as power becoming good finds it (R408: no always-on island): all at reset but what lies outside it (host memory, peers, storage nodes) and the firmware's
record of repairs (R414). -/
def State.powered (s : State) : State :=
  { State.reset with
    agenda := s.agenda, freeCtr := s.freeCtr, nextId := s.nextId, host := s.host, peer := s.peer,
    dev := { Dev.reset with spares := s.dev.spares, l2spare := s.dev.l2spare, dramSpared := s.dev.dramSpared, laneSpared := s.dev.laneSpared,
                            storage := s.dev.storage } }

/-- POWER_GOOD (R408, stage 1): the firmware is verified. -/
def execPowerGood (verified : Bool) (s : State) : Host.Outcome State Fault Refusal :=
  .next (if verified then s.powered.modDev fun d => { d with stage := 1 } else s.powered.bootFails 1 0)

/-- IMAGE_VERIFY (R408, stage 2). -/
def execImageVerify (verified : Bool) (s : State) : Host.Outcome State Fault Refusal :=
  if !s.bootAt 1 then .next s
  else .next (if verified then s.modDev fun d => { d with stage := 2 } else s.bootFails 2 0)

/-- SELF_CALIBRATION (R408, stage 3; R409): the meridian counters are loaded from the reference, or start from 0; a failure names a die (ERR 3), or a link (ERR 5). -/
def execSelfCalibration (result : Option (Bool × Nat)) (reference : Option Dword) (s : State) : Host.Outcome State Fault Refusal :=
  if !s.bootAt 2 then .next s
  else
    let s : State := { s with meridian := Vector.replicate 4 (reference.getD 0) }
    match result with
    | none => .next (s.modDev fun d => { d with stage := 3 })
    | some (link, n) => .next (s.bootFails (if link then 5 else 3) n)

/-- Every unit zero at generation 0 with valid checks (R368, R369, R408). -/
def State.cleared (s : State) : State :=
  { s with dram := Memory.empty, scratch := Memory.empty, cistern := Memory.empty, tiles := [], l1 := [], icache := [], slices := [], dirs := [], ways := [], recs := [] }

/-- MEMORY_INIT (R408, stages 4 and 5): READY is set. -/
def execMemoryInit (result : Option Nat) (s : State) : Host.Outcome State Fault Refusal :=
  if !s.bootAt 3 then .next s
  else match result with
    | none => .next (s.cleared.modDev fun d => { d with stage := 5, ready := true })
    | some n => .next (s.bootFails 4 n)

/-- FERZU_LINK_UP (R409): the device aligns itself to the lowest node it has met, which it follows from then on (log 70): before any partition is opened the counter steps to that
node's time, afterwards it only slews toward it. -/
def execFerzuLinkUp (node : Nat) (time : Dword) (s : State) : Host.Outcome State Fault Refusal :=
  if s.dev.follows.any (fun f => decide (f < node)) then .next s
  else
  let s := s.modDev fun d => { d with follows := some node }
  if s.dev.opened then .next (s.modDev fun d => { d with slew := (time.toNat : Int) - (s.now.toNat : Int) })
  else .next { s with meridian := Vector.replicate 4 time }

/-- POWER_WINDOW (R411, R426): a 10 ms window ends with this average. -/
def execPowerWindow (milliwatts : Nat) (s : State) : Host.Outcome State Fault Refusal :=
  .next (s.modDev fun d => { d with power := milliwatts, overlimit := d.overlimit + if d.pwrlimit.toNat * 1000 < milliwatts then 1 else 0 })

/-- CORRECTABLE_ERROR (R413): corrected and counted. -/
def execCorrectableError (s : State) : Host.Outcome State Fault Refusal := .next (s.modDev fun d => { d with corrected := d.corrected + 1 })

/-- A line's value with one of its units poisoned. -/
def poisonUnitOf (v : LineVal) (unit : Nat) : LineVal := { v with pois := v.pois ||| (1#4 <<< unit) }

/-- A newly poisoned unit of a line is counted, with its address (R426). -/
def State.countUnit (s : State) (v : LineVal) (line unit : Nat) : State := (s.countPoison v.gen).firstPoison (line * 128 + 32 * (unit % 4))

/-- A command is at work in an engine. -/
def State.working (s : State) : EngineWork → Bool
  | .asy id => s.asys.any (·.id == id)
  | .trav id => s.travs.any (·.id == id)
  | .copy cl ch => s.chans.any fun c => c.cluster == cl && c.ch == ch && c.cur.isSome
  | .qnt id => s.qnts.any (·.id == id)

/-- The save code of a scalar, index or predicate register (R322). -/
def ownReg (code : Nat) : Bool := codeOk code && code / 8192 != 0

/-- The unit at a place is poisoned (R413), or a group's register that cannot be read when its core is replaced (R414): nothing where the place holds no unit or its unit is poisoned already; a failed check of data in an engine's hands is met when the engine
writes that data (R258). -/
def State.poisonAt (s : State) (place : ErrorPlace) : State :=
  match place with
  | .memory u =>
    let pa := u * poisonUnit
    if !populated pa || mapGet false s.dram.pois u then s
    else ({ s with dram := s.dram.setPoison pa true }.countPoison (s.dram.genOf pa)).firstPoison pa
  | .scratch u =>
    let a := u * poisonUnit
    if mapGet false s.scratch.pois u then s else { s with scratch := s.scratch.setPoison a true }.countPoison (s.scratch.genOf a)
  | .cistern u =>
    let a := u * poisonUnit
    if mapGet false s.cistern.pois u then s else { s with cistern := s.cistern.setPoison a true }.countPoison (s.cistern.genOf a)
  | .row gid i =>
    match s.group? gid with
    | some g =>
      if g.allot ≤ i ∨ (row g i).poison then s
      else (s.setGroup { g with rows := mapPut rowZero g.rows i { row g i with poison := true } }).countPoison (s.genOf g.part)
    | none => s
  | .tile core unit =>
    match s.tiles.find? fun t => t.core == core && t.unit == unit with
    | some t => if t.poison then s else (s.putTile { t with poison := true }).countPoison t.gen
    | none => s
  | .l1 core line unit =>
    match s.l1Line? core line with
    | some l => if l.val.pois.getLsbD unit then s else (s.putL1 { l with val := poisonUnitOf l.val unit }).countUnit l.val line unit
    | none => s
  | .code core line unit =>
    match s.icache.find? fun l => l.core == core && l.line == line with
    | some l =>
      if l.val.pois.getLsbD unit then s
      else State.countUnit { s with icache := s.icache.map fun x => if x = l then { x with val := poisonUnitOf x.val unit } else x } l.val line unit
    | none => s
  | .slice die line unit =>
    match s.sliceLine? die line with
    | some l =>
      if !s.hasWay die line || l.val.pois.getLsbD unit then s
      else State.countUnit { s with slices := s.slices.map fun x => if x = l then { x with val := poisonUnitOf x.val unit } else x } l.val line unit
    | none => s
  | .record cluster pa =>
    match s.recs.find? fun r => r.cluster == cluster && r.pa == pa && !r.pois with
    | some r => State.countPoison { s with recs := s.recs.map fun x => if x = r then { x with pois := true } else x } r.gen
    | none => s
  | .reg gid code =>
    match s.group? gid with
    | some g => if !ownReg code || g.hurt.contains code then s else (s.setGroup { g with hurt := note g.hurt code }).countPoison (s.genOf g.part)
    | none => s
  | .engine w piece => if s.working w && !s.checks.contains (w, piece) then { s with checks := s.checks ++ [(w, piece)] } else s

/-- UNCORRECTABLE_ERROR (R413): the 32-byte unit, row or tile it falls in is poisoned. -/
def execUncorrectableError (place : ErrorPlace) (s : State) : Host.Outcome State Fault Refusal := .next (s.poisonAt place)

/-- A repair performed (R426). -/
def repaired (d : Dev) : Dev := { d with repairs := d.repairs + 1 }

/-- A place in the state of one core (R10). -/
def State.inCore (s : State) (core : Nat) : ErrorPlace → Bool
  | .row gid _ => match s.group? gid with | some g => g.core == core | none => false
  | .reg gid _ => match s.group? gid with | some g => g.core == core | none => false
  | .tile c _ => c == core
  | .scratch u => u * poisonUnit / 65536 == clusterOf core * 256 + core % Config.coresPerCluster
  | .l1 c _ _ => c == core
  | .code c _ _ => c == core
  | _ => false

/-- CORE_REPAIR (R414): one of the cluster's eight spares takes the core's number with the whole state of its groups; what cannot be read is moved poisoned. -/
def execCoreRepair (core : Nat) (unreadable : List ErrorPlace) (s : State) : Host.Outcome State Fault Refusal :=
  let c := clusterOf core
  if 64 ≤ c ∨ 8 ≤ (s.dev.spares.filter fun x => x.1 == c).length then .next s
  else
    let s := (unreadable.filter (s.inCore core)).foldl (fun s x => s.poisonAt x) s
    .next (s.modDev fun d => { repaired d with spares := (c, core) :: d.spares })

/-- L2_WAY_REPAIR (R414): the way is walked as in R376, and the slice's spare takes its number. -/
def execL2WayRepair (die slice way : Nat) (s : State) : Host.Outcome State Fault Refusal :=
  let ws := s.ways.filter fun w => w.die == die && homeSlice w.line == slice && w.way == way
  if 4 ≤ die ∨ 64 ≤ slice ∨ 24 ≤ way ∨ s.dev.l2spare.any (fun x => x.1 == die && x.2.1 == slice) ∨ ws.any (fun w => !s.wayIdle w) then .next s
  else
    let s := s.clearWays ws
    .next (s.modDev fun d => { repaired d with l2spare := (die, slice, way) :: d.l2spare })

/-- A spare row of its bank, or a spare bank of its channel, is left for a DRAM part (R414). -/
def spareFor (d : Dev) (x : DramPart) : Bool :=
  let used := d.dramCopy ++ d.dramSpared
  let same := used.filter fun y => y.die == x.die && y.channel == x.channel
  !used.contains x && match x.row with
    | some _ => decide ((same.filter fun y => y.bank == x.bank && y.row.isSome).length < 64)
    | none => decide ((same.filter fun y => y.row.isNone).length < 2)

/-- DRAM_REPAIR (R414): the copy to the spare begins. -/
def execDramRepair (part : DramPart) (s : State) : Host.Outcome State Fault Refusal :=
  if spareFor s.dev part then .next (s.modDev fun d => { d with dramCopy := part :: d.dramCopy }) else .next s

/-- DRAM_SPARE_COPY_DONE (R414): the spare has taken the part's place, with the same contents and checks. -/
def execDramSpareCopyDone (part : DramPart) (s : State) : Host.Outcome State Fault Refusal :=
  if s.dev.dramCopy.contains part then
    .next (s.modDev fun d => { repaired d with dramCopy := d.dramCopy.erase part, dramSpared := part :: d.dramSpared })
  else .next s

/-- FERZU_LANE_REPAIR (R414): the port carries traffic on its other three lanes while its spare trains. -/
def execFerzuLaneRepair (port lane : Nat) (s : State) : Host.Outcome State Fault Refusal :=
  if 16 ≤ port ∨ 4 ≤ lane ∨ s.dev.laneSpared.contains port ∨ s.dev.lanesDown.any (fun x => x.1 == port) then .next s
  else .next (s.modDev fun d => { d with lanesDown := (port, lane) :: d.lanesDown })

/-- SPARE_LANE_TRAINED (R414): the port is back on four lanes. -/
def execSpareLaneTrained (port : Nat) (s : State) : Host.Outcome State Fault Refusal :=
  if s.dev.lanesDown.any (fun x => x.1 == port) then
    .next (s.modDev fun d => { repaired d with lanesDown := d.lanesDown.filter (fun x => x.1 != port), laneSpared := port :: d.laneSpared })
  else .next s

/-- The 32 bytes of a measurement register (R425). -/
def measureBytes (v : BitVec 256) : List Byte := beBytes 32 v.toNat

/-- M := SHA-256(M ‖ X) (R425). -/
def extended (m : BitVec 256) (data : List Byte) : BitVec 256 :=
  BitVec.ofNat 256 ((sha256 (measureBytes m ++ data)).foldl (fun a b => a * 256 + b.toNat) 0)

/-- MEASUREMENT_EXTEND (R425): registers 0 to 7 of the device, or, as number 8 (p + 1) + i, register i of partition p, where i is 4 to 7 (log 89). -/
def execMeasurementExtend (reg : Nat) (data : List Byte) (s : State) : Host.Outcome State Fault Refusal :=
  let p := reg / 8 - 1
  let i := reg % 8
  if reg < 8 then .next (s.modDev fun d => { d with measure := vset d.measure reg (extended (vget d.measure reg 0) data) })
  else if 40 ≤ p ∨ i < 4 then .next s
  else .next (s.modPart p fun x => { x with measure := vset x.measure (i - 4) (extended (vget x.measure (i - 4) 0) data) })

/-- A quote (R425): header, nonce, the selected ones of the registers that `reg` gives, in increasing order, and the signature over them under the identity key (R424). -/
def quoteOf (reg : Nat → BitVec 256) (time : Dword) (nonce : List Byte) (mask : BitVec 8) : List Byte :=
  let head := (List.range 64).map (Config.quoteHeader Config.deviceSerial mask time)
  let regs := ((List.range 8).filter fun i => mask.getLsbD i).flatMap fun i => measureBytes (reg i)
  let body := head ++ nonce ++ regs
  body ++ (List.range 17088).map (Config.signature Config.identity body)

/-- QUOTE_REQUEST (R425, R426): of the physical function, over the device's registers, or of the virtual function that serves a partition, over the partition's own registers 4 to 7 only;
each function sees its own quotes. -/
def execQuoteRequest (vf : Option Nat) (nonce : List Byte) (mask : BitVec 8) (s : State) : Host.Outcome State Fault Refusal :=
  if nonce.length ≠ 32 then .next s
  else match vf with
    | none => .next (s.modDev fun d => { d with quote := some (quoteOf (fun i => vget d.measure i 0) s.now nonce mask) })
    | some p =>
      if 40 ≤ p ∨ mask &&& 0x0F ≠ 0 then .next s
      else .next (s.modPart p fun x => { x with quote := some (quoteOf (fun i => vget x.measure (i - 4) 0) s.now nonce mask) })

end Sys2Proof.Machine
end

