-- ==== Sys2Proof/Machine/Fix.lean ====
section
/-! DEFINITION. The fix engine (R415 to R419) and live migration with its forwarding stubs (R420 to R423). -/

namespace Sys2Proof.Machine

/-- FIX (R415, R416): under STEP a counter at N or above makes it late; otherwise the cut is armed. -/
def execFix (p q : Nat) (s : State) : Host.Outcome State Fault Refusal :=
  startPacket s p q fun s n pk => match pk.body with
    | .fix f => some do
      if !f.byTime && decide (f.n.toNat ≤ (s.part p).stepCtr.toNat) then s.finishPacket p q n pk.signal (statusWord pk.seq 0 false .lateCut)
      else
        let rs ← s.fixRanges p f
        let s := s.physSeen p f.list.toNat (16 * f.ranges)
        let run : FixRun := { q := q, seq := pk.seq, pk := n, signal := pk.signal, params := f, pages := fixPages rs, cut := none, left := [], wanted := [] }
        pure ((s.modPart p fun x => { x with fixes := x.fixes ++ [run] }).modQueue p q fun x => { x with block := some n })
    | _ => none

/-- The fix of a queue that has, or has not, cut. -/
def State.fixOf (s : State) (p q : Nat) (cut : Bool) : Option FixRun := (s.part p).fixes.find? fun f => f.q == q && f.cut.isSome == cut

/-- FIX_CUT_TIME (R416): the meridian time has reached T. Where time itself brings the instant (`State.tick`), the cut is made with it. -/
def execFixCutTime (p q : Nat) (s : State) : Host.Outcome State Fault Refusal :=
  match s.fixOf p q false with
  | some f => match f.params.byTime, f.params.when_ with
    | true, some t => if t.toNat ≤ s.nowNs then .next (s.cutFix p f) else .next s
    | _, _ => .next s
  | none => .next s

/-- A fix leaves its partition, and its packet completes. -/
def State.endFix (s : State) (p : Nat) (f : FixRun) (c : Code) : Cp State :=
  (s.modPart p fun x => { x with fixes := x.fixes.filter fun y => !(y.q == f.q && y.pk == f.pk) }).finishPacket p f.q f.pk f.signal (statusWord f.seq 0 false c)

/-- FIX_DEADLINE (R416): under STEP, T has passed before the cut. -/
def execFixDeadline (p q : Nat) (s : State) : Host.Outcome State Fault Refusal :=
  match s.fixOf p q false with
  | some f => match f.params.byTime, f.params.when_ with
    | false, some t => if t.toNat ≤ s.nowNs then cpEnd s p q (s.endFix p f .timeout) else .next s
    | _, _ => .next s
  | none => .next s

/-- A byte of the storage targets (R418): node and byte offset in one number. -/
def storeAt (node : BitVec 24) (off : Nat) : Nat := node.toNat * 2 ^ 64 + off

/-- Bytes written at a storage target. -/
def State.store (s : State) (node : BitVec 24) (off : Nat) (bs : List Byte) : State :=
  { s with dev := { s.dev with storage := (bs.zipIdx).foldl (fun m x => mapPut 0 m (storeAt node (off + x.2)) x.1) s.dev.storage } }

/-- The header of a fix image (R418). -/
def State.fixHeader (s : State) (p : Nat) (f : FixRun) (complete : Bool) : State :=
  let serial : Nat := Config.deviceSerial.toNat
  s.store f.params.node f.params.offset.toNat (dwordsBytes [0x5846495A, f.params.n, f.cut.getD 0, BitVec.ofNat 64 (p + serial * 2 ^ 8),
    BitVec.ofNat 64 f.pages.length, BitVec.ofNat 64 (bitIf complete 0), 0, 0])

/-- Bytes of one page in a fix image: data, checks, poison map (R417). -/
def fixPageBytes : Nat := 65536 + 4096 + 256

/-- The checks of a page: the CRC of each 32-byte unit (R412, R417). -/
def pageChecks (bs : List Byte) : List Byte := (List.range 2048).flatMap fun u => leBytes 2 (crcBytes ((bs.drop (32 * u)).take 32)).toNat

/-- The poison map of a page, one bit for each unit (R417). -/
def pageMap (pois : List Nat) : List Byte := (List.range 256).map fun i => BitVec.ofNat 8 ((List.range 8).foldl (fun a j => a + bitIf (pois.contains (8 * i + j)) j) 0)

/-- The page the drain takes next: one whose leaf a write waits for, else the first in range order (R417). -/
def State.nextPage (s : State) (p : Nat) (f : FixRun) : Option CowPage :=
  let parked := s.groups.filterMap fun g => match g.park with | .cow a => if g.part = p then some a else none | _ => none
  match f.left.find? (fun c => (parked ++ f.wanted).any c.covers) with
  | some a => some a
  | none => f.left.head?

/-- A page's lines are quiet. -/
def State.pageQuiet (s : State) (p page : Nat) : Bool :=
  match s.stage2 p page ⟨false, false, false⟩ with
  | .ok l => s.quietRange (l.at_ page) 65536
  | .error _ => true

/-- A page's data and poison, as the partition reads it. -/
def State.pageData (s : State) (p page : Nat) : Img :=
  match s.stage2 p page ⟨false, false, false⟩ with
  | .ok l =>
    let pa := l.at_ page
    let s := s.recallURange pa 65536
    { bytes := s.cohBytes (s.genOf p) pa 65536, pois := (List.range 2048).filter fun u => s.cohPoison (s.genOf p) (pa + 32 * u) 32 }
  | .error _ => { bytes := List.replicate 65536 0, pois := [] }

/-- A page has been copied: its leaf's COW bit is cleared, and what waited for it goes on, unless a page of the same leaf is still to be copied (R417). -/
def State.openPage (s : State) (p : Nat) (c : CowPage) : State :=
  if (s.part p).fixes.any fun f => f.left.any fun x => x.leaf == c.leaf then s else (s.setCow p c.page false).unparkCow p [c]

/-- FIX_DRAIN_PAGE (R417, R418): one page is copied, its COW bit cleared, and writes that wait for it go on; after the last the image is complete. -/
def execFixDrainPage (p q : Nat) (s : State) : Host.Outcome State Fault Refusal :=
  match s.fixOf p q true with
  | none => .next s
  | some f => match s.nextPage p f with
    | none => cpEnd s p q ((s.fixHeader p f true).endFix p f .done)
    | some c =>
      if !s.pageQuiet p c.page then .next s
      else
        let m := s.pageData p c.page
        let at_ := f.params.offset.toNat + 64 + f.pages.idxOf c.page * fixPageBytes
        let s := s.physSeen p c.page 65536
        let s1 := (s.fixHeader p f false).store f.params.node at_ (m.bytes ++ pageChecks m.bytes ++ pageMap m.pois)
        let s1 : State := { s1 with dev := { s1.dev with fixbytes := s1.dev.fixbytes + 65536 } }
        let f' := { f with left := f.left.erase c, wanted := f.wanted.filter (· != c.page) }
        let s1 := s1.modPart p fun x => { x with
          fixbytes := x.fixbytes + 65536, fixes := x.fixes.map fun y => if y.q = q ∧ y.pk = f.pk then f' else y }
        let s1 := s1.openPage p c
        if f'.left.isEmpty then cpEnd s p q ((s1.fixHeader p f true).endFix p f .done) else .next s1

/-- FIX_DRAIN_FAULT (R418): the target cannot be reached; the drain stops and the image stays incomplete. -/
def execFixDrainFault (p q : Nat) (s : State) : Host.Outcome State Fault Refusal :=
  match s.fixOf p q true with
  | none => .next s
  | some f =>
    let f' := { f with left := [] }
    let s1 := (s.clearCow p f).modPart p fun x => { x with fixes := x.fixes.map fun y => if y.q = q ∧ y.pk = f.pk then f' else y }
    cpEnd s p q ((s1.unparkCow p f.left).endFix p f' .fault)

/-- The lines of a partition that hold monitor entries (R420). -/
def State.monLines (s : State) (p : Nat) : List Nat := ((s.mons.filter fun m => m.part == p && m.space == .global).map fun m => m.addr / 128).eraseDups

/-- The 64 KiB pages of device memory that a stage-2 table and the tables below it map (R378, R379). -/
def pagesUnder (rd : Nat → Dword) : List Level → Nat → Nat
  | [], _ => 0
  | l :: rest, table => ((List.range (2 ^ (l.hi + 1 - l.lo))).map fun i =>
      let e := rd (table + 8 * i)
      let lf := bitAt e 1
      if !bitAt e 0 || (lf && !l.leaf) || pteMalformed e true lf l.lo then 0
      else if lf then (if fieldN e 9 8 = 0 then 2 ^ l.lo / 65536 else 0)
      else pagesUnder rd rest (fieldN e 55 16 * 65536)).sum

/-- The size of a partition's memory: the device pages its stage 2 maps (R420, log 71). -/
def State.memPages (s : State) (p : Nat) : Nat :=
  pagesUnder (fun a => if populated a then s.rawEntry a else 0) levels (s.part p).s2root.toNat

/-- The ranges of one QUOTA and CISRANGE are at least as large as those of another (R364, R367, R420). -/
def rangesHold (quota cis quota' cis' : Dword) : Bool :=
  decide (fieldN quota' 11 6 ≤ fieldN quota 11 6) && decide (fieldN quota' 24 18 ≤ fieldN quota 24 18) && decide (fieldN quota' 43 34 ≤ fieldN quota 43 34) &&
    decide (fieldN quota' 52 48 ≤ fieldN quota 52 48) && decide (fieldN cis' 19 10 ≤ fieldN cis 19 10)

/-- The destination that answers has room for the partition (R420). -/
def State.fitsThere (s : State) (p : Nat) (r : MigrateReply) : Bool :=
  r.config && r.created && rangesHold r.quota r.cisrange (s.part p).quota (s.part p).cisrange && decide (s.memPages p ≤ r.pages) &&
    decide (s.saveNeed p ≤ r.savesize.toNat)

/-- The partition here has room for the one that arrives (R420). -/
def State.fitsHere (s : State) (p : Nat) (a : MigrationArrival) : Bool :=
  let x := s.part p
  rangesHold x.quota x.cisrange a.source.quota a.source.cisrange && decide (a.pages ≤ s.memPages p) && decide (a.image.length ≤ x.savesize.toNat)

/-- MIGRATE on the source (R420, R421, R422), as one step with the destination's answer: halt, stubs, whose lines the home brings to itself first, and the end of the packet. -/
def execMigrate (p q : Nat) (reply : MigrateReply) (s : State) : Host.Outcome State Fault Refusal :=
  startPacket s p q fun s n pk => match pk.body with
    | .migrate node _ =>
      let s := s.modQueue p q fun x => { x with block := some n }
      if !s.fitsThere p reply || decide (Config.maxStubs < s.dev.stubs.length + reply.lines.length) then
        some (s.finishPacket p q n pk.signal (statusWord pk.seq 0 false .nofit))
      else if !((s.monLines p).all fun l => reply.lines.any (·.1 == l)) || !reply.lines.all fun x => s.quiet x.1 then none
      else some do
        let s ← s.queuesHalt p
        let s ← s.finishPacket p q n pk.signal (doneStatus pk.seq)
        let stubs := reply.lines.map fun x => { line := x.1, node := node, target := x.2 : Stub }
        let s := reply.lines.foldl (fun s x => s.recallAll x.1) s
        let s : State := { s with mons := s.mons.filter (fun m => m.part != p), dev := { s.dev with stubs := s.dev.stubs ++ stubs } }
        pure ((s.modGroups p fun g => { g with preHalt := g.halt, halt := true }).modPart p fun x => { x with state := .halted, haltTime := s.now })
    | _ => none

/-- Bytes that an inbound write covers. -/
def inboundSize : Inbound → Nat
  | .write bs _ => bs.length
  | .atom a => if a.w64 then 8 else 4
  | .tbar _ => 16

/-- An inbound write applied at the home of its place (R81, R87, R90, R371). -/
def State.applyInbound (s : State) (gen pa : Nat) : Inbound → State
  | .write bs pois => s.softPoke 0 gen pa bs pois
  | .atom a => ((s.recallAll (pa / 128)).atomHome (homeGen gen pa) pa a)
  | .tbar op => (s.tbarUpdate 0 gen pa op).1

/-- The bytes that an inbound write brings itself; an atomic and an update of a barrier bring none. -/
def inboundBytes : Inbound → List Byte
  | .write bs _ => bs
  | .atom _ => []
  | .tbar _ => []

/-- STUB_FORWARD_WRITE (R422): the oldest write that a stub has taken in, which the operands name by its place at the destination and its bytes, is applied at the destination's home. One
queue keeps the order of every peer's writes, releases among them. -/
def execStubForwardWrite (addr : Nat) (bytes : List Byte) (s : State) : Host.Outcome State Fault Refusal :=
  match s.dev.stubQ with
  | (target, w) :: rest =>
    if target ≠ addr ∨ inboundBytes w ≠ bytes ∨ s.quietRange (peerBase + target) (inboundSize w) = false then .next s
    else .next (State.applyInbound { s with dev := { s.dev with stubQ := rest } } 0 (peerBase + target) w).settle
  | [] => .next s

/-- An inbound write within one line reaches its home, or the line's stub (R90, R371, R422). One to a page still marked COW, or to a line under way between caches, has not come yet
(R417, log 13). -/
def State.inboundLine (s : State) (pa gen : Nat) (w : Inbound) : State :=
  match s.stubOf (pa / 128) with
  | some t => { s with dev := { s.dev with stubQ := s.dev.stubQ ++ [(stubTarget t (pa % 128), w)] } }
  | none => s.applyInbound gen pa w

/-- A WRITE OF THE HOST OR OF A PEER (R90, R371, R413, R417, R422). -/
def State.inbound (s : State) (pa gen : Nat) (w : Inbound) : State :=
  let n := inboundSize w
  let ls := Sys2Proof.Machine.linesOf pa n
  if (!(List.range n).all fun i => populated (pa + i)) || ls.any fun l => (s.stubOf l).isNone && (!s.quiet l || s.cowLine l) then
    (ls.filter fun l => (s.stubOf l).isNone && s.cowLine l).foldl (fun s l => s.wantLine l) s
  else if ls.all fun l => (s.stubOf l).isNone then s.applyInbound gen pa w
  else match w with
    | .write bs pois => (lineParts pa bs).foldl (fun s x => s.inboundLine x.1 gen (.write x.2 pois)) s
    | w => if pa % 128 + n ≤ 128 then s.inboundLine pa gen w else s

/-- WHAT A READ OF THE HOST OR OF A PEER RETURNS (R371, R413, R422): its bytes and whether one of them is poisoned; a stubbed line is read at the destination, behind the writes that its
stub has taken in. -/
def State.inboundRead (s : State) (gen pa n : Nat) : List Byte × Bool :=
  let s := s.dev.stubQ.foldl (fun s x => s.applyInbound 0 (peerBase + x.1) x.2) s
  let one (a : Nat) : Byte × Bool :=
    let at_ := match s.stubOf (a / 128) with | some t => peerBase + stubTarget t (a % 128) | none => a
    (((s.recallURange at_ 1).cohBytes gen at_ 1).headD 0, (s.recallURange at_ 1).cohPoison gen at_ 1)
  let bs := (List.range n).map fun i => one (pa + i)
  (bs.map (·.1), bs.any (·.2))

/-- What such a read leaves at the lines that it finds quiet: update-only copies combined (R79), the L2 touched (R92). -/
def State.inboundSeen (s : State) (gen pa n : Nat) : State :=
  (Sys2Proof.Machine.linesOf pa n).foldl (fun s l =>
    let a := s.homeAt (l * 128)
    if s.quiet (a / 128) then s.recallAt (if a = l * 128 then 0 else 2) gen a 128 else s) s

/-- What arrives as the state of a partition named p here (R420): blocks with their images in this save area, groups and launches. -/
def arrivedBlock (p from_ to_ : Nat) (b : Block) : Block := { b with part := p, image := b.image.map fun i => i - from_ + to_ }

/-- The numbers of the arriving records are new here. -/
def freshNumbers (n : Nat) (a : MigrationArrival) : Bool :=
  (a.blocks.all fun b => decide (n ≤ b.bid)) && (a.groups.all fun g => decide (n ≤ g.gid)) && (a.launches.all fun l => decide (n ≤ l.lid)) &&
    a.monitors.all fun m => decide (n ≤ m.id)

/-- The first number after those of the arriving records. -/
def nextNumber (n : Nat) (a : MigrationArrival) : Nat :=
  ((a.blocks.map (·.bid)) ++ (a.groups.map (·.gid)) ++ (a.launches.map (·.lid)) ++ a.monitors.map (·.id)).foldl (fun m x => max m (x + 1)) n

/-- The places of a partition's queue descriptors, where its memory stands now (R337). -/
def State.placeQueues (s : State) (p : Nat) : State :=
  s.modPart p fun x => { x with queues := x.queues.map fun q =>
    { q with descPa := match s.walk p q.desc.toNat needR with
      | .ok l => if l.attr = 0 then some (leafPa l q.desc) else none
      | .error _ => none } }

/-- MIGRATION_DESTINATION (R420, R421): the partition here, in CONFIG, is created, takes the source's memory and image with their poison, which
counts here (R413, R426), monitors, queues and registers, is restored and resumed. A group that stood halted before the migration stays halted. -/
def execMigrationDestination (p : Nat) (a : MigrationArrival) (s : State) : Host.Outcome State Fault Refusal :=
  let x := s.part p
  if 40 ≤ p ∨ x.state ≠ .config ∨ x.busy ∨ !s.fitsHere p a ∨ !freshNumbers s.nextId a ∨ !(a.memory.all fun c => s.quiet (c.1 / 128)) ∨
      !(a.pois.all fun u => s.quiet (u / 4)) then .next s
  else if badRange x then .next (s.result p .range)
  else if s.overlaps p then .next (s.result p .overlap)
  else match s.lowestGen with
    | none => .next (s.result p .nogen)
    | some gen =>
      let s1 : State := { s with nextId := nextNumber s.nextId a, dev := { s.dev with freeGens := s.dev.freeGens.erase gen } }
      let s1 := s1.modPart p fun x => { x with state := .run, gen := gen }
      let s1 := a.memory.foldl (fun s c => s.cohWrite gen c.1 [c.2] false) s1
      let s1 := a.pois.foldl (fun (s : State) u => s.cohWrite gen (32 * u) (s.cohBytes gen (32 * u) 32) true) s1
      let image := spliceBytes a.image 24 (leBytes 8 gen)
      match s1.writeImage p x.savebase.toNat { bytes := image, pois := a.imagePois } with
      | .error _ => .next (s.result p .range)
      | .ok s2 =>
        let src := a.source
        let s2 := s2.modPart p fun x => { x with
          stepCtr := src.stepCtr, watches := src.watches, weirwin := src.weirwin, mbox := src.mbox, swap := src.swap, dbkpt := src.dbkpt,
          qtable := src.qtable, qtabUsed := src.qtable, s1root := src.s1root, fqbase := src.fqbase, fqEn := src.fqEn, fqLog2 := src.fqLog2,
          fqDrop := src.fqDrop, fqwr := src.fqwr, fqrd := src.fqrd, queues := src.queues, haltTime := src.haltTime }
        let blocks := a.blocks.map (arrivedBlock p src.savebase.toNat x.savebase.toNat)
        let groups := a.groups.map fun g => { g with part := p }
        let s2 : State := { s2 with
          blocks := s2.blocks ++ blocks, saved := s2.saved ++ groups, launches := s2.launches ++ a.launches.map (fun l => { l with part := p }),
          mons := s2.mons ++ a.monitors.map fun m => { m with part := p, gen := gen } }
        let s2 := a.faults.foldl (fun s r => (s.physWrite p 2 (src.fqbase.toNat + 32 * (r.1 % 2 ^ src.fqLog2.toNat)) r.2).toOption.getD s) s2
        let back := blocks.filter fun b => !b.swapped
        match back.mapM (fun b => (s2.keptImage p b).map fun m => (b, m)) with
        | none => .next (s.result p .range)
        | some ims =>
          let s3 := s2.putBacks p true ims
          let s3 := s3.modGroups p fun g => if g.preHalt then g else unhalt g
          match s3.queuesRun p with
          | .error _ => .next s
          | .ok s4 => .next ((s4.placeQueues p).result p .ok)

end Sys2Proof.Machine
end

