-- ==== Sys2Proof/Machine/NumFn.lean ====
section
/-! DEFINITION. The unary functions of R199 and R200, correctly rounded: reciprocal and roots by exact integer division and root, the others by fixed-point series
with an error bound, rounded only when both ends of the enclosing interval round alike (log 4). -/

namespace Sys2Proof.Num

/-- Structural integer square root: bits `n` down to 0 of the root of `x`. -/
def isqrtFrom (x : Nat) : Nat → Nat → Nat
  | 0, r => if (r + 1) * (r + 1) ≤ x then r + 1 else r
  | n + 1, r => isqrtFrom x n (if (r + 2 ^ (n + 1)) * (r + 2 ^ (n + 1)) ≤ x then r + 2 ^ (n + 1) else r)

/-- The integer square root. -/
def isqrt (x : Nat) : Nat := isqrtFrom x (bitLen x / 2 + 1) 0

/-- Bits kept beyond any format's fraction in an exact quotient or root. -/
def guardBits : Nat := 64

/-- 1/x (R199, R200). -/
def frcp (f : Fp) (r : Rnd) (fz : Bool) (x : Val) : Nat :=
  match x with
  | .nan => f.nanBits
  | .inf s => f.signed s 0
  | .fin s m e =>
    if m = 0 then f.signed s f.infBits
    else
      let k := bitLen m + guardBits
      encodeRounded f r fz false s (2 ^ k / m) (-e - (k : Int)) (decide (2 ^ k % m ≠ 0))

/-- m × 2^e as m' × 2^(2h). -/
def evenExp (m : Nat) (e : Int) : Nat × Int := if e % 2 = 0 then (m, e / 2) else (2 * m, (e - 1) / 2)

/-- √x (R199, R200). -/
def fsqrt (f : Fp) (r : Rnd) (fz : Bool) (x : Val) : Nat :=
  match x with
  | .nan => f.nanBits
  | .inf s => if s then f.nanBits else f.infBits
  | .fin s m e =>
    if m = 0 then f.signed s 0
    else if s then f.nanBits
    else
      let (m', h) := evenExp m e
      let y := m' * 2 ^ (2 * guardBits)
      let q := isqrt y
      encodeRounded f r fz false false q (h - (guardBits : Int)) (decide (q * q ≠ y))

/-- 1/√x (R199, R200). -/
def frsq (f : Fp) (r : Rnd) (fz : Bool) (x : Val) : Nat :=
  match x with
  | .nan => f.nanBits
  | .inf s => if s then f.nanBits else 0
  | .fin s m e =>
    if m = 0 then f.signed s f.infBits
    else if s then f.nanBits
    else
      let (m', h) := evenExp m e
      let k := bitLen m' + guardBits
      let q := isqrt (2 ^ (2 * k) / m')
      encodeRounded f r fz false false q (-h - (k : Int)) (decide (q * q * m' ≠ 2 ^ (2 * k)))

/-- Σ z^(2i+1)/(2i+1), i from `i` on for `n` terms, in units of 2^-p; `pw` is z^(2i+1). -/
def atanhSeries (p z2 : Nat) : Nat → Nat → Nat → Nat
  | 0, _, _ => 0
  | n + 1, i, pw => pw / (2 * i + 1) + atanhSeries p z2 n (i + 1) (pw * z2 / 2 ^ p)

/-- ln((1+z)/(1-z)) in units of 2^-p for z in the same units, z at most 1/3. -/
def lnRatio (p z : Nat) : Nat := 2 * atanhSeries p (z * z / 2 ^ p) 240 0 z

/-- ln 2 in units of 2^-p (z = 1/3). -/
def ln2 (p : Nat) : Nat := lnRatio p (2 ^ p / 3)

/-- Σ (-1)^i z^(2i+1)/(2i+1) in units of 2^-p, arctan of 1/d. -/
def atanInv (p d : Nat) : Nat → Nat → Nat → Int
  | 0, _, _ => 0
  | n + 1, i, pw =>
    let t : Int := (pw / (2 * i + 1) : Nat)
    (if i % 2 = 0 then t else -t) + atanInv p d n (i + 1) (pw / (d * d))

/-- π in units of 2^-p, by Machin's formula. -/
def piFix (p : Nat) : Nat := (16 * atanInv p 5 160 0 (2 ^ p / 5) - 4 * atanInv p 239 60 0 (2 ^ p / 239)).toNat

/-- Σ y^i/i! from i on, in units of 2^-p; `t` is y^(i-1)/(i-1)!. -/
def expSeries (p y : Nat) : Nat → Nat → Nat → Nat
  | 0, _, t => t
  | n + 1, i, t => t + expSeries p y n (i + 1) (t * y / 2 ^ p / i)

/-- sin y for y in units of 2^-p up to π/2; `t` is y^(2i+1)/(2i+1)!. -/
def sinSeries (p y2 : Nat) : Nat → Nat → Nat → Int
  | 0, _, _ => 0
  | n + 1, i, t =>
    (if i % 2 = 0 then (t : Int) else -(t : Int)) + sinSeries p y2 n (i + 1) (t * y2 / 2 ^ p / ((2 * i + 2) * (2 * i + 3)))

/-- The error allowed to an approximation in its own last places: far above the sum of all roundings of the series above. -/
def slack : Nat := 2 ^ 20

/-- The precisions tried in turn. -/
def precisions : List Nat := [320, 640]

/-- Round an irrational value known to lie within `slack` of `a` × 2^e, when every value in that interval rounds alike. -/
def roundBetween (f : Fp) (r : Rnd) (fz neg : Bool) (a : Nat) (e : Int) : Option Nat :=
  if a ≤ slack then none
  else
    let lo := encodeRounded f r fz false neg (a - slack) e true
    let hi := encodeRounded f r fz false neg (a + slack - 1) e true
    if lo = hi then some lo else none

/-- The first precision at which the interval rounds to one encoding; the free value of log 4 if none does. -/
def firstRounded (fn bits : Nat) (f : Fp) (at_ : Nat → Option Nat) : Nat :=
  match precisions.findSome? at_ with
  | some b => b
  | none => (Config.functionValue fn bits).toNat % 2 ^ f.width

/-- 2^x (R199, R200). `bits` is the operand's encoding. -/
def fexp2 (f : Fp) (r : Rnd) (fz : Bool) (bits : Nat) (x : Val) : Nat :=
  match x with
  | .nan => f.nanBits
  | .inf s => if s then 0 else f.infBits
  | .fin s m e =>
    let v : Int := scaledInt s m (min e 20) (min e 0)
    if 0 ≤ e ∨ m % 2 ^ (-e).toNat = 0 then
      let n : Int := if 0 ≤ e then v else (v / (2 : Int) ^ (-e).toNat)
      encodeRounded f r fz false false 1 (min (max n (-4096)) 4096) false
    else
      let den : Int := (2 : Int) ^ (-e).toNat
      let n := v.fdiv den
      let fr := (v - n * den).toNat
      let n := min (max n (-4096)) 4096
      firstRounded 0 bits f fun p =>
        let y := fr * ln2 p / 2 ^ (-e).toNat
        roundBetween f r fz false (expSeries p y 160 1 (2 ^ p)) (n - (p : Int))

/-- log₂ x (R199, R200). -/
def flog2 (f : Fp) (r : Rnd) (fz : Bool) (bits : Nat) (x : Val) : Nat :=
  match x with
  | .nan => f.nanBits
  | .inf s => if s then f.nanBits else f.infBits
  | .fin s m e =>
    if m = 0 then f.signed true f.infBits
    else if s then f.nanBits
    else
      let n : Int := e + (m.log2 : Int)
      if m = 2 ^ m.log2 then encodeRounded f r fz false (decide (n < 0)) n.natAbs 0 false
      else
        firstRounded 1 bits f fun p =>
          let one := 2 ^ m.log2
          let z := (m - one) * 2 ^ p / (m + one)
          let v : Int := n * (2 : Int) ^ p + ((lnRatio p z * 2 ^ p / ln2 p : Nat) : Int)
          roundBetween f r fz (decide (v < 0)) v.natAbs (-(p : Int))

/-- sin(π t) for t = num / 2^den strictly between 0 and 1/2, with the sign given. -/
def sinHalfTurn (fn bits : Nat) (f : Fp) (r : Rnd) (fz neg : Bool) (num den : Nat) : Nat :=
  firstRounded fn bits f fun p =>
    let y := num * piFix p / 2 ^ den
    roundBetween f r fz neg (sinSeries p (y * y / 2 ^ p) 80 0 y).toNat (-(p : Int))

/-- |x| modulo 2 as a numerator over 2^den (R199: the argument is in half-turns). -/
def modTwo (m : Nat) (e : Int) : Nat × Nat :=
  if 0 ≤ e then ((m <<< (min e 2).toNat) % 2 * 1, 0) else (m % 2 ^ ((-e).toNat + 1), (-e).toNat)

/-- sin(π x) (R199, R200). -/
def fsin (f : Fp) (r : Rnd) (fz : Bool) (bits : Nat) (x : Val) : Nat :=
  match x with
  | .nan => f.nanBits
  | .inf _ => f.nanBits
  | .fin s m e =>
    let (u, d) := modTwo m e
    let one := 2 ^ d
    let neg := s != decide (one ≤ u)
    let u := u % one
    if u = 0 then f.signed s 0
    else if 2 * u = one then encodeRounded f r fz false neg 1 0 false
    else sinHalfTurn 2 bits f r fz neg (if one < 2 * u then one - u else u) d

/-- cos(π x) (R199, R200). -/
def fcos (f : Fp) (r : Rnd) (fz : Bool) (bits : Nat) (x : Val) : Nat :=
  match x with
  | .nan => f.nanBits
  | .inf _ => f.nanBits
  | .fin _ m e =>
    let (u, d) := modTwo m e
    let one := 2 ^ d
    let u := if one < u then 2 * one - u else u
    if 2 * u = one then 0
    else if u = 0 then encodeRounded f r fz false false 1 0 false
    else if u = one then encodeRounded f r fz false true 1 0 false
    else
      let neg := decide (one < 2 * u)
      let t := if neg then one - u else u
      sinHalfTurn 3 bits f r fz neg (one - 2 * t) (d + 1)

end Sys2Proof.Num
end

