-- ==== Sys2Proof/Machine/FloatOps.lean ====
section
/-! DEFINITION. Floating point, packed halves and conversion (R195 to R205). -/

namespace Sys2Proof.Machine

/-- The floating format of an FMT code (R147). -/
def ffmt (code : Nat) : FFmt := (FFmt.ofCode code).getD .f32

/-- Its tag. -/
def floatTag (code : Nat) : Tag := Num.ftag (ffmt code)

/-- The FMT a generic floating word resolves to (R305). -/
def floatOfTag : Tag → Option Nat
  | .f32 => some 0
  | .bf16x2 => some 1
  | .f16x2 => some 2
  | _ => none

/-- A result formed element by element from the encodings of the sources' elements (R197). -/
def floatElems (code : Nat) (f : Num.Fp → (Word → Nat) → Nat) : Word :=
  let fp := Num.fpOf (ffmt code)
  Num.ofElems fp.width ((List.range (Num.elems (ffmt code))).map fun j => f fp fun x => Num.elemOf x fp.width j)

/-- A floating word over its vector sources (R195, R197). -/
def floatRR (i : Instr) (w : RR) (s : State) (srcs : List VSrc) (f : Num.Fp → List Nat → Nat) : Host.Outcome State Fault Refusal :=
  runWord i w.toHdr s fun c =>
    c.arith w.m w.d.toNat srcs floatTag floatOfTag 0 fun code lane =>
      floatElems code fun fp el => f fp (srcs.map fun v => el (srcLane c.g v 0 lane))

/-- The sum, product, fused and picking operations of R197 and R198 on encodings. -/
def faddBits (r : Rnd) (fz : Bool) (fp : Num.Fp) (a b : Nat) : Nat := Num.fsum fp r fz [Num.fdec fp fz a, Num.fdec fp fz b]
@[inherit_doc faddBits]
def fsubBits (r : Rnd) (fz : Bool) (fp : Num.Fp) (a b : Nat) : Nat := Num.fsum fp r fz [Num.fdec fp fz a, (Num.fdec fp fz b).neg]
@[inherit_doc faddBits]
def fmulBits (r : Rnd) (fz : Bool) (fp : Num.Fp) (a b : Nat) : Nat :=
  Num.fround fp r fz false (Num.fprod (Num.fdec fp fz a) (Num.fdec fp fz b))
@[inherit_doc faddBits]
def ffmaBits (r : Rnd) (fz : Bool) (fp : Num.Fp) (a b c : Nat) : Nat :=
  Num.fsum fp r fz [Num.fprod (Num.fdec fp fz a) (Num.fdec fp fz b), Num.fdec fp fz c]

/-- The sources of a floating word: A; A and B; or all three. -/
def src1 (w : RR) : List VSrc := [rrSrc w .a]
@[inherit_doc src1]
def src2 (w : RR) : List VSrc := [rrSrc w .a, rrSrc w .b]
@[inherit_doc src1]
def src3 (w : RR) : List VSrc := [rrSrc w .a, rrSrc w .b, rrSrc w .c]

/-- Encoding n of a list. -/
def nth (l : List Nat) (n : Nat) : Nat := l.getD n 0

/-- FADD (R197). -/
def execFadd (w : RR) (s : State) : Host.Outcome State Fault Refusal :=
  floatRR (.fadd w) w s (src2 w) fun fp x => faddBits (rndOf w.m) (fzOf w.m) fp (nth x 0) (nth x 1)

/-- FSUB (R197). -/
def execFsub (w : RR) (s : State) : Host.Outcome State Fault Refusal :=
  floatRR (.fsub w) w s (src2 w) fun fp x => fsubBits (rndOf w.m) (fzOf w.m) fp (nth x 0) (nth x 1)

/-- FMUL (R197). -/
def execFmul (w : RR) (s : State) : Host.Outcome State Fault Refusal :=
  floatRR (.fmul w) w s (src2 w) fun fp x => fmulBits (rndOf w.m) (fzOf w.m) fp (nth x 0) (nth x 1)

/-- FFMA (R197). -/
def execFfma (w : RR) (s : State) : Host.Outcome State Fault Refusal :=
  floatRR (.ffma w) w s (src3 w) fun fp x => ffmaBits (rndOf w.m) (fzOf w.m) fp (nth x 0) (nth x 1) (nth x 2)

/-- FMIN (R198). -/
def execFmin (w : RR) (s : State) : Host.Outcome State Fault Refusal :=
  floatRR (.fmin w) w s (src2 w) fun fp x => Num.fpick fp (fzOf w.m) false (nth x 0) (nth x 1)

/-- FMAX (R198). -/
def execFmax (w : RR) (s : State) : Host.Outcome State Fault Refusal :=
  floatRR (.fmax w) w s (src2 w) fun fp x => Num.fpick fp (fzOf w.m) true (nth x 0) (nth x 1)

/-- FRCP (R199, R200). -/
def execFrcp (w : RR) (s : State) : Host.Outcome State Fault Refusal :=
  floatRR (.frcp w) w s (src1 w) fun fp x => Num.frcp fp (rndOf w.m) (fzOf w.m) (Num.fdec fp (fzOf w.m) (nth x 0))

/-- FRSQ (R199, R200). -/
def execFrsq (w : RR) (s : State) : Host.Outcome State Fault Refusal :=
  floatRR (.frsq w) w s (src1 w) fun fp x => Num.frsq fp (rndOf w.m) (fzOf w.m) (Num.fdec fp (fzOf w.m) (nth x 0))

/-- FSQRT (R199, R200). -/
def execFsqrt (w : RR) (s : State) : Host.Outcome State Fault Refusal :=
  floatRR (.fsqrt w) w s (src1 w) fun fp x => Num.fsqrt fp (rndOf w.m) (fzOf w.m) (Num.fdec fp (fzOf w.m) (nth x 0))

/-- FEXP2 (R199, R200). -/
def execFexp2 (w : RR) (s : State) : Host.Outcome State Fault Refusal :=
  floatRR (.fexp2 w) w s (src1 w) fun fp x => Num.fexp2 fp (rndOf w.m) (fzOf w.m) (nth x 0) (Num.fdec fp (fzOf w.m) (nth x 0))

/-- FLOG2 (R199, R200). -/
def execFlog2 (w : RR) (s : State) : Host.Outcome State Fault Refusal :=
  floatRR (.flog2 w) w s (src1 w) fun fp x => Num.flog2 fp (rndOf w.m) (fzOf w.m) (nth x 0) (Num.fdec fp (fzOf w.m) (nth x 0))

/-- FSIN (R199, R200). -/
def execFsin (w : RR) (s : State) : Host.Outcome State Fault Refusal :=
  floatRR (.fsin w) w s (src1 w) fun fp x => Num.fsin fp (rndOf w.m) (fzOf w.m) (nth x 0) (Num.fdec fp (fzOf w.m) (nth x 0))

/-- FCOS (R199, R200). -/
def execFcos (w : RR) (s : State) : Host.Outcome State Fault Refusal :=
  floatRR (.fcos w) w s (src1 w) fun fp x => Num.fcos fp (rndOf w.m) (fzOf w.m) (nth x 0) (Num.fdec fp (fzOf w.m) (nth x 0))

/-- An FP32 word with an immediate whose bits 13:0 are zero (R143, R196). -/
def floatRI (i : Instr) (w : RI) (s : State) (f : Nat → Nat → Nat) : Host.Outcome State Fault Refusal :=
  runWord i w.toHdr s fun c =>
    let a := riSrc w
    c.vector [w.d.toNat] [(a, some .f32)] noCheck .f32 fun lane =>
      [BitVec.ofNat 32 (f (srcLane c.g a 0 lane).toNat (w.imm.toNat * 2 ^ 14))]

/-- FADD with an immediate (R196). -/
def execFaddImm (w : RI) (s : State) : Host.Outcome State Fault Refusal := floatRI (.faddImm w) w s fun a b => faddBits (rndOf w.m) (fzOf w.m) Num.fp32 a b

/-- FMUL with an immediate (R196). -/
def execFmulImm (w : RI) (s : State) : Host.Outcome State Fault Refusal := floatRI (.fmulImm w) w s fun a b => fmulBits (rndOf w.m) (fzOf w.m) Num.fp32 a b

/-- FMIN with an immediate (R196). -/
def execFminImm (w : RI) (s : State) : Host.Outcome State Fault Refusal := floatRI (.fminImm w) w s fun a b => Num.fpick Num.fp32 (fzOf w.m) false a b

/-- FMAX with an immediate (R196). -/
def execFmaxImm (w : RI) (s : State) : Host.Outcome State Fault Refusal := floatRI (.fmaxImm w) w s fun a b => Num.fpick Num.fp32 (fzOf w.m) true a b

/-- The packed format, rounding, saturation and selection of M (R201). -/
def packedFp (m : BitVec 6) : Num.Fp := if bitAt m 5 then Num.fp16 else Num.bf16
@[inherit_doc packedFp]
def packedTag (m : BitVec 6) : Tag := if bitAt m 5 then .f16x2 else .bf16x2
@[inherit_doc packedFp]
def packedRnd (m : BitVec 6) : Rnd := Rnd.ofCode (fieldN m 4 3)

/-- The B element used for element j (R201). -/
def packedSel (m : BitVec 6) (j : Nat) : Nat :=
  match fieldN m 1 0 with
  | 0 => j
  | 1 => 0
  | 2 => 1
  | _ => 1 - j

/-- The clamp of R202: an infinity becomes the largest finite value of its sign. -/
def packedClamp (fp : Num.Fp) (sat : Bool) (r : Nat) : Nat :=
  if sat then (if r = fp.infBits then fp.maxBits else if r = fp.signed true fp.infBits then fp.signed true fp.maxBits else r) else r

/-- A packed word (R202). -/
def packed (i : Instr) (w : RR) (s : State) (srcs : List VSrc) (f : Num.Fp → Rnd → Bool → List Nat → Nat) : Host.Outcome State Fault Refusal :=
  runWord i w.toHdr s fun c =>
    let tag := packedTag w.m
    let fp := packedFp w.m
    c.vector [w.d.toNat] (srcs.map fun v => (v, some tag)) noCheck tag fun lane =>
      let el (n j : Nat) : Nat := match srcs[n]? with | some v => Num.elemOf (srcLane c.g v 0 lane) 16 j | none => 0
      [Num.ofElems 16 ((List.range 2).map fun j => f fp (packedRnd w.m) (bitAt w.m 2) [el 0 j, el 1 (packedSel w.m j), el 2 j])]

/-- HADD2 (R202). -/
def execHadd2 (w : RR) (s : State) : Host.Outcome State Fault Refusal :=
  packed (.hadd2 w) w s (src2 w) fun fp r sat x => packedClamp fp sat (faddBits r false fp (nth x 0) (nth x 1))

/-- HMUL2 (R202). -/
def execHmul2 (w : RR) (s : State) : Host.Outcome State Fault Refusal :=
  packed (.hmul2 w) w s (src2 w) fun fp r sat x =>
    Num.fround fp r false sat (Num.fprod (Num.fdec fp false (nth x 0)) (Num.fdec fp false (nth x 1)))

/-- HFMA2 (R202). -/
def execHfma2 (w : RR) (s : State) : Host.Outcome State Fault Refusal :=
  packed (.hfma2 w) w s (src3 w) fun fp r sat x => packedClamp fp sat (ffmaBits r false fp (nth x 0) (nth x 1) (nth x 2))

/-- The layout of a floating tag. -/
def tagFp : Tag → Num.Fp
  | .bf16x2 => Num.bf16
  | .f16x2 => Num.fp16
  | _ => Num.fp32

/-- Elements of a tag per word (R125). -/
def tagElems : Tag → Nat
  | .bf16x2 => 2
  | .f16x2 => 2
  | .i8x4 => 4
  | .d2p8x4 => 4
  | .blk => 4
  | _ => 1

/-- The value of element j of a source word of `cvt` (R205); `b` is the scale byte. -/
def cvtElem (src : Tag) (fz : Bool) (b : Byte) (x : Word) (j : Nat) : Num.Val :=
  match src with
  | .i32 => Num.ofInt x.toInt
  | .i8x4 => Num.ofInt (BitVec.ofNat 8 (Num.elemOf x 8 j)).toInt
  | .d2p8x4 => Num.d2p8Scaled (BitVec.ofNat 8 (Num.elemOf x 8 j)) b
  | t => let fp := tagFp t; Num.fdec fp fz (Num.elemOf x fp.width j)

/-- Value k of a lane's conversion: the elements of A's rows in order, then B's (R205). -/
def cvtValue (src : Tag) (fz : Bool) (b : Byte) (aRows : List Word) (bRow : Word) (usesB : Bool) (k : Nat) : Num.Val :=
  let n := tagElems src
  if usesB ∧ k = 1 then cvtElem src fz b bRow 0 else cvtElem src fz b (aRows.getD (k / n) 0) (k % n)

/-- The encoding of one destination element (R205). -/
def cvtOut (dst : Tag) (same : Bool) (r : Rnd) (fz sat : Bool) (b : Byte) (x : Num.Val) : Nat :=
  match dst with
  | .i32 => (Num.fcvti 32 true r x).toNat
  | .i8x4 => (Num.fcvti 8 true r x).toNat
  | .d2p8x4 => (Num.d2p8q x b).toNat
  | t => Num.fround (tagFp t) r fz sat (if same then Num.integral r x else x)

/-- The bits of one element of a tag. -/
def elemWidth : Tag → Nat
  | .bf16x2 => 16
  | .f16x2 => 16
  | .i8x4 => 8
  | .d2p8x4 => 8
  | .blk => 8
  | _ => 32

/-- One lane of a conversion: its destination words from the low row up (R205). A lane whose scale byte is the reserved one, which can only be a helper lane's, gets zero (R20). -/
def cvtLane (src dst : Tag) (p : Legal.CvtPair) (r : Rnd) (fz sat : Bool) (aRows : List Word) (bRow : Word) (lane : Nat) : List Word :=
  let b : Byte := BitVec.ofNat 8 (Num.elemOf bRow 8 (lane / 8))
  let usesB := p.b == some .f32
  let n := tagElems dst
  (List.range p.d.n).map fun i =>
    if p.b = some .blk ∧ (Num.scaleExp b).isNone then 0
    else Num.ofElems (elemWidth dst) ((List.range n).map fun j =>
      cvtOut dst (src == dst) r fz sat b (cvtValue src fz b aRows bRow usesB (i * n + j)))

/-- What a conversion reads and writes once its source format is known (R204). -/
structure CvtPlan where
  pair : Legal.CvtPair
  a    : VSrc
  b    : List VSrc
  d    : List Nat

/-- The operands of the pair (source format, DSTF); none where R204 lists no such pair. -/
def cvtPlan (w : RR) (src : Tag) : Option CvtPlan :=
  (Legal.cvtPair src (Tag.ofCode (dstfOf w.c))).map fun p =>
    { pair := p, a := rrSrc w .a p.a.n, b := if p.b.isSome then [rrSrc w .b] else [], d := (List.range p.d.n).map (w.d.toNat + ·) }

/-- The lowest active thread lane whose scale byte is 0xFF (R123, R205). -/
def cvtScaleBad (c : Ctx) (pl : CvtPlan) : Option Nat :=
  if pl.pair.b = some Tag.blk then
    (maskLanes c.thr).find? fun l => pl.b.any fun v => Num.elemOf (srcLane c.g v 0 l) 8 (l / 8) == 255
  else none

/-- Steps 3 to 5 of a conversion whose source format is known (R153, R204, R205). DESIGN CHOICE (log 95): within step 5 a generic one meets what is wrong with its pair first, then
REGBOUND of the rows that the pair adds, then the tag of B. -/
def cvtChecks (c : Ctx) (w : RR) (src : Tag) (pl : CvtPlan) : Chk Unit := do
  if !Legal.cvtFits w pl.pair then trapNow .tagmismatch (tagInfo c.g w.a.toNat)
  checkBound c.g (pl.d ++ pl.a.rows ++ pl.b.flatMap VSrc.rows)
  checkFull c.g pl.d (pl.a :: pl.b)
  checkTags c.g ((pl.a, some src) :: pl.b.map fun v => (v, pl.pair.b))
  match cvtScaleBad c pl with
  | some l => .error (.trap .tagmismatch (some l) (tagInfo c.g w.b.toNat))
  | none => .ok ()

/-- A conversion whose source format is known; `site` says that its site is to be quickened (R307). -/
def cvtRun (c : Ctx) (w : RR) (src : Tag) (pl : CvtPlan) (site : Bool) : Issue :=
  let dst := Tag.ofCode (dstfOf w.c)
  let chk := cvtChecks c w src pl
  let c := match chk, site with
    | .ok (), true => c.quicken assume53 (Tag.code src) (decide (2 ≤ (maskLanes c.thr).length) && c.uniform (pl.a :: pl.b))
    | _, _ => c
  c.writes chk pl.d dst fun lane =>
    cvtLane src dst pl.pair (cvtRnd w.m) (cvtFz w.c) (cvtSat w.c) ((List.range pl.a.n).map fun j => srcLane c.g pl.a j lane)
      (match pl.b with
       | v :: _ => srcLane c.g v 0 lane
       | [] => 0) lane

/-- A generic conversion resolves its source format from the tags of its A rows, of which DSTF alone fixes the number (R204, R305). -/
def cvtGeneric (c : Ctx) (w : RR) (quickens : Bool) : Issue :=
  let dst := Tag.ofCode (dstfOf w.c)
  let n := if dst = .i8x4 ∨ dst = .d2p8x4 then 4 else 1
  let first := rrSrc w .a
  let inside : VSrc := { first with n := min n (c.g.allot - first.reg) }
  let r : Chk Nat := do
    checkBound c.g (w.d.toNat :: first.rows)
    checkFull c.g [w.d.toNat] [inside]
    let (code, _) ← resolveTags c.g [inside] (fun t => some t.code) none
    pure code
  match r with
  | .error e => c.writes (.error e) [w.d.toNat] dst fun _ => []
  | .ok code => match cvtPlan w (Tag.ofCode code) with
    | none => c.writes (trapNow .tagmismatch (tagInfo c.g w.a.toNat)) [w.d.toNat] dst fun _ => []
    | some pl => cvtRun c w (Tag.ofCode code) pl (quickens && c.thr != 0)

/-- A quickened conversion's assumption holds over its active thread lanes (R204, R309). -/
def cvtHolds (c : Ctx) (w : RR) (src : Tag) (pl : CvtPlan) : Bool :=
  (pl.a.rows.all fun r => agrees (row c.g r).tag src) &&
    (pl.b.all fun v => v.rows.all fun r => agrees (row c.g r).tag (pl.pair.b.getD .raw)) && (!unOf w.m || c.uniform (pl.a :: pl.b))

/-- CVT (R203 to R205, R305, R309). -/
def execCvt (w : RR) (s : State) : Host.Outcome State Fault Refusal :=
  runWord (.cvt w) w.toHdr s fun c =>
    let src := Tag.ofCode (srcfOf w.m)
    if c.act = 0 then .done c.advance
    else match c.h.form, cvtPlan w src with
      | .generic, _ => cvtGeneric c w true
      | _, none => .done c.advance
      | .native, some pl => cvtRun c w src pl false
      | .quick, some pl =>
        let early : Chk Unit := do
          checkBound c.g (pl.d ++ pl.a.rows ++ pl.b.flatMap VSrc.rows)
          checkFull c.g pl.d (pl.a :: pl.b)
        match early with
        | .ok () => if c.thr = 0 ∨ cvtHolds c w src pl then cvtRun c w src pl false else cvtGeneric (c.widen assume53) w false
        | .error e => c.writes (.error e) pl.d (Tag.ofCode (dstfOf w.c)) fun _ => []

end Sys2Proof.Machine
end

