-- ==== Sys2Proof/Machine/Integer.lean ====
section
/-! DEFINITION. Integer and address arithmetic, bit fields, moves, index registers and relative access (R176 to R189). -/

namespace Sys2Proof.Machine

/-- The tag of an integer FMT code (R147). -/
def intTag (code : Nat) : Tag := if code < 2 then .i32 else .i8x4

/-- The FMT a generic RR integer word resolves to (R305). -/
def intOfTag : Tag → Option Nat
  | .i32 => some 0
  | .i8x4 => some 2
  | _ => none

/-- The FMT a generic RI integer word resolves to (R305). -/
def intOfTagImm : Tag → Option Nat
  | .i32 => some 0
  | _ => none

/-- Element j of a word under an integer FMT, exact (R177). -/
def intElem (code : Nat) (x : Word) (j : Nat) : Int :=
  match code with
  | 0 => x.toInt
  | 1 => (x.toNat : Int)
  | 2 => (BitVec.ofNat 8 (Num.elemOf x 8 j)).toInt
  | _ => (Num.elemOf x 8 j : Int)

/-- The exact result of each element, wrapped or saturated to its width (R177). -/
def intResult (code : Nat) (sat : Bool) (f : (Word → Int) → Int) : Word :=
  let clamp (n : Nat) (x : Int) : Nat :=
    if sat then (if code % 2 = 0 then (satsTo n x).toNat else (satuTo n x).toNat) else (wrapTo n x).toNat
  if code < 2 then BitVec.ofNat 32 (clamp 32 (f fun x => intElem code x 0))
  else Num.ofElems 8 ((List.range 4).map fun j => clamp 8 (f fun x => intElem code x j))

/-- An integer instruction on two or three vector sources. -/
def intRR (i : Instr) (w : RR) (s : State) (three : Bool) (f : Int → Int → Int → Int) : Host.Outcome State Fault Refusal :=
  runWord i w.toHdr s fun c =>
    let a := rrSrc w .a
    let b := rrSrc w .b
    let v := rrSrc w .c
    c.arith w.m w.d.toNat (if three then [a, b, v] else [a, b]) intTag intOfTag 0 fun code lane =>
      intResult code (satOf w.m) fun el => f (el (srcLane c.g a 0 lane)) (el (srcLane c.g b 0 lane)) (if three then el (srcLane c.g v 0 lane) else 0)

/-- IADD (R176, R177). -/
def execIadd (w : RR) (s : State) : Host.Outcome State Fault Refusal := intRR (.iadd w) w s false fun a b _ => a + b

/-- ISUB (R176, R177). -/
def execIsub (w : RR) (s : State) : Host.Outcome State Fault Refusal := intRR (.isub w) w s false fun a b _ => a - b

/-- IMUL (R176, R177). -/
def execImul (w : RR) (s : State) : Host.Outcome State Fault Refusal := intRR (.imul w) w s false fun a b _ => a * b

/-- IMAD (R176, R177). -/
def execImad (w : RR) (s : State) : Host.Outcome State Fault Refusal := intRR (.imad w) w s true fun a b c => a * b + c

/-- MIN (R176, R177). -/
def execMin (w : RR) (s : State) : Host.Outcome State Fault Refusal := intRR (.min w) w s false fun a b _ => min a b

/-- MAX (R176, R177). -/
def execMax (w : RR) (s : State) : Host.Outcome State Fault Refusal := intRR (.max w) w s false fun a b _ => max a b

/-- An integer instruction with an immediate, sign-extended, or zero-extended where `zext` says so under `.uns32` (R177). -/
def intRI (i : Instr) (w : RI) (s : State) (zext : Bool) (f : Int → Int → Int) : Host.Outcome State Fault Refusal :=
  runWord i w.toHdr s fun c =>
    let a := riSrc w
    c.arith w.m w.d.toNat [a] intTag intOfTagImm 0 fun code lane =>
      let b : Int := if zext && code == 1 then (w.imm.toNat : Int) else w.imm.toInt
      intResult code (satOf w.m) fun el => f (el (srcLane c.g a 0 lane)) b

/-- IADD with an immediate (R176, R177). -/
def execIaddImm (w : RI) (s : State) : Host.Outcome State Fault Refusal := intRI (.iaddImm w) w s false fun a b => a + b

/-- IMUL with an immediate (R176, R177). -/
def execImulImm (w : RI) (s : State) : Host.Outcome State Fault Refusal := intRI (.imulImm w) w s false fun a b => a * b

/-- MIN with an immediate (R176, R177). -/
def execMinImm (w : RI) (s : State) : Host.Outcome State Fault Refusal := intRI (.minImm w) w s true fun a b => min a b

/-- MAX with an immediate (R176, R177). -/
def execMaxImm (w : RI) (s : State) : Host.Outcome State Fault Refusal := intRI (.maxImm w) w s true fun a b => max a b

/-- IMADW (R178). -/
def execImadw (w : RR) (s : State) : Host.Outcome State Fault Refusal :=
  runWord (.imadw w) w.toHdr s fun c =>
    let a := rrSrc w .a
    let b := rrSrc w .b
    let v := rrSrc w .c 2
    let code := assumeOf w.m
    let d := w.d.toNat
    c.vector [d, d + 1] [(a, some .i32), (b, some .i32), (v, some .i32)] noCheck .i32 fun lane =>
      let pair : Dword := srcLane c.g v 1 lane ++ srcLane c.g v 0 lane
      let addend : Int := if code = 0 then pair.toInt else (pair.toNat : Int)
      let r : Dword := wrapTo 64 (intElem code (srcLane c.g a 0 lane) 0 * intElem code (srcLane c.g b 0 lane) 0 + addend)
      [r.truncate 32, field r 63 32]

/-- A per-lane word on the bits of two sources, tag RAW or I32 as given, any source tag accepted (R179, R180). -/
def bitsRR (i : Instr) (w : RR) (s : State) (tag : Tag) (f : Word → Word → Word) : Host.Outcome State Fault Refusal :=
  runWord i w.toHdr s fun c =>
    let a := rrSrc w .a
    let b := rrSrc w .b
    c.vector [w.d.toNat] [(a, none), (b, none)] noCheck tag fun lane => [f (srcLane c.g a 0 lane) (srcLane c.g b 0 lane)]

/-- A per-lane word on the bits of one source. -/
def bitsR (i : Instr) (w : RR) (s : State) (tag : Tag) (f : Word → Word) : Host.Outcome State Fault Refusal :=
  runWord i w.toHdr s fun c =>
    let a := rrSrc w .a
    c.vector [w.d.toNat] [(a, none)] noCheck tag fun lane => [f (srcLane c.g a 0 lane)]

/-- A per-lane word on the bits of one source and an immediate. -/
def bitsRI (i : Instr) (w : RI) (s : State) (f : Word → Word) : Host.Outcome State Fault Refusal :=
  runWord i w.toHdr s fun c =>
    let a := riSrc w
    c.vector [w.d.toNat] [(a, none)] noCheck .raw fun lane => [f (srcLane c.g a 0 lane)]

/-- Shifts by n places: zero, or copies of the sign, from the width on (R179, R190). -/
def shlBits {k : Nat} (x : BitVec k) (n : Nat) : BitVec k := if k ≤ n then 0 else x <<< n
@[inherit_doc shlBits]
def shrBits {k : Nat} (x : BitVec k) (n : Nat) : BitVec k := if k ≤ n then 0 else x >>> n
@[inherit_doc shlBits]
def sarBits {k : Nat} (x : BitVec k) (n : Nat) : BitVec k := x.sshiftRight (min n (k - 1))

/-- AND (R179). -/
def execAnd (w : RR) (s : State) : Host.Outcome State Fault Refusal := bitsRR (.and w) w s .raw fun a b => a &&& b

/-- OR (R179). -/
def execOr (w : RR) (s : State) : Host.Outcome State Fault Refusal := bitsRR (.or w) w s .raw fun a b => a ||| b

/-- XOR (R179). -/
def execXor (w : RR) (s : State) : Host.Outcome State Fault Refusal := bitsRR (.xor w) w s .raw fun a b => a ^^^ b

/-- NOT (R179). -/
def execNot (w : RR) (s : State) : Host.Outcome State Fault Refusal := bitsR (.not w) w s .raw fun a => ~~~a

/-- SHL (R179). -/
def execShl (w : RR) (s : State) : Host.Outcome State Fault Refusal := bitsRR (.shl w) w s .raw fun a b => shlBits a (fieldN b 7 0)

/-- SHR (R179). -/
def execShr (w : RR) (s : State) : Host.Outcome State Fault Refusal := bitsRR (.shr w) w s .raw fun a b => shrBits a (fieldN b 7 0)

/-- SAR (R179). -/
def execSar (w : RR) (s : State) : Host.Outcome State Fault Refusal := bitsRR (.sar w) w s .raw fun a b => sarBits a (fieldN b 7 0)

/-- AND with an immediate (R179). -/
def execAndImm (w : RI) (s : State) : Host.Outcome State Fault Refusal := bitsRI (.andImm w) w s fun a => a &&& w.imm.signExtend 32

/-- OR with an immediate (R179). -/
def execOrImm (w : RI) (s : State) : Host.Outcome State Fault Refusal := bitsRI (.orImm w) w s fun a => a ||| w.imm.signExtend 32

/-- XOR with an immediate (R179). -/
def execXorImm (w : RI) (s : State) : Host.Outcome State Fault Refusal := bitsRI (.xorImm w) w s fun a => a ^^^ w.imm.signExtend 32

/-- SHL by an immediate (R179). -/
def execShlImm (w : RI) (s : State) : Host.Outcome State Fault Refusal := bitsRI (.shlImm w) w s fun a => shlBits a (fieldN w.imm 7 0)

/-- SHR by an immediate (R179). -/
def execShrImm (w : RI) (s : State) : Host.Outcome State Fault Refusal := bitsRI (.shrImm w) w s fun a => shrBits a (fieldN w.imm 7 0)

/-- SAR by an immediate (R179). -/
def execSarImm (w : RI) (s : State) : Host.Outcome State Fault Refusal := bitsRI (.sarImm w) w s fun a => sarBits a (fieldN w.imm 7 0)

/-- CLZ (R180). -/
def execClz (w : RR) (s : State) : Host.Outcome State Fault Refusal := bitsR (.clz w) w s .i32 fun a => BitVec.ofNat 32 (leadingZeros a)

/-- POPC (R180). -/
def execPopc (w : RR) (s : State) : Host.Outcome State Fault Refusal := bitsR (.popc w) w s .i32 fun a => BitVec.ofNat 32 (popCount a)

/-- The bit field of a word under a control word: position 7:0, length 15:8; `none` when it is empty (R180, R190). -/
def bitField {k : Nat} (ctl : BitVec k) : Option (Nat × Nat) :=
  let pos := fieldN ctl 7 0
  let len := fieldN ctl 15 8
  if k ≤ pos ∨ len = 0 then none else some (pos, min len (k - pos))

/-- `bfe` and `sbfe` (R180, R190). -/
def extractField {k : Nat} (signed : Bool) (a ctl : BitVec k) : BitVec k :=
  match bitField ctl with
  | none => 0
  | some (pos, n) =>
    let f : BitVec n := a.extractLsb' pos n
    if signed then f.signExtend k else f.zeroExtend k

/-- `bfi` and `sbfi` (R180, R190). -/
def insertField {k : Nat} (a b ctl : BitVec k) : BitVec k :=
  match bitField ctl with
  | none => a
  | some (pos, n) => putField a (pos + n - 1) pos (b.toNat % 2 ^ n)

/-- BFE (R180). -/
def execBfe (w : RR) (s : State) : Host.Outcome State Fault Refusal := bitsRR (.bfe w) w s .i32 fun a b => extractField (bitAt w.m 0) a b

/-- BFI (R180). -/
def execBfi (w : RR) (s : State) : Host.Outcome State Fault Refusal :=
  runWord (.bfi w) w.toHdr s fun c =>
    let a := rrSrc w .a
    let b := rrSrc w .b
    let v := rrSrc w .c
    c.vector [w.d.toNat] [(a, none), (b, none), (v, none)] noCheck .raw fun lane =>
      [insertField (srcLane c.g a 0 lane) (srcLane c.g b 0 lane) (srcLane c.g v 0 lane)]

/-- SEL (R181). -/
def execSel (w : RR) (s : State) : Host.Outcome State Fault Refusal :=
  runWord (.sel w) w.toHdr s fun c =>
    let a := rrSrc w .a
    let b := rrSrc w .b
    let tag := if srcTag c.g a = srcTag c.g b then srcTag c.g a else .raw
    c.vector [w.d.toNat] [(a, none), (b, none)] noCheck tag fun lane =>
      [if (preg c.g w.c.toNat).getLsbD lane then srcLane c.g a 0 lane else srcLane c.g b 0 lane]

/-- MOV (R182). -/
def execMov (w : RR) (s : State) : Host.Outcome State Fault Refusal :=
  runWord (.mov w) w.toHdr s fun c =>
    match fieldN w.m 1 0 with
    | 0 =>
      let a := rrSrc w .a
      c.vector [w.d.toNat] [(a, none)] noCheck (srcTag c.g a) fun lane => [srcLane c.g a 0 lane]
    | 1 => c.vector [w.d.toNat] [] noCheck .raw fun _ => [field (sreg c.g w.a.toNat) 31 0]
    | _ => c.vector [w.d.toNat] [] noCheck .raw fun _ => [field (sreg c.g w.a.toNat) 63 32]

/-- One half of a 64-bit sum (R183). -/
def halfOf (hi : Bool) (v : Dword) : Word := if hi then field v 63 32 else field v 31 0

/-- LEA (R183). -/
def execLea (w : RR) (s : State) : Host.Outcome State Fault Refusal :=
  runWord (.lea w) w.toHdr s fun c =>
    let b := rrSrc w .b
    c.vector [w.d.toNat] [(b, none)] noCheck .raw fun lane =>
      let x := srcLane c.g b 0 lane
      let ext : Dword := if bitAt w.m 4 then x.zeroExtend 64 else x.signExtend 64
      [halfOf (bitAt w.m 0) (sreg c.g w.a.toNat + (ext <<< fieldN w.m 3 1))]

/-- LEA with an immediate (R183). -/
def execLeaImm (w : RI) (s : State) : Host.Outcome State Fault Refusal :=
  runWord (.leaImm w) w.toHdr s fun c =>
    c.vector [w.d.toNat] [] noCheck .raw fun _ => [halfOf (bitAt w.m 0) (sreg c.g w.a.toNat + w.imm.signExtend 64)]

/-- MOVI (R184). -/
def execMovi (w : WI) (s : State) : Host.Outcome State Fault Refusal :=
  runWord (.movi w) w.toHdr s fun c =>
    let v : Word := match fieldN w.mw 1 0 with
      | 0 => w.imm.signExtend 32
      | 1 => w.imm.zeroExtend 32
      | _ => w.imm.zeroExtend 32 <<< 5
    c.vector [w.d.toNat] [] noCheck (Tag.ofCode (fieldN w.mw 4 2)) fun _ => [v]

/-- The row is outside the allotment (R187). -/
def relOut (g : Group) (e : Int) : Bool := decide (e < 0) || decide ((g.allot : Int) ≤ e)

/-- The lowest active thread lane whose relative index is out of range (R187, R189). -/
def relCheck (c : Ctx) (x : Nat) (k : BitVec 9) : Chk Unit :=
  match (maskLanes c.thr).find? (fun l => relOut c.g (relIndex c.g x k l)) with
  | some l => .error (.trap .regbound (some l) (BitVec.ofInt 64 (relIndex c.g x k l)))
  | none => .ok ()

/-- MOVR (R187, R189): the bounds check comes before the relative rows' empty check. A helper lane that names a row it cannot read raises nothing and gets zero (R20):
out of bounds, empty, or, DESIGN CHOICE (log 18), poisoned and named by no thread lane. -/
def execMovr (w : RR) (s : State) : Host.Outcome State Fault Refusal :=
  runWord (.movr w) w.toHdr s fun c =>
    let x := w.a.toNat
    let rowIn (l : Nat) : Option Nat :=
      let e := relIndex c.g x w.b l
      if relOut c.g e then none else some e.toNat
    let e := names w.e .a
    let rows := ((maskLanes c.thr).filterMap rowIn).eraseDups
    let helped := ((maskLanes (c.act &&& ~~~c.thr)).filterMap rowIn).eraseDups
    let good (r : Nat) : Bool := (row c.g r).full && !(row c.g r).poison
    let read := rows ++ (helped.filter fun r => good r && !rows.contains r)
    let tag := match read with
      | [] => .raw
      | r :: _ => if read.all fun q => (row c.g q).tag == (row c.g r).tag then (row c.g r).tag else .raw
    let chk : Chk Unit := do
      checkBound c.g [w.d.toNat]
      relCheck c x w.b
      if !e && helped.any (fun r => !(row c.g r).full) then .error .notReady
      checkFull c.g [w.d.toNat] (rows.map fun r => ⟨r, false, e, 1⟩)
    c.writes chk [w.d.toNat] tag fun lane =>
      [match rowIn lane with | some r => if c.thr.getLsbD lane || good r then laneOf (row c.g r).lanes lane else 0 | none => 0]

/-- MOVW (R188, R189). -/
def execMovw (w : RR) (s : State) : Host.Outcome State Fault Refusal :=
  runWord (.movw w) w.toHdr s fun c =>
    let x := w.d.toNat
    let a := rrSrc w .a
    let lanes := (maskLanes c.act).filter fun l => !relOut c.g (relIndex c.g x w.b l)
    let rows := (lanes.map fun l => (relIndex c.g x w.b l).toNat).eraseDups
    let chk : Chk Unit := do
      checkBound c.g a.rows
      relCheck c x w.b
      checkFull c.g rows [a]
    let store (value : Nat → Word) (tag : Tag) : State :=
      c.finish (rows.foldl (fun g r =>
        writeRow g r (maskOf fun l => lanes.contains l && relIndex c.g x w.b l == (r : Int)) tag (lanesOf value)) c.g)
    if c.act = 0 then .done c.advance
    else match chk with
      | .ok () => .done (store (fun l => srcLane c.g a 0 l) (srcTag c.g a))
      | .error .notReady => .notReady
      | .error (.trap cause lane info) => if c.thr = 0 then .done (store (fun _ => 0) (srcTag c.g a)) else .trap c.s cause lane info

/-- An index register written in the active lanes from an optional vector source. -/
def Ctx.indexWrite (c : Ctx) (d : Nat) (src : Option VSrc) (f : Nat → Half) : Issue :=
  if c.act = 0 then .done c.advance
  else
    let srcs := src.toList
    let chk : Chk Unit := do
      checkBound c.g (srcs.flatMap VSrc.rows)
      checkFull c.g [] srcs
    match chk with
    | .ok () => .done (c.finish (setX c.g d c.act (lanesOf f)))
    | .error .notReady => .notReady
    | .error (.trap cause lane info) =>
      if c.thr = 0 then .done (c.finish (setX c.g d c.act (lanesOf fun _ => 0))) else .trap c.s cause lane info

/-- XSET (R186). -/
def execXset (w : RI) (s : State) : Host.Outcome State Fault Refusal :=
  runWord (.xset w) w.toHdr s fun c =>
    let a := riSrc w
    c.indexWrite w.d.toNat (some a) fun lane => wrapTo 16 ((srcLane c.g a 0 lane).toInt + w.imm.toInt)

/-- XADD (R186). -/
def execXadd (w : RI) (s : State) : Host.Outcome State Fault Refusal :=
  runWord (.xadd w) w.toHdr s fun c =>
    let modw := fieldN w.m 3 0
    c.indexWrite w.d.toNat none fun lane =>
      let v := (laneOf (xreg c.g w.a.toNat) lane).toInt + w.imm.toInt
      if modw = 0 then wrapTo 16 v else BitVec.ofInt 16 (v.emod (2 ^ modw))

/-- XMOV (R186). -/
def execXmov (w : RR) (s : State) : Host.Outcome State Fault Refusal :=
  runWord (.xmov w) w.toHdr s fun c =>
    match fieldN w.m 1 0 with
    | 0 => c.indexWrite w.d.toNat none fun lane => laneOf (xreg c.g w.a.toNat) lane
    | 1 =>
      let a := rrSrc w .a
      c.indexWrite w.d.toNat (some a) fun lane => (srcLane c.g a 0 lane).truncate 16
    | 2 => c.vector [w.d.toNat] [] noCheck .i32 fun lane => [(laneOf (xreg c.g w.a.toNat) lane).signExtend 32]
    | _ => c.indexWrite w.d.toNat none fun _ => (sreg c.g w.a.toNat).truncate 16

end Sys2Proof.Machine
end

