-- ==== Sys2Proof/Machine/Predicates.lean ====
section
/-! DEFINITION. Compares and predicates: CMP, PAND, POR, PNOT, PMOV, VOTE (R169 to R175). -/

namespace Sys2Proof.Machine

/-- The tag a `cmp` of FMT code needs (R170). -/
def cmpTag : Nat → Tag
  | 2 => .f32
  | _ => .i32

/-- The format a generic `cmp` resolves to (R305). -/
def cmpOfTag (cond : Nat) : Tag → Option Nat
  | .i32 => if cond < 6 then some 0 else none
  | .f32 => some 2
  | _ => none

/-- PA and PB after a `cmp` (R171): written in every lane with EX set, by the combining type. -/
def cmpWrite (g : Group) (ex gd cnd : Mask) (ct pa pb : Nat) : Group :=
  let res (i : Nat) := combineCmp ct (gd.getLsbD i) (cnd.getLsbD i) ((preg g pa).getLsbD i) ((preg g pb).getLsbD i)
  let ma := maskOf fun i => (res i).1
  let mb := maskOf fun i => (res i).2
  setP (setP g pa ex ma) pb ex mb

/-- CMP (R169 to R172). Helper lanes alone raise no trap and write zero where a thread's word would trap (R20, R154). -/
def execCmp (w : PP) (s : State) : Host.Outcome State Fault Refusal :=
  runWord (.cmp w) w.toHdr s fun c =>
    if c.act = 0 then .done c.advance
    else
      let srcs : List VSrc := [⟨w.a.toNat, names w.z .a, names w.e .a, 1⟩, ⟨w.b.toNat, names w.z .b, names w.e .b, 1⟩]
      let early : Chk Unit := do
        checkBound c.g (srcs.flatMap VSrc.rows)
        checkFull c.g [] srcs
      let write (c : Ctx) (cnd : Mask) : Issue :=
        .done (c.finish (cmpWrite c.g c.e.ex (guardMask c.g w.toHdr) cnd w.ct.toNat w.pa.toNat w.pb.toNat))
      let fails (c : Ctx) (st : Stop) : Issue :=
        match st with
        | .notReady => .notReady
        | .trap cause lane info =>
          if c.thr = 0 then
            let g := cmpWrite c.g c.e.ex (guardMask c.g w.toHdr) 0 w.ct.toNat w.pa.toNat w.pb.toNat
            .done (c.finish (setP (setP g w.pa.toNat c.act 0) w.pb.toNat c.act 0))
          else .trap c.s cause lane info
      match early with
      | .error st => fails c st
      | .ok () =>
        let cond := cond31 w.m
        let (c, r) := c.format assume54 (assumeOf w.m) (unOf w.m) srcs cmpTag (cmpOfTag cond) (some (if cond < 6 then 0 else 2))
        match r with
        | .error st => fails c st
        | .ok r =>
          let c := match r.site with | some uni => c.quicken assume54 r.code uni | none => c
          let value (i lane : Nat) : Word := match srcs[i]? with | some v => srcLane c.g v 0 lane | none => 0
          write c (maskOf fun l => cmpHolds r.code (Cond.ofCode cond) (value 0 l) (value 1 l))

/-- A predicate computed from two predicates in the active lanes. -/
def predOp (i : Instr) (w : RR) (s : State) (f : Mask → Mask → Mask) : Host.Outcome State Fault Refusal :=
  runWord i w.toHdr s fun c =>
    .done (c.finish (setP c.g w.d.toNat c.act (f (preg c.g w.a.toNat) (preg c.g w.b.toNat))))

/-- A predicate inverted under a modifier bit (R173). -/
def notIf (b : Bool) (m : Mask) : Mask := if b then ~~~m else m

/-- PAND (R173). -/
def execPand (w : RR) (s : State) : Host.Outcome State Fault Refusal :=
  predOp (.pand w) w s fun a b => notIf (bitAt w.m 1) a &&& notIf (bitAt w.m 0) b

/-- POR (R173). -/
def execPor (w : RR) (s : State) : Host.Outcome State Fault Refusal :=
  predOp (.por w) w s fun a b => notIf (bitAt w.m 1) a ||| notIf (bitAt w.m 0) b

/-- PNOT (R173). -/
def execPnot (w : RR) (s : State) : Host.Outcome State Fault Refusal := predOp (.pnot w) w s fun a _ => ~~~a

/-- PMOV (R174). Mode 0b01 writes a scalar, with the other modes' active lanes, under the scalar rule of R28. -/
def execPmov (w : RR) (s : State) : Host.Outcome State Fault Refusal :=
  runWord (.pmov w) w.toHdr s fun c =>
    match fieldN w.m 1 0 with
    | 0 => .done (c.finish (setP c.g w.d.toNat c.act (preg c.g w.a.toNat)))
    | 1 => if c.executes then .done (c.finish (setS c.g w.d.toNat ((preg c.g w.a.toNat &&& c.act).zeroExtend 64))) else .done c.advance
    | 2 => .done (c.finish (setP c.g w.d.toNat c.act ((sreg c.g w.a.toNat).truncate 32)))
    | _ => .done (c.finish (setP c.g w.d.toNat c.act (if sreg c.g w.a.toNat = 0 then 0 else 0xFFFFFFFF)))

/-- VOTE (R175): the counted lanes are the active threads. -/
def execVote (w : RR) (s : State) : Host.Outcome State Fault Refusal :=
  runWord (.vote w) w.toHdr s fun c =>
    let v := voteOf (fieldN w.m 1 0) c.thr (preg c.g w.a.toNat)
    if bitAt w.m 2 then
      if c.executes then .done (c.finish (setS c.g w.d.toNat (v.zeroExtend 64))) else .done c.advance
    else .done (c.finish (setP c.g w.d.toNat c.act (if v = 0 then 0 else 0xFFFFFFFF)))

end Sys2Proof.Machine
end

