-- ==== Sys2Proof/Machine/Scalar.lean ====
section
/-! DEFINITION. The scalar instructions (R190 to R192): once per issue, under the scalar rule of R28. -/

namespace Sys2Proof.Machine

/-- A scalar word from two scalars. -/
def scalar2 (i : Instr) (w : RR) (s : State) (f : Dword → Dword → Dword) : Host.Outcome State Fault Refusal :=
  runScalarG i w.toHdr s fun c => setS c.g w.d.toNat (f (sreg c.g w.a.toNat) (sreg c.g w.b.toNat))

/-- A scalar word from three scalars. -/
def scalar3 (i : Instr) (w : RR) (s : State) (f : Dword → Dword → Dword → Dword) : Host.Outcome State Fault Refusal :=
  runScalarG i w.toHdr s fun c => setS c.g w.d.toNat (f (sreg c.g w.a.toNat) (sreg c.g w.b.toNat) (sreg c.g w.c.toNat))

/-- SADD (R190). -/
def execSadd (w : RR) (s : State) : Host.Outcome State Fault Refusal := scalar2 (.sadd w) w s fun a b => a + b

/-- SSUB (R190). -/
def execSsub (w : RR) (s : State) : Host.Outcome State Fault Refusal := scalar2 (.ssub w) w s fun a b => a - b

/-- SMUL (R190). -/
def execSmul (w : RR) (s : State) : Host.Outcome State Fault Refusal := scalar2 (.smul w) w s fun a b => a * b

/-- SMAD (R190). -/
def execSmad (w : RR) (s : State) : Host.Outcome State Fault Refusal := scalar3 (.smad w) w s fun a b c => a * b + c

/-- The order of `smin` and `smax`: signed, or unsigned under M<0> (R190). -/
def scalarLe (uns : Bool) (a b : Dword) : Bool := if uns then decide (a.toNat ≤ b.toNat) else decide (a.toInt ≤ b.toInt)

/-- SMIN (R190). -/
def execSmin (w : RR) (s : State) : Host.Outcome State Fault Refusal :=
  scalar2 (.smin w) w s fun a b => if scalarLe (bitAt w.m 0) a b then a else b

/-- SMAX (R190). -/
def execSmax (w : RR) (s : State) : Host.Outcome State Fault Refusal :=
  scalar2 (.smax w) w s fun a b => if scalarLe (bitAt w.m 0) a b then b else a

/-- SAND (R190). -/
def execSand (w : RR) (s : State) : Host.Outcome State Fault Refusal := scalar2 (.sand w) w s fun a b => a &&& b

/-- SOR (R190). -/
def execSor (w : RR) (s : State) : Host.Outcome State Fault Refusal := scalar2 (.sor w) w s fun a b => a ||| b

/-- SXOR (R190). -/
def execSxor (w : RR) (s : State) : Host.Outcome State Fault Refusal := scalar2 (.sxor w) w s fun a b => a ^^^ b

/-- SNOT (R190). -/
def execSnot (w : RR) (s : State) : Host.Outcome State Fault Refusal := scalar2 (.snot w) w s fun a _ => ~~~a

/-- SSHL (R190). -/
def execSshl (w : RR) (s : State) : Host.Outcome State Fault Refusal := scalar2 (.sshl w) w s fun a b => shlBits a (fieldN b 7 0)

/-- SSHR (R190). -/
def execSshr (w : RR) (s : State) : Host.Outcome State Fault Refusal := scalar2 (.sshr w) w s fun a b => shrBits a (fieldN b 7 0)

/-- SSAR (R190). -/
def execSsar (w : RR) (s : State) : Host.Outcome State Fault Refusal := scalar2 (.ssar w) w s fun a b => sarBits a (fieldN b 7 0)

/-- SCLZ (R190). -/
def execSclz (w : RR) (s : State) : Host.Outcome State Fault Refusal := scalar2 (.sclz w) w s fun a _ => BitVec.ofNat 64 (leadingZeros a)

/-- SPOPC (R190). -/
def execSpopc (w : RR) (s : State) : Host.Outcome State Fault Refusal := scalar2 (.spopc w) w s fun a _ => BitVec.ofNat 64 (popCount a)

/-- SBFE (R190). -/
def execSbfe (w : RR) (s : State) : Host.Outcome State Fault Refusal := scalar2 (.sbfe w) w s fun a b => extractField (bitAt w.m 0) a b

/-- SBFI (R190). -/
def execSbfi (w : RR) (s : State) : Host.Outcome State Fault Refusal := scalar3 (.sbfi w) w s fun a b c => insertField a b c

/-- SSEL (R190). -/
def execSsel (w : RR) (s : State) : Host.Outcome State Fault Refusal := scalar3 (.ssel w) w s fun a b c => if c = 0 then b else a

/-- SMOV (R190): from a scalar, or from the lowest active lane of a vector register; the source row is checked as R156 states. -/
def execSmov (w : RR) (s : State) : Host.Outcome State Fault Refusal :=
  runScalar (.smov w) w.toHdr s fun c =>
    if bitAt w.m 0 then
      let a := rrSrc w .a
      let v : Dword := match lowestLane c.act with | some l => (srcLane c.g a 0 l).zeroExtend 64 | none => 0
      let chk : Chk Unit := do
        checkBound c.g a.rows
        checkFull c.g [] [a]
      match chk with
      | .ok () => .done (c.finish (setS c.g w.d.toNat v))
      | .error .notReady => .notReady
      | .error (.trap cause lane info) =>
        if c.act ≠ 0 ∧ c.thr = 0 then .done (c.finish (setS c.g w.d.toNat 0)) else .trap c.s cause lane info
    else .done (c.finish (setS c.g w.d.toNat (sreg c.g w.a.toNat)))

/-- SMOVI (R192). -/
def execSmovi (w : WI) (s : State) : Host.Outcome State Fault Refusal :=
  runScalarG (.smovi w) w.toHdr s fun c =>
    let d := w.d.toNat
    let old := sreg c.g d
    setS c.g d (match fieldN w.mw 1 0 with
      | 0 => w.imm.signExtend 64
      | 1 => w.imm.zeroExtend 64
      | 2 => putField old 53 27 w.imm.toNat
      | _ => putField old 63 54 (fieldN w.imm 9 0))

/-- SCMP (R190). -/
def execScmp (w : RR) (s : State) : Host.Outcome State Fault Refusal :=
  scalar2 (.scmp w) w s fun a b => if compareWord (Cond.ofCode (cond31 w.m)) true (bitAt w.m 0) a b then 1 else 0

end Sys2Proof.Machine
end

