-- ==== Sys2Proof/Machine/Dispatch.lean ====
section
/-! DEFINITION. The dispatch: one arm per instruction, event and command of spec/opcode_table.json. -/

namespace Sys2Proof.Machine

def exec (i : Instr) (s : State) : Host.Outcome State Fault Refusal :=
  match i with
  | .bra w => Sys2Proof.Machine.execBra w s
  | .brx w => Sys2Proof.Machine.execBrx w s
  | .call w => Sys2Proof.Machine.execCall w s
  | .ret w => Sys2Proof.Machine.execRet w s
  | .join w => Sys2Proof.Machine.execJoin w s
  | .joinLabel w => Sys2Proof.Machine.execJoinLabel w s
  | .exit w => Sys2Proof.Machine.execExit w s
  | .yield w => Sys2Proof.Machine.execYield w s
  | .trap w => Sys2Proof.Machine.execTrap w s
  | .sleep w => Sys2Proof.Machine.execSleep w s
  | .nop w => Sys2Proof.Machine.execNop w s
  | .cmp w => Sys2Proof.Machine.execCmp w s
  | .pand w => Sys2Proof.Machine.execPand w s
  | .por w => Sys2Proof.Machine.execPor w s
  | .pnot w => Sys2Proof.Machine.execPnot w s
  | .pmov w => Sys2Proof.Machine.execPmov w s
  | .vote w => Sys2Proof.Machine.execVote w s
  | .iadd w => Sys2Proof.Machine.execIadd w s
  | .isub w => Sys2Proof.Machine.execIsub w s
  | .imul w => Sys2Proof.Machine.execImul w s
  | .imad w => Sys2Proof.Machine.execImad w s
  | .imadw w => Sys2Proof.Machine.execImadw w s
  | .min w => Sys2Proof.Machine.execMin w s
  | .max w => Sys2Proof.Machine.execMax w s
  | .and w => Sys2Proof.Machine.execAnd w s
  | .or w => Sys2Proof.Machine.execOr w s
  | .xor w => Sys2Proof.Machine.execXor w s
  | .not w => Sys2Proof.Machine.execNot w s
  | .shl w => Sys2Proof.Machine.execShl w s
  | .shr w => Sys2Proof.Machine.execShr w s
  | .sar w => Sys2Proof.Machine.execSar w s
  | .clz w => Sys2Proof.Machine.execClz w s
  | .popc w => Sys2Proof.Machine.execPopc w s
  | .bfe w => Sys2Proof.Machine.execBfe w s
  | .bfi w => Sys2Proof.Machine.execBfi w s
  | .sel w => Sys2Proof.Machine.execSel w s
  | .mov w => Sys2Proof.Machine.execMov w s
  | .lea w => Sys2Proof.Machine.execLea w s
  | .leaImm w => Sys2Proof.Machine.execLeaImm w s
  | .movi w => Sys2Proof.Machine.execMovi w s
  | .movr w => Sys2Proof.Machine.execMovr w s
  | .movw w => Sys2Proof.Machine.execMovw w s
  | .xset w => Sys2Proof.Machine.execXset w s
  | .xadd w => Sys2Proof.Machine.execXadd w s
  | .xmov w => Sys2Proof.Machine.execXmov w s
  | .iaddImm w => Sys2Proof.Machine.execIaddImm w s
  | .imulImm w => Sys2Proof.Machine.execImulImm w s
  | .andImm w => Sys2Proof.Machine.execAndImm w s
  | .orImm w => Sys2Proof.Machine.execOrImm w s
  | .xorImm w => Sys2Proof.Machine.execXorImm w s
  | .shlImm w => Sys2Proof.Machine.execShlImm w s
  | .shrImm w => Sys2Proof.Machine.execShrImm w s
  | .sarImm w => Sys2Proof.Machine.execSarImm w s
  | .minImm w => Sys2Proof.Machine.execMinImm w s
  | .maxImm w => Sys2Proof.Machine.execMaxImm w s
  | .sadd w => Sys2Proof.Machine.execSadd w s
  | .ssub w => Sys2Proof.Machine.execSsub w s
  | .smul w => Sys2Proof.Machine.execSmul w s
  | .smad w => Sys2Proof.Machine.execSmad w s
  | .smin w => Sys2Proof.Machine.execSmin w s
  | .smax w => Sys2Proof.Machine.execSmax w s
  | .sand w => Sys2Proof.Machine.execSand w s
  | .sor w => Sys2Proof.Machine.execSor w s
  | .sxor w => Sys2Proof.Machine.execSxor w s
  | .snot w => Sys2Proof.Machine.execSnot w s
  | .sshl w => Sys2Proof.Machine.execSshl w s
  | .sshr w => Sys2Proof.Machine.execSshr w s
  | .ssar w => Sys2Proof.Machine.execSsar w s
  | .sclz w => Sys2Proof.Machine.execSclz w s
  | .spopc w => Sys2Proof.Machine.execSpopc w s
  | .sbfe w => Sys2Proof.Machine.execSbfe w s
  | .sbfi w => Sys2Proof.Machine.execSbfi w s
  | .ssel w => Sys2Proof.Machine.execSsel w s
  | .smov w => Sys2Proof.Machine.execSmov w s
  | .smovi w => Sys2Proof.Machine.execSmovi w s
  | .scmp w => Sys2Proof.Machine.execScmp w s
  | .fadd w => Sys2Proof.Machine.execFadd w s
  | .fsub w => Sys2Proof.Machine.execFsub w s
  | .fmul w => Sys2Proof.Machine.execFmul w s
  | .ffma w => Sys2Proof.Machine.execFfma w s
  | .fmin w => Sys2Proof.Machine.execFmin w s
  | .fmax w => Sys2Proof.Machine.execFmax w s
  | .frcp w => Sys2Proof.Machine.execFrcp w s
  | .frsq w => Sys2Proof.Machine.execFrsq w s
  | .fsqrt w => Sys2Proof.Machine.execFsqrt w s
  | .fexp2 w => Sys2Proof.Machine.execFexp2 w s
  | .flog2 w => Sys2Proof.Machine.execFlog2 w s
  | .fsin w => Sys2Proof.Machine.execFsin w s
  | .fcos w => Sys2Proof.Machine.execFcos w s
  | .faddImm w => Sys2Proof.Machine.execFaddImm w s
  | .fmulImm w => Sys2Proof.Machine.execFmulImm w s
  | .fminImm w => Sys2Proof.Machine.execFminImm w s
  | .fmaxImm w => Sys2Proof.Machine.execFmaxImm w s
  | .hadd2 w => Sys2Proof.Machine.execHadd2 w s
  | .hmul2 w => Sys2Proof.Machine.execHmul2 w s
  | .hfma2 w => Sys2Proof.Machine.execHfma2 w s
  | .cvt w => Sys2Proof.Machine.execCvt w s
  | .qswap w => Sys2Proof.Machine.execQswap w s
  | .qbcast w => Sys2Proof.Machine.execQbcast w s
  | .qred w => Sys2Proof.Machine.execQred w s
  | .shfl w => Sys2Proof.Machine.execShfl w s
  | .xpair w => Sys2Proof.Machine.execXpair w s
  | .xshuf w => Sys2Proof.Machine.execXshuf w s
  | .ldB8 w => Sys2Proof.Machine.execLdB8 w s
  | .ldS8 w => Sys2Proof.Machine.execLdS8 w s
  | .ldB16 w => Sys2Proof.Machine.execLdB16 w s
  | .ldS16 w => Sys2Proof.Machine.execLdS16 w s
  | .ld w => Sys2Proof.Machine.execLd w s
  | .ldB64 w => Sys2Proof.Machine.execLdB64 w s
  | .ldB128 w => Sys2Proof.Machine.execLdB128 w s
  | .stB8 w => Sys2Proof.Machine.execStB8 w s
  | .stB16 w => Sys2Proof.Machine.execStB16 w s
  | .st w => Sys2Proof.Machine.execSt w s
  | .stB64 w => Sys2Proof.Machine.execStB64 w s
  | .stB128 w => Sys2Proof.Machine.execStB128 w s
  | .ald w => Sys2Proof.Machine.execAld w s
  | .ast w => Sys2Proof.Machine.execAst w s
  | .pf w => Sys2Proof.Machine.execPf w s
  | .seal w => Sys2Proof.Machine.execSeal w s
  | .waitc w => Sys2Proof.Machine.execWaitc w s
  | .atom w => Sys2Proof.Machine.execAtom w s
  | .cas w => Sys2Proof.Machine.execCas w s
  | .red w => Sys2Proof.Machine.execRed w s
  | .wpush w => Sys2Proof.Machine.execWpush w s
  | .wpop w => Sys2Proof.Machine.execWpop w s
  | .cis w => Sys2Proof.Machine.execCis w s
  | .fence w => Sys2Proof.Machine.execFence w s
  | .bar w => Sys2Proof.Machine.execBar w s
  | .tbar w => Sys2Proof.Machine.execTbar w s
  | .mwait w => Sys2Proof.Machine.execMwait w s
  | .waitm w => Sys2Proof.Machine.execWaitm w s
  | .getm w => Sys2Proof.Machine.execGetm w s
  | .step w => Sys2Proof.Machine.execStep w s
  | .gangset w => Sys2Proof.Machine.execGangset w s
  | .opfence w => Sys2Proof.Machine.execOpfence w s
  | .mma w => Sys2Proof.Machine.execMma w s
  | .mmwait w => Sys2Proof.Machine.execMmwait w s
  | .tld w => Sys2Proof.Machine.execTld w s
  | .tst w => Sys2Proof.Machine.execTst w s
  | .tzero w => Sys2Proof.Machine.execTzero w s
  | .trav w => Sys2Proof.Machine.execTrav w s
  | .rcfence w => Sys2Proof.Machine.execRcfence w s
  | .xchain w => Sys2Proof.Machine.execXchain w s
  | .qsub w => Sys2Proof.Machine.execQsub w s
  | .slset w => Sys2Proof.Machine.execSlset w s
  | .slpulse w => Sys2Proof.Machine.execSlpulse w s
  | .slwait w => Sys2Proof.Machine.execSlwait w s
  | .getsr w => Sys2Proof.Machine.execGetsr w s
  | .setsr w => Sys2Proof.Machine.execSetsr w s
  | .rolesw w => Sys2Proof.Machine.execRolesw w s
  | .sitearm w => Sys2Proof.Machine.execSitearm w s
  | .bkpt w => Sys2Proof.Machine.execBkpt w s
  | .dbgmb w => Sys2Proof.Machine.execDbgmb w s
  | .haltg w => Sys2Proof.Machine.execHaltg w s
  | .stepg w => Sys2Proof.Machine.execStepg w s
  | .watchset w => Sys2Proof.Machine.execWatchset w s
  | .eret w => Sys2Proof.Machine.execEret w s
  | .cwb w => Sys2Proof.Machine.execCwb w s
  | .cinv w => Sys2Proof.Machine.execCinv w s
  | .weirPortArrival id => Sys2Proof.Machine.execWeirPortArrival id s
  | .weirWindowExpiry id => Sys2Proof.Machine.execWeirWindowExpiry id s
  | .weirHomeExecute id => Sys2Proof.Machine.execWeirHomeExecute id s
  | .cisBankOperation id => Sys2Proof.Machine.execCisBankOperation id s
  | .monitorMatch id => Sys2Proof.Machine.execMonitorMatch id s
  | .travCommandBegin id => Sys2Proof.Machine.execTravCommandBegin id s
  | .travCommandPerformed id => Sys2Proof.Machine.execTravCommandPerformed id s
  | .returnLands id => Sys2Proof.Machine.execReturnLands id s
  | .cisReturn id => Sys2Proof.Machine.execCisReturn id s
  | .asyncCopyPerformed id => Sys2Proof.Machine.execAsyncCopyPerformed id s
  | .probeArrival id => Sys2Proof.Machine.execProbeArrival id s
  | .fillArrival id => Sys2Proof.Machine.execFillArrival id s
  | .homeRequest id => Sys2Proof.Machine.execHomeRequest id s
  | .atomicAtHome id => Sys2Proof.Machine.execAtomicAtHome id s
  | .uLineEviction id => Sys2Proof.Machine.execULineEviction id s
  | .siteStepQuicken id => Sys2Proof.Machine.execSiteStepQuicken id s
  | .siteStepWiden id => Sys2Proof.Machine.execSiteStepWiden id s
  | .scratchpadAccess id => Sys2Proof.Machine.execScratchpadAccess id s
  | .probeAnswerArrival id => Sys2Proof.Machine.execProbeAnswerArrival id s
  | .tbarTimeout gid k => Sys2Proof.Machine.execTbarTimeout gid k s
  | .mwaitTimeout gid k => Sys2Proof.Machine.execMwaitTimeout gid k s
  | .waitmDeadline gid k => Sys2Proof.Machine.execWaitmDeadline gid k s
  | .sleepExpiry gid k => Sys2Proof.Machine.execSleepExpiry gid k s
  | .xpairTimeout gid k => Sys2Proof.Machine.execXpairTimeout gid k s
  | .roleSwitch gid k => Sys2Proof.Machine.execRoleSwitch gid k s
  | .roleswGrowResume gid k => Sys2Proof.Machine.execRoleswGrowResume gid k s
  | .barstall bid bar => Sys2Proof.Machine.execBarstall bid bar s
  | .mmaProductComplete core bad1 bad2 => Sys2Proof.Machine.execMmaProductComplete core bad1 bad2 s
  | .copyRecord cluster ch => Sys2Proof.Machine.execCopyRecord cluster ch s
  | .copyOwnWake cluster ch => Sys2Proof.Machine.execCopyOwnWake cluster ch s
  | .quantisationCommand die => Sys2Proof.Machine.execQuantisationCommand die s
  | .sluiceGateRelease core line => Sys2Proof.Machine.execSluiceGateRelease core line s
  | .batchComplete gid path => Sys2Proof.Machine.execBatchComplete gid path s
  | .spanDispatch lid => Sys2Proof.Machine.execSpanDispatch lid s
  | .migrationWave lid moves => Sys2Proof.Machine.execMigrationWave lid moves s
  | .launchStartTime lid => Sys2Proof.Machine.execLaunchStartTime lid s
  | .launchComplete lid => Sys2Proof.Machine.execLaunchComplete lid s
  | .queueEnable p q => Sys2Proof.Machine.execQueueEnable p q s
  | .queuePacketRead p q => Sys2Proof.Machine.execQueuePacketRead p q s
  | .launch p q => Sys2Proof.Machine.execLaunch p q s
  | .signal p q => Sys2Proof.Machine.execSignal p q s
  | .wait p q => Sys2Proof.Machine.execWait p q s
  | .waitTimeout p q => Sys2Proof.Machine.execWaitTimeout p q s
  | .monitorReread p q => Sys2Proof.Machine.execMonitorReread p q s
  | .cond p q => Sys2Proof.Machine.execCond p q s
  | .loop p q => Sys2Proof.Machine.execLoop p q s
  | .graph p q => Sys2Proof.Machine.execGraph p q s
  | .fencePacket p q => Sys2Proof.Machine.execFencePacket p q s
  | .fix p q => Sys2Proof.Machine.execFix p q s
  | .migrate p q reply => Sys2Proof.Machine.execMigrate p q reply s
  | .nodeLaunch p q r => Sys2Proof.Machine.execNodeLaunch p q r s
  | .nodeSignal p q r => Sys2Proof.Machine.execNodeSignal p q r s
  | .nodeWait p q r => Sys2Proof.Machine.execNodeWait p q r s
  | .nodeCond p q r => Sys2Proof.Machine.execNodeCond p q r s
  | .nodeLoop p q r => Sys2Proof.Machine.execNodeLoop p q r s
  | .nodeEnd p q r => Sys2Proof.Machine.execNodeEnd p q r s
  | .nodeWaitTimeout p q r => Sys2Proof.Machine.execNodeWaitTimeout p q r s
  | .openPart p vf => Sys2Proof.Machine.execOpenPart p vf s
  | .create p vf => Sys2Proof.Machine.execCreate p vf s
  | .destroy p vf => Sys2Proof.Machine.execDestroy p vf s
  | .halt p vf => Sys2Proof.Machine.execHalt p vf s
  | .resume p vf => Sys2Proof.Machine.execResume p vf s
  | .savefull p vf => Sys2Proof.Machine.execSavefull p vf s
  | .saveback p vf => Sys2Proof.Machine.execSaveback p vf s
  | .restore p vf => Sys2Proof.Machine.execRestore p vf s
  | .kill p vf => Sys2Proof.Machine.execKill p vf s
  | .replay p vf => Sys2Proof.Machine.execReplay p vf s
  | .tlbinv p vf => Sys2Proof.Machine.execTlbinv p vf s
  | .gstep p vf => Sys2Proof.Machine.execGstep p vf s
  | .saveImageWrite p bad => Sys2Proof.Machine.execSaveImageWrite p bad s
  | .waymaskWrite p die value vf => Sys2Proof.Machine.execWaymaskWrite p die value vf s
  | .wayWalkEnd p die => Sys2Proof.Machine.execWayWalkEnd p die s
  | .fqctlWrite p value => Sys2Proof.Machine.execFqctlWrite p value s
  | .fwdclr value => Sys2Proof.Machine.execFwdclr value s
  | .registerWrite offset value bytes vf => Sys2Proof.Machine.execRegisterWrite offset value bytes vf s
  | .generationScrub gen => Sys2Proof.Machine.execGenerationScrub gen s
  | .blockSwapOut bid => Sys2Proof.Machine.execBlockSwapOut bid s
  | .blockSwapIn bid => Sys2Proof.Machine.execBlockSwapIn bid s
  | .powerGood verified => Sys2Proof.Machine.execPowerGood verified s
  | .imageVerify verified => Sys2Proof.Machine.execImageVerify verified s
  | .selfCalibration result reference => Sys2Proof.Machine.execSelfCalibration result reference s
  | .memoryInit result => Sys2Proof.Machine.execMemoryInit result s
  | .ferzuLinkUp node time => Sys2Proof.Machine.execFerzuLinkUp node time s
  | .powerWindow milliwatts => Sys2Proof.Machine.execPowerWindow milliwatts s
  | .correctableError => Sys2Proof.Machine.execCorrectableError s
  | .uncorrectableError place => Sys2Proof.Machine.execUncorrectableError place s
  | .coreRepair core unreadable => Sys2Proof.Machine.execCoreRepair core unreadable s
  | .l2WayRepair die slice way => Sys2Proof.Machine.execL2WayRepair die slice way s
  | .dramRepair part => Sys2Proof.Machine.execDramRepair part s
  | .ferzuLaneRepair port lane => Sys2Proof.Machine.execFerzuLaneRepair port lane s
  | .fixCutTime p q => Sys2Proof.Machine.execFixCutTime p q s
  | .fixDeadline p q => Sys2Proof.Machine.execFixDeadline p q s
  | .fixDrainPage p q => Sys2Proof.Machine.execFixDrainPage p q s
  | .fixDrainFault p q => Sys2Proof.Machine.execFixDrainFault p q s
  | .stubForwardWrite addr bytes => Sys2Proof.Machine.execStubForwardWrite addr bytes s
  | .measurementExtend reg data => Sys2Proof.Machine.execMeasurementExtend reg data s
  | .quoteRequest vf nonce mask => Sys2Proof.Machine.execQuoteRequest vf nonce mask s
  | .spareLaneTrained port => Sys2Proof.Machine.execSpareLaneTrained port s
  | .dramSpareCopyDone part => Sys2Proof.Machine.execDramSpareCopyDone part s
  | .migrationDestination p arrival => Sys2Proof.Machine.execMigrationDestination p arrival s

end Sys2Proof.Machine
end

