-- ==== Sys2Proof/Machine/Issue.lean ====
section
/-! DEFINITION. Instruction fetch (R137, R282, R394) and issue: the choice of a partition, a split and a word by a core (R41, R42, R165), merging (R25), single steps of a halted
group (R286, R362), and STEP traps that are due (R279). -/

namespace Sys2Proof.Machine

/-- The code line as a core's instruction cache holds it (R10). -/
def State.codeLine? (s : State) (core line : Nat) : Option CodeLine := s.icache.find? fun l => l.core == core && l.line == line

/-- A line installed in an instruction cache; the line that has been longest in a full cache leaves (R10, log 67). -/
def State.putCode (s : State) (l : CodeLine) : State :=
  let mine := s.icache.filter fun x => x.core == l.core
  let rest := if Config.icacheLines ≤ mine.length then (match mine.head? with | some x => s.icache.erase x | none => s.icache) else s.icache
  { s with icache := rest ++ [l] }

/-- A core takes a code line: a read probe of its owners, and the core as a sharer, behind its die's slice where the home lies on another die (R76, R77, R282). -/
def State.takeCode (s : State) (core p line : Nat) : State :=
  let s := s.shareLine line
  let v := s.homeVal line
  let s := if isPeer line then s else s.touchL2 (homeDie line) line p 1 false
  let s := match nodeFor core line with
    | .home => s.noteGrant .home line (.l1 core) .s
    | .slice d =>
      let s := if (s.sliceLine? d line).isSome then s else (s.putSlice { die := d, line := line, st := .s, val := v }).noteGrant .home line (.slice d) .s
      (s.touchL2 d line p 1 false).noteGrant (.slice d) line (.l1 core) .s
  s.putCode { core := core, line := line, val := v }

/-- The word at a PC, as one indivisible coherent read (R137, R282), through the core's instruction cache (R10); `none` while the line is under way between caches. Host memory enters no
cache (R374). A poisoned word is a free value, and so is one of a frame that two running partitions map (R371, log 3). -/
def State.fetchWord (s : State) (g : Group) (pc : Dword) : Option (State × Except WalkFault Dword) :=
  if windowOf pc ≠ some .global then some (s, .error ⟨false, false⟩)
  else match s.translate g.core g.part pc needX with
    | (s, .error f) => some (s, .error f)
    | (s, .ok l) =>
      let pa := leafPa l pc
      let gen := s.genOf g.part
      if l.attr = 1 then
        if s.peekPoison 1 gen pa 8 then
          let (w, s) := s.free
          some (s, .ok w)
        else some (s, .ok (BitVec.ofNat 64 (ofLe (s.peek 1 gen pa 8))))
      else
        let line := pa / 128
        let gen := homeGen gen pa
        let got : Option State := if (s.codeLine? g.core line).isSome then some s else if s.quiet line then some (s.takeCode g.core g.part line) else none
        got.bind fun s => (s.codeLine? g.core line).map fun c =>
          if c.val.anyPoison gen (pa % 128) 8 || s.twice line then
            let (w, s) := s.free
            (s, .ok w)
          else (s, .ok (BitVec.ofNat 64 (ofLe ((s.seenAs gen line c.val).read gen (pa % 128) 8))))

/-- A fetch that faults parks the group, with a record that has FETCH set and names the lowest lane of EX, or of OWN (R385). -/
def State.fetchFault (s : State) (g : Group) (e : Entry) (f : WalkFault) : State :=
  let lane := (lowestLane e.ex).getD ((lowestLane e.own).getD 0)
  (s.modGroup g.gid fun g => { g with park := .fault }).pushFault g.part (recordW0 1 0 f.malf f.stage2 false true)
    (threadWord g.span g.block g.group lane) e.pc (s.time (dieOf g.core))

/-- A split may be chosen (R41): runnable, not stopped by a trap of its group (R279), its group begun, and neither halted nor parked on an access. -/
def mayIssue (g : Group) (k : Nat) : Bool :=
  !g.halt && g.park == .none && g.begun && (entry g k).state == .runnable && !g.stopped.getLsbD k

/-- A fetched word executes: ILLOP when it is no instruction (R152, R153). -/
def State.execWord (s : State) (g : Group) (k : Nat) (w : Dword) : Host.Outcome State Fault Refusal :=
  match decodeWord w with
  | .ok i => exec i s
  | .error _ => .next (s.takeTrap g.gid k ((entry g k).ex &&& guardMask g (hdrOf .native w)) .illop none w).turnOver

/-- A place that a rewound region has stored to becomes free, its poison marks kept (R7, R328). -/
def State.freeStored (s : State) (gen : Nat) (x : Space × Nat × Nat × Nat) : State :=
  let (sp, attr, a, n) := x
  match sp with
  | .global =>
    if attr = 1 then
      let (bs, s) := s.freeBytes n
      { s with host := s.host.putBytes 0 a bs }
    else s.spoilRange (homeGen gen a) a n
  | sp =>
    let (bs, s) := s.freeBytes n
    s.setNear sp ((s.nearMem sp).putBytes gen a bs)

/-- The request of a rewound region's store, with free bytes (R328). -/
def State.looseReq (s : State) (gid : Nat) (q : Req) : Req × State :=
  match q.kind with
  | .store off bs =>
    if q.gid = gid ∧ q.again then
      let (bs, s) := s.freeBytes bs.length
      ({ q with kind := .store off bs }, s)
    else (q, s)
  | _ => (q, s)

/-- A rule of R328 breaks while its region runs again: all that the region has written there so far is free, in registers, in memory, and under way to either. -/
def State.breakRerun (s : State) (g : Group) (r : Rerun) : State :=
  let s := r.regs.foldl (fun s d => s.freeReg g.gid d.1 d.2) s
  let s : State := { s with rets := s.rets.map fun x => if x.gid = g.gid ∧ x.again then { x with loose := true } else x }
  let s := (s.pends.filter fun p => p.gid == g.gid && p.again).foldl (fun s p => match p.act with
    | .store off bs pois =>
      let (bs, s) := s.freeBytes bs.length
      { s with pends := s.pends.map fun x => if x = p then { x with act := .store off bs pois } else x }
    | _ => s) s
  let s := (s.near.filter fun n => n.gid == g.gid && n.again).foldl (fun s n => match n.act with
    | .store bs =>
      let (bs, s) := s.freeBytes bs.length
      { s with near := s.near.map fun x => if x.id = n.id then { x with act := .store bs } else x }
    | _ => s) s
  let s := s.reqs.foldl (fun s q =>
    let (q, s) := s.looseReq g.gid q
    { s with reqs := s.reqs.map fun x => if x.id = q.id then q else x }) s
  let s := s.txns.foldl (fun s t =>
    let (q, s) := s.looseReq g.gid t.req
    { s with txns := s.txns.map fun x => if x.req.id = q.id then { x with req := q } else x }) s
  (r.stores.foldl (fun s x => s.freeStored (s.genOf g.part) x) s).modGroup g.gid fun x => { x with rerun := x.rerun.map fun r => { r with broken := true } }

/-- A PC lies in a point's region or in its recipe (R327). -/
def BsPoint.holds (p : BsPoint) (stop pc : Nat) : Bool := (decide (p.start ≤ pc) && decide (pc < p.stop)) || (decide (p.recipe ≤ pc) && decide (pc < stop))

/-- What is known of a point's region once a word at `pc` has issued; `g` is the group as the word found it, `g'` as it left it, `dests` what it wrote. Rule 3 is judged where START issues,
rule 2 where a split comes to stand in the region from outside elsewhere than at START, rule 1 by every word (R328). Nothing is kept of a region in which no split stands. -/
def regionAfter (p : BsPoint) (stop : Nat) (g g' : Group) (pc : Nat) (dests : List (Nat × Mask)) : Option (Nat × Bool) :=
  let here (x : Group) : List Nat := (entries.map (entry x ·)).filterMap fun e => if e.state ≠ .free ∧ p.holds stop e.pc.toNat then some e.pc.toNat else none
  if (here g').isEmpty then none
  else
    let had := g.region.find? (·.1 == p.start)
    let kept : Bool :=
      if pc = p.start then wholeSplit g && !dests.any (fun d => p.codes.contains d.1)
      else if p.holds stop pc then (had.map (·.2)).getD false && !dests.any (fun d => p.codes.contains d.1)
      else (had.map (·.2)).getD true && (here g').all fun a => a == p.start || (here g).contains a
    some (p.start, kept)

/-- BACKSIGHT REGIONS (R322, R328) after a word at `pc` of split k, which `g` is the group as it found; `dests` is what it wrote. A rewound region that only now breaks a rule loses what it has
written; one that its group has left is over. -/
def State.noteRegion (s0 s : State) (g : Group) (pc : Nat) (dests : List (Nat × Mask)) : State :=
  match s0.launchOf g with
  | none => s
  | some l =>
    if l.params.backsight = 0 then s
    else match s0.bsTable g.part l.params.backsight, s.group? g.gid with
      | some pts, some g' =>
        let region := pts.filterMap fun p => regionAfter p (s0.recipeEnd g.part p.recipe 32) g g' pc dests
        let rerun := g'.rerun.filter fun r => region.any (·.1 == r.start)
        let s := s.modGroup g.gid fun x => { x with region := region, rerun := rerun }
        match rerun with
        | some r => if !r.broken && region.contains (r.start, false) then s.breakRerun g' r else s
        | none => s
      | _, _ => s

/-- The registers that the word which has just issued in split k wrote: none when it has trapped or parked its group (R328). -/
def State.wrote (s0 s : State) (g : Group) (k : Nat) (w : Dword) : List (Nat × Mask) :=
  match decodeWord w, s.group? g.gid with
  | .ok i, some g' =>
    let h := hdrOf .native w
    let act := (entry g k).ex &&& guardMask g h
    let c : Ctx := { s := s0, g := g, k := k, e := entry g k, i := i, h := h, act := act, thr := threadsOf g act }
    let trapped := g'.trappc == (entry g k).pc && ((g'.hmode && !g.hmode) || (g'.halt280 && !g.halt280))
    if trapped || (entry g' k).pc == (entry g k).pc then [] else c.dests
  | _, _ => []

/-- What the attempt of a split to issue comes to. `word` says that an instruction has issued. -/
structure Attempt where
  word : Bool
  out  : Host.Outcome State Fault Refusal

/-- Split k of a group is about to issue: it merges with its equals (R25), and a STEP that one of them owes is raised first (R279); else it fetches, and its word executes. None when its
operands are not there (R41). -/
def State.attempt (s : State) (gid k : Nat) : Option Attempt :=
  match s.group? gid with
  | none => none
  | some g0 =>
    let (g, k) := mergeInto g0 k .runnable
    let g := setEntry g k { entry g k with passed := false }
    let s : State := { s.setGroup g with cur := some (gid, k) }.freeLate gid
    let g := (s.group? gid).getD g
    let e := entry g k
    match (if g.hmode then none else e.stepDue) with
    | some act => some ⟨false, .next (s.takeTrap gid k act .step none 0).turnOver⟩
    | none =>
      let got : Option (State × Except WalkFault Dword) := match e.ibuf with
        | some w => some (s, .ok w)
        | none => s.fetchWord g e.pc
      match got with
      | none => none
      | some (s, .error f) => some ⟨false, .next (s.fetchFault g e f).turnOver⟩
      | some (s, .ok w) => match s.execWord g k w with
        | .next s' => if s'.cur.isSome then none else some ⟨true, .next (s.noteRegion s' g e.pc.toNat (s.wrote s' g k w))⟩
        | o => some ⟨true, o⟩

/-- A split that a core may choose: its group, entry, class, AGE, slot, whether it is passed over, whether R42 puts it first. -/
structure Cand where
  gid    : Nat
  k      : Nat
  prio   : Nat
  age    : Nat
  slot   : Nat
  passed : Bool
  late   : Bool
  deriving DecidableEq, Repr

/-- R41, steps 2 and 3, behind the override of R42 and before the splits that a `yield` passes over (R165). -/
def candLe (a b : Cand) : Bool :=
  let key (c : Cand) : List Nat := [if c.late then 0 else if c.passed then 2 else 1, 4 - c.prio, 65535 - c.age, c.slot, c.k]
  decide (key a ≤ key b)

/-- The split of a launch's runnable thread of lowest linear index (R17, R42, R43). DESIGN CHOICE (log 93): a split stopped by a trap handler, and one of a group parked on an access fault,
holds no runnable thread; R43's list names neither. -/
def lowestRunnable (s : State) (lid : Nat) : Option (Nat × Nat) :=
  let all := (s.groups.filter (·.lid == lid)).flatMap fun g => entries.filterMap fun k =>
    if mayIssue g k then (lowestLane (threadsOf g (entry g k).ex)).map fun l => (linearOf g * 32 + l, g.gid, k) else none
  (all.foldl (fun (b : Option (Nat × Nat × Nat)) x => match b with
    | none => some x
    | some y => if x.1 < y.1 then some x else b) none).map (·.2)

/-- The splits of a partition that a core may choose, in the order of choice (R41, R42). -/
def State.cands (s : State) (core p : Nat) : List Cand :=
  let gs := s.groups.filter fun g => g.core == core && g.part == p
  sortBy candLe (gs.flatMap fun g => entries.filterMap fun k =>
    let e := entry g k
    if mayIssue g k then
      some { gid := g.gid, k := k, prio := g.prio, age := e.age.toNat, slot := g.slot, passed := e.passed,
             late := decide (64 ≤ e.turns) && lowestRunnable s g.lid == some (g.gid, k) }
    else none)

/-- A partition's turn on a core has gone to a split (R42, R165): its other splits count it, and none is passed over any longer but the one that has just yielded.
DESIGN CHOICE (log 93): a split counts from its making, and a group that is moved takes its count along. -/
def State.countTurn (s : State) (core p gid k : Nat) : State :=
  { s with groups := s.groups.map fun g =>
      if g.core = core ∧ g.part = p then
        { g with split := Vector.ofFn fun i : Fin 4 =>
            let e := entry g i.val
            if e.state = .free then e
            else { e with passed := g.gid == gid && i.val == k && e.passed,
                          turns := if g.gid = gid ∧ i.val = k then 0 else min 64 (e.turns + 1) } }
      else g }

/-- Telemetry of an issue (R426): an attempt that has met only a fault, or a STEP, issues no instruction. -/
def State.countIssue (s : State) (p : Nat) (word : Bool) : State :=
  if !word then s
  else { s with dev := { s.dev with issued := s.dev.issued + 1 } }.modPart p fun x => { x with issued := x.issued + 1 }

/-- STEP is raised in every split that has become runnable and owes it (R279). -/
def State.stepTraps (s : State) : State :=
  (s.groups.map (·.gid)).foldl (fun s gid => entries.foldl (fun s k => match s.group? gid with
    | some g =>
      let e := entry g k
      match e.stepDue with
      | some act => if e.state == .runnable && !g.hmode && !g.stopped.getLsbD k then s.takeTrap gid k act .step none 0 else s
      | none => s
    | none => s) s) s

/-- Everything that follows a step: commands that stood BUSY, waits that have ended, splits woken by a monitored write, STEP traps that are due. -/
def State.settled (s : State) : State := s.pendingCommands.settle.wakeMatches.stepTraps

/-- What follows an outcome. -/
def afterStep (f : State → State) : Host.Outcome State Fault Refusal → Host.Outcome State Fault Refusal
  | .next s => .next (f s)
  | o => o

/-- The first ready split of a list of candidates, with what its attempt comes to. -/
def State.firstReady (s : State) : List Cand → Option (Cand × Attempt)
  | [] => none
  | c :: cs => match s.attempt c.gid c.k with
    | some o => some (c, o)
    | none => s.firstReady cs

/-- The entry in which split k of a group issues once it has merged with its equals: the lowest of them (R25). -/
def State.mergedSlot (s : State) (gid k : Nat) : Nat :=
  match s.group? gid with
  | some g => (mergeInto g k .runnable).2
  | none => k

/-- The answer of a finished step to who asked for it (R286, R362). -/
def State.stepAnswer (s : State) (p : Nat) (r : StepReq) (k : Nat) (trapped : Bool) : State :=
  match r.by_ with
  | some (gid, j, sd) => s.modGroup gid fun g => match (entry g j).wait with
    | .stepg _ => wakeWith g j sd (BitVec.ofNat 64 (k * 4 + if trapped then 32 else 0))
    | _ => g
  | none => s.modPart p fun x => { x with result := .ok, busy := false }

/-- A halted group issues the one instruction asked of it, and stands halted again (R286, R362). -/
def State.stepIssue (s : State) (g : Group) (r : StepReq) : Option (Host.Outcome State Fault Refusal) :=
  let free := fun x : Group => { x with halt := false, halt280 := false, stepReq := none }
  let s0 := s.modGroup g.gid free
  let cs := (s0.cands g.core g.part).filter fun c => c.gid == g.gid && (r.entry == 4 || c.k == r.entry)
  (s0.firstReady cs).map fun (c, o) => afterStep (fun s1 =>
    let trapped := match s1.group? g.gid with
      | some x => (x.hmode && !g.hmode) || x.halt280
      | none => false
    ((s1.modGroup g.gid fun x => { x with halt := true, halt280 := g.halt280 || x.halt280 }).stepAnswer g.part r (s0.mergedSlot c.gid c.k) trapped).countIssue g.part o.word |>.settled) o.out

/-- The steps asked of halted groups on a core, lowest slot first. -/
def State.stepReqs (s : State) (core : Nat) : List (Group × StepReq) :=
  sortBy (fun a b => decide (a.1.slot ≤ b.1.slot)) ((s.groups.filter fun g => g.core == core).filterMap fun g => g.stepReq.map fun r => (g, r))

/-- The partitions with groups on a core, in number order. -/
def State.coreParts (s : State) (core : Nat) : List Nat := (List.range 40).filter fun p => s.groups.any fun g => g.core == core && g.part == p

/-- Each partition with a ready split (R41, step 1), with the split its turn would go to and the outcome. -/
def State.readyParts (s : State) (core : Nat) : List (Nat × Cand × Attempt) :=
  (s.coreParts core).filterMap fun p => (s.firstReady (s.cands core p)).map fun x => (p, x.1, x.2)

/-- The waits of a core's groups whose cycles or whose deadline have passed end, before the core's turn (R166, R243, R428), as does that of a `watchset`, in a halted group too (R287, R395). -/
def State.due (s : State) (core : Nat) : State :=
  let end_ (s : State) (o : Host.Outcome State Fault Refusal) : State := match o with | .next s' => s' | _ => s
  let one (s : State) (gid k : Nat) : State :=
    let s := end_ s (execSleepExpiry gid k s)
    let s := end_ s (execXpairTimeout gid k s)
    let s := end_ s (execTbarTimeout gid k s)
    let s := end_ s (execMwaitTimeout gid k s)
    end_ s (execWaitmDeadline gid k s)
  let applied (s : State) (gid k : Nat) : State := s.modGroup gid fun g => match (entry g k).wait with | .watchset sd => wakeWith g k sd 0 | _ => g
  ((s.groups.filter fun g => g.core == core).foldl (fun s g => entries.foldl (fun s k => applied (if g.halt then s else one s g.gid k) g.gid k) s) s).stepTraps

/-- The core has issued in this cycle (R41). -/
def State.spendTurn (s : State) (core : Nat) : State := { s with turns := note s.turns core }

/-- What a core issues (R41): a step asked of a halted group, or one instruction of the partition whose turn it is by smooth weighted round robin over slot quotas; nothing when no
split is ready. -/
def State.turnOn (s : State) (core : Nat) : Host.Outcome State Fault Refusal :=
  match (s.stepReqs core).findSome? fun x => s.stepIssue x.1 x.2 with
  | some o => afterStep (·.spendTurn core) o
  | none =>
    let cs := s.readyParts core
    match wrrTurn s.credits (cs.map fun x => ((core, x.1), (quotaOf (s.part x.1)).slots)) with
    | none => .next s
    | some (win, credits) => match cs.find? fun x => x.1 == win.2 with
      | none => .next s
      | some (p, c, o) => afterStep (fun s1 =>
          ((({ s1 with credits := credits }.countTurn core p c.gid (s.mergedSlot c.gid c.k)).countIssue p o.word).spendTurn core).settled) o.out

/-- A CORE'S TURN (R41): at most one instruction in a cycle. -/
def State.issueOn (s : State) (core : Nat) : Host.Outcome State Fault Refusal :=
  if s.turns.contains core then .next s else (s.due core).turnOn core

/-- A split fetches its next word before its issue (R137). -/
def State.fetchAhead (s : State) (gid k : Nat) : State :=
  match s.group? gid with
  | none => s
  | some g =>
    let e := entry g k
    if !mayIssue g k || e.ibuf.isSome then s
    else match s.fetchWord g e.pc with
      | some (s, .ok w) => s.modGroup gid fun g => setEntry g k { entry g k with ibuf := some w }
      | _ => s

end Sys2Proof.Machine
end

