-- ==== Sys2Proof/Machine/Tick.lean ====
section
/-! DEFINITION. The passage of time: arithmetic cycles (R2), AGE (R23), waits that count residence (R428), barrier ages (R50), weir windows (R232), START times (R352), meridian time
with its slew (R409), and MATRIXBUSY (R426). -/

namespace Sys2Proof.Machine

/-- A wait after n more cycles of residence not halted (R428). -/
def waitTick (n : Nat) : Wait → Wait
  | .mwait sd m a rem => .mwait sd m a (rem.map (· - n))
  | .tbar sd m ph rem => .tbar sd m ph (rem.map (· - n))
  | .xpair sd q rem => .xpair sd q (rem.map (· - n))
  | .sleep rem => .sleep (rem - n)
  | w => w

/-- A split-table entry after n cycles (R23, R428). -/
def entryTick (n : Nat) (halted : Bool) (e : Entry) : Entry :=
  if e.state = .free then e
  else { e with age := BitVec.ofNat 16 (min 65535 (e.age.toNat + n)), wait := if halted then e.wait else waitTick n e.wait }

/-- A resident group after n cycles. -/
def groupTick (n : Nat) (g : Group) : Group := { g with split := Vector.ofFn fun i : Fin 4 => entryTick n g.halt (entry g i.val) }

/-- A block's barriers after n cycles (R50). -/
def blockTick (n : Nat) (b : Block) : Block :=
  if resident b then { b with bars := b.bars.map fun x => if x.armed then { x with age := x.age + n } else x } else b

/-- Cycles to meridian nanoseconds from power-up on: 1.05 GHz (R2). -/
def nsOf (cycles : Nat) : Nat := cycles * 20 / 21

/-- The slew that falls due in n cycles (R409): one nanosecond in 10,500 cycles, which is 100 ns in a millisecond. -/
def slewDue (cycle n : Nat) (left : Int) : Int :=
  let c : Int := ((cycle + n) / 10500 - cycle / 10500 : Nat)
  if 0 ≤ left then min c left else max (-c) left

/-- Meridian time after n cycles (R2, R409). -/
def State.meridianTick (s : State) (n : Nat) : State :=
  let d := slewDue s.cycle n s.dev.slew
  let by_ : Int := (nsOf (s.cycle + n) - nsOf s.cycle : Nat) + d
  { s with meridian := s.meridian.map (fun t => t + BitVec.ofInt 64 by_), dev := { s.dev with slew := s.dev.slew - d } }

/-- The cores on which a product of a set runs (R426). -/
def busyCores (ps : List Product) : Nat := (ps.map (·.core)).eraseDups.length

/-- MATRIXBUSY after n cycles (R426). -/
def State.matrixTick (s : State) (n : Nat) : State :=
  let run := s.products.filter fun p => p.gates.isEmpty
  let of_ (p : Nat) : List Product := run.filter fun x => x.members.any fun m => match s.group? m.gid with | some g => g.part == p | none => false
  let s : State := { s with dev := { s.dev with matbusy := s.dev.matbusy + n * busyCores run } }
  { s with parts := Vector.ofFn fun i : Fin 40 => let x := s.part i.val; { x with matbusy := x.matbusy + n * busyCores (of_ i.val) } }

/-- The cuts by TIME whose instant has come (R416). -/
def State.cutDue (s : State) : State :=
  (List.range Config.partitions).foldl (fun s p => ((s.part p).fixes.filter fun f =>
      f.cut.isNone && f.params.byTime && (match f.params.when_ with | some t => decide (t.toNat ≤ s.nowNs) | none => false)).foldl
    (fun s f => s.cutFix p f) s) s

/-- N ARITHMETIC CYCLES PASS. -/
def State.tick (s : State) (n : Nat) : State :=
  let s := (s.matrixTick n).meridianTick n
  let s : State := { s with
    cycle := s.cycle + n, turns := if n = 0 then s.turns else [], groups := s.groups.map (groupTick n), blocks := s.blocks.map (blockTick n),
    weir := s.weir.map fun w => { w with held := w.held.map (· - n) } }
  let s := s.cutDue
  s.launches.foldl (fun s l => s.beginLaunch l) s

end Sys2Proof.Machine
end

