-- ==== Sys2Proof/Machine/World.lean ====
section
/-! DEFINITION. The moves of the agenda (log 1), and what `State.withFetchWord` sets up (log 2). -/

namespace Sys2Proof.Machine

/-- An instruction that has a word, as against an event or a command. -/
def isWord (i : Instr) : Bool := (encode i).isSome

/-- A cache gives up the line that is its next victim by R93 (R77); one that is under way, or that an access waits for, stays. -/
def State.evictLine (s : State) (a : Agent) (line : Nat) : State :=
  match a with
  | .l1 core => if s.l1Victim core = some line then s.evictL1 core line else s
  | .slice d => match s.ways.find? (fun w => w.die == d && w.line == line) with
    | some w => if d ≠ homeDie line ∧ s.wayVictim d line (vget (s.part w.part).waymask d 0) = some w then s.evictSlice d line else s
    | none => s
  | _ => s

/-- ONE MOVE of the agenda. -/
def State.move (s : State) : Move → Host.Outcome State Fault Refusal
  | .event i => if isWord i then .next s else afterStep State.settled (exec i s)
  | .issue core => s.issueOn core
  | .tick n => .next (s.tick n)
  | .fetch gid k => .next (s.fetchAhead gid k).settled
  | .evict a line => .next (s.evictLine a line)
  | .evictTlb lv p second page => .next { s with tlb := s.tlb.filter fun t => !(t.level == lv && t.part == p && t.stage2 == second && t.page == page) }
  | .inbound pa gen w => .next (s.inbound pa gen w).settled
  | .inboundRead pa gen n => .next (s.inboundSeen gen pa n).settled
  | .hostMem a bytes => .next { s with host := s.host.write 0 a bytes false }
  | .peerMem a bytes => .next (if s.quietRange (peerBase + a) bytes.length then s.cohWrite 0 (peerBase + a) bytes false else s)

/-- The machine with an empty agenda: the core in focus takes its turn, and a cycle passes. -/
def State.idle (s : State) : Host.Outcome State Fault Refusal := afterStep (fun s => s.tick 1) (s.issueOn s.focus)

/-- Where `withFetchWord` places its word: partition-virtual, in a page of 1 GiB that lies at 0. -/
def bootVa : Nat := 0x40100000
@[inherit_doc bootVa]
def bootPa : Nat := 0x100000
/-- Places of its stage-1 and stage-2 tables. -/
def bootS1 : Nat := 0x10000
@[inherit_doc bootS1]
def bootS2 : Nat := 0x40000

/-- The entries that map one 1 GiB page at `va` to address 0 with every permission, in three tables from `base` up (R378, R379). -/
def mapGig (base va : Nat) : List (Nat × Nat) :=
  [(base + 8 * natBits va 55 48, base + 0x10000 + 1), (base + 0x10000 + 8 * natBits va 47 39, base + 0x20000 + 1), (base + 0x20000 + 8 * natBits va 38 30, 0x1F)]

/-- Bytes stored in device memory at generation 1, whatever lay there. -/
def bootStore (m : Memory) (x : Nat × Nat) : Memory := m.write 1 x.1 (leBytes 8 x.2) false

/-- The launch of `withFetchWord`: one group of 32 threads in role 0, with the whole register file and every tile unit. -/
def bootLaunch : Launch :=
  { lid := 0, part := 0, q := 0, seq := 0, pk := 0, signal := none, nextSpan := 1, killed := false, late := false, waved := false, gids := [0], node := none,
    params := { nspans := 1, nblocks := 1, ngroups := 1, threads := 32, data := 0, args := 0, tiles := 16, scratch := 0,
                roles := [{ entry := BitVec.ofNat 64 bootVa, prio := 0, movable := false, regs := 512, groups := 1 }], stages := [], trap := 0,
                barlimit := 0, backsight := 0, start := none } }

/-- Its block, on core 0. -/
def bootBlock : Block :=
  { bid := 0, lid := 0, part := 0, span := 0, block := 0, cluster := 0, firstCore := 0, ncores := 1, gids := [(0, 0)], bars := List.replicate 16 barZero,
    barlimit := 0, pools := [0], poolRows := [512], scratchRow := 0, scratchRows := 0, tilesPer := 16, placedAt := 0, image := none, swapped := false }

/-- A partition that runs with generation 1, all of every core and the tables of `mapGig` (R361, R363, R364, R367). -/
def bootPart (x : Part) : Part :=
  { x with state := .run, gen := 1, place := 0xFFFFFFFFFFFFFFFF, s1root := BitVec.ofNat 64 bootS1, s2root := BitVec.ofNat 64 bootS2,
           quota := BitVec.ofNat 64 (48 * 2 ^ 6 + 64 * 2 ^ 18 + 512 * 2 ^ 34 + 16 * 2 ^ 48), cisrange := BitVec.ofNat 64 (512 * 2 ^ 10) }

/-- One group of one partition stands on core 0 with its PC at a word placed in memory, and nothing else is under way (log 2). -/
def State.boot (s : State) (word : Nat) : State :=
  let mem := ((mapGig bootS1 bootVa ++ mapGig bootS2 0) ++ [(bootPa, word)]).foldl bootStore s.dram
  { s.modPart 0 bootPart with
    agenda := [], focus := 0, cur := none, turns := [], icache := [], ways := [], nextId := s.nextId + 1, dev := { s.dev with freeGens := s.dev.freeGens.erase 1 }, dram := mem, tlb := [], credits := [],
    groups := [newGroup bootLaunch 0 0 0 0 0 0 0 true], blocks := [bootBlock], launches := [bootLaunch], saved := [],
    l1 := [], slices := [], dirs := [], reqs := [], txns := [], probes := [], answers := [], fills := [], uevicts := [], pends := [], near := [],
    rets := [], weir := [], products := [], spent := [], orphans := [], rends := [], sluice := [] }

end Sys2Proof.Machine
end

