-- ==== Sys2Proof/Machine/Step.lean ====
section
/-! DEFINITION. One step of the machine, and the state in which a given word is the next to be fetched. -/

namespace Sys2Proof.Machine

/-- ONE STEP: the next move of the agenda, or, when it is empty, a turn of the core in focus and one cycle (log 1). -/
def step (s : State) : Host.Outcome State Fault Refusal :=
  match s.agenda with
  | [] => s.idle
  | m :: rest => { s with agenda := rest }.move m

/-- The state with the instruction whose bits are w where `step` fetches its next word (log 2). -/
def State.withFetchWord (s : State) (nbits w : Nat) : State := s.boot (w % 2 ^ nbits)

end Sys2Proof.Machine
end

