-- ==== Sys2Proof/Laws/Memory.lean ====
section
/-! SUPPORT. Laws of canonical maps and of byte storage: read after write, and that every memory operation keeps the canonical form. -/

namespace Sys2Proof

section Maps
variable {α : Type} [DecidableEq α] (d : α)

/-- A map whose keys start at `lo` starts anywhere below. -/
theorem mapWfFrom_mono {lo lo' : Nat} (h : lo' ≤ lo) : ∀ {m : List (Nat × α)}, mapWfFrom d lo m = true → mapWfFrom d lo' m = true
  | [], _ => rfl
  | (k, v) :: r, hm => by
    simp only [mapWfFrom, Bool.and_eq_true, decide_eq_true_eq] at hm ⊢
    exact ⟨⟨by omega, hm.1.2⟩, hm.2⟩

/-- Storing a key at or above `lo` keeps the canonical form from `lo` on. -/
theorem mapWfFrom_put {lo a : Nat} (v : α) (ha : lo ≤ a) : ∀ {m : List (Nat × α)}, mapWfFrom d lo m = true →
    mapWfFrom d lo (mapPut d m a v) = true
  | [], _ => by
    by_cases hv : v = d <;> simp [mapPut, mapWfFrom, hv, ha]
  | (k, w) :: r, hm => by
    have hm' := hm
    simp only [mapWfFrom, Bool.and_eq_true, decide_eq_true_eq] at hm
    obtain ⟨⟨h1, h2⟩, h3⟩ := hm
    simp only [mapPut]
    split
    · split
      · exact hm'
      · rename_i hlt hv
        have : mapWfFrom d (a + 1) ((k, w) :: r) = true := by
          simp only [mapWfFrom, Bool.and_eq_true, decide_eq_true_eq]
          exact ⟨⟨hlt, h2⟩, h3⟩
        simp only [mapWfFrom, Bool.and_eq_true, decide_eq_true_eq] at this ⊢
        exact ⟨⟨ha, hv⟩, this⟩
    · split
      · split
        · exact mapWfFrom_mono d (by omega) h3
        · rename_i hv
          subst_vars
          simp only [mapWfFrom, Bool.and_eq_true, decide_eq_true_eq]
          exact ⟨⟨ha, hv⟩, h3⟩
      · have := mapWfFrom_put (lo := k + 1) (a := a) v (by omega) h3
        simp only [mapWfFrom, Bool.and_eq_true, decide_eq_true_eq]
        exact ⟨⟨h1, h2⟩, this⟩

/-- Storing keeps the canonical form. -/
theorem mapWf_put {m : List (Nat × α)} (a : Nat) (v : α) (h : mapWf d m = true) : mapWf d (mapPut d m a v) = true :=
  mapWfFrom_put d v (Nat.zero_le a) h

/-- Dropping entries keeps the canonical form. -/
theorem mapWfFrom_filter (p : Nat × α → Bool) : ∀ {lo : Nat} {m : List (Nat × α)}, mapWfFrom d lo m = true → mapWfFrom d lo (m.filter p) = true
  | _, [], _ => rfl
  | lo, (k, v) :: r, hm => by
    simp only [mapWfFrom, Bool.and_eq_true, decide_eq_true_eq] at hm
    have ih := mapWfFrom_filter p hm.2
    simp only [List.filter]
    split
    · simp only [mapWfFrom, Bool.and_eq_true, decide_eq_true_eq]
      exact ⟨hm.1, ih⟩
    · exact mapWfFrom_mono d (by omega) ih

/-- Clearing a range keeps the canonical form. -/
theorem mapWf_clear {m : List (Nat × α)} (lo n : Nat) (h : mapWf d m = true) : mapWf d (mapClear m lo n) = true :=
  mapWfFrom_filter d _ h

/-- Below its first key a canonical map reads as the default. -/
theorem mapGet_below : ∀ {lo a : Nat} {m : List (Nat × α)}, mapWfFrom d lo m = true → a < lo → mapGet d m a = d
  | _, _, [], _, _ => rfl
  | lo, a, (k, v) :: r, hm, ha => by
    simp only [mapWfFrom, Bool.and_eq_true, decide_eq_true_eq] at hm
    simp only [mapGet]
    rw [if_neg (by omega)]
    exact mapGet_below hm.2 (by omega)

/-- The key just stored holds the value stored. -/
theorem mapGet_put_same (a : Nat) (v : α) : ∀ {lo : Nat} {m : List (Nat × α)}, mapWfFrom d lo m = true → mapGet d (mapPut d m a v) a = v
  | _, [], _ => by by_cases hv : v = d <;> simp [mapPut, mapGet, hv]
  | lo, (k, w) :: r, hm => by
    have hm' := hm
    simp only [mapWfFrom, Bool.and_eq_true, decide_eq_true_eq] at hm
    simp only [mapPut]
    split
    · split
      · rename_i hlt hv
        simp only [mapGet]
        rw [if_neg (by omega), mapGet_below d hm.2 (by omega), hv]
      · simp [mapGet]
    · split
      · split
        · rename_i hv
          rw [mapGet_below d hm.2 (by omega), hv]
        · simp [mapGet]
      · simp only [mapGet]
        rw [if_neg (by omega)]
        exact mapGet_put_same a v hm.2

/-- Every other key holds what it held. -/
theorem mapGet_put_other {a b : Nat} (v : α) (hb : b ≠ a) : ∀ {lo : Nat} {m : List (Nat × α)}, mapWfFrom d lo m = true →
    mapGet d (mapPut d m a v) b = mapGet d m b
  | _, [], _ => by by_cases hv : v = d <;> simp [mapPut, mapGet, hv, Ne.symm hb]
  | lo, (k, w) :: r, hm => by
    simp only [mapWfFrom, Bool.and_eq_true, decide_eq_true_eq] at hm
    simp only [mapPut]
    split
    · split
      · rfl
      · simp only [mapGet]
        rw [if_neg (Ne.symm hb)]
    · split
      · subst_vars
        split
        · simp only [mapGet]
          rw [if_neg (Ne.symm hb)]
        · simp only [mapGet]
          rw [if_neg (Ne.symm hb), if_neg (Ne.symm hb)]
      · simp only [mapGet]
        rw [mapGet_put_other v hb hm.2]

omit [DecidableEq α] in
/-- A key outside the cleared range holds what it held. -/
theorem mapGet_clear_other {lo n b : Nat} (hb : b < lo ∨ lo + n ≤ b) : ∀ {m : List (Nat × α)}, mapGet d (mapClear m lo n) b = mapGet d m b
  | [] => rfl
  | (k, v) :: r => by
    have ih : mapGet d (mapClear r lo n) b = mapGet d r b := mapGet_clear_other hb
    simp only [mapClear, List.filter] at ih ⊢
    split
    · simp only [mapGet]
      rw [ih]
    · rename_i hk
      simp only [Bool.not_eq_false', Bool.and_eq_true, decide_eq_true_eq] at hk
      simp only [mapGet]
      rw [if_neg (by omega), ih]

end Maps

/-- The canonical form of a storage, by its three maps. -/
theorem Memory.wf_iff (m : Memory) : m.wf = true ↔ mapWf 0 m.bytes = true ∧ mapWf 0 m.gens = true ∧ mapWf false m.pois = true := by
  simp [Memory.wf, and_assoc]

/-- Nothing written is canonical. -/
theorem Memory.wf_empty : Machine.Memory.empty.wf = true := rfl

/-- Claiming a unit keeps the canonical form. -/
theorem Memory.wf_claim {m : Memory} (gen a : Nat) (h : m.wf = true) : (m.claim gen a).wf = true := by
  rw [Memory.wf_iff] at h
  unfold Memory.claim
  split
  · exact (Memory.wf_iff m).mpr h
  · exact (Memory.wf_iff _).mpr ⟨mapWf_clear 0 _ _ h.1, mapWf_put 0 _ _ h.2.1, mapWf_clear false _ _ h.2.2⟩

/-- Writing one byte keeps the canonical form. -/
theorem Memory.wf_putByte {m : Memory} (gen a : Nat) (b : Byte) (h : m.wf = true) : (m.putByte gen a b).wf = true := by
  have hc := (Memory.wf_iff _).mp (Memory.wf_claim gen a h)
  exact (Memory.wf_iff _).mpr ⟨mapWf_put 0 _ _ hc.1, hc.2⟩

/-- Writing bytes keeps the canonical form. -/
theorem Memory.wf_putBytes (gen : Nat) : ∀ {m : Memory} (a : Nat) (bs : List Byte), m.wf = true → (m.putBytes gen a bs).wf = true
  | _, _, [], h => h
  | _, a, b :: bs, h => Memory.wf_putBytes gen (a + 1) bs (Memory.wf_putByte gen a b h)

/-- Marking or clearing a poison unit keeps the canonical form. -/
theorem Memory.wf_setPoison {m : Memory} (a : Nat) (p : Bool) (h : m.wf = true) : (m.setPoison a p).wf = true := by
  have hc := (Memory.wf_iff _).mp h
  exact (Memory.wf_iff _).mpr ⟨hc.1, hc.2.1, mapWf_put false _ _ hc.2.2⟩

/-- A fold whose every step keeps the canonical form keeps it. -/
theorem Memory.wf_foldl {β : Type} (f : Memory → β → Memory) (hf : ∀ m b, m.wf = true → (f m b).wf = true) :
    ∀ (l : List β) {m : Memory}, m.wf = true → (l.foldl f m).wf = true
  | [], _, h => h
  | b :: l, _, h => Memory.wf_foldl f hf l (hf _ b h)

/-- A write of bytes keeps the canonical form. -/
theorem Memory.wf_write {m : Memory} (gen a : Nat) (bs : List Byte) (pois : Bool) (h : m.wf = true) : (m.write gen a bs pois).wf = true := by
  refine Memory.wf_foldl _ (fun m u hm => ?_) _ (Memory.wf_putBytes gen a bs h)
  split
  · exact Memory.wf_setPoison _ _ hm
  · split
    · exact Memory.wf_setPoison _ _ hm
    · exact hm

/-- Storing a whole line keeps the canonical form. -/
theorem Memory.wf_putLine {m : Memory} (line : Nat) (v : LineVal) (h : m.wf = true) : (m.putLine line v).wf = true :=
  Memory.wf_foldl _ (fun _ _ hm => Memory.wf_setPoison _ _ hm) _ (Memory.wf_putBytes _ _ _ h)

/-- After a claim the unit has the generation claimed. -/
theorem Memory.genOf_claim {m : Memory} (gen a : Nat) (h : m.wf = true) : (m.claim gen a).genOf a = gen := by
  unfold Memory.claim
  split
  · assumption
  · exact mapGet_put_same 0 _ _ ((Memory.wf_iff m).mp h).2.1

/-- Marking poison changes no byte a reader sees. -/
theorem Memory.byte_setPoison (m : Memory) (a : Nat) (p : Bool) (gen b : Nat) : (m.setPoison a p).byte gen b = m.byte gen b := rfl

/-- READ AFTER WRITE: the byte just written, as its writer sees it. -/
theorem Memory.byte_putByte_same {m : Memory} (gen a : Nat) (b : Byte) (h : m.wf = true) : (m.putByte gen a b).byte gen a = b := by
  have hg : (m.putByte gen a b).genOf a = gen := Memory.genOf_claim gen a h
  unfold Memory.byte
  rw [if_pos hg]
  exact mapGet_put_same 0 _ _ ((Memory.wf_iff _).mp (Memory.wf_claim gen a h)).1

/-- Claiming a unit changes no byte of it that a reader of its new generation sees as nonzero, and no byte of another unit. -/
theorem Memory.byte_claim {m : Memory} (gen a b : Nat) (h : m.wf = true) : (m.claim gen a).byte gen b = m.byte gen b := by
  have hw := (Memory.wf_iff m).mp h
  unfold Memory.claim
  split
  · rfl
  · rename_i hg
    by_cases hu : b / genUnit = a / genUnit
    · have h1 : m.genOf b ≠ gen := by rw [Memory.genOf, hu]; exact hg
      have h2 : mapGet 0 (mapClear m.bytes (a / genUnit * genUnit) genUnit) b = 0 := by
        have hb : ¬ (b < a / genUnit * genUnit ∨ a / genUnit * genUnit + genUnit ≤ b) := by
          have := Nat.div_add_mod b genUnit; rw [hu] at this
          have hl : b % genUnit < genUnit := Nat.mod_lt _ (by decide)
          rw [Nat.mul_comm] at this; omega
        have : ∀ l : List (Nat × Byte), mapGet 0 (mapClear l (a / genUnit * genUnit) genUnit) b = 0 := by
          intro l
          induction l with
          | nil => rfl
          | cons e l ih =>
            simp only [mapClear, List.filter] at ih ⊢
            split
            · rename_i hk
              simp only [mapGet]
              split
              · subst_vars; simp at hk; omega
              · exact ih
            · exact ih
        exact this _
      simp only [Memory.byte, Memory.rawByte, h2, if_neg h1, ite_self]
    · have h1 : b < a / genUnit * genUnit ∨ a / genUnit * genUnit + genUnit ≤ b := by
        have hb := Nat.div_add_mod b genUnit
        have hl : b % genUnit < genUnit := Nat.mod_lt _ (by decide)
        rcases Nat.lt_or_gt_of_ne hu with h | h
        · left
          have : (b / genUnit + 1) * genUnit ≤ a / genUnit * genUnit := Nat.mul_le_mul_right _ h
          have e : (b / genUnit + 1) * genUnit = genUnit * (b / genUnit) + genUnit := by rw [Nat.add_mul, Nat.one_mul, Nat.mul_comm]
          omega
        · right
          have : (a / genUnit + 1) * genUnit ≤ b / genUnit * genUnit := Nat.mul_le_mul_right _ h
          have e : (a / genUnit + 1) * genUnit = a / genUnit * genUnit + genUnit := by rw [Nat.add_mul, Nat.one_mul]
          rw [Nat.mul_comm (b / genUnit)] at this
          omega
      have h2 : mapGet 0 (mapPut 0 m.gens (a / genUnit) gen) (b / genUnit) = mapGet 0 m.gens (b / genUnit) := mapGet_put_other 0 _ hu hw.2.1
      have h3 : mapGet 0 (mapClear m.bytes (a / genUnit * genUnit) genUnit) b = mapGet 0 m.bytes b := mapGet_clear_other 0 h1
      simp only [Memory.byte, Memory.rawByte, Memory.genOf, h2, h3]
      rfl

/-- Every other byte, as the writer sees it, is what it was. -/
theorem Memory.byte_putByte_other {m : Memory} (gen a : Nat) (v : Byte) {b : Nat} (hb : b ≠ a) (h : m.wf = true) :
    (m.putByte gen a v).byte gen b = m.byte gen b := by
  rw [← Memory.byte_claim gen a b h]
  have := mapGet_put_other 0 v hb ((Memory.wf_iff _).mp (Memory.wf_claim gen a h)).1
  unfold Memory.byte
  split
  · rename_i h1
    rw [if_pos (show (m.claim gen a).genOf b = gen from h1)]
    exact this
  · rename_i h1
    rw [if_neg (show ¬ (m.claim gen a).genOf b = gen from h1)]

/-- Bytes outside a written range are what they were. -/
theorem Memory.byte_putBytes_other (gen : Nat) {b : Nat} : ∀ {m : Memory} (a : Nat) (bs : List Byte), m.wf = true → (b < a ∨ a + bs.length ≤ b) →
    (m.putBytes gen a bs).byte gen b = m.byte gen b
  | _, _, [], _, _ => rfl
  | m, a, v :: bs, h, hb => by
    simp only [List.length_cons] at hb
    exact (Memory.byte_putBytes_other gen (a + 1) bs (Memory.wf_putByte gen a v h) (by omega)).trans
      (Memory.byte_putByte_other gen a v (by omega) h)

/-- Byte i of a written range is byte i of what was written. -/
theorem Memory.byte_putBytes_same (gen : Nat) : ∀ {m : Memory} (a : Nat) (bs : List Byte) (i : Nat) (hi : i < bs.length), m.wf = true →
    (m.putBytes gen a bs).byte gen (a + i) = bs[i]
  | m, a, v :: bs, 0, _, h => by
    exact (Memory.byte_putBytes_other gen (a + 1) bs (Memory.wf_putByte gen a v h) (by omega)).trans (Memory.byte_putByte_same gen a v h)
  | m, a, v :: bs, i + 1, hi, h => by
    have hi' : i < bs.length := by simpa using hi
    have := Memory.byte_putBytes_same gen (a + 1) bs i hi' (Memory.wf_putByte gen a v h)
    rw [show a + 1 + i = a + (i + 1) by omega] at this
    simpa [Memory.putBytes] using this

end Sys2Proof
end

