-- ==== Sys2Proof/Laws/State.lean ====
section
/-! SUPPORT. One small lemma per field and update of the state and of a group, and what is read back after a register, an entry or a group is stored. -/

namespace Sys2Proof.Machine

section StateFields
variable (s : State)

@[simp] theorem modGroup_agenda (i : Nat) (f : Group → Group) : (s.modGroup i f).agenda = s.agenda := rfl
@[simp] theorem modGroup_focus (i : Nat) (f : Group → Group) : (s.modGroup i f).focus = s.focus := rfl
@[simp] theorem modGroup_cur (i : Nat) (f : Group → Group) : (s.modGroup i f).cur = s.cur := rfl
@[simp] theorem modGroup_freeCtr (i : Nat) (f : Group → Group) : (s.modGroup i f).freeCtr = s.freeCtr := rfl
@[simp] theorem modGroup_nextId (i : Nat) (f : Group → Group) : (s.modGroup i f).nextId = s.nextId := rfl
@[simp] theorem modGroup_cycle (i : Nat) (f : Group → Group) : (s.modGroup i f).cycle = s.cycle := rfl
@[simp] theorem modGroup_meridian (i : Nat) (f : Group → Group) : (s.modGroup i f).meridian = s.meridian := rfl
@[simp] theorem modGroup_parts (i : Nat) (f : Group → Group) : (s.modGroup i f).parts = s.parts := rfl
@[simp] theorem modGroup_dev (i : Nat) (f : Group → Group) : (s.modGroup i f).dev = s.dev := rfl
@[simp] theorem modGroup_turns (i : Nat) (f : Group → Group) : (s.modGroup i f).turns = s.turns := rfl
@[simp] theorem modGroup_blocks (i : Nat) (f : Group → Group) : (s.modGroup i f).blocks = s.blocks := rfl
@[simp] theorem modGroup_launches (i : Nat) (f : Group → Group) : (s.modGroup i f).launches = s.launches := rfl
@[simp] theorem modGroup_credits (i : Nat) (f : Group → Group) : (s.modGroup i f).credits = s.credits := rfl
@[simp] theorem modGroup_qcredits (i : Nat) (f : Group → Group) : (s.modGroup i f).qcredits = s.qcredits := rfl
@[simp] theorem modGroup_dram (i : Nat) (f : Group → Group) : (s.modGroup i f).dram = s.dram := rfl
@[simp] theorem modGroup_scratch (i : Nat) (f : Group → Group) : (s.modGroup i f).scratch = s.scratch := rfl
@[simp] theorem modGroup_cistern (i : Nat) (f : Group → Group) : (s.modGroup i f).cistern = s.cistern := rfl
@[simp] theorem modGroup_host (i : Nat) (f : Group → Group) : (s.modGroup i f).host = s.host := rfl
@[simp] theorem modGroup_peer (i : Nat) (f : Group → Group) : (s.modGroup i f).peer = s.peer := rfl
@[simp] theorem modGroup_l1 (i : Nat) (f : Group → Group) : (s.modGroup i f).l1 = s.l1 := rfl
@[simp] theorem modGroup_slices (i : Nat) (f : Group → Group) : (s.modGroup i f).slices = s.slices := rfl
@[simp] theorem modGroup_dirs (i : Nat) (f : Group → Group) : (s.modGroup i f).dirs = s.dirs := rfl
@[simp] theorem modGroup_ways (i : Nat) (f : Group → Group) : (s.modGroup i f).ways = s.ways := rfl
@[simp] theorem modGroup_reqs (i : Nat) (f : Group → Group) : (s.modGroup i f).reqs = s.reqs := rfl
@[simp] theorem modGroup_txns (i : Nat) (f : Group → Group) : (s.modGroup i f).txns = s.txns := rfl
@[simp] theorem modGroup_probes (i : Nat) (f : Group → Group) : (s.modGroup i f).probes = s.probes := rfl
@[simp] theorem modGroup_answers (i : Nat) (f : Group → Group) : (s.modGroup i f).answers = s.answers := rfl
@[simp] theorem modGroup_fills (i : Nat) (f : Group → Group) : (s.modGroup i f).fills = s.fills := rfl
@[simp] theorem modGroup_uevicts (i : Nat) (f : Group → Group) : (s.modGroup i f).uevicts = s.uevicts := rfl
@[simp] theorem modGroup_icache (i : Nat) (f : Group → Group) : (s.modGroup i f).icache = s.icache := rfl
@[simp] theorem modGroup_pends (i : Nat) (f : Group → Group) : (s.modGroup i f).pends = s.pends := rfl
@[simp] theorem modGroup_near (i : Nat) (f : Group → Group) : (s.modGroup i f).near = s.near := rfl
@[simp] theorem modGroup_rets (i : Nat) (f : Group → Group) : (s.modGroup i f).rets = s.rets := rfl
@[simp] theorem modGroup_weir (i : Nat) (f : Group → Group) : (s.modGroup i f).weir = s.weir := rfl
@[simp] theorem modGroup_asys (i : Nat) (f : Group → Group) : (s.modGroup i f).asys = s.asys := rfl
@[simp] theorem modGroup_travs (i : Nat) (f : Group → Group) : (s.modGroup i f).travs = s.travs := rfl
@[simp] theorem modGroup_chans (i : Nat) (f : Group → Group) : (s.modGroup i f).chans = s.chans := rfl
@[simp] theorem modGroup_checks (i : Nat) (f : Group → Group) : (s.modGroup i f).checks = s.checks := rfl
@[simp] theorem modGroup_qnts (i : Nat) (f : Group → Group) : (s.modGroup i f).qnts = s.qnts := rfl
@[simp] theorem modGroup_recs (i : Nat) (f : Group → Group) : (s.modGroup i f).recs = s.recs := rfl
@[simp] theorem modGroup_rends (i : Nat) (f : Group → Group) : (s.modGroup i f).rends = s.rends := rfl
@[simp] theorem modGroup_products (i : Nat) (f : Group → Group) : (s.modGroup i f).products = s.products := rfl
@[simp] theorem modGroup_spent (i : Nat) (f : Group → Group) : (s.modGroup i f).spent = s.spent := rfl
@[simp] theorem modGroup_orphans (i : Nat) (f : Group → Group) : (s.modGroup i f).orphans = s.orphans := rfl
@[simp] theorem modGroup_sluice (i : Nat) (f : Group → Group) : (s.modGroup i f).sluice = s.sluice := rfl
@[simp] theorem modGroup_tiles (i : Nat) (f : Group → Group) : (s.modGroup i f).tiles = s.tiles := rfl
@[simp] theorem modGroup_mons (i : Nat) (f : Group → Group) : (s.modGroup i f).mons = s.mons := rfl
@[simp] theorem modGroup_sites (i : Nat) (f : Group → Group) : (s.modGroup i f).sites = s.sites := rfl
@[simp] theorem modGroup_tlb (i : Nat) (f : Group → Group) : (s.modGroup i f).tlb = s.tlb := rfl

@[simp] theorem setGroup_agenda (g : Group) : (s.setGroup g).agenda = s.agenda := rfl
@[simp] theorem setGroup_focus (g : Group) : (s.setGroup g).focus = s.focus := rfl
@[simp] theorem setGroup_cur (g : Group) : (s.setGroup g).cur = s.cur := rfl
@[simp] theorem setGroup_freeCtr (g : Group) : (s.setGroup g).freeCtr = s.freeCtr := rfl
@[simp] theorem setGroup_nextId (g : Group) : (s.setGroup g).nextId = s.nextId := rfl
@[simp] theorem setGroup_cycle (g : Group) : (s.setGroup g).cycle = s.cycle := rfl
@[simp] theorem setGroup_meridian (g : Group) : (s.setGroup g).meridian = s.meridian := rfl
@[simp] theorem setGroup_parts (g : Group) : (s.setGroup g).parts = s.parts := rfl
@[simp] theorem setGroup_dev (g : Group) : (s.setGroup g).dev = s.dev := rfl
@[simp] theorem setGroup_turns (g : Group) : (s.setGroup g).turns = s.turns := rfl
@[simp] theorem setGroup_blocks (g : Group) : (s.setGroup g).blocks = s.blocks := rfl
@[simp] theorem setGroup_launches (g : Group) : (s.setGroup g).launches = s.launches := rfl
@[simp] theorem setGroup_credits (g : Group) : (s.setGroup g).credits = s.credits := rfl
@[simp] theorem setGroup_qcredits (g : Group) : (s.setGroup g).qcredits = s.qcredits := rfl
@[simp] theorem setGroup_dram (g : Group) : (s.setGroup g).dram = s.dram := rfl
@[simp] theorem setGroup_scratch (g : Group) : (s.setGroup g).scratch = s.scratch := rfl
@[simp] theorem setGroup_cistern (g : Group) : (s.setGroup g).cistern = s.cistern := rfl
@[simp] theorem setGroup_host (g : Group) : (s.setGroup g).host = s.host := rfl
@[simp] theorem setGroup_peer (g : Group) : (s.setGroup g).peer = s.peer := rfl
@[simp] theorem setGroup_l1 (g : Group) : (s.setGroup g).l1 = s.l1 := rfl
@[simp] theorem setGroup_slices (g : Group) : (s.setGroup g).slices = s.slices := rfl
@[simp] theorem setGroup_dirs (g : Group) : (s.setGroup g).dirs = s.dirs := rfl
@[simp] theorem setGroup_ways (g : Group) : (s.setGroup g).ways = s.ways := rfl
@[simp] theorem setGroup_reqs (g : Group) : (s.setGroup g).reqs = s.reqs := rfl
@[simp] theorem setGroup_txns (g : Group) : (s.setGroup g).txns = s.txns := rfl
@[simp] theorem setGroup_probes (g : Group) : (s.setGroup g).probes = s.probes := rfl
@[simp] theorem setGroup_answers (g : Group) : (s.setGroup g).answers = s.answers := rfl
@[simp] theorem setGroup_fills (g : Group) : (s.setGroup g).fills = s.fills := rfl
@[simp] theorem setGroup_uevicts (g : Group) : (s.setGroup g).uevicts = s.uevicts := rfl
@[simp] theorem setGroup_icache (g : Group) : (s.setGroup g).icache = s.icache := rfl
@[simp] theorem setGroup_pends (g : Group) : (s.setGroup g).pends = s.pends := rfl
@[simp] theorem setGroup_near (g : Group) : (s.setGroup g).near = s.near := rfl
@[simp] theorem setGroup_rets (g : Group) : (s.setGroup g).rets = s.rets := rfl
@[simp] theorem setGroup_weir (g : Group) : (s.setGroup g).weir = s.weir := rfl
@[simp] theorem setGroup_asys (g : Group) : (s.setGroup g).asys = s.asys := rfl
@[simp] theorem setGroup_travs (g : Group) : (s.setGroup g).travs = s.travs := rfl
@[simp] theorem setGroup_chans (g : Group) : (s.setGroup g).chans = s.chans := rfl
@[simp] theorem setGroup_checks (g : Group) : (s.setGroup g).checks = s.checks := rfl
@[simp] theorem setGroup_qnts (g : Group) : (s.setGroup g).qnts = s.qnts := rfl
@[simp] theorem setGroup_recs (g : Group) : (s.setGroup g).recs = s.recs := rfl
@[simp] theorem setGroup_rends (g : Group) : (s.setGroup g).rends = s.rends := rfl
@[simp] theorem setGroup_products (g : Group) : (s.setGroup g).products = s.products := rfl
@[simp] theorem setGroup_spent (g : Group) : (s.setGroup g).spent = s.spent := rfl
@[simp] theorem setGroup_orphans (g : Group) : (s.setGroup g).orphans = s.orphans := rfl
@[simp] theorem setGroup_sluice (g : Group) : (s.setGroup g).sluice = s.sluice := rfl
@[simp] theorem setGroup_tiles (g : Group) : (s.setGroup g).tiles = s.tiles := rfl
@[simp] theorem setGroup_mons (g : Group) : (s.setGroup g).mons = s.mons := rfl
@[simp] theorem setGroup_sites (g : Group) : (s.setGroup g).sites = s.sites := rfl
@[simp] theorem setGroup_tlb (g : Group) : (s.setGroup g).tlb = s.tlb := rfl

@[simp] theorem modBlock_agenda (i : Nat) (f : Block → Block) : (s.modBlock i f).agenda = s.agenda := rfl
@[simp] theorem modBlock_focus (i : Nat) (f : Block → Block) : (s.modBlock i f).focus = s.focus := rfl
@[simp] theorem modBlock_cur (i : Nat) (f : Block → Block) : (s.modBlock i f).cur = s.cur := rfl
@[simp] theorem modBlock_freeCtr (i : Nat) (f : Block → Block) : (s.modBlock i f).freeCtr = s.freeCtr := rfl
@[simp] theorem modBlock_nextId (i : Nat) (f : Block → Block) : (s.modBlock i f).nextId = s.nextId := rfl
@[simp] theorem modBlock_cycle (i : Nat) (f : Block → Block) : (s.modBlock i f).cycle = s.cycle := rfl
@[simp] theorem modBlock_meridian (i : Nat) (f : Block → Block) : (s.modBlock i f).meridian = s.meridian := rfl
@[simp] theorem modBlock_parts (i : Nat) (f : Block → Block) : (s.modBlock i f).parts = s.parts := rfl
@[simp] theorem modBlock_dev (i : Nat) (f : Block → Block) : (s.modBlock i f).dev = s.dev := rfl
@[simp] theorem modBlock_turns (i : Nat) (f : Block → Block) : (s.modBlock i f).turns = s.turns := rfl
@[simp] theorem modBlock_groups (i : Nat) (f : Block → Block) : (s.modBlock i f).groups = s.groups := rfl
@[simp] theorem modBlock_saved (i : Nat) (f : Block → Block) : (s.modBlock i f).saved = s.saved := rfl
@[simp] theorem modBlock_launches (i : Nat) (f : Block → Block) : (s.modBlock i f).launches = s.launches := rfl
@[simp] theorem modBlock_credits (i : Nat) (f : Block → Block) : (s.modBlock i f).credits = s.credits := rfl
@[simp] theorem modBlock_qcredits (i : Nat) (f : Block → Block) : (s.modBlock i f).qcredits = s.qcredits := rfl
@[simp] theorem modBlock_dram (i : Nat) (f : Block → Block) : (s.modBlock i f).dram = s.dram := rfl
@[simp] theorem modBlock_scratch (i : Nat) (f : Block → Block) : (s.modBlock i f).scratch = s.scratch := rfl
@[simp] theorem modBlock_cistern (i : Nat) (f : Block → Block) : (s.modBlock i f).cistern = s.cistern := rfl
@[simp] theorem modBlock_host (i : Nat) (f : Block → Block) : (s.modBlock i f).host = s.host := rfl
@[simp] theorem modBlock_peer (i : Nat) (f : Block → Block) : (s.modBlock i f).peer = s.peer := rfl
@[simp] theorem modBlock_l1 (i : Nat) (f : Block → Block) : (s.modBlock i f).l1 = s.l1 := rfl
@[simp] theorem modBlock_slices (i : Nat) (f : Block → Block) : (s.modBlock i f).slices = s.slices := rfl
@[simp] theorem modBlock_dirs (i : Nat) (f : Block → Block) : (s.modBlock i f).dirs = s.dirs := rfl
@[simp] theorem modBlock_ways (i : Nat) (f : Block → Block) : (s.modBlock i f).ways = s.ways := rfl
@[simp] theorem modBlock_reqs (i : Nat) (f : Block → Block) : (s.modBlock i f).reqs = s.reqs := rfl
@[simp] theorem modBlock_txns (i : Nat) (f : Block → Block) : (s.modBlock i f).txns = s.txns := rfl
@[simp] theorem modBlock_probes (i : Nat) (f : Block → Block) : (s.modBlock i f).probes = s.probes := rfl
@[simp] theorem modBlock_answers (i : Nat) (f : Block → Block) : (s.modBlock i f).answers = s.answers := rfl
@[simp] theorem modBlock_fills (i : Nat) (f : Block → Block) : (s.modBlock i f).fills = s.fills := rfl
@[simp] theorem modBlock_uevicts (i : Nat) (f : Block → Block) : (s.modBlock i f).uevicts = s.uevicts := rfl
@[simp] theorem modBlock_icache (i : Nat) (f : Block → Block) : (s.modBlock i f).icache = s.icache := rfl
@[simp] theorem modBlock_pends (i : Nat) (f : Block → Block) : (s.modBlock i f).pends = s.pends := rfl
@[simp] theorem modBlock_near (i : Nat) (f : Block → Block) : (s.modBlock i f).near = s.near := rfl
@[simp] theorem modBlock_rets (i : Nat) (f : Block → Block) : (s.modBlock i f).rets = s.rets := rfl
@[simp] theorem modBlock_weir (i : Nat) (f : Block → Block) : (s.modBlock i f).weir = s.weir := rfl
@[simp] theorem modBlock_asys (i : Nat) (f : Block → Block) : (s.modBlock i f).asys = s.asys := rfl
@[simp] theorem modBlock_travs (i : Nat) (f : Block → Block) : (s.modBlock i f).travs = s.travs := rfl
@[simp] theorem modBlock_chans (i : Nat) (f : Block → Block) : (s.modBlock i f).chans = s.chans := rfl
@[simp] theorem modBlock_checks (i : Nat) (f : Block → Block) : (s.modBlock i f).checks = s.checks := rfl
@[simp] theorem modBlock_qnts (i : Nat) (f : Block → Block) : (s.modBlock i f).qnts = s.qnts := rfl
@[simp] theorem modBlock_recs (i : Nat) (f : Block → Block) : (s.modBlock i f).recs = s.recs := rfl
@[simp] theorem modBlock_rends (i : Nat) (f : Block → Block) : (s.modBlock i f).rends = s.rends := rfl
@[simp] theorem modBlock_products (i : Nat) (f : Block → Block) : (s.modBlock i f).products = s.products := rfl
@[simp] theorem modBlock_spent (i : Nat) (f : Block → Block) : (s.modBlock i f).spent = s.spent := rfl
@[simp] theorem modBlock_orphans (i : Nat) (f : Block → Block) : (s.modBlock i f).orphans = s.orphans := rfl
@[simp] theorem modBlock_sluice (i : Nat) (f : Block → Block) : (s.modBlock i f).sluice = s.sluice := rfl
@[simp] theorem modBlock_tiles (i : Nat) (f : Block → Block) : (s.modBlock i f).tiles = s.tiles := rfl
@[simp] theorem modBlock_mons (i : Nat) (f : Block → Block) : (s.modBlock i f).mons = s.mons := rfl
@[simp] theorem modBlock_sites (i : Nat) (f : Block → Block) : (s.modBlock i f).sites = s.sites := rfl
@[simp] theorem modBlock_tlb (i : Nat) (f : Block → Block) : (s.modBlock i f).tlb = s.tlb := rfl

@[simp] theorem modLaunch_agenda (i : Nat) (f : Launch → Launch) : (s.modLaunch i f).agenda = s.agenda := rfl
@[simp] theorem modLaunch_focus (i : Nat) (f : Launch → Launch) : (s.modLaunch i f).focus = s.focus := rfl
@[simp] theorem modLaunch_cur (i : Nat) (f : Launch → Launch) : (s.modLaunch i f).cur = s.cur := rfl
@[simp] theorem modLaunch_freeCtr (i : Nat) (f : Launch → Launch) : (s.modLaunch i f).freeCtr = s.freeCtr := rfl
@[simp] theorem modLaunch_nextId (i : Nat) (f : Launch → Launch) : (s.modLaunch i f).nextId = s.nextId := rfl
@[simp] theorem modLaunch_cycle (i : Nat) (f : Launch → Launch) : (s.modLaunch i f).cycle = s.cycle := rfl
@[simp] theorem modLaunch_meridian (i : Nat) (f : Launch → Launch) : (s.modLaunch i f).meridian = s.meridian := rfl
@[simp] theorem modLaunch_parts (i : Nat) (f : Launch → Launch) : (s.modLaunch i f).parts = s.parts := rfl
@[simp] theorem modLaunch_dev (i : Nat) (f : Launch → Launch) : (s.modLaunch i f).dev = s.dev := rfl
@[simp] theorem modLaunch_turns (i : Nat) (f : Launch → Launch) : (s.modLaunch i f).turns = s.turns := rfl
@[simp] theorem modLaunch_groups (i : Nat) (f : Launch → Launch) : (s.modLaunch i f).groups = s.groups := rfl
@[simp] theorem modLaunch_saved (i : Nat) (f : Launch → Launch) : (s.modLaunch i f).saved = s.saved := rfl
@[simp] theorem modLaunch_blocks (i : Nat) (f : Launch → Launch) : (s.modLaunch i f).blocks = s.blocks := rfl
@[simp] theorem modLaunch_credits (i : Nat) (f : Launch → Launch) : (s.modLaunch i f).credits = s.credits := rfl
@[simp] theorem modLaunch_qcredits (i : Nat) (f : Launch → Launch) : (s.modLaunch i f).qcredits = s.qcredits := rfl
@[simp] theorem modLaunch_dram (i : Nat) (f : Launch → Launch) : (s.modLaunch i f).dram = s.dram := rfl
@[simp] theorem modLaunch_scratch (i : Nat) (f : Launch → Launch) : (s.modLaunch i f).scratch = s.scratch := rfl
@[simp] theorem modLaunch_cistern (i : Nat) (f : Launch → Launch) : (s.modLaunch i f).cistern = s.cistern := rfl
@[simp] theorem modLaunch_host (i : Nat) (f : Launch → Launch) : (s.modLaunch i f).host = s.host := rfl
@[simp] theorem modLaunch_peer (i : Nat) (f : Launch → Launch) : (s.modLaunch i f).peer = s.peer := rfl
@[simp] theorem modLaunch_l1 (i : Nat) (f : Launch → Launch) : (s.modLaunch i f).l1 = s.l1 := rfl
@[simp] theorem modLaunch_slices (i : Nat) (f : Launch → Launch) : (s.modLaunch i f).slices = s.slices := rfl
@[simp] theorem modLaunch_dirs (i : Nat) (f : Launch → Launch) : (s.modLaunch i f).dirs = s.dirs := rfl
@[simp] theorem modLaunch_ways (i : Nat) (f : Launch → Launch) : (s.modLaunch i f).ways = s.ways := rfl
@[simp] theorem modLaunch_reqs (i : Nat) (f : Launch → Launch) : (s.modLaunch i f).reqs = s.reqs := rfl
@[simp] theorem modLaunch_txns (i : Nat) (f : Launch → Launch) : (s.modLaunch i f).txns = s.txns := rfl
@[simp] theorem modLaunch_probes (i : Nat) (f : Launch → Launch) : (s.modLaunch i f).probes = s.probes := rfl
@[simp] theorem modLaunch_answers (i : Nat) (f : Launch → Launch) : (s.modLaunch i f).answers = s.answers := rfl
@[simp] theorem modLaunch_fills (i : Nat) (f : Launch → Launch) : (s.modLaunch i f).fills = s.fills := rfl
@[simp] theorem modLaunch_uevicts (i : Nat) (f : Launch → Launch) : (s.modLaunch i f).uevicts = s.uevicts := rfl
@[simp] theorem modLaunch_icache (i : Nat) (f : Launch → Launch) : (s.modLaunch i f).icache = s.icache := rfl
@[simp] theorem modLaunch_pends (i : Nat) (f : Launch → Launch) : (s.modLaunch i f).pends = s.pends := rfl
@[simp] theorem modLaunch_near (i : Nat) (f : Launch → Launch) : (s.modLaunch i f).near = s.near := rfl
@[simp] theorem modLaunch_rets (i : Nat) (f : Launch → Launch) : (s.modLaunch i f).rets = s.rets := rfl
@[simp] theorem modLaunch_weir (i : Nat) (f : Launch → Launch) : (s.modLaunch i f).weir = s.weir := rfl
@[simp] theorem modLaunch_asys (i : Nat) (f : Launch → Launch) : (s.modLaunch i f).asys = s.asys := rfl
@[simp] theorem modLaunch_travs (i : Nat) (f : Launch → Launch) : (s.modLaunch i f).travs = s.travs := rfl
@[simp] theorem modLaunch_chans (i : Nat) (f : Launch → Launch) : (s.modLaunch i f).chans = s.chans := rfl
@[simp] theorem modLaunch_checks (i : Nat) (f : Launch → Launch) : (s.modLaunch i f).checks = s.checks := rfl
@[simp] theorem modLaunch_qnts (i : Nat) (f : Launch → Launch) : (s.modLaunch i f).qnts = s.qnts := rfl
@[simp] theorem modLaunch_recs (i : Nat) (f : Launch → Launch) : (s.modLaunch i f).recs = s.recs := rfl
@[simp] theorem modLaunch_rends (i : Nat) (f : Launch → Launch) : (s.modLaunch i f).rends = s.rends := rfl
@[simp] theorem modLaunch_products (i : Nat) (f : Launch → Launch) : (s.modLaunch i f).products = s.products := rfl
@[simp] theorem modLaunch_spent (i : Nat) (f : Launch → Launch) : (s.modLaunch i f).spent = s.spent := rfl
@[simp] theorem modLaunch_orphans (i : Nat) (f : Launch → Launch) : (s.modLaunch i f).orphans = s.orphans := rfl
@[simp] theorem modLaunch_sluice (i : Nat) (f : Launch → Launch) : (s.modLaunch i f).sluice = s.sluice := rfl
@[simp] theorem modLaunch_tiles (i : Nat) (f : Launch → Launch) : (s.modLaunch i f).tiles = s.tiles := rfl
@[simp] theorem modLaunch_mons (i : Nat) (f : Launch → Launch) : (s.modLaunch i f).mons = s.mons := rfl
@[simp] theorem modLaunch_sites (i : Nat) (f : Launch → Launch) : (s.modLaunch i f).sites = s.sites := rfl
@[simp] theorem modLaunch_tlb (i : Nat) (f : Launch → Launch) : (s.modLaunch i f).tlb = s.tlb := rfl

@[simp] theorem modPart_agenda (i : Nat) (f : Part → Part) : (s.modPart i f).agenda = s.agenda := rfl
@[simp] theorem modPart_focus (i : Nat) (f : Part → Part) : (s.modPart i f).focus = s.focus := rfl
@[simp] theorem modPart_cur (i : Nat) (f : Part → Part) : (s.modPart i f).cur = s.cur := rfl
@[simp] theorem modPart_freeCtr (i : Nat) (f : Part → Part) : (s.modPart i f).freeCtr = s.freeCtr := rfl
@[simp] theorem modPart_nextId (i : Nat) (f : Part → Part) : (s.modPart i f).nextId = s.nextId := rfl
@[simp] theorem modPart_cycle (i : Nat) (f : Part → Part) : (s.modPart i f).cycle = s.cycle := rfl
@[simp] theorem modPart_meridian (i : Nat) (f : Part → Part) : (s.modPart i f).meridian = s.meridian := rfl
@[simp] theorem modPart_dev (i : Nat) (f : Part → Part) : (s.modPart i f).dev = s.dev := rfl
@[simp] theorem modPart_turns (i : Nat) (f : Part → Part) : (s.modPart i f).turns = s.turns := rfl
@[simp] theorem modPart_groups (i : Nat) (f : Part → Part) : (s.modPart i f).groups = s.groups := rfl
@[simp] theorem modPart_saved (i : Nat) (f : Part → Part) : (s.modPart i f).saved = s.saved := rfl
@[simp] theorem modPart_blocks (i : Nat) (f : Part → Part) : (s.modPart i f).blocks = s.blocks := rfl
@[simp] theorem modPart_launches (i : Nat) (f : Part → Part) : (s.modPart i f).launches = s.launches := rfl
@[simp] theorem modPart_credits (i : Nat) (f : Part → Part) : (s.modPart i f).credits = s.credits := rfl
@[simp] theorem modPart_qcredits (i : Nat) (f : Part → Part) : (s.modPart i f).qcredits = s.qcredits := rfl
@[simp] theorem modPart_dram (i : Nat) (f : Part → Part) : (s.modPart i f).dram = s.dram := rfl
@[simp] theorem modPart_scratch (i : Nat) (f : Part → Part) : (s.modPart i f).scratch = s.scratch := rfl
@[simp] theorem modPart_cistern (i : Nat) (f : Part → Part) : (s.modPart i f).cistern = s.cistern := rfl
@[simp] theorem modPart_host (i : Nat) (f : Part → Part) : (s.modPart i f).host = s.host := rfl
@[simp] theorem modPart_peer (i : Nat) (f : Part → Part) : (s.modPart i f).peer = s.peer := rfl
@[simp] theorem modPart_l1 (i : Nat) (f : Part → Part) : (s.modPart i f).l1 = s.l1 := rfl
@[simp] theorem modPart_slices (i : Nat) (f : Part → Part) : (s.modPart i f).slices = s.slices := rfl
@[simp] theorem modPart_dirs (i : Nat) (f : Part → Part) : (s.modPart i f).dirs = s.dirs := rfl
@[simp] theorem modPart_ways (i : Nat) (f : Part → Part) : (s.modPart i f).ways = s.ways := rfl
@[simp] theorem modPart_reqs (i : Nat) (f : Part → Part) : (s.modPart i f).reqs = s.reqs := rfl
@[simp] theorem modPart_txns (i : Nat) (f : Part → Part) : (s.modPart i f).txns = s.txns := rfl
@[simp] theorem modPart_probes (i : Nat) (f : Part → Part) : (s.modPart i f).probes = s.probes := rfl
@[simp] theorem modPart_answers (i : Nat) (f : Part → Part) : (s.modPart i f).answers = s.answers := rfl
@[simp] theorem modPart_fills (i : Nat) (f : Part → Part) : (s.modPart i f).fills = s.fills := rfl
@[simp] theorem modPart_uevicts (i : Nat) (f : Part → Part) : (s.modPart i f).uevicts = s.uevicts := rfl
@[simp] theorem modPart_icache (i : Nat) (f : Part → Part) : (s.modPart i f).icache = s.icache := rfl
@[simp] theorem modPart_pends (i : Nat) (f : Part → Part) : (s.modPart i f).pends = s.pends := rfl
@[simp] theorem modPart_near (i : Nat) (f : Part → Part) : (s.modPart i f).near = s.near := rfl
@[simp] theorem modPart_rets (i : Nat) (f : Part → Part) : (s.modPart i f).rets = s.rets := rfl
@[simp] theorem modPart_weir (i : Nat) (f : Part → Part) : (s.modPart i f).weir = s.weir := rfl
@[simp] theorem modPart_asys (i : Nat) (f : Part → Part) : (s.modPart i f).asys = s.asys := rfl
@[simp] theorem modPart_travs (i : Nat) (f : Part → Part) : (s.modPart i f).travs = s.travs := rfl
@[simp] theorem modPart_chans (i : Nat) (f : Part → Part) : (s.modPart i f).chans = s.chans := rfl
@[simp] theorem modPart_checks (i : Nat) (f : Part → Part) : (s.modPart i f).checks = s.checks := rfl
@[simp] theorem modPart_qnts (i : Nat) (f : Part → Part) : (s.modPart i f).qnts = s.qnts := rfl
@[simp] theorem modPart_recs (i : Nat) (f : Part → Part) : (s.modPart i f).recs = s.recs := rfl
@[simp] theorem modPart_rends (i : Nat) (f : Part → Part) : (s.modPart i f).rends = s.rends := rfl
@[simp] theorem modPart_products (i : Nat) (f : Part → Part) : (s.modPart i f).products = s.products := rfl
@[simp] theorem modPart_spent (i : Nat) (f : Part → Part) : (s.modPart i f).spent = s.spent := rfl
@[simp] theorem modPart_orphans (i : Nat) (f : Part → Part) : (s.modPart i f).orphans = s.orphans := rfl
@[simp] theorem modPart_sluice (i : Nat) (f : Part → Part) : (s.modPart i f).sluice = s.sluice := rfl
@[simp] theorem modPart_tiles (i : Nat) (f : Part → Part) : (s.modPart i f).tiles = s.tiles := rfl
@[simp] theorem modPart_mons (i : Nat) (f : Part → Part) : (s.modPart i f).mons = s.mons := rfl
@[simp] theorem modPart_sites (i : Nat) (f : Part → Part) : (s.modPart i f).sites = s.sites := rfl
@[simp] theorem modPart_tlb (i : Nat) (f : Part → Part) : (s.modPart i f).tlb = s.tlb := rfl

@[simp] theorem turnOver_agenda : (s.turnOver).agenda = s.agenda := rfl
@[simp] theorem turnOver_focus : (s.turnOver).focus = s.focus := rfl
@[simp] theorem turnOver_freeCtr : (s.turnOver).freeCtr = s.freeCtr := rfl
@[simp] theorem turnOver_nextId : (s.turnOver).nextId = s.nextId := rfl
@[simp] theorem turnOver_cycle : (s.turnOver).cycle = s.cycle := rfl
@[simp] theorem turnOver_meridian : (s.turnOver).meridian = s.meridian := rfl
@[simp] theorem turnOver_parts : (s.turnOver).parts = s.parts := rfl
@[simp] theorem turnOver_dev : (s.turnOver).dev = s.dev := rfl
@[simp] theorem turnOver_turns : (s.turnOver).turns = s.turns := rfl
@[simp] theorem turnOver_groups : (s.turnOver).groups = s.groups := rfl
@[simp] theorem turnOver_saved : (s.turnOver).saved = s.saved := rfl
@[simp] theorem turnOver_blocks : (s.turnOver).blocks = s.blocks := rfl
@[simp] theorem turnOver_launches : (s.turnOver).launches = s.launches := rfl
@[simp] theorem turnOver_credits : (s.turnOver).credits = s.credits := rfl
@[simp] theorem turnOver_qcredits : (s.turnOver).qcredits = s.qcredits := rfl
@[simp] theorem turnOver_dram : (s.turnOver).dram = s.dram := rfl
@[simp] theorem turnOver_scratch : (s.turnOver).scratch = s.scratch := rfl
@[simp] theorem turnOver_cistern : (s.turnOver).cistern = s.cistern := rfl
@[simp] theorem turnOver_host : (s.turnOver).host = s.host := rfl
@[simp] theorem turnOver_peer : (s.turnOver).peer = s.peer := rfl
@[simp] theorem turnOver_l1 : (s.turnOver).l1 = s.l1 := rfl
@[simp] theorem turnOver_slices : (s.turnOver).slices = s.slices := rfl
@[simp] theorem turnOver_dirs : (s.turnOver).dirs = s.dirs := rfl
@[simp] theorem turnOver_ways : (s.turnOver).ways = s.ways := rfl
@[simp] theorem turnOver_reqs : (s.turnOver).reqs = s.reqs := rfl
@[simp] theorem turnOver_txns : (s.turnOver).txns = s.txns := rfl
@[simp] theorem turnOver_probes : (s.turnOver).probes = s.probes := rfl
@[simp] theorem turnOver_answers : (s.turnOver).answers = s.answers := rfl
@[simp] theorem turnOver_fills : (s.turnOver).fills = s.fills := rfl
@[simp] theorem turnOver_uevicts : (s.turnOver).uevicts = s.uevicts := rfl
@[simp] theorem turnOver_icache : (s.turnOver).icache = s.icache := rfl
@[simp] theorem turnOver_pends : (s.turnOver).pends = s.pends := rfl
@[simp] theorem turnOver_near : (s.turnOver).near = s.near := rfl
@[simp] theorem turnOver_rets : (s.turnOver).rets = s.rets := rfl
@[simp] theorem turnOver_weir : (s.turnOver).weir = s.weir := rfl
@[simp] theorem turnOver_asys : (s.turnOver).asys = s.asys := rfl
@[simp] theorem turnOver_travs : (s.turnOver).travs = s.travs := rfl
@[simp] theorem turnOver_chans : (s.turnOver).chans = s.chans := rfl
@[simp] theorem turnOver_checks : (s.turnOver).checks = s.checks := rfl
@[simp] theorem turnOver_qnts : (s.turnOver).qnts = s.qnts := rfl
@[simp] theorem turnOver_recs : (s.turnOver).recs = s.recs := rfl
@[simp] theorem turnOver_rends : (s.turnOver).rends = s.rends := rfl
@[simp] theorem turnOver_products : (s.turnOver).products = s.products := rfl
@[simp] theorem turnOver_spent : (s.turnOver).spent = s.spent := rfl
@[simp] theorem turnOver_orphans : (s.turnOver).orphans = s.orphans := rfl
@[simp] theorem turnOver_sluice : (s.turnOver).sluice = s.sluice := rfl
@[simp] theorem turnOver_tiles : (s.turnOver).tiles = s.tiles := rfl
@[simp] theorem turnOver_mons : (s.turnOver).mons = s.mons := rfl
@[simp] theorem turnOver_sites : (s.turnOver).sites = s.sites := rfl
@[simp] theorem turnOver_tlb : (s.turnOver).tlb = s.tlb := rfl

@[simp] theorem turnOver_cur : s.turnOver.cur = none := rfl

@[simp] theorem fresh_agenda : s.fresh.2.agenda = s.agenda := rfl
@[simp] theorem fresh_focus : s.fresh.2.focus = s.focus := rfl
@[simp] theorem fresh_cur : s.fresh.2.cur = s.cur := rfl
@[simp] theorem fresh_freeCtr : s.fresh.2.freeCtr = s.freeCtr := rfl
@[simp] theorem fresh_cycle : s.fresh.2.cycle = s.cycle := rfl
@[simp] theorem fresh_meridian : s.fresh.2.meridian = s.meridian := rfl
@[simp] theorem fresh_parts : s.fresh.2.parts = s.parts := rfl
@[simp] theorem fresh_dev : s.fresh.2.dev = s.dev := rfl
@[simp] theorem fresh_turns : s.fresh.2.turns = s.turns := rfl
@[simp] theorem fresh_groups : s.fresh.2.groups = s.groups := rfl
@[simp] theorem fresh_saved : s.fresh.2.saved = s.saved := rfl
@[simp] theorem fresh_blocks : s.fresh.2.blocks = s.blocks := rfl
@[simp] theorem fresh_launches : s.fresh.2.launches = s.launches := rfl
@[simp] theorem fresh_credits : s.fresh.2.credits = s.credits := rfl
@[simp] theorem fresh_qcredits : s.fresh.2.qcredits = s.qcredits := rfl
@[simp] theorem fresh_dram : s.fresh.2.dram = s.dram := rfl
@[simp] theorem fresh_scratch : s.fresh.2.scratch = s.scratch := rfl
@[simp] theorem fresh_cistern : s.fresh.2.cistern = s.cistern := rfl
@[simp] theorem fresh_host : s.fresh.2.host = s.host := rfl
@[simp] theorem fresh_peer : s.fresh.2.peer = s.peer := rfl
@[simp] theorem fresh_l1 : s.fresh.2.l1 = s.l1 := rfl
@[simp] theorem fresh_slices : s.fresh.2.slices = s.slices := rfl
@[simp] theorem fresh_dirs : s.fresh.2.dirs = s.dirs := rfl
@[simp] theorem fresh_ways : s.fresh.2.ways = s.ways := rfl
@[simp] theorem fresh_reqs : s.fresh.2.reqs = s.reqs := rfl
@[simp] theorem fresh_txns : s.fresh.2.txns = s.txns := rfl
@[simp] theorem fresh_probes : s.fresh.2.probes = s.probes := rfl
@[simp] theorem fresh_answers : s.fresh.2.answers = s.answers := rfl
@[simp] theorem fresh_fills : s.fresh.2.fills = s.fills := rfl
@[simp] theorem fresh_uevicts : s.fresh.2.uevicts = s.uevicts := rfl
@[simp] theorem fresh_icache : s.fresh.2.icache = s.icache := rfl
@[simp] theorem fresh_pends : s.fresh.2.pends = s.pends := rfl
@[simp] theorem fresh_near : s.fresh.2.near = s.near := rfl
@[simp] theorem fresh_rets : s.fresh.2.rets = s.rets := rfl
@[simp] theorem fresh_weir : s.fresh.2.weir = s.weir := rfl
@[simp] theorem fresh_asys : s.fresh.2.asys = s.asys := rfl
@[simp] theorem fresh_travs : s.fresh.2.travs = s.travs := rfl
@[simp] theorem fresh_chans : s.fresh.2.chans = s.chans := rfl
@[simp] theorem fresh_checks : s.fresh.2.checks = s.checks := rfl
@[simp] theorem fresh_qnts : s.fresh.2.qnts = s.qnts := rfl
@[simp] theorem fresh_recs : s.fresh.2.recs = s.recs := rfl
@[simp] theorem fresh_rends : s.fresh.2.rends = s.rends := rfl
@[simp] theorem fresh_products : s.fresh.2.products = s.products := rfl
@[simp] theorem fresh_spent : s.fresh.2.spent = s.spent := rfl
@[simp] theorem fresh_orphans : s.fresh.2.orphans = s.orphans := rfl
@[simp] theorem fresh_sluice : s.fresh.2.sluice = s.sluice := rfl
@[simp] theorem fresh_tiles : s.fresh.2.tiles = s.tiles := rfl
@[simp] theorem fresh_mons : s.fresh.2.mons = s.mons := rfl
@[simp] theorem fresh_sites : s.fresh.2.sites = s.sites := rfl
@[simp] theorem fresh_tlb : s.fresh.2.tlb = s.tlb := rfl
@[simp] theorem fresh_nextId : s.fresh.2.nextId = s.nextId + 1 := rfl

@[simp] theorem free_agenda : s.free.2.agenda = s.agenda := rfl
@[simp] theorem free_focus : s.free.2.focus = s.focus := rfl
@[simp] theorem free_cur : s.free.2.cur = s.cur := rfl
@[simp] theorem free_nextId : s.free.2.nextId = s.nextId := rfl
@[simp] theorem free_cycle : s.free.2.cycle = s.cycle := rfl
@[simp] theorem free_meridian : s.free.2.meridian = s.meridian := rfl
@[simp] theorem free_parts : s.free.2.parts = s.parts := rfl
@[simp] theorem free_dev : s.free.2.dev = s.dev := rfl
@[simp] theorem free_turns : s.free.2.turns = s.turns := rfl
@[simp] theorem free_groups : s.free.2.groups = s.groups := rfl
@[simp] theorem free_saved : s.free.2.saved = s.saved := rfl
@[simp] theorem free_blocks : s.free.2.blocks = s.blocks := rfl
@[simp] theorem free_launches : s.free.2.launches = s.launches := rfl
@[simp] theorem free_credits : s.free.2.credits = s.credits := rfl
@[simp] theorem free_qcredits : s.free.2.qcredits = s.qcredits := rfl
@[simp] theorem free_dram : s.free.2.dram = s.dram := rfl
@[simp] theorem free_scratch : s.free.2.scratch = s.scratch := rfl
@[simp] theorem free_cistern : s.free.2.cistern = s.cistern := rfl
@[simp] theorem free_host : s.free.2.host = s.host := rfl
@[simp] theorem free_peer : s.free.2.peer = s.peer := rfl
@[simp] theorem free_l1 : s.free.2.l1 = s.l1 := rfl
@[simp] theorem free_slices : s.free.2.slices = s.slices := rfl
@[simp] theorem free_dirs : s.free.2.dirs = s.dirs := rfl
@[simp] theorem free_ways : s.free.2.ways = s.ways := rfl
@[simp] theorem free_reqs : s.free.2.reqs = s.reqs := rfl
@[simp] theorem free_txns : s.free.2.txns = s.txns := rfl
@[simp] theorem free_probes : s.free.2.probes = s.probes := rfl
@[simp] theorem free_answers : s.free.2.answers = s.answers := rfl
@[simp] theorem free_fills : s.free.2.fills = s.fills := rfl
@[simp] theorem free_uevicts : s.free.2.uevicts = s.uevicts := rfl
@[simp] theorem free_icache : s.free.2.icache = s.icache := rfl
@[simp] theorem free_pends : s.free.2.pends = s.pends := rfl
@[simp] theorem free_near : s.free.2.near = s.near := rfl
@[simp] theorem free_rets : s.free.2.rets = s.rets := rfl
@[simp] theorem free_weir : s.free.2.weir = s.weir := rfl
@[simp] theorem free_asys : s.free.2.asys = s.asys := rfl
@[simp] theorem free_travs : s.free.2.travs = s.travs := rfl
@[simp] theorem free_chans : s.free.2.chans = s.chans := rfl
@[simp] theorem free_checks : s.free.2.checks = s.checks := rfl
@[simp] theorem free_qnts : s.free.2.qnts = s.qnts := rfl
@[simp] theorem free_recs : s.free.2.recs = s.recs := rfl
@[simp] theorem free_rends : s.free.2.rends = s.rends := rfl
@[simp] theorem free_products : s.free.2.products = s.products := rfl
@[simp] theorem free_spent : s.free.2.spent = s.spent := rfl
@[simp] theorem free_orphans : s.free.2.orphans = s.orphans := rfl
@[simp] theorem free_sluice : s.free.2.sluice = s.sluice := rfl
@[simp] theorem free_tiles : s.free.2.tiles = s.tiles := rfl
@[simp] theorem free_mons : s.free.2.mons = s.mons := rfl
@[simp] theorem free_sites : s.free.2.sites = s.sites := rfl
@[simp] theorem free_tlb : s.free.2.tlb = s.tlb := rfl
@[simp] theorem free_freeCtr : s.free.2.freeCtr = s.freeCtr + 1 := rfl

end StateFields

section GroupFields
variable (g : Group)

@[simp] theorem setEntry_gid (k : Nat) (e : Entry) : (setEntry g k e).gid = g.gid := rfl
@[simp] theorem setEntry_lid (k : Nat) (e : Entry) : (setEntry g k e).lid = g.lid := rfl
@[simp] theorem setEntry_bid (k : Nat) (e : Entry) : (setEntry g k e).bid = g.bid := rfl
@[simp] theorem setEntry_part (k : Nat) (e : Entry) : (setEntry g k e).part = g.part := rfl
@[simp] theorem setEntry_core (k : Nat) (e : Entry) : (setEntry g k e).core = g.core := rfl
@[simp] theorem setEntry_slot (k : Nat) (e : Entry) : (setEntry g k e).slot = g.slot := rfl
@[simp] theorem setEntry_span (k : Nat) (e : Entry) : (setEntry g k e).span = g.span := rfl
@[simp] theorem setEntry_block (k : Nat) (e : Entry) : (setEntry g k e).block = g.block := rfl
@[simp] theorem setEntry_group (k : Nat) (e : Entry) : (setEntry g k e).group = g.group := rfl
@[simp] theorem setEntry_ngroups (k : Nat) (e : Entry) : (setEntry g k e).ngroups = g.ngroups := rfl
@[simp] theorem setEntry_nblocks (k : Nat) (e : Entry) : (setEntry g k e).nblocks = g.nblocks := rfl
@[simp] theorem setEntry_nspans (k : Nat) (e : Entry) : (setEntry g k e).nspans = g.nspans := rfl
@[simp] theorem setEntry_rows (k : Nat) (e : Entry) : (setEntry g k e).rows = g.rows := rfl
@[simp] theorem setEntry_s (k : Nat) (e : Entry) : (setEntry g k e).s = g.s := rfl
@[simp] theorem setEntry_x (k : Nat) (e : Entry) : (setEntry g k e).x = g.x := rfl
@[simp] theorem setEntry_pr (k : Nat) (e : Entry) : (setEntry g k e).pr = g.pr := rfl
@[simp] theorem setEntry_live (k : Nat) (e : Entry) : (setEntry g k e).live = g.live := rfl
@[simp] theorem setEntry_helpers (k : Nat) (e : Entry) : (setEntry g k e).helpers = g.helpers := rfl
@[simp] theorem setEntry_role (k : Nat) (e : Entry) : (setEntry g k e).role = g.role := rfl
@[simp] theorem setEntry_prio (k : Nat) (e : Entry) : (setEntry g k e).prio = g.prio := rfl
@[simp] theorem setEntry_allot (k : Nat) (e : Entry) : (setEntry g k e).allot = g.allot := rfl
@[simp] theorem setEntry_gang (k : Nat) (e : Entry) : (setEntry g k e).gang = g.gang := rfl
@[simp] theorem setEntry_engerr (k : Nat) (e : Entry) : (setEntry g k e).engerr = g.engerr := rfl
@[simp] theorem setEntry_errAsy (k : Nat) (e : Entry) : (setEntry g k e).errAsy = g.errAsy := rfl
@[simp] theorem setEntry_errTrv (k : Nat) (e : Entry) : (setEntry g k e).errTrv = g.errTrv := rfl
@[simp] theorem setEntry_errCis (k : Nat) (e : Entry) : (setEntry g k e).errCis = g.errCis := rfl
@[simp] theorem setEntry_errQnt (k : Nat) (e : Entry) : (setEntry g k e).errQnt = g.errQnt := rfl
@[simp] theorem setEntry_asy (k : Nat) (e : Entry) : (setEntry g k e).asy = g.asy := rfl
@[simp] theorem setEntry_trv (k : Nat) (e : Entry) : (setEntry g k e).trv = g.trv := rfl
@[simp] theorem setEntry_cisq (k : Nat) (e : Entry) : (setEntry g k e).cisq = g.cisq := rfl
@[simp] theorem setEntry_qntq (k : Nat) (e : Entry) : (setEntry g k e).qntq = g.qntq := rfl
@[simp] theorem setEntry_trapbase (k : Nat) (e : Entry) : (setEntry g k e).trapbase = g.trapbase := rfl
@[simp] theorem setEntry_trapcause (k : Nat) (e : Entry) : (setEntry g k e).trapcause = g.trapcause := rfl
@[simp] theorem setEntry_traplanes (k : Nat) (e : Entry) : (setEntry g k e).traplanes = g.traplanes := rfl
@[simp] theorem setEntry_trappc (k : Nat) (e : Entry) : (setEntry g k e).trappc = g.trappc := rfl
@[simp] theorem setEntry_trapinfo (k : Nat) (e : Entry) : (setEntry g k e).trapinfo = g.trapinfo := rfl
@[simp] theorem setEntry_hsave (k : Nat) (e : Entry) : (setEntry g k e).hsave = g.hsave := rfl
@[simp] theorem setEntry_ss (k : Nat) (e : Entry) : (setEntry g k e).ss = g.ss := rfl
@[simp] theorem setEntry_hmode (k : Nat) (e : Entry) : (setEntry g k e).hmode = g.hmode := rfl
@[simp] theorem setEntry_stopped (k : Nat) (e : Entry) : (setEntry g k e).stopped = g.stopped := rfl
@[simp] theorem setEntry_halt (k : Nat) (e : Entry) : (setEntry g k e).halt = g.halt := rfl
@[simp] theorem setEntry_halt280 (k : Nat) (e : Entry) : (setEntry g k e).halt280 = g.halt280 := rfl
@[simp] theorem setEntry_preHalt (k : Nat) (e : Entry) : (setEntry g k e).preHalt = g.preHalt := rfl
@[simp] theorem setEntry_park (k : Nat) (e : Entry) : (setEntry g k e).park = g.park := rfl
@[simp] theorem setEntry_pair (k : Nat) (e : Entry) : (setEntry g k e).pair = g.pair := rfl
@[simp] theorem setEntry_xshufs (k : Nat) (e : Entry) : (setEntry g k e).xshufs = g.xshufs := rfl
@[simp] theorem setEntry_tileBase (k : Nat) (e : Entry) : (setEntry g k e).tileBase = g.tileBase := rfl
@[simp] theorem setEntry_tileCnt (k : Nat) (e : Entry) : (setEntry g k e).tileCnt = g.tileCnt := rfl
@[simp] theorem setEntry_mmas (k : Nat) (e : Entry) : (setEntry g k e).mmas = g.mmas := rfl
@[simp] theorem setEntry_matErr (k : Nat) (e : Entry) : (setEntry g k e).matErr = g.matErr := rfl
@[simp] theorem setEntry_begun (k : Nat) (e : Entry) : (setEntry g k e).begun = g.begun := rfl
@[simp] theorem setEntry_holds (k : Nat) (e : Entry) : (setEntry g k e).holds = g.holds := rfl
@[simp] theorem setEntry_since (k : Nat) (e : Entry) : (setEntry g k e).since = g.since := rfl
@[simp] theorem setEntry_scrSince (k : Nat) (e : Entry) : (setEntry g k e).scrSince = g.scrSince := rfl
@[simp] theorem setEntry_stepReq (k : Nat) (e : Entry) : (setEntry g k e).stepReq = g.stepReq := rfl
@[simp] theorem setEntry_lines (k : Nat) (e : Entry) : (setEntry g k e).lines = g.lines := rfl
@[simp] theorem setEntry_rewind (k : Nat) (e : Entry) : (setEntry g k e).rewind = g.rewind := rfl
@[simp] theorem setEntry_hurt (k : Nat) (e : Entry) : (setEntry g k e).hurt = g.hurt := rfl
@[simp] theorem setEntry_region (k : Nat) (e : Entry) : (setEntry g k e).region = g.region := rfl
@[simp] theorem setEntry_rerun (k : Nat) (e : Entry) : (setEntry g k e).rerun = g.rerun := rfl

@[simp] theorem setS_gid (i : Nat) (v : Dword) : (setS g i v).gid = g.gid := rfl
@[simp] theorem setS_lid (i : Nat) (v : Dword) : (setS g i v).lid = g.lid := rfl
@[simp] theorem setS_bid (i : Nat) (v : Dword) : (setS g i v).bid = g.bid := rfl
@[simp] theorem setS_part (i : Nat) (v : Dword) : (setS g i v).part = g.part := rfl
@[simp] theorem setS_core (i : Nat) (v : Dword) : (setS g i v).core = g.core := rfl
@[simp] theorem setS_slot (i : Nat) (v : Dword) : (setS g i v).slot = g.slot := rfl
@[simp] theorem setS_span (i : Nat) (v : Dword) : (setS g i v).span = g.span := rfl
@[simp] theorem setS_block (i : Nat) (v : Dword) : (setS g i v).block = g.block := rfl
@[simp] theorem setS_group (i : Nat) (v : Dword) : (setS g i v).group = g.group := rfl
@[simp] theorem setS_ngroups (i : Nat) (v : Dword) : (setS g i v).ngroups = g.ngroups := rfl
@[simp] theorem setS_nblocks (i : Nat) (v : Dword) : (setS g i v).nblocks = g.nblocks := rfl
@[simp] theorem setS_nspans (i : Nat) (v : Dword) : (setS g i v).nspans = g.nspans := rfl
@[simp] theorem setS_rows (i : Nat) (v : Dword) : (setS g i v).rows = g.rows := rfl
@[simp] theorem setS_x (i : Nat) (v : Dword) : (setS g i v).x = g.x := rfl
@[simp] theorem setS_pr (i : Nat) (v : Dword) : (setS g i v).pr = g.pr := rfl
@[simp] theorem setS_split (i : Nat) (v : Dword) : (setS g i v).split = g.split := rfl
@[simp] theorem setS_live (i : Nat) (v : Dword) : (setS g i v).live = g.live := rfl
@[simp] theorem setS_helpers (i : Nat) (v : Dword) : (setS g i v).helpers = g.helpers := rfl
@[simp] theorem setS_role (i : Nat) (v : Dword) : (setS g i v).role = g.role := rfl
@[simp] theorem setS_prio (i : Nat) (v : Dword) : (setS g i v).prio = g.prio := rfl
@[simp] theorem setS_allot (i : Nat) (v : Dword) : (setS g i v).allot = g.allot := rfl
@[simp] theorem setS_gang (i : Nat) (v : Dword) : (setS g i v).gang = g.gang := rfl
@[simp] theorem setS_engerr (i : Nat) (v : Dword) : (setS g i v).engerr = g.engerr := rfl
@[simp] theorem setS_errAsy (i : Nat) (v : Dword) : (setS g i v).errAsy = g.errAsy := rfl
@[simp] theorem setS_errTrv (i : Nat) (v : Dword) : (setS g i v).errTrv = g.errTrv := rfl
@[simp] theorem setS_errCis (i : Nat) (v : Dword) : (setS g i v).errCis = g.errCis := rfl
@[simp] theorem setS_errQnt (i : Nat) (v : Dword) : (setS g i v).errQnt = g.errQnt := rfl
@[simp] theorem setS_asy (i : Nat) (v : Dword) : (setS g i v).asy = g.asy := rfl
@[simp] theorem setS_trv (i : Nat) (v : Dword) : (setS g i v).trv = g.trv := rfl
@[simp] theorem setS_cisq (i : Nat) (v : Dword) : (setS g i v).cisq = g.cisq := rfl
@[simp] theorem setS_qntq (i : Nat) (v : Dword) : (setS g i v).qntq = g.qntq := rfl
@[simp] theorem setS_trapbase (i : Nat) (v : Dword) : (setS g i v).trapbase = g.trapbase := rfl
@[simp] theorem setS_trapcause (i : Nat) (v : Dword) : (setS g i v).trapcause = g.trapcause := rfl
@[simp] theorem setS_traplanes (i : Nat) (v : Dword) : (setS g i v).traplanes = g.traplanes := rfl
@[simp] theorem setS_trappc (i : Nat) (v : Dword) : (setS g i v).trappc = g.trappc := rfl
@[simp] theorem setS_trapinfo (i : Nat) (v : Dword) : (setS g i v).trapinfo = g.trapinfo := rfl
@[simp] theorem setS_hsave (i : Nat) (v : Dword) : (setS g i v).hsave = g.hsave := rfl
@[simp] theorem setS_ss (i : Nat) (v : Dword) : (setS g i v).ss = g.ss := rfl
@[simp] theorem setS_hmode (i : Nat) (v : Dword) : (setS g i v).hmode = g.hmode := rfl
@[simp] theorem setS_stopped (i : Nat) (v : Dword) : (setS g i v).stopped = g.stopped := rfl
@[simp] theorem setS_halt (i : Nat) (v : Dword) : (setS g i v).halt = g.halt := rfl
@[simp] theorem setS_halt280 (i : Nat) (v : Dword) : (setS g i v).halt280 = g.halt280 := rfl
@[simp] theorem setS_preHalt (i : Nat) (v : Dword) : (setS g i v).preHalt = g.preHalt := rfl
@[simp] theorem setS_park (i : Nat) (v : Dword) : (setS g i v).park = g.park := rfl
@[simp] theorem setS_pair (i : Nat) (v : Dword) : (setS g i v).pair = g.pair := rfl
@[simp] theorem setS_xshufs (i : Nat) (v : Dword) : (setS g i v).xshufs = g.xshufs := rfl
@[simp] theorem setS_tileBase (i : Nat) (v : Dword) : (setS g i v).tileBase = g.tileBase := rfl
@[simp] theorem setS_tileCnt (i : Nat) (v : Dword) : (setS g i v).tileCnt = g.tileCnt := rfl
@[simp] theorem setS_mmas (i : Nat) (v : Dword) : (setS g i v).mmas = g.mmas := rfl
@[simp] theorem setS_matErr (i : Nat) (v : Dword) : (setS g i v).matErr = g.matErr := rfl
@[simp] theorem setS_begun (i : Nat) (v : Dword) : (setS g i v).begun = g.begun := rfl
@[simp] theorem setS_holds (i : Nat) (v : Dword) : (setS g i v).holds = g.holds := rfl
@[simp] theorem setS_since (i : Nat) (v : Dword) : (setS g i v).since = g.since := rfl
@[simp] theorem setS_scrSince (i : Nat) (v : Dword) : (setS g i v).scrSince = g.scrSince := rfl
@[simp] theorem setS_stepReq (i : Nat) (v : Dword) : (setS g i v).stepReq = g.stepReq := rfl
@[simp] theorem setS_lines (i : Nat) (v : Dword) : (setS g i v).lines = g.lines := rfl
@[simp] theorem setS_rewind (i : Nat) (v : Dword) : (setS g i v).rewind = g.rewind := rfl
@[simp] theorem setS_region (i : Nat) (v : Dword) : (setS g i v).region = g.region := rfl
@[simp] theorem setS_rerun (i : Nat) (v : Dword) : (setS g i v).rerun = g.rerun := rfl

@[simp] theorem setX_gid (i : Nat) (m : Mask) (v : Vector Half 32) : (setX g i m v).gid = g.gid := rfl
@[simp] theorem setX_lid (i : Nat) (m : Mask) (v : Vector Half 32) : (setX g i m v).lid = g.lid := rfl
@[simp] theorem setX_bid (i : Nat) (m : Mask) (v : Vector Half 32) : (setX g i m v).bid = g.bid := rfl
@[simp] theorem setX_part (i : Nat) (m : Mask) (v : Vector Half 32) : (setX g i m v).part = g.part := rfl
@[simp] theorem setX_core (i : Nat) (m : Mask) (v : Vector Half 32) : (setX g i m v).core = g.core := rfl
@[simp] theorem setX_slot (i : Nat) (m : Mask) (v : Vector Half 32) : (setX g i m v).slot = g.slot := rfl
@[simp] theorem setX_span (i : Nat) (m : Mask) (v : Vector Half 32) : (setX g i m v).span = g.span := rfl
@[simp] theorem setX_block (i : Nat) (m : Mask) (v : Vector Half 32) : (setX g i m v).block = g.block := rfl
@[simp] theorem setX_group (i : Nat) (m : Mask) (v : Vector Half 32) : (setX g i m v).group = g.group := rfl
@[simp] theorem setX_ngroups (i : Nat) (m : Mask) (v : Vector Half 32) : (setX g i m v).ngroups = g.ngroups := rfl
@[simp] theorem setX_nblocks (i : Nat) (m : Mask) (v : Vector Half 32) : (setX g i m v).nblocks = g.nblocks := rfl
@[simp] theorem setX_nspans (i : Nat) (m : Mask) (v : Vector Half 32) : (setX g i m v).nspans = g.nspans := rfl
@[simp] theorem setX_rows (i : Nat) (m : Mask) (v : Vector Half 32) : (setX g i m v).rows = g.rows := rfl
@[simp] theorem setX_s (i : Nat) (m : Mask) (v : Vector Half 32) : (setX g i m v).s = g.s := rfl
@[simp] theorem setX_pr (i : Nat) (m : Mask) (v : Vector Half 32) : (setX g i m v).pr = g.pr := rfl
@[simp] theorem setX_split (i : Nat) (m : Mask) (v : Vector Half 32) : (setX g i m v).split = g.split := rfl
@[simp] theorem setX_live (i : Nat) (m : Mask) (v : Vector Half 32) : (setX g i m v).live = g.live := rfl
@[simp] theorem setX_helpers (i : Nat) (m : Mask) (v : Vector Half 32) : (setX g i m v).helpers = g.helpers := rfl
@[simp] theorem setX_role (i : Nat) (m : Mask) (v : Vector Half 32) : (setX g i m v).role = g.role := rfl
@[simp] theorem setX_prio (i : Nat) (m : Mask) (v : Vector Half 32) : (setX g i m v).prio = g.prio := rfl
@[simp] theorem setX_allot (i : Nat) (m : Mask) (v : Vector Half 32) : (setX g i m v).allot = g.allot := rfl
@[simp] theorem setX_gang (i : Nat) (m : Mask) (v : Vector Half 32) : (setX g i m v).gang = g.gang := rfl
@[simp] theorem setX_engerr (i : Nat) (m : Mask) (v : Vector Half 32) : (setX g i m v).engerr = g.engerr := rfl
@[simp] theorem setX_errAsy (i : Nat) (m : Mask) (v : Vector Half 32) : (setX g i m v).errAsy = g.errAsy := rfl
@[simp] theorem setX_errTrv (i : Nat) (m : Mask) (v : Vector Half 32) : (setX g i m v).errTrv = g.errTrv := rfl
@[simp] theorem setX_errCis (i : Nat) (m : Mask) (v : Vector Half 32) : (setX g i m v).errCis = g.errCis := rfl
@[simp] theorem setX_errQnt (i : Nat) (m : Mask) (v : Vector Half 32) : (setX g i m v).errQnt = g.errQnt := rfl
@[simp] theorem setX_asy (i : Nat) (m : Mask) (v : Vector Half 32) : (setX g i m v).asy = g.asy := rfl
@[simp] theorem setX_trv (i : Nat) (m : Mask) (v : Vector Half 32) : (setX g i m v).trv = g.trv := rfl
@[simp] theorem setX_cisq (i : Nat) (m : Mask) (v : Vector Half 32) : (setX g i m v).cisq = g.cisq := rfl
@[simp] theorem setX_qntq (i : Nat) (m : Mask) (v : Vector Half 32) : (setX g i m v).qntq = g.qntq := rfl
@[simp] theorem setX_trapbase (i : Nat) (m : Mask) (v : Vector Half 32) : (setX g i m v).trapbase = g.trapbase := rfl
@[simp] theorem setX_trapcause (i : Nat) (m : Mask) (v : Vector Half 32) : (setX g i m v).trapcause = g.trapcause := rfl
@[simp] theorem setX_traplanes (i : Nat) (m : Mask) (v : Vector Half 32) : (setX g i m v).traplanes = g.traplanes := rfl
@[simp] theorem setX_trappc (i : Nat) (m : Mask) (v : Vector Half 32) : (setX g i m v).trappc = g.trappc := rfl
@[simp] theorem setX_trapinfo (i : Nat) (m : Mask) (v : Vector Half 32) : (setX g i m v).trapinfo = g.trapinfo := rfl
@[simp] theorem setX_hsave (i : Nat) (m : Mask) (v : Vector Half 32) : (setX g i m v).hsave = g.hsave := rfl
@[simp] theorem setX_ss (i : Nat) (m : Mask) (v : Vector Half 32) : (setX g i m v).ss = g.ss := rfl
@[simp] theorem setX_hmode (i : Nat) (m : Mask) (v : Vector Half 32) : (setX g i m v).hmode = g.hmode := rfl
@[simp] theorem setX_stopped (i : Nat) (m : Mask) (v : Vector Half 32) : (setX g i m v).stopped = g.stopped := rfl
@[simp] theorem setX_halt (i : Nat) (m : Mask) (v : Vector Half 32) : (setX g i m v).halt = g.halt := rfl
@[simp] theorem setX_halt280 (i : Nat) (m : Mask) (v : Vector Half 32) : (setX g i m v).halt280 = g.halt280 := rfl
@[simp] theorem setX_preHalt (i : Nat) (m : Mask) (v : Vector Half 32) : (setX g i m v).preHalt = g.preHalt := rfl
@[simp] theorem setX_park (i : Nat) (m : Mask) (v : Vector Half 32) : (setX g i m v).park = g.park := rfl
@[simp] theorem setX_pair (i : Nat) (m : Mask) (v : Vector Half 32) : (setX g i m v).pair = g.pair := rfl
@[simp] theorem setX_xshufs (i : Nat) (m : Mask) (v : Vector Half 32) : (setX g i m v).xshufs = g.xshufs := rfl
@[simp] theorem setX_tileBase (i : Nat) (m : Mask) (v : Vector Half 32) : (setX g i m v).tileBase = g.tileBase := rfl
@[simp] theorem setX_tileCnt (i : Nat) (m : Mask) (v : Vector Half 32) : (setX g i m v).tileCnt = g.tileCnt := rfl
@[simp] theorem setX_mmas (i : Nat) (m : Mask) (v : Vector Half 32) : (setX g i m v).mmas = g.mmas := rfl
@[simp] theorem setX_matErr (i : Nat) (m : Mask) (v : Vector Half 32) : (setX g i m v).matErr = g.matErr := rfl
@[simp] theorem setX_begun (i : Nat) (m : Mask) (v : Vector Half 32) : (setX g i m v).begun = g.begun := rfl
@[simp] theorem setX_holds (i : Nat) (m : Mask) (v : Vector Half 32) : (setX g i m v).holds = g.holds := rfl
@[simp] theorem setX_since (i : Nat) (m : Mask) (v : Vector Half 32) : (setX g i m v).since = g.since := rfl
@[simp] theorem setX_scrSince (i : Nat) (m : Mask) (v : Vector Half 32) : (setX g i m v).scrSince = g.scrSince := rfl
@[simp] theorem setX_stepReq (i : Nat) (m : Mask) (v : Vector Half 32) : (setX g i m v).stepReq = g.stepReq := rfl
@[simp] theorem setX_lines (i : Nat) (m : Mask) (v : Vector Half 32) : (setX g i m v).lines = g.lines := rfl
@[simp] theorem setX_rewind (i : Nat) (m : Mask) (v : Vector Half 32) : (setX g i m v).rewind = g.rewind := rfl
@[simp] theorem setX_region (i : Nat) (m : Mask) (v : Vector Half 32) : (setX g i m v).region = g.region := rfl
@[simp] theorem setX_rerun (i : Nat) (m : Mask) (v : Vector Half 32) : (setX g i m v).rerun = g.rerun := rfl

@[simp] theorem setRow_gid (i : Nat) (r : VRow) : (setRow g i r).gid = g.gid := rfl
@[simp] theorem setRow_lid (i : Nat) (r : VRow) : (setRow g i r).lid = g.lid := rfl
@[simp] theorem setRow_bid (i : Nat) (r : VRow) : (setRow g i r).bid = g.bid := rfl
@[simp] theorem setRow_part (i : Nat) (r : VRow) : (setRow g i r).part = g.part := rfl
@[simp] theorem setRow_core (i : Nat) (r : VRow) : (setRow g i r).core = g.core := rfl
@[simp] theorem setRow_slot (i : Nat) (r : VRow) : (setRow g i r).slot = g.slot := rfl
@[simp] theorem setRow_span (i : Nat) (r : VRow) : (setRow g i r).span = g.span := rfl
@[simp] theorem setRow_block (i : Nat) (r : VRow) : (setRow g i r).block = g.block := rfl
@[simp] theorem setRow_group (i : Nat) (r : VRow) : (setRow g i r).group = g.group := rfl
@[simp] theorem setRow_ngroups (i : Nat) (r : VRow) : (setRow g i r).ngroups = g.ngroups := rfl
@[simp] theorem setRow_nblocks (i : Nat) (r : VRow) : (setRow g i r).nblocks = g.nblocks := rfl
@[simp] theorem setRow_nspans (i : Nat) (r : VRow) : (setRow g i r).nspans = g.nspans := rfl
@[simp] theorem setRow_s (i : Nat) (r : VRow) : (setRow g i r).s = g.s := rfl
@[simp] theorem setRow_x (i : Nat) (r : VRow) : (setRow g i r).x = g.x := rfl
@[simp] theorem setRow_pr (i : Nat) (r : VRow) : (setRow g i r).pr = g.pr := rfl
@[simp] theorem setRow_split (i : Nat) (r : VRow) : (setRow g i r).split = g.split := rfl
@[simp] theorem setRow_live (i : Nat) (r : VRow) : (setRow g i r).live = g.live := rfl
@[simp] theorem setRow_helpers (i : Nat) (r : VRow) : (setRow g i r).helpers = g.helpers := rfl
@[simp] theorem setRow_role (i : Nat) (r : VRow) : (setRow g i r).role = g.role := rfl
@[simp] theorem setRow_prio (i : Nat) (r : VRow) : (setRow g i r).prio = g.prio := rfl
@[simp] theorem setRow_allot (i : Nat) (r : VRow) : (setRow g i r).allot = g.allot := rfl
@[simp] theorem setRow_gang (i : Nat) (r : VRow) : (setRow g i r).gang = g.gang := rfl
@[simp] theorem setRow_engerr (i : Nat) (r : VRow) : (setRow g i r).engerr = g.engerr := rfl
@[simp] theorem setRow_errAsy (i : Nat) (r : VRow) : (setRow g i r).errAsy = g.errAsy := rfl
@[simp] theorem setRow_errTrv (i : Nat) (r : VRow) : (setRow g i r).errTrv = g.errTrv := rfl
@[simp] theorem setRow_errCis (i : Nat) (r : VRow) : (setRow g i r).errCis = g.errCis := rfl
@[simp] theorem setRow_errQnt (i : Nat) (r : VRow) : (setRow g i r).errQnt = g.errQnt := rfl
@[simp] theorem setRow_asy (i : Nat) (r : VRow) : (setRow g i r).asy = g.asy := rfl
@[simp] theorem setRow_trv (i : Nat) (r : VRow) : (setRow g i r).trv = g.trv := rfl
@[simp] theorem setRow_cisq (i : Nat) (r : VRow) : (setRow g i r).cisq = g.cisq := rfl
@[simp] theorem setRow_qntq (i : Nat) (r : VRow) : (setRow g i r).qntq = g.qntq := rfl
@[simp] theorem setRow_trapbase (i : Nat) (r : VRow) : (setRow g i r).trapbase = g.trapbase := rfl
@[simp] theorem setRow_trapcause (i : Nat) (r : VRow) : (setRow g i r).trapcause = g.trapcause := rfl
@[simp] theorem setRow_traplanes (i : Nat) (r : VRow) : (setRow g i r).traplanes = g.traplanes := rfl
@[simp] theorem setRow_trappc (i : Nat) (r : VRow) : (setRow g i r).trappc = g.trappc := rfl
@[simp] theorem setRow_trapinfo (i : Nat) (r : VRow) : (setRow g i r).trapinfo = g.trapinfo := rfl
@[simp] theorem setRow_hsave (i : Nat) (r : VRow) : (setRow g i r).hsave = g.hsave := rfl
@[simp] theorem setRow_ss (i : Nat) (r : VRow) : (setRow g i r).ss = g.ss := rfl
@[simp] theorem setRow_hmode (i : Nat) (r : VRow) : (setRow g i r).hmode = g.hmode := rfl
@[simp] theorem setRow_stopped (i : Nat) (r : VRow) : (setRow g i r).stopped = g.stopped := rfl
@[simp] theorem setRow_halt (i : Nat) (r : VRow) : (setRow g i r).halt = g.halt := rfl
@[simp] theorem setRow_halt280 (i : Nat) (r : VRow) : (setRow g i r).halt280 = g.halt280 := rfl
@[simp] theorem setRow_preHalt (i : Nat) (r : VRow) : (setRow g i r).preHalt = g.preHalt := rfl
@[simp] theorem setRow_park (i : Nat) (r : VRow) : (setRow g i r).park = g.park := rfl
@[simp] theorem setRow_pair (i : Nat) (r : VRow) : (setRow g i r).pair = g.pair := rfl
@[simp] theorem setRow_xshufs (i : Nat) (r : VRow) : (setRow g i r).xshufs = g.xshufs := rfl
@[simp] theorem setRow_tileBase (i : Nat) (r : VRow) : (setRow g i r).tileBase = g.tileBase := rfl
@[simp] theorem setRow_tileCnt (i : Nat) (r : VRow) : (setRow g i r).tileCnt = g.tileCnt := rfl
@[simp] theorem setRow_mmas (i : Nat) (r : VRow) : (setRow g i r).mmas = g.mmas := rfl
@[simp] theorem setRow_matErr (i : Nat) (r : VRow) : (setRow g i r).matErr = g.matErr := rfl
@[simp] theorem setRow_begun (i : Nat) (r : VRow) : (setRow g i r).begun = g.begun := rfl
@[simp] theorem setRow_holds (i : Nat) (r : VRow) : (setRow g i r).holds = g.holds := rfl
@[simp] theorem setRow_scrSince (i : Nat) (r : VRow) : (setRow g i r).scrSince = g.scrSince := rfl
@[simp] theorem setRow_stepReq (i : Nat) (r : VRow) : (setRow g i r).stepReq = g.stepReq := rfl
@[simp] theorem setRow_lines (i : Nat) (r : VRow) : (setRow g i r).lines = g.lines := rfl
@[simp] theorem setRow_rewind (i : Nat) (r : VRow) : (setRow g i r).rewind = g.rewind := rfl
@[simp] theorem setRow_hurt (i : Nat) (r : VRow) : (setRow g i r).hurt = g.hurt := rfl
@[simp] theorem setRow_region (i : Nat) (r : VRow) : (setRow g i r).region = g.region := rfl
@[simp] theorem setRow_rerun (i : Nat) (r : VRow) : (setRow g i r).rerun = g.rerun := rfl

@[simp] theorem setP_gid (i : Nat) (m v : Mask) : (setP g i m v).gid = g.gid := by unfold setP; split <;> rfl
@[simp] theorem setP_lid (i : Nat) (m v : Mask) : (setP g i m v).lid = g.lid := by unfold setP; split <;> rfl
@[simp] theorem setP_bid (i : Nat) (m v : Mask) : (setP g i m v).bid = g.bid := by unfold setP; split <;> rfl
@[simp] theorem setP_part (i : Nat) (m v : Mask) : (setP g i m v).part = g.part := by unfold setP; split <;> rfl
@[simp] theorem setP_core (i : Nat) (m v : Mask) : (setP g i m v).core = g.core := by unfold setP; split <;> rfl
@[simp] theorem setP_slot (i : Nat) (m v : Mask) : (setP g i m v).slot = g.slot := by unfold setP; split <;> rfl
@[simp] theorem setP_span (i : Nat) (m v : Mask) : (setP g i m v).span = g.span := by unfold setP; split <;> rfl
@[simp] theorem setP_block (i : Nat) (m v : Mask) : (setP g i m v).block = g.block := by unfold setP; split <;> rfl
@[simp] theorem setP_group (i : Nat) (m v : Mask) : (setP g i m v).group = g.group := by unfold setP; split <;> rfl
@[simp] theorem setP_ngroups (i : Nat) (m v : Mask) : (setP g i m v).ngroups = g.ngroups := by unfold setP; split <;> rfl
@[simp] theorem setP_nblocks (i : Nat) (m v : Mask) : (setP g i m v).nblocks = g.nblocks := by unfold setP; split <;> rfl
@[simp] theorem setP_nspans (i : Nat) (m v : Mask) : (setP g i m v).nspans = g.nspans := by unfold setP; split <;> rfl
@[simp] theorem setP_rows (i : Nat) (m v : Mask) : (setP g i m v).rows = g.rows := by unfold setP; split <;> rfl
@[simp] theorem setP_s (i : Nat) (m v : Mask) : (setP g i m v).s = g.s := by unfold setP; split <;> rfl
@[simp] theorem setP_x (i : Nat) (m v : Mask) : (setP g i m v).x = g.x := by unfold setP; split <;> rfl
@[simp] theorem setP_split (i : Nat) (m v : Mask) : (setP g i m v).split = g.split := by unfold setP; split <;> rfl
@[simp] theorem setP_live (i : Nat) (m v : Mask) : (setP g i m v).live = g.live := by unfold setP; split <;> rfl
@[simp] theorem setP_helpers (i : Nat) (m v : Mask) : (setP g i m v).helpers = g.helpers := by unfold setP; split <;> rfl
@[simp] theorem setP_role (i : Nat) (m v : Mask) : (setP g i m v).role = g.role := by unfold setP; split <;> rfl
@[simp] theorem setP_prio (i : Nat) (m v : Mask) : (setP g i m v).prio = g.prio := by unfold setP; split <;> rfl
@[simp] theorem setP_allot (i : Nat) (m v : Mask) : (setP g i m v).allot = g.allot := by unfold setP; split <;> rfl
@[simp] theorem setP_gang (i : Nat) (m v : Mask) : (setP g i m v).gang = g.gang := by unfold setP; split <;> rfl
@[simp] theorem setP_engerr (i : Nat) (m v : Mask) : (setP g i m v).engerr = g.engerr := by unfold setP; split <;> rfl
@[simp] theorem setP_errAsy (i : Nat) (m v : Mask) : (setP g i m v).errAsy = g.errAsy := by unfold setP; split <;> rfl
@[simp] theorem setP_errTrv (i : Nat) (m v : Mask) : (setP g i m v).errTrv = g.errTrv := by unfold setP; split <;> rfl
@[simp] theorem setP_errCis (i : Nat) (m v : Mask) : (setP g i m v).errCis = g.errCis := by unfold setP; split <;> rfl
@[simp] theorem setP_errQnt (i : Nat) (m v : Mask) : (setP g i m v).errQnt = g.errQnt := by unfold setP; split <;> rfl
@[simp] theorem setP_asy (i : Nat) (m v : Mask) : (setP g i m v).asy = g.asy := by unfold setP; split <;> rfl
@[simp] theorem setP_trv (i : Nat) (m v : Mask) : (setP g i m v).trv = g.trv := by unfold setP; split <;> rfl
@[simp] theorem setP_cisq (i : Nat) (m v : Mask) : (setP g i m v).cisq = g.cisq := by unfold setP; split <;> rfl
@[simp] theorem setP_qntq (i : Nat) (m v : Mask) : (setP g i m v).qntq = g.qntq := by unfold setP; split <;> rfl
@[simp] theorem setP_trapbase (i : Nat) (m v : Mask) : (setP g i m v).trapbase = g.trapbase := by unfold setP; split <;> rfl
@[simp] theorem setP_trapcause (i : Nat) (m v : Mask) : (setP g i m v).trapcause = g.trapcause := by unfold setP; split <;> rfl
@[simp] theorem setP_traplanes (i : Nat) (m v : Mask) : (setP g i m v).traplanes = g.traplanes := by unfold setP; split <;> rfl
@[simp] theorem setP_trappc (i : Nat) (m v : Mask) : (setP g i m v).trappc = g.trappc := by unfold setP; split <;> rfl
@[simp] theorem setP_trapinfo (i : Nat) (m v : Mask) : (setP g i m v).trapinfo = g.trapinfo := by unfold setP; split <;> rfl
@[simp] theorem setP_hsave (i : Nat) (m v : Mask) : (setP g i m v).hsave = g.hsave := by unfold setP; split <;> rfl
@[simp] theorem setP_ss (i : Nat) (m v : Mask) : (setP g i m v).ss = g.ss := by unfold setP; split <;> rfl
@[simp] theorem setP_hmode (i : Nat) (m v : Mask) : (setP g i m v).hmode = g.hmode := by unfold setP; split <;> rfl
@[simp] theorem setP_stopped (i : Nat) (m v : Mask) : (setP g i m v).stopped = g.stopped := by unfold setP; split <;> rfl
@[simp] theorem setP_halt (i : Nat) (m v : Mask) : (setP g i m v).halt = g.halt := by unfold setP; split <;> rfl
@[simp] theorem setP_halt280 (i : Nat) (m v : Mask) : (setP g i m v).halt280 = g.halt280 := by unfold setP; split <;> rfl
@[simp] theorem setP_preHalt (i : Nat) (m v : Mask) : (setP g i m v).preHalt = g.preHalt := by unfold setP; split <;> rfl
@[simp] theorem setP_park (i : Nat) (m v : Mask) : (setP g i m v).park = g.park := by unfold setP; split <;> rfl
@[simp] theorem setP_pair (i : Nat) (m v : Mask) : (setP g i m v).pair = g.pair := by unfold setP; split <;> rfl
@[simp] theorem setP_xshufs (i : Nat) (m v : Mask) : (setP g i m v).xshufs = g.xshufs := by unfold setP; split <;> rfl
@[simp] theorem setP_tileBase (i : Nat) (m v : Mask) : (setP g i m v).tileBase = g.tileBase := by unfold setP; split <;> rfl
@[simp] theorem setP_tileCnt (i : Nat) (m v : Mask) : (setP g i m v).tileCnt = g.tileCnt := by unfold setP; split <;> rfl
@[simp] theorem setP_mmas (i : Nat) (m v : Mask) : (setP g i m v).mmas = g.mmas := by unfold setP; split <;> rfl
@[simp] theorem setP_matErr (i : Nat) (m v : Mask) : (setP g i m v).matErr = g.matErr := by unfold setP; split <;> rfl
@[simp] theorem setP_begun (i : Nat) (m v : Mask) : (setP g i m v).begun = g.begun := by unfold setP; split <;> rfl
@[simp] theorem setP_holds (i : Nat) (m v : Mask) : (setP g i m v).holds = g.holds := by unfold setP; split <;> rfl
@[simp] theorem setP_since (i : Nat) (m v : Mask) : (setP g i m v).since = g.since := by unfold setP; split <;> rfl
@[simp] theorem setP_scrSince (i : Nat) (m v : Mask) : (setP g i m v).scrSince = g.scrSince := by unfold setP; split <;> rfl
@[simp] theorem setP_stepReq (i : Nat) (m v : Mask) : (setP g i m v).stepReq = g.stepReq := by unfold setP; split <;> rfl
@[simp] theorem setP_lines (i : Nat) (m v : Mask) : (setP g i m v).lines = g.lines := by unfold setP; split <;> rfl
@[simp] theorem setP_rewind (i : Nat) (m v : Mask) : (setP g i m v).rewind = g.rewind := by unfold setP; split <;> rfl
@[simp] theorem setP_region (i : Nat) (m v : Mask) : (setP g i m v).region = g.region := by unfold setP; split <;> rfl
@[simp] theorem setP_rerun (i : Nat) (m v : Mask) : (setP g i m v).rerun = g.rerun := by unfold setP; split <;> rfl

end GroupFields

/-- An entry of a vector just stored. -/
theorem vget_vset_same {α : Type} {n : Nat} (v : Vector α n) {i : Nat} (x d : α) (h : i < n) : vget (vset v i x) i d = x := by
  rcases v with ⟨a, rfl⟩
  simp [vget, vset, Vector.getD, Vector.setIfInBounds, Array.getD, h]

/-- Every other entry of a vector. -/
theorem vget_vset_other {α : Type} {n : Nat} (v : Vector α n) {i j : Nat} (x d : α) (h : j ≠ i) : vget (vset v i x) j d = vget v j d := by
  rcases v with ⟨a, rfl⟩
  by_cases hj : j < a.size
  · simp [vget, vset, Vector.getD, Vector.setIfInBounds, Array.getD, hj, Ne.symm h]
  · simp [vget, vset, Vector.getD, Vector.setIfInBounds, Array.getD, hj]

/-- Storing an entry twice is storing the second. -/
theorem vset_vset {α : Type} {n : Nat} (v : Vector α n) (i : Nat) (x y : α) : vset (vset v i x) i y = vset v i y := by
  ext j hj
  simp only [vset, Vector.getElem_setIfInBounds]
  split <;> simp

/-- The split-table entry just stored. -/
@[simp] theorem entry_setEntry (g : Group) {k : Nat} (e : Entry) (h : k < 4) : entry (setEntry g k e) k = e := vget_vset_same _ _ _ h

/-- The other split-table entries. -/
theorem entry_setEntry_other (g : Group) {k j : Nat} (e : Entry) (h : j ≠ k) : entry (setEntry g k e) j = entry g j := vget_vset_other _ _ _ h

/-- Storing an entry twice. -/
@[simp] theorem setEntry_setEntry (g : Group) (k : Nat) (e e' : Entry) : setEntry (setEntry g k e) k e' = setEntry g k e' := by
  simp [setEntry, vset_vset]

/-- Writes of registers leave the split table. -/
@[simp] theorem entry_setS (g : Group) (i : Nat) (v : Dword) (k : Nat) : entry (setS g i v) k = entry g k := rfl
@[simp] theorem entry_setX (g : Group) (i : Nat) (m : Mask) (v : Vector Half 32) (k : Nat) : entry (setX g i m v) k = entry g k := rfl
@[simp] theorem entry_setRow (g : Group) (i : Nat) (r : VRow) (k : Nat) : entry (setRow g i r) k = entry g k := rfl
@[simp] theorem entry_setP (g : Group) (i : Nat) (m v : Mask) (k : Nat) : entry (setP g i m v) k = entry g k := by unfold setP; split <;> rfl

/-- The scalar register just written. -/
theorem sreg_setS (g : Group) {i : Nat} (v : Dword) (h : i < 64) : sreg (setS g i v) i = v := vget_vset_same _ _ _ h

/-- The other scalar registers. -/
theorem sreg_setS_other (g : Group) {i j : Nat} (v : Dword) (h : j ≠ i) : sreg (setS g i v) j = sreg g j := vget_vset_other _ _ _ h

/-- The row just stored, when the group's rows are in canonical form. -/
theorem row_setRow (g : Group) (i : Nat) (r : VRow) (h : mapWf rowZero g.rows = true) : row (setRow g i r) i = r := mapGet_put_same rowZero i r h

/-- The other rows. -/
theorem row_setRow_other (g : Group) {i j : Nat} (r : VRow) (hj : j ≠ i) (h : mapWf rowZero g.rows = true) : row (setRow g i r) j = row g j :=
  mapGet_put_other rowZero r hj h

/-- Writing a row moves no field but the rows and their note, nor the split table. -/
@[simp] theorem writeRow_gid (g : Group) (r : Nat) (m : Mask) (t : Tag) (v : Lanes) : (writeRow g r m t v).gid = g.gid := rfl
@[simp] theorem entry_writeRow (g : Group) (r : Nat) (m : Mask) (t : Tag) (v : Lanes) (k : Nat) : entry (writeRow g r m t v) k = entry g k := rfl

/-- A fold of row writes, for any property of the group that a row write keeps. -/
theorem writeRows_keeps {β : Type} (p : Group → β) (hp : ∀ g r m t v, p (writeRow g r m t v) = p g) (m : Mask) (t : Tag) (f : Nat → List Word) :
    ∀ (l : List (Nat × Nat)) (g : Group),
      p (l.foldl (fun g x => writeRow g x.1 m t (lanesOf fun lane => (f lane).getD x.2 0)) g) = p g
  | [], _ => rfl
  | _ :: l, g => (writeRows_keeps p hp m t f l _).trans (hp g _ _ _ _)

@[simp] theorem writeRows_gid (g : Group) (d : List Nat) (m : Mask) (t : Tag) (f : Nat → List Word) : (writeRows g d m t f).gid = g.gid :=
  writeRows_keeps (·.gid) (fun _ _ _ _ _ => rfl) m t f _ g
@[simp] theorem entry_writeRows (g : Group) (d : List Nat) (m : Mask) (t : Tag) (f : Nat → List Word) (k : Nat) :
    entry (writeRows g d m t f) k = entry g k :=
  writeRows_keeps (fun g => entry g k) (fun _ _ _ _ _ => rfl) m t f _ g

/-- One row written is one row written. -/
@[simp] theorem writeRows_one (g : Group) (d : Nat) (m : Mask) (t : Tag) (f : Nat → List Word) :
    writeRows g [d] m t f = writeRow g d m t (lanesOf fun lane => (f lane).getD 0 0) := rfl

/-- A map that puts g where its number stands. -/
theorem find_map_set (l : List Group) (g : Group) (h : ∃ x ∈ l, x.gid = g.gid) :
    (l.map fun x => if x.gid = g.gid then g else x).find? (·.gid == g.gid) = some g := by
  induction l with
  | nil => obtain ⟨_, hx, _⟩ := h; cases hx
  | cons a l ih =>
    simp only [List.map_cons, List.find?_cons]
    by_cases ha : a.gid = g.gid
    · simp [ha]
    · have : ∃ x ∈ l, x.gid = g.gid := by
        obtain ⟨x, hx, he⟩ := h
        rcases List.mem_cons.mp hx with rfl | hx
        · exact absurd he ha
        · exact ⟨x, hx, he⟩
      have hb : (a.gid == g.gid) = false := by simp [ha]
      rw [if_neg ha, hb]
      exact ih this

/-- The group just stored is the one found. -/
theorem group?_setGroup (s : State) (g : Group) {g0 : Group} (h : s.group? g.gid = some g0) : (s.setGroup g).group? g.gid = some g := by
  refine find_map_set s.groups g ⟨g0, List.mem_of_find?_eq_some h, ?_⟩
  have := List.find?_some h
  simpa using this

/-- Storing a group twice is storing the second. -/
theorem setGroup_setGroup (s : State) (g g' : Group) (h : g'.gid = g.gid) : (s.setGroup g).setGroup g' = s.setGroup g' := by
  have : ∀ l : List Group, (l.map fun x => if x.gid = g.gid then g else x).map (fun x => if x.gid = g'.gid then g' else x) =
      l.map fun x => if x.gid = g'.gid then g' else x := by
    intro l
    simp only [List.map_map]
    refine List.map_congr_left fun x _ => ?_
    simp only [Function.comp]
    by_cases hx : x.gid = g.gid
    · simp [hx, h]
    · simp [hx, h]
  simp only [State.setGroup, State.modGroup, this]

end Sys2Proof.Machine
end

