-- ==== Sys2Proof/Safety.lean ====
section
/-! DEFINITION. The words claims are stated in: which split issues, what a word leaves that acts on its own group only, when a run goes on, and the canonical form of every
storage. -/

namespace Sys2Proof.Machine

/-- Split k of group g has been selected to issue in s (R41): it is resident and runnable, no register of its group is marked by a restore (R388), and it does not stand in a region that its
group runs again after a backsight restore, whose writes R328 governs. -/
structure Issuing (s : State) (g : Group) (k : Nat) : Prop where
  cur   : s.cur = some (g.gid, k)
  group : s.group? g.gid = some g
  slot  : k < 4
  state : (entry g k).state = .runnable
  sound : g.hurt = []
  plain : (g.rerun.any fun r => inRerun r (entry g k).pc.toNat) = false

/-- The group raises STEP after each of its words (R279). -/
def stepping (g : Group) : Bool := g.ss && !g.hmode

/-- The lanes in which a word of split k is active (R22). -/
def active (g : Group) (k : Nat) (h : Hdr) : Mask := (entry g k).ex &&& guardMask g h

/-- A scalar or group-level word executes (R28): it is guarded by `(p0)`, or its guard holds in some lane of EX. -/
def executesIn (g : Group) (k : Nat) (h : Hdr) : Bool := (h.pg == 0 && !h.pn) || active g k h != 0

/-- The state after a word of split k whose whole effect on its group is `g'`: the split stands at `pc`, its AGE is cleared, its fetched word is used up, and no split is
selected any more (R23, R41, R137). -/
def landed (s : State) (g' : Group) (k : Nat) (pc : Dword) : State :=
  (s.setGroup (setEntry g' k { entry g' k with pc := pc, age := 0, ibuf := none, turns := 0 })).turnOver

/-- The frame in which a word issues (R152 to R154). -/
def frameOf (i : Instr) (h : Hdr) (s : State) (g : Group) (k : Nat) : Ctx :=
  { s := s, g := g, k := k, e := entry g k, i := i, h := h, act := active g k h, thr := threadsOf g (active g k h) }

/-- Rows a word writes: within the allotment and full (R35, R156). -/
def WritableRows (g : Group) (rows : List Nat) : Prop := ∀ r ∈ rows, r < g.allot ∧ (row g r).full = true

/-- Rows a word reads: within the allotment, full and not poisoned (R35, R156, R215). -/
def ReadableRows (g : Group) (rows : List Nat) : Prop := ∀ r ∈ rows, r < g.allot ∧ (row g r).full = true ∧ (row g r).poison = false

/-- Rows whose tag agrees with a format (R127). -/
def TagsAgree (g : Group) (t : Tag) (rows : List Nat) : Prop := ∀ r ∈ rows, (row g r).tag = t ∨ (row g r).tag = .raw

/-- Every storage is in canonical form. -/
def State.memWf (s : State) : Bool := s.dram.wf && s.scratch.wf && s.cistern.wf && s.host.wf && s.peer.wf

/-- A step goes on. -/
def goesOn (s : State) : Prop := ∃ t, step s = .next t

/-- A run of n steps that meets neither a fault nor a refusal. -/
def runsSafely (s : State) : Nat → Prop
  | 0 => True
  | n + 1 => ∃ t, step s = .next t ∧ runsSafely t n

end Sys2Proof.Machine
end

