-- ==== Sys2Proof/Laws/Issue.lean ====
section
/-! SUPPORT. What the frame of an issuing word comes to, said once: a word that is done, waits, traps or is no instruction. -/

namespace Sys2Proof.Machine

/-- Outside a region that its group runs again, what a word has written stands (R328). -/
theorem rerunWrites_eq {c : Ctx} (h : (c.g.rerun.any fun r => inRerun r c.e.pc.toNat) = false) (s : State) : c.rerunWrites s = s := by
  unfold Ctx.rerunWrites
  split
  · rfl
  · next r hr => simp only [hr, Option.any_some] at h; simp [h]

/-- A group without poison marks on its registers has no word that traps for one (R388). -/
theorem hurtSource_none {c : Ctx} (h : c.g.hurt.isEmpty = true) : c.hurtSource = none := by
  unfold Ctx.hurtSource
  split
  · rfl
  · simp [Ctx.hurtRead, h]

/-- A word that issues runs its body in the frame of its split. -/
theorem runWord_eq {s : State} {g : Group} {k : Nat} (hs : Issuing s g k) (i : Instr) (h : Hdr) (body : Ctx → Issue) :
    runWord i h s body = match (if i.wellFormed then body (frameOf i h s g k) else .trap s .illop none (frameOf i h s g k).word) with
      | .done s' => .next ((frameOf i h s g k).issued s').turnOver
      | .trap s' cause lane info => .next (s'.takeTrap g.gid k (active g k h) cause lane info).turnOver
      | .notReady => .next s
      | .stay s' => .next s'.turnOver := by
  have hh : (frameOf i h s g k).hurtSource = none := hurtSource_none (by simp [frameOf, hs.sound])
  have hp (t : State) : (frameOf i h s g k).rerunWrites t = t := rerunWrites_eq hs.plain t
  simp only [frameOf, active] at hh hp
  simp only [runWord, hs.cur, hs.group, hh, hp]
  rfl

/-- A word that is no instruction takes ILLOP (R152, R153). -/
theorem runWord_illop {s : State} {g : Group} {k : Nat} (hs : Issuing s g k) (i : Instr) (h : Hdr) (body : Ctx → Issue)
    (hw : i.wellFormed = false) :
    runWord i h s body = .next (s.takeTrap g.gid k (active g k h) .illop none ((encode i).getD 0)).turnOver := by
  rw [runWord_eq hs, hw]
  rfl

/-- A word whose body traps takes that trap (R153, R279). -/
theorem runWord_trap {s s' : State} {g : Group} {k : Nat} (hs : Issuing s g k) (i : Instr) (h : Hdr) (body : Ctx → Issue) (hw : i.wellFormed = true)
    {cause : Cause} {lane : Option Nat} {info : Dword} (hb : body (frameOf i h s g k) = .trap s' cause lane info) :
    runWord i h s body = .next (s'.takeTrap g.gid k (active g k h) cause lane info).turnOver := by
  rw [runWord_eq hs, hw, if_pos rfl, hb]

/-- A word that is not ready changes nothing (R41). -/
theorem runWord_notReady {s : State} {g : Group} {k : Nat} (hs : Issuing s g k) (i : Instr) (h : Hdr) (body : Ctx → Issue) (hw : i.wellFormed = true)
    (hb : body (frameOf i h s g k) = .notReady) : runWord i h s body = .next s := by
  rw [runWord_eq hs, hw, if_pos rfl, hb]

/-- Every word that has issued: AGE cleared, the fetched word used up (R23), when no STEP is due. -/
theorem issued_setGroup (c : Ctx) (s1 : State) (g2 : Group) {g0 : Group} (hg : s1.group? c.g.gid = some g0) (hid : g2.gid = c.g.gid)
    (hf : (entry g2 c.k).state ≠ .free) (ho : (entry g2 c.k).own = c.e.own) (hr : (entry g2 c.k).rmask = c.e.rmask) (hss : stepping c.g = false) :
    c.issued (s1.setGroup g2) =
      s1.setGroup (setEntry g2 c.k { entry g2 c.k with age := 0, ibuf := none, turns := 0 }) := by
  have hg2 : (s1.setGroup g2).group? c.g.gid = some g2 := by
    rw [← hid] at hg ⊢
    exact group?_setGroup s1 g2 hg
  have hss' : (c.g.ss && !c.g.hmode) = false := hss
  have hk : c.survivor g2 = c.k := if_pos hf
  have ha : c.ageAfter (entry g2 c.k) = 0 := by simp [Ctx.ageAfter, ho, hr]
  simp only [Ctx.issued, hg2, hk, ha, hss', Bool.false_and, if_neg hf]
  exact setGroup_setGroup _ _ _ rfl

/-- A word whose whole effect is on its own group, beside other parts of the state in `s1`. -/
theorem runWord_done {s s1 : State} {g g2 g0 : Group} {k : Nat} (hs : Issuing s g k) (i : Instr) (h : Hdr) (body : Ctx → Issue)
    (hw : i.wellFormed = true) (hss : stepping g = false) (hg : s1.group? g.gid = some g0) (hid : g2.gid = g.gid)
    (he : entry g2 k = entry g k)
    (hb : body (frameOf i h s g k) = .done (s1.setGroup (setEntry g2 k { entry g2 k with pc := (entry g k).pc + 8 }))) :
    runWord i h s body = .next (landed s1 g2 k ((entry g k).pc + 8)) := by
  rw [runWord_eq hs, hw, if_pos rfl, hb]
  have := issued_setGroup (frameOf i h s g k) s1 (setEntry g2 k { entry g2 k with pc := (entry g k).pc + 8 }) hg hid
    (by show (entry (setEntry g2 k _) k).state ≠ .free; rw [entry_setEntry _ _ hs.slot]; show (entry g2 k).state ≠ .free; rw [he, hs.state]; decide)
    (by show (entry (setEntry g2 k _) k).own = (entry g k).own; rw [entry_setEntry _ _ hs.slot, he])
    (by show (entry (setEntry g2 k _) k).rmask = (entry g k).rmask; rw [entry_setEntry _ _ hs.slot, he]) hss
  refine congrArg (fun x => Host.Outcome.next (State.turnOver x)) (this.trans ?_)
  show s1.setGroup (setEntry (setEntry g2 k _) k _) = _
  rw [setEntry_setEntry, show (frameOf i h s g k).k = k from rfl, entry_setEntry _ _ hs.slot]

/-- A word that finishes with a group of its own. -/
theorem runWord_finish {s : State} {g g2 : Group} {k : Nat} (hs : Issuing s g k) (i : Instr) (h : Hdr) (body : Ctx → Issue)
    (hw : i.wellFormed = true) (hss : stepping g = false) (hid : g2.gid = g.gid) (he : entry g2 k = entry g k)
    (hb : body (frameOf i h s g k) = .done ((frameOf i h s g k).finish g2)) :
    runWord i h s body = .next (landed s g2 k ((entry g k).pc + 8)) :=
  runWord_done hs i h body hw hss hs.group hid he hb

/-- A scalar word that executes and changes its group to `f` of its frame. -/
theorem runScalarG_eq {s : State} {g : Group} {k : Nat} (hs : Issuing s g k) (i : Instr) (h : Hdr) (f : Ctx → Group)
    (hw : i.wellFormed = true) (hss : stepping g = false) (hx : executesIn g k h = true)
    (hid : (f (frameOf i h s g k)).gid = g.gid) (he : entry (f (frameOf i h s g k)) k = entry g k) :
    runScalarG i h s f = .next (landed s (f (frameOf i h s g k)) k ((entry g k).pc + 8)) := by
  unfold runScalarG runScalar
  refine runWord_finish hs i h _ hw hss hid he ?_
  have : (frameOf i h s g k).executes = true := hx
  simp only [this, if_true]

/-- A scalar or group-level word that does not execute only moves the PC (R28). -/
theorem runScalar_skip {s : State} {g : Group} {k : Nat} (hs : Issuing s g k) (i : Instr) (h : Hdr) (body : Ctx → Issue)
    (hw : i.wellFormed = true) (hss : stepping g = false) (hx : executesIn g k h = false) :
    runScalar i h s body = .next (landed s g k ((entry g k).pc + 8)) := by
  unfold runScalar
  refine runWord_finish hs i h _ hw hss rfl rfl ?_
  have : (frameOf i h s g k).executes = false := hx
  simp only [this]
  rfl

end Sys2Proof.Machine
end

