-- ==== Sys2Proof/Laws/Encoding.lean ====
section
/-! SUPPORT. Laws of the encoding: every field a word is written from is the field the decoder reads. -/

namespace Sys2Proof

/-- A field of the low part of a concatenation. -/
theorem field_app {n m : Nat} (a : BitVec n) (b : BitVec m) (lo len : Nat) (h : lo + len ≤ m) :
    (a ++ b).extractLsb' lo len = b.extractLsb' lo len := by
  apply BitVec.eq_of_getLsbD_eq
  intro i hi
  have : lo + i < m := by omega
  simp [BitVec.getLsbD_append, this, hi]

/-- A field of the high part of a concatenation. -/
theorem field_app_hi {n m : Nat} (a : BitVec n) (b : BitVec m) (lo len : Nat) (h : m ≤ lo) :
    (a ++ b).extractLsb' lo len = a.extractLsb' (lo - m) len := by
  apply BitVec.eq_of_getLsbD_eq
  intro i hi
  have h1 : ¬ lo + i < m := by omega
  have h2 : lo + i - m = lo - m + i := by omega
  simp [BitVec.getLsbD_append, h1, hi, h2]

/-- A bit of the low part of a concatenation. -/
theorem bit_app {n m : Nat} (a : BitVec n) (b : BitVec m) (i : Nat) (h : i < m) : (a ++ b).getLsbD i = b.getLsbD i := by
  simp [BitVec.getLsbD_append, h]
/-- A bit of the high part of a concatenation. -/
theorem bit_app_hi {n m : Nat} (a : BitVec n) (b : BitVec m) (i : Nat) (h : m ≤ i) : (a ++ b).getLsbD i = a.getLsbD (i - m) := by
  simp [BitVec.getLsbD_append, Nat.not_lt.mpr h]

/-- The whole of a word as a field. -/
theorem field_all {n : Nat} (a : BitVec n) : a.extractLsb' 0 n = a := by
  apply BitVec.eq_of_getLsbD_eq
  intro i hi
  simp [hi]

/-- The bit of a one-bit word. -/
theorem bit_ofBool (p : Bool) : (BitVec.ofBool p).getLsbD 0 = p := by cases p <;> rfl

/-- A field of the upper half of a word. -/
theorem upper_field (h : Hdr) (op : BitVec 8) (l : BitVec 32) (lo len : Nat) (hl : 32 ≤ lo) :
    BitVec.extractLsb' lo len (h.upper op ++ l : Dword) = (h.upper op).extractLsb' (lo - 32) len := field_app_hi _ _ _ _ hl

/-- The header read from a word is the header it was written from. -/
theorem hdrOf_upper (h : Hdr) (op : BitVec 8) (l : BitVec 32) : hdrOf h.form (h.upper op ++ l) = h := by
  obtain ⟨f, pg, pn, d, a⟩ := h
  have h_pg : BitVec.extractLsb' 51 3 ((Hdr.mk f pg pn d a).upper op ++ l : Dword) = pg :=
    (upper_field _ op l 51 3 (by decide)).trans ((field_app_hi (f.code ++ op ++ pg ++ BitVec.ofBool pn ++ d) (a) 19 3 (by decide)).trans ((field_app_hi (f.code ++ op ++ pg ++ BitVec.ofBool pn) (d) 10 3 (by decide)).trans ((field_app_hi (f.code ++ op ++ pg) (BitVec.ofBool pn) 1 3 (by decide)).trans ((field_app (f.code ++ op) (pg) 0 3 (by decide)).trans (field_all _)))))
  have h_pn : BitVec.getLsbD ((Hdr.mk f pg pn d a).upper op ++ l : Dword) 50 = pn :=
    (bit_app_hi ((Hdr.mk f pg pn d a).upper op) l 50 (by decide)).trans ((bit_app_hi (f.code ++ op ++ pg ++ BitVec.ofBool pn ++ d) a 18 (by decide)).trans ((bit_app_hi (f.code ++ op ++ pg ++ BitVec.ofBool pn) d 9 (by decide)).trans ((bit_app (f.code ++ op ++ pg) (BitVec.ofBool pn) 0 (by decide)).trans (bit_ofBool pn))))
  have h_d : BitVec.extractLsb' 41 9 ((Hdr.mk f pg pn d a).upper op ++ l : Dword) = d :=
    (upper_field _ op l 41 9 (by decide)).trans ((field_app_hi (f.code ++ op ++ pg ++ BitVec.ofBool pn ++ d) (a) 9 9 (by decide)).trans ((field_app (f.code ++ op ++ pg ++ BitVec.ofBool pn) (d) 0 9 (by decide)).trans (field_all _)))
  have h_a : BitVec.extractLsb' 32 9 ((Hdr.mk f pg pn d a).upper op ++ l : Dword) = a :=
    (upper_field _ op l 32 9 (by decide)).trans ((field_app (f.code ++ op ++ pg ++ BitVec.ofBool pn ++ d) (a) 0 9 (by decide)).trans (field_all _))
  simp only [hdrOf, h_pg, h_pn, h_d, h_a]

/-- Every field of the format is read from the bits it was written to. -/
theorem RR.ofWord_word (i : RR) (op : BitVec 8) : RR.ofWord i.form (i.word op) = i := by
  obtain ⟨h, b, c, z, e, k, m⟩ := i
  have hh : hdrOf h.form ((RR.mk h b c z e k m).word op) = h := hdrOf_upper h op _
  have h_b : BitVec.extractLsb' 23 9 ((RR.mk h b c z e k m).word op) = b :=
    (field_app (h.upper op) (b ++ c ++ z ++ e ++ k ++ m : BitVec 32) 23 9 (by decide)).trans ((field_app_hi (b ++ c ++ z ++ e ++ k) (m) 23 9 (by decide)).trans ((field_app_hi (b ++ c ++ z ++ e) (k) 17 9 (by decide)).trans ((field_app_hi (b ++ c ++ z) (e) 15 9 (by decide)).trans ((field_app_hi (b ++ c) (z) 12 9 (by decide)).trans ((field_app_hi (b) (c) 9 9 (by decide)).trans (field_all _))))))
  have h_c : BitVec.extractLsb' 14 9 ((RR.mk h b c z e k m).word op) = c :=
    (field_app (h.upper op) (b ++ c ++ z ++ e ++ k ++ m : BitVec 32) 14 9 (by decide)).trans ((field_app_hi (b ++ c ++ z ++ e ++ k) (m) 14 9 (by decide)).trans ((field_app_hi (b ++ c ++ z ++ e) (k) 8 9 (by decide)).trans ((field_app_hi (b ++ c ++ z) (e) 6 9 (by decide)).trans ((field_app_hi (b ++ c) (z) 3 9 (by decide)).trans ((field_app (b) (c) 0 9 (by decide)).trans (field_all _))))))
  have h_z : BitVec.extractLsb' 11 3 ((RR.mk h b c z e k m).word op) = z :=
    (field_app (h.upper op) (b ++ c ++ z ++ e ++ k ++ m : BitVec 32) 11 3 (by decide)).trans ((field_app_hi (b ++ c ++ z ++ e ++ k) (m) 11 3 (by decide)).trans ((field_app_hi (b ++ c ++ z ++ e) (k) 5 3 (by decide)).trans ((field_app_hi (b ++ c ++ z) (e) 3 3 (by decide)).trans ((field_app (b ++ c) (z) 0 3 (by decide)).trans (field_all _)))))
  have h_e : BitVec.extractLsb' 8 3 ((RR.mk h b c z e k m).word op) = e :=
    (field_app (h.upper op) (b ++ c ++ z ++ e ++ k ++ m : BitVec 32) 8 3 (by decide)).trans ((field_app_hi (b ++ c ++ z ++ e ++ k) (m) 8 3 (by decide)).trans ((field_app_hi (b ++ c ++ z ++ e) (k) 2 3 (by decide)).trans ((field_app (b ++ c ++ z) (e) 0 3 (by decide)).trans (field_all _))))
  have h_k : BitVec.extractLsb' 6 2 ((RR.mk h b c z e k m).word op) = k :=
    (field_app (h.upper op) (b ++ c ++ z ++ e ++ k ++ m : BitVec 32) 6 2 (by decide)).trans ((field_app_hi (b ++ c ++ z ++ e ++ k) (m) 6 2 (by decide)).trans ((field_app (b ++ c ++ z ++ e) (k) 0 2 (by decide)).trans (field_all _)))
  have h_m : BitVec.extractLsb' 0 6 ((RR.mk h b c z e k m).word op) = m :=
    (field_app (h.upper op) (b ++ c ++ z ++ e ++ k ++ m : BitVec 32) 0 6 (by decide)).trans ((field_app (b ++ c ++ z ++ e ++ k) (m) 0 6 (by decide)).trans (field_all _))
  simp only [RR.ofWord, hh, h_b, h_c, h_z, h_e, h_k, h_m]

/-- Every field of the format is read from the bits it was written to. -/
theorem RI.ofWord_word (i : RI) (op : BitVec 8) : RI.ofWord i.form (i.word op) = i := by
  obtain ⟨h, imm, z, e, k, m⟩ := i
  have hh : hdrOf h.form ((RI.mk h imm z e k m).word op) = h := hdrOf_upper h op _
  have h_imm : BitVec.extractLsb' 14 18 ((RI.mk h imm z e k m).word op) = imm :=
    (field_app (h.upper op) (imm ++ z ++ e ++ k ++ m : BitVec 32) 14 18 (by decide)).trans ((field_app_hi (imm ++ z ++ e ++ k) (m) 14 18 (by decide)).trans ((field_app_hi (imm ++ z ++ e) (k) 8 18 (by decide)).trans ((field_app_hi (imm ++ z) (e) 6 18 (by decide)).trans ((field_app_hi (imm) (z) 3 18 (by decide)).trans (field_all _)))))
  have h_z : BitVec.extractLsb' 11 3 ((RI.mk h imm z e k m).word op) = z :=
    (field_app (h.upper op) (imm ++ z ++ e ++ k ++ m : BitVec 32) 11 3 (by decide)).trans ((field_app_hi (imm ++ z ++ e ++ k) (m) 11 3 (by decide)).trans ((field_app_hi (imm ++ z ++ e) (k) 5 3 (by decide)).trans ((field_app_hi (imm ++ z) (e) 3 3 (by decide)).trans ((field_app (imm) (z) 0 3 (by decide)).trans (field_all _)))))
  have h_e : BitVec.extractLsb' 8 3 ((RI.mk h imm z e k m).word op) = e :=
    (field_app (h.upper op) (imm ++ z ++ e ++ k ++ m : BitVec 32) 8 3 (by decide)).trans ((field_app_hi (imm ++ z ++ e ++ k) (m) 8 3 (by decide)).trans ((field_app_hi (imm ++ z ++ e) (k) 2 3 (by decide)).trans ((field_app (imm ++ z) (e) 0 3 (by decide)).trans (field_all _))))
  have h_k : BitVec.extractLsb' 6 2 ((RI.mk h imm z e k m).word op) = k :=
    (field_app (h.upper op) (imm ++ z ++ e ++ k ++ m : BitVec 32) 6 2 (by decide)).trans ((field_app_hi (imm ++ z ++ e ++ k) (m) 6 2 (by decide)).trans ((field_app (imm ++ z ++ e) (k) 0 2 (by decide)).trans (field_all _)))
  have h_m : BitVec.extractLsb' 0 6 ((RI.mk h imm z e k m).word op) = m :=
    (field_app (h.upper op) (imm ++ z ++ e ++ k ++ m : BitVec 32) 0 6 (by decide)).trans ((field_app (imm ++ z ++ e ++ k) (m) 0 6 (by decide)).trans (field_all _))
  simp only [RI.ofWord, hh, h_imm, h_z, h_e, h_k, h_m]

/-- Every field of the format is read from the bits it was written to. -/
theorem PP.ofWord_word (i : PP) (op : BitVec 8) : PP.ofWord i.form (i.word op) = i := by
  obtain ⟨h, b, pa, pb, ct, z, e, k, m⟩ := i
  have hh : hdrOf h.form ((PP.mk h b pa pb ct z e k m).word op) = h := hdrOf_upper h op _
  have h_b : BitVec.extractLsb' 23 9 ((PP.mk h b pa pb ct z e k m).word op) = b :=
    (field_app (h.upper op) (b ++ pa ++ pb ++ ct ++ z ++ e ++ k ++ m : BitVec 32) 23 9 (by decide)).trans ((field_app_hi (b ++ pa ++ pb ++ ct ++ z ++ e ++ k) (m) 23 9 (by decide)).trans ((field_app_hi (b ++ pa ++ pb ++ ct ++ z ++ e) (k) 17 9 (by decide)).trans ((field_app_hi (b ++ pa ++ pb ++ ct ++ z) (e) 15 9 (by decide)).trans ((field_app_hi (b ++ pa ++ pb ++ ct) (z) 12 9 (by decide)).trans ((field_app_hi (b ++ pa ++ pb) (ct) 9 9 (by decide)).trans ((field_app_hi (b ++ pa) (pb) 6 9 (by decide)).trans ((field_app_hi (b) (pa) 3 9 (by decide)).trans (field_all _))))))))
  have h_pa : BitVec.extractLsb' 20 3 ((PP.mk h b pa pb ct z e k m).word op) = pa :=
    (field_app (h.upper op) (b ++ pa ++ pb ++ ct ++ z ++ e ++ k ++ m : BitVec 32) 20 3 (by decide)).trans ((field_app_hi (b ++ pa ++ pb ++ ct ++ z ++ e ++ k) (m) 20 3 (by decide)).trans ((field_app_hi (b ++ pa ++ pb ++ ct ++ z ++ e) (k) 14 3 (by decide)).trans ((field_app_hi (b ++ pa ++ pb ++ ct ++ z) (e) 12 3 (by decide)).trans ((field_app_hi (b ++ pa ++ pb ++ ct) (z) 9 3 (by decide)).trans ((field_app_hi (b ++ pa ++ pb) (ct) 6 3 (by decide)).trans ((field_app_hi (b ++ pa) (pb) 3 3 (by decide)).trans ((field_app (b) (pa) 0 3 (by decide)).trans (field_all _))))))))
  have h_pb : BitVec.extractLsb' 17 3 ((PP.mk h b pa pb ct z e k m).word op) = pb :=
    (field_app (h.upper op) (b ++ pa ++ pb ++ ct ++ z ++ e ++ k ++ m : BitVec 32) 17 3 (by decide)).trans ((field_app_hi (b ++ pa ++ pb ++ ct ++ z ++ e ++ k) (m) 17 3 (by decide)).trans ((field_app_hi (b ++ pa ++ pb ++ ct ++ z ++ e) (k) 11 3 (by decide)).trans ((field_app_hi (b ++ pa ++ pb ++ ct ++ z) (e) 9 3 (by decide)).trans ((field_app_hi (b ++ pa ++ pb ++ ct) (z) 6 3 (by decide)).trans ((field_app_hi (b ++ pa ++ pb) (ct) 3 3 (by decide)).trans ((field_app (b ++ pa) (pb) 0 3 (by decide)).trans (field_all _)))))))
  have h_ct : BitVec.extractLsb' 14 3 ((PP.mk h b pa pb ct z e k m).word op) = ct :=
    (field_app (h.upper op) (b ++ pa ++ pb ++ ct ++ z ++ e ++ k ++ m : BitVec 32) 14 3 (by decide)).trans ((field_app_hi (b ++ pa ++ pb ++ ct ++ z ++ e ++ k) (m) 14 3 (by decide)).trans ((field_app_hi (b ++ pa ++ pb ++ ct ++ z ++ e) (k) 8 3 (by decide)).trans ((field_app_hi (b ++ pa ++ pb ++ ct ++ z) (e) 6 3 (by decide)).trans ((field_app_hi (b ++ pa ++ pb ++ ct) (z) 3 3 (by decide)).trans ((field_app (b ++ pa ++ pb) (ct) 0 3 (by decide)).trans (field_all _))))))
  have h_z : BitVec.extractLsb' 11 3 ((PP.mk h b pa pb ct z e k m).word op) = z :=
    (field_app (h.upper op) (b ++ pa ++ pb ++ ct ++ z ++ e ++ k ++ m : BitVec 32) 11 3 (by decide)).trans ((field_app_hi (b ++ pa ++ pb ++ ct ++ z ++ e ++ k) (m) 11 3 (by decide)).trans ((field_app_hi (b ++ pa ++ pb ++ ct ++ z ++ e) (k) 5 3 (by decide)).trans ((field_app_hi (b ++ pa ++ pb ++ ct ++ z) (e) 3 3 (by decide)).trans ((field_app (b ++ pa ++ pb ++ ct) (z) 0 3 (by decide)).trans (field_all _)))))
  have h_e : BitVec.extractLsb' 8 3 ((PP.mk h b pa pb ct z e k m).word op) = e :=
    (field_app (h.upper op) (b ++ pa ++ pb ++ ct ++ z ++ e ++ k ++ m : BitVec 32) 8 3 (by decide)).trans ((field_app_hi (b ++ pa ++ pb ++ ct ++ z ++ e ++ k) (m) 8 3 (by decide)).trans ((field_app_hi (b ++ pa ++ pb ++ ct ++ z ++ e) (k) 2 3 (by decide)).trans ((field_app (b ++ pa ++ pb ++ ct ++ z) (e) 0 3 (by decide)).trans (field_all _))))
  have h_k : BitVec.extractLsb' 6 2 ((PP.mk h b pa pb ct z e k m).word op) = k :=
    (field_app (h.upper op) (b ++ pa ++ pb ++ ct ++ z ++ e ++ k ++ m : BitVec 32) 6 2 (by decide)).trans ((field_app_hi (b ++ pa ++ pb ++ ct ++ z ++ e ++ k) (m) 6 2 (by decide)).trans ((field_app (b ++ pa ++ pb ++ ct ++ z ++ e) (k) 0 2 (by decide)).trans (field_all _)))
  have h_m : BitVec.extractLsb' 0 6 ((PP.mk h b pa pb ct z e k m).word op) = m :=
    (field_app (h.upper op) (b ++ pa ++ pb ++ ct ++ z ++ e ++ k ++ m : BitVec 32) 0 6 (by decide)).trans ((field_app (b ++ pa ++ pb ++ ct ++ z ++ e ++ k) (m) 0 6 (by decide)).trans (field_all _))
  simp only [PP.ofWord, hh, h_b, h_pa, h_pb, h_ct, h_z, h_e, h_k, h_m]

/-- Every field of the format is read from the bits it was written to. -/
theorem WI.ofWord_word (i : WI) (op : BitVec 8) : WI.ofWord i.form (i.word op) = i := by
  obtain ⟨h, imm, mw⟩ := i
  have hh : hdrOf h.form ((WI.mk h imm mw).word op) = h := hdrOf_upper h op _
  have h_imm : BitVec.extractLsb' 5 27 ((WI.mk h imm mw).word op) = imm :=
    (field_app (h.upper op) (imm ++ mw : BitVec 32) 5 27 (by decide)).trans ((field_app_hi (imm) (mw) 5 27 (by decide)).trans (field_all _))
  have h_mw : BitVec.extractLsb' 0 5 ((WI.mk h imm mw).word op) = mw :=
    (field_app (h.upper op) (imm ++ mw : BitVec 32) 0 5 (by decide)).trans ((field_app (imm) (mw) 0 5 (by decide)).trans (field_all _))
  simp only [WI.ofWord, hh, h_imm, h_mw]

/-- Every field of the format is read from the bits it was written to. -/
theorem ML.ofWord_word (i : ML) (op : BitVec 8) : ML.ofWord i.form (i.word op) = i := by
  obtain ⟨h, ofs, tag, ordsc, mbz, e, k, m⟩ := i
  have hh : hdrOf h.form ((ML.mk h ofs tag ordsc mbz e k m).word op) = h := hdrOf_upper h op _
  have h_ofs : BitVec.extractLsb' 20 12 ((ML.mk h ofs tag ordsc mbz e k m).word op) = ofs :=
    (field_app (h.upper op) (ofs ++ tag ++ ordsc ++ mbz ++ e ++ k ++ m : BitVec 32) 20 12 (by decide)).trans ((field_app_hi (ofs ++ tag ++ ordsc ++ mbz ++ e ++ k) (m) 20 12 (by decide)).trans ((field_app_hi (ofs ++ tag ++ ordsc ++ mbz ++ e) (k) 14 12 (by decide)).trans ((field_app_hi (ofs ++ tag ++ ordsc ++ mbz) (e) 12 12 (by decide)).trans ((field_app_hi (ofs ++ tag ++ ordsc) (mbz) 9 12 (by decide)).trans ((field_app_hi (ofs ++ tag) (ordsc) 6 12 (by decide)).trans ((field_app_hi (ofs) (tag) 3 12 (by decide)).trans (field_all _)))))))
  have h_tag : BitVec.extractLsb' 17 3 ((ML.mk h ofs tag ordsc mbz e k m).word op) = tag :=
    (field_app (h.upper op) (ofs ++ tag ++ ordsc ++ mbz ++ e ++ k ++ m : BitVec 32) 17 3 (by decide)).trans ((field_app_hi (ofs ++ tag ++ ordsc ++ mbz ++ e ++ k) (m) 17 3 (by decide)).trans ((field_app_hi (ofs ++ tag ++ ordsc ++ mbz ++ e) (k) 11 3 (by decide)).trans ((field_app_hi (ofs ++ tag ++ ordsc ++ mbz) (e) 9 3 (by decide)).trans ((field_app_hi (ofs ++ tag ++ ordsc) (mbz) 6 3 (by decide)).trans ((field_app_hi (ofs ++ tag) (ordsc) 3 3 (by decide)).trans ((field_app (ofs) (tag) 0 3 (by decide)).trans (field_all _)))))))
  have h_ordsc : BitVec.extractLsb' 14 3 ((ML.mk h ofs tag ordsc mbz e k m).word op) = ordsc :=
    (field_app (h.upper op) (ofs ++ tag ++ ordsc ++ mbz ++ e ++ k ++ m : BitVec 32) 14 3 (by decide)).trans ((field_app_hi (ofs ++ tag ++ ordsc ++ mbz ++ e ++ k) (m) 14 3 (by decide)).trans ((field_app_hi (ofs ++ tag ++ ordsc ++ mbz ++ e) (k) 8 3 (by decide)).trans ((field_app_hi (ofs ++ tag ++ ordsc ++ mbz) (e) 6 3 (by decide)).trans ((field_app_hi (ofs ++ tag ++ ordsc) (mbz) 3 3 (by decide)).trans ((field_app (ofs ++ tag) (ordsc) 0 3 (by decide)).trans (field_all _))))))
  have h_mbz : BitVec.extractLsb' 11 3 ((ML.mk h ofs tag ordsc mbz e k m).word op) = mbz :=
    (field_app (h.upper op) (ofs ++ tag ++ ordsc ++ mbz ++ e ++ k ++ m : BitVec 32) 11 3 (by decide)).trans ((field_app_hi (ofs ++ tag ++ ordsc ++ mbz ++ e ++ k) (m) 11 3 (by decide)).trans ((field_app_hi (ofs ++ tag ++ ordsc ++ mbz ++ e) (k) 5 3 (by decide)).trans ((field_app_hi (ofs ++ tag ++ ordsc ++ mbz) (e) 3 3 (by decide)).trans ((field_app (ofs ++ tag ++ ordsc) (mbz) 0 3 (by decide)).trans (field_all _)))))
  have h_e : BitVec.extractLsb' 8 3 ((ML.mk h ofs tag ordsc mbz e k m).word op) = e :=
    (field_app (h.upper op) (ofs ++ tag ++ ordsc ++ mbz ++ e ++ k ++ m : BitVec 32) 8 3 (by decide)).trans ((field_app_hi (ofs ++ tag ++ ordsc ++ mbz ++ e ++ k) (m) 8 3 (by decide)).trans ((field_app_hi (ofs ++ tag ++ ordsc ++ mbz ++ e) (k) 2 3 (by decide)).trans ((field_app (ofs ++ tag ++ ordsc ++ mbz) (e) 0 3 (by decide)).trans (field_all _))))
  have h_k : BitVec.extractLsb' 6 2 ((ML.mk h ofs tag ordsc mbz e k m).word op) = k :=
    (field_app (h.upper op) (ofs ++ tag ++ ordsc ++ mbz ++ e ++ k ++ m : BitVec 32) 6 2 (by decide)).trans ((field_app_hi (ofs ++ tag ++ ordsc ++ mbz ++ e ++ k) (m) 6 2 (by decide)).trans ((field_app (ofs ++ tag ++ ordsc ++ mbz ++ e) (k) 0 2 (by decide)).trans (field_all _)))
  have h_m : BitVec.extractLsb' 0 6 ((ML.mk h ofs tag ordsc mbz e k m).word op) = m :=
    (field_app (h.upper op) (ofs ++ tag ++ ordsc ++ mbz ++ e ++ k ++ m : BitVec 32) 0 6 (by decide)).trans ((field_app (ofs ++ tag ++ ordsc ++ mbz ++ e ++ k) (m) 0 6 (by decide)).trans (field_all _))
  simp only [ML.ofWord, hh, h_ofs, h_tag, h_ordsc, h_mbz, h_e, h_k, h_m]

/-- Every field of the format is read from the bits it was written to. -/
theorem MS.ofWord_word (i : MS) (op : BitVec 8) : MS.ofWord i.form (i.word op) = i := by
  obtain ⟨h, b, ofs, ordsc, e, k, m⟩ := i
  have hh : hdrOf h.form ((MS.mk h b ofs ordsc e k m).word op) = h := hdrOf_upper h op _
  have h_b : BitVec.extractLsb' 23 9 ((MS.mk h b ofs ordsc e k m).word op) = b :=
    (field_app (h.upper op) (b ++ ofs ++ ordsc ++ e ++ k ++ m : BitVec 32) 23 9 (by decide)).trans ((field_app_hi (b ++ ofs ++ ordsc ++ e ++ k) (m) 23 9 (by decide)).trans ((field_app_hi (b ++ ofs ++ ordsc ++ e) (k) 17 9 (by decide)).trans ((field_app_hi (b ++ ofs ++ ordsc) (e) 15 9 (by decide)).trans ((field_app_hi (b ++ ofs) (ordsc) 12 9 (by decide)).trans ((field_app_hi (b) (ofs) 9 9 (by decide)).trans (field_all _))))))
  have h_ofs : BitVec.extractLsb' 14 9 ((MS.mk h b ofs ordsc e k m).word op) = ofs :=
    (field_app (h.upper op) (b ++ ofs ++ ordsc ++ e ++ k ++ m : BitVec 32) 14 9 (by decide)).trans ((field_app_hi (b ++ ofs ++ ordsc ++ e ++ k) (m) 14 9 (by decide)).trans ((field_app_hi (b ++ ofs ++ ordsc ++ e) (k) 8 9 (by decide)).trans ((field_app_hi (b ++ ofs ++ ordsc) (e) 6 9 (by decide)).trans ((field_app_hi (b ++ ofs) (ordsc) 3 9 (by decide)).trans ((field_app (b) (ofs) 0 9 (by decide)).trans (field_all _))))))
  have h_ordsc : BitVec.extractLsb' 11 3 ((MS.mk h b ofs ordsc e k m).word op) = ordsc :=
    (field_app (h.upper op) (b ++ ofs ++ ordsc ++ e ++ k ++ m : BitVec 32) 11 3 (by decide)).trans ((field_app_hi (b ++ ofs ++ ordsc ++ e ++ k) (m) 11 3 (by decide)).trans ((field_app_hi (b ++ ofs ++ ordsc ++ e) (k) 5 3 (by decide)).trans ((field_app_hi (b ++ ofs ++ ordsc) (e) 3 3 (by decide)).trans ((field_app (b ++ ofs) (ordsc) 0 3 (by decide)).trans (field_all _)))))
  have h_e : BitVec.extractLsb' 8 3 ((MS.mk h b ofs ordsc e k m).word op) = e :=
    (field_app (h.upper op) (b ++ ofs ++ ordsc ++ e ++ k ++ m : BitVec 32) 8 3 (by decide)).trans ((field_app_hi (b ++ ofs ++ ordsc ++ e ++ k) (m) 8 3 (by decide)).trans ((field_app_hi (b ++ ofs ++ ordsc ++ e) (k) 2 3 (by decide)).trans ((field_app (b ++ ofs ++ ordsc) (e) 0 3 (by decide)).trans (field_all _))))
  have h_k : BitVec.extractLsb' 6 2 ((MS.mk h b ofs ordsc e k m).word op) = k :=
    (field_app (h.upper op) (b ++ ofs ++ ordsc ++ e ++ k ++ m : BitVec 32) 6 2 (by decide)).trans ((field_app_hi (b ++ ofs ++ ordsc ++ e ++ k) (m) 6 2 (by decide)).trans ((field_app (b ++ ofs ++ ordsc ++ e) (k) 0 2 (by decide)).trans (field_all _)))
  have h_m : BitVec.extractLsb' 0 6 ((MS.mk h b ofs ordsc e k m).word op) = m :=
    (field_app (h.upper op) (b ++ ofs ++ ordsc ++ e ++ k ++ m : BitVec 32) 0 6 (by decide)).trans ((field_app (b ++ ofs ++ ordsc ++ e ++ k) (m) 0 6 (by decide)).trans (field_all _))
  simp only [MS.ofWord, hh, h_b, h_ofs, h_ordsc, h_e, h_k, h_m]

/-- Every field of the format is read from the bits it was written to. -/
theorem MA.ofWord_word (i : MA) (op : BitVec 8) : MA.ofWord i.form (i.word op) = i := by
  obtain ⟨h, b, c, sc, e, k, m⟩ := i
  have hh : hdrOf h.form ((MA.mk h b c sc e k m).word op) = h := hdrOf_upper h op _
  have h_b : BitVec.extractLsb' 23 9 ((MA.mk h b c sc e k m).word op) = b :=
    (field_app (h.upper op) (b ++ c ++ sc ++ e ++ k ++ m : BitVec 32) 23 9 (by decide)).trans ((field_app_hi (b ++ c ++ sc ++ e ++ k) (m) 23 9 (by decide)).trans ((field_app_hi (b ++ c ++ sc ++ e) (k) 17 9 (by decide)).trans ((field_app_hi (b ++ c ++ sc) (e) 15 9 (by decide)).trans ((field_app_hi (b ++ c) (sc) 12 9 (by decide)).trans ((field_app_hi (b) (c) 9 9 (by decide)).trans (field_all _))))))
  have h_c : BitVec.extractLsb' 14 9 ((MA.mk h b c sc e k m).word op) = c :=
    (field_app (h.upper op) (b ++ c ++ sc ++ e ++ k ++ m : BitVec 32) 14 9 (by decide)).trans ((field_app_hi (b ++ c ++ sc ++ e ++ k) (m) 14 9 (by decide)).trans ((field_app_hi (b ++ c ++ sc ++ e) (k) 8 9 (by decide)).trans ((field_app_hi (b ++ c ++ sc) (e) 6 9 (by decide)).trans ((field_app_hi (b ++ c) (sc) 3 9 (by decide)).trans ((field_app (b) (c) 0 9 (by decide)).trans (field_all _))))))
  have h_sc : BitVec.extractLsb' 11 3 ((MA.mk h b c sc e k m).word op) = sc :=
    (field_app (h.upper op) (b ++ c ++ sc ++ e ++ k ++ m : BitVec 32) 11 3 (by decide)).trans ((field_app_hi (b ++ c ++ sc ++ e ++ k) (m) 11 3 (by decide)).trans ((field_app_hi (b ++ c ++ sc ++ e) (k) 5 3 (by decide)).trans ((field_app_hi (b ++ c ++ sc) (e) 3 3 (by decide)).trans ((field_app (b ++ c) (sc) 0 3 (by decide)).trans (field_all _)))))
  have h_e : BitVec.extractLsb' 8 3 ((MA.mk h b c sc e k m).word op) = e :=
    (field_app (h.upper op) (b ++ c ++ sc ++ e ++ k ++ m : BitVec 32) 8 3 (by decide)).trans ((field_app_hi (b ++ c ++ sc ++ e ++ k) (m) 8 3 (by decide)).trans ((field_app_hi (b ++ c ++ sc ++ e) (k) 2 3 (by decide)).trans ((field_app (b ++ c ++ sc) (e) 0 3 (by decide)).trans (field_all _))))
  have h_k : BitVec.extractLsb' 6 2 ((MA.mk h b c sc e k m).word op) = k :=
    (field_app (h.upper op) (b ++ c ++ sc ++ e ++ k ++ m : BitVec 32) 6 2 (by decide)).trans ((field_app_hi (b ++ c ++ sc ++ e ++ k) (m) 6 2 (by decide)).trans ((field_app (b ++ c ++ sc ++ e) (k) 0 2 (by decide)).trans (field_all _)))
  have h_m : BitVec.extractLsb' 0 6 ((MA.mk h b c sc e k m).word op) = m :=
    (field_app (h.upper op) (b ++ c ++ sc ++ e ++ k ++ m : BitVec 32) 0 6 (by decide)).trans ((field_app (b ++ c ++ sc ++ e ++ k) (m) 0 6 (by decide)).trans (field_all _))
  simp only [MA.ofWord, hh, h_b, h_c, h_sc, h_e, h_k, h_m]

/-- FORM of its own code. -/
theorem Form.ofBits_code (f : Form) : Form.ofBits f.code = some f := by cases f <;> rfl

/-- The FORM bits of a written word. -/
theorem form_upper (h : Hdr) (op : BitVec 8) (l : BitVec 32) : BitVec.extractLsb' 62 2 (h.upper op ++ l : Dword) = h.form.code :=
  (upper_field h op l 62 2 (by decide)).trans ((field_app_hi (h.form.code ++ op ++ h.pg ++ BitVec.ofBool h.pn ++ h.d) (h.a) 30 2 (by decide)).trans ((field_app_hi (h.form.code ++ op ++ h.pg ++ BitVec.ofBool h.pn) (h.d) 21 2 (by decide)).trans ((field_app_hi (h.form.code ++ op ++ h.pg) (BitVec.ofBool h.pn) 12 2 (by decide)).trans ((field_app_hi (h.form.code ++ op) (h.pg) 11 2 (by decide)).trans ((field_app_hi (h.form.code) (op) 8 2 (by decide)).trans (field_all _))))))

/-- The opcode bits of a written word. -/
theorem opOf_upper (h : Hdr) (op : BitVec 8) (l : BitVec 32) : opOf (h.upper op ++ l : Dword) = op :=
  (upper_field h op l 54 8 (by decide)).trans ((field_app_hi (h.form.code ++ op ++ h.pg ++ BitVec.ofBool h.pn ++ h.d) (h.a) 22 8 (by decide)).trans ((field_app_hi (h.form.code ++ op ++ h.pg ++ BitVec.ofBool h.pn) (h.d) 13 8 (by decide)).trans ((field_app_hi (h.form.code ++ op ++ h.pg) (BitVec.ofBool h.pn) 4 8 (by decide)).trans ((field_app_hi (h.form.code ++ op) (h.pg) 3 8 (by decide)).trans ((field_app (h.form.code) (op) 0 8 (by decide)).trans (field_all _))))))

/-- The low opcode digit is a field of the opcode. -/
theorem opLo_eq (w : Dword) : (w.extractLsb' 54 4 : BitVec 4) = (opOf w).extractLsb' 0 4 := by
  apply BitVec.eq_of_getLsbD_eq
  intro i hi
  have : i < 8 := by omega
  simp [opOf, hi, this]

/-- The high opcode digit is a field of the opcode. -/
theorem opHi_eq (w : Dword) : (w.extractLsb' 58 4 : BitVec 4) = (opOf w).extractLsb' 4 4 := by
  apply BitVec.eq_of_getLsbD_eq
  intro i hi
  have : 4 + i < 8 := by omega
  have e : 54 + (4 + i) = 58 + i := by omega
  simp [opOf, hi, this, e]

/-- The row of the opcode map a word with opcode op is read from. -/
def rowAt (f : Form) (w : Dword) (op : BitVec 8) : Option Instr :=
  let lo := (op.extractLsb' 0 4 : BitVec 4).toNat
  match (op.extractLsb' 4 4 : BitVec 4).toNat with
  | 0 => row0 f w lo
  | 1 => row1 f w lo
  | 2 => row2 f w lo
  | 3 => row3 f w lo
  | 4 => row4 f w lo
  | 5 => row5 f w lo
  | 6 => row6 f w lo
  | 7 => row7 f w lo
  | 8 => row8 f w lo
  | 9 => row9 f w lo
  | 10 => rowA f w lo
  | 11 => rowB f w lo
  | 12 => rowC f w lo
  | 13 => rowD f w lo
  | 14 => rowE f w lo
  | 15 => rowF f w lo
  | _ => none

/-- Parsing looks at the opcode and then at one row. -/
theorem parse_upper (h : Hdr) (op : BitVec 8) (l : BitVec 32) (f : Form) : parse f (h.upper op ++ l) = rowAt f (h.upper op ++ l) op := by
  unfold parse rowAt
  rw [opLo_eq, opHi_eq, opOf_upper] <;> rfl

/-- A written word whose row gives a well-formed instruction decodes to it. -/
theorem decodeWord_upper (h : Hdr) (op : BitVec 8) (l : BitVec 32) (i : Instr)
    (hp : rowAt h.form (h.upper op ++ l) op = some i) (hw : i.wellFormed = true) : decodeWord (h.upper op ++ l) = .ok i := by
  unfold decodeWord
  rw [form_upper, Form.ofBits_code]
  simp only [parse_upper, hp, hw, if_true]

/-- The two bits that tell the instructions of a shared cell apart. -/
theorem RR.shared_bits (w : RR) (op : BitVec 8) : BitVec.extractLsb' 0 2 (w.word op) = w.m.extractLsb' 0 2 :=
  (field_app (w.upper op) (w.b ++ w.c ++ w.z ++ w.e ++ w.k ++ w.m : BitVec 32) 0 2 (by decide)).trans (field_app (w.b ++ w.c ++ w.z ++ w.e ++ w.k) w.m 0 2 (by decide))

/-- The two bits that tell the instructions of a shared cell apart. -/
theorem RI.shared_bits (w : RI) (op : BitVec 8) : BitVec.extractLsb' 0 2 (w.word op) = w.m.extractLsb' 0 2 :=
  (field_app (w.upper op) (w.imm ++ w.z ++ w.e ++ w.k ++ w.m : BitVec 32) 0 2 (by decide)).trans (field_app (w.imm ++ w.z ++ w.e ++ w.k) w.m 0 2 (by decide))

/-- The bit that tells `join` from its label form. -/
theorem RR.join_bit (w : RR) (op : BitVec 8) : BitVec.getLsbD (w.word op) 0 = w.m.getLsbD 0 :=
  (bit_app (w.upper op) (w.b ++ w.c ++ w.z ++ w.e ++ w.k ++ w.m : BitVec 32) 0 (by decide)).trans (bit_app (w.b ++ w.c ++ w.z ++ w.e ++ w.k) w.m 0 (by decide))

/-- The bit that tells `join` from its label form. -/
theorem WI.join_bit (w : WI) (op : BitVec 8) : BitVec.getLsbD (w.word op) 0 = w.mw.getLsbD 0 :=
  (bit_app (w.upper op) (w.imm ++ w.mw : BitVec 32) 0 (by decide)).trans (bit_app (w.imm) w.mw 0 (by decide))

end Sys2Proof
end

