-- ==== Sys2Proof/Laws/PerInstr.lean ====
section
/-! SUPPORT. One lemma per constructor: a well-formed instruction's word decodes to that instruction. -/

namespace Sys2Proof.Laws

/-- Every word the encoder gives for the instruction, when it is well formed, decodes to it. -/
def RoundTrip.Statement (i : Instr) : Prop := ∀ w : Dword, encode i = some w → i.wellFormed = true → decodeWord w = .ok i

theorem RoundTrip.bra (w : WI) : RoundTrip.Statement (.bra w) := fun _ h hw => by
  cases h
  exact decodeWord_upper w.toHdr 0x01 _ _ (congrArg (fun x => some (Instr.bra x)) (WI.ofWord_word w 0x01)) hw

theorem RoundTrip.brx (w : RR) : RoundTrip.Statement (.brx w) := fun _ h hw => by
  cases h
  exact decodeWord_upper w.toHdr 0x02 _ _ (congrArg (fun x => some (Instr.brx x)) (RR.ofWord_word w 0x02)) hw

theorem RoundTrip.call (w : WI) : RoundTrip.Statement (.call w) := fun _ h hw => by
  cases h
  exact decodeWord_upper w.toHdr 0x03 _ _ (congrArg (fun x => some (Instr.call x)) (WI.ofWord_word w 0x03)) hw

theorem RoundTrip.ret (w : RR) : RoundTrip.Statement (.ret w) := fun _ h hw => by
  cases h
  exact decodeWord_upper w.toHdr 0x04 _ _ (congrArg (fun x => some (Instr.ret x)) (RR.ofWord_word w 0x04)) hw

theorem RoundTrip.join (w : RR) : RoundTrip.Statement (.join w) := fun _ h hw => by
  cases h
  have hm : w.m = 0 := by have := hw; simp only [Instr.wellFormed, Legal.legal, Bool.and_eq_true, beq_iff_eq] at this; exact this.1.2
  refine decodeWord_upper w.toHdr 0x05 _ _ ?_ hw
  show (if BitVec.getLsbD (w.word 0x05) 0 then some (Instr.joinLabel (.ofWord w.form (w.word 0x05))) else some (Instr.join (.ofWord w.form (w.word 0x05)))) = _
  rw [RR.join_bit, hm]
  exact congrArg (fun x => some (Instr.join x)) (RR.ofWord_word w 0x05)

theorem RoundTrip.joinLabel (w : WI) : RoundTrip.Statement (.joinLabel w) := fun _ h hw => by
  cases h
  have hm : w.mw = 1 := by have := hw; simp only [Instr.wellFormed, Legal.legal, Bool.and_eq_true, beq_iff_eq] at this; exact this.1.2
  refine decodeWord_upper w.toHdr 0x05 _ _ ?_ hw
  show (if BitVec.getLsbD (w.word 0x05) 0 then some (Instr.joinLabel (.ofWord w.form (w.word 0x05))) else some (Instr.join (.ofWord w.form (w.word 0x05)))) = _
  rw [WI.join_bit, hm]
  exact congrArg (fun x => some (Instr.joinLabel x)) (WI.ofWord_word w 0x05)

theorem RoundTrip.exit (w : RR) : RoundTrip.Statement (.exit w) := fun _ h hw => by
  cases h
  exact decodeWord_upper w.toHdr 0x06 _ _ (congrArg (fun x => some (Instr.exit x)) (RR.ofWord_word w 0x06)) hw

theorem RoundTrip.yield (w : RR) : RoundTrip.Statement (.yield w) := fun _ h hw => by
  cases h
  exact decodeWord_upper w.toHdr 0x07 _ _ (congrArg (fun x => some (Instr.yield x)) (RR.ofWord_word w 0x07)) hw

theorem RoundTrip.trap (w : RI) : RoundTrip.Statement (.trap w) := fun _ h hw => by
  cases h
  exact decodeWord_upper w.toHdr 0x08 _ _ (congrArg (fun x => some (Instr.trap x)) (RI.ofWord_word w 0x08)) hw

theorem RoundTrip.sleep (w : RI) : RoundTrip.Statement (.sleep w) := fun _ h hw => by
  cases h
  exact decodeWord_upper w.toHdr 0x09 _ _ (congrArg (fun x => some (Instr.sleep x)) (RI.ofWord_word w 0x09)) hw

theorem RoundTrip.nop (w : RR) : RoundTrip.Statement (.nop w) := fun _ h hw => by
  cases h
  exact decodeWord_upper w.toHdr 0x0F _ _ (congrArg (fun x => some (Instr.nop x)) (RR.ofWord_word w 0x0F)) hw

theorem RoundTrip.cmp (w : PP) : RoundTrip.Statement (.cmp w) := fun _ h hw => by
  cases h
  exact decodeWord_upper w.toHdr 0x10 _ _ (congrArg (fun x => some (Instr.cmp x)) (PP.ofWord_word w 0x10)) hw

theorem RoundTrip.pand (w : RR) : RoundTrip.Statement (.pand w) := fun _ h hw => by
  cases h
  exact decodeWord_upper w.toHdr 0x11 _ _ (congrArg (fun x => some (Instr.pand x)) (RR.ofWord_word w 0x11)) hw

theorem RoundTrip.por (w : RR) : RoundTrip.Statement (.por w) := fun _ h hw => by
  cases h
  exact decodeWord_upper w.toHdr 0x12 _ _ (congrArg (fun x => some (Instr.por x)) (RR.ofWord_word w 0x12)) hw

theorem RoundTrip.pnot (w : RR) : RoundTrip.Statement (.pnot w) := fun _ h hw => by
  cases h
  exact decodeWord_upper w.toHdr 0x13 _ _ (congrArg (fun x => some (Instr.pnot x)) (RR.ofWord_word w 0x13)) hw

theorem RoundTrip.pmov (w : RR) : RoundTrip.Statement (.pmov w) := fun _ h hw => by
  cases h
  exact decodeWord_upper w.toHdr 0x14 _ _ (congrArg (fun x => some (Instr.pmov x)) (RR.ofWord_word w 0x14)) hw

theorem RoundTrip.vote (w : RR) : RoundTrip.Statement (.vote w) := fun _ h hw => by
  cases h
  exact decodeWord_upper w.toHdr 0x15 _ _ (congrArg (fun x => some (Instr.vote x)) (RR.ofWord_word w 0x15)) hw

theorem RoundTrip.iadd (w : RR) : RoundTrip.Statement (.iadd w) := fun _ h hw => by
  cases h
  exact decodeWord_upper w.toHdr 0x20 _ _ (congrArg (fun x => some (Instr.iadd x)) (RR.ofWord_word w 0x20)) hw

theorem RoundTrip.isub (w : RR) : RoundTrip.Statement (.isub w) := fun _ h hw => by
  cases h
  exact decodeWord_upper w.toHdr 0x21 _ _ (congrArg (fun x => some (Instr.isub x)) (RR.ofWord_word w 0x21)) hw

theorem RoundTrip.imul (w : RR) : RoundTrip.Statement (.imul w) := fun _ h hw => by
  cases h
  exact decodeWord_upper w.toHdr 0x22 _ _ (congrArg (fun x => some (Instr.imul x)) (RR.ofWord_word w 0x22)) hw

theorem RoundTrip.imad (w : RR) : RoundTrip.Statement (.imad w) := fun _ h hw => by
  cases h
  exact decodeWord_upper w.toHdr 0x23 _ _ (congrArg (fun x => some (Instr.imad x)) (RR.ofWord_word w 0x23)) hw

theorem RoundTrip.imadw (w : RR) : RoundTrip.Statement (.imadw w) := fun _ h hw => by
  cases h
  exact decodeWord_upper w.toHdr 0x24 _ _ (congrArg (fun x => some (Instr.imadw x)) (RR.ofWord_word w 0x24)) hw

theorem RoundTrip.min (w : RR) : RoundTrip.Statement (.min w) := fun _ h hw => by
  cases h
  exact decodeWord_upper w.toHdr 0x25 _ _ (congrArg (fun x => some (Instr.min x)) (RR.ofWord_word w 0x25)) hw

theorem RoundTrip.max (w : RR) : RoundTrip.Statement (.max w) := fun _ h hw => by
  cases h
  exact decodeWord_upper w.toHdr 0x26 _ _ (congrArg (fun x => some (Instr.max x)) (RR.ofWord_word w 0x26)) hw

theorem RoundTrip.and (w : RR) : RoundTrip.Statement (.and w) := fun _ h hw => by
  cases h
  have hm : w.m = 0 := by have := hw; simp only [Instr.wellFormed, Legal.legal, Bool.and_eq_true, beq_iff_eq] at this; exact this.2
  refine decodeWord_upper w.toHdr 0x27 _ _ ?_ hw
  show (match (BitVec.extractLsb' 0 2 (w.word 0x27) : BitVec 2).toNat with | 0 => some (Instr.and (.ofWord w.form (w.word 0x27))) | 1 => some (Instr.or (.ofWord w.form (w.word 0x27))) | 2 => some (Instr.xor (.ofWord w.form (w.word 0x27))) | _ => some (Instr.not (.ofWord w.form (w.word 0x27)))) = _
  rw [RR.shared_bits, hm]
  exact congrArg (fun x => some (Instr.and x)) (RR.ofWord_word w 0x27)

theorem RoundTrip.or (w : RR) : RoundTrip.Statement (.or w) := fun _ h hw => by
  cases h
  have hm : w.m = 1 := by have := hw; simp only [Instr.wellFormed, Legal.legal, Bool.and_eq_true, beq_iff_eq] at this; exact this.2
  refine decodeWord_upper w.toHdr 0x27 _ _ ?_ hw
  show (match (BitVec.extractLsb' 0 2 (w.word 0x27) : BitVec 2).toNat with | 0 => some (Instr.and (.ofWord w.form (w.word 0x27))) | 1 => some (Instr.or (.ofWord w.form (w.word 0x27))) | 2 => some (Instr.xor (.ofWord w.form (w.word 0x27))) | _ => some (Instr.not (.ofWord w.form (w.word 0x27)))) = _
  rw [RR.shared_bits, hm]
  exact congrArg (fun x => some (Instr.or x)) (RR.ofWord_word w 0x27)

theorem RoundTrip.xor (w : RR) : RoundTrip.Statement (.xor w) := fun _ h hw => by
  cases h
  have hm : w.m = 2 := by have := hw; simp only [Instr.wellFormed, Legal.legal, Bool.and_eq_true, beq_iff_eq] at this; exact this.2
  refine decodeWord_upper w.toHdr 0x27 _ _ ?_ hw
  show (match (BitVec.extractLsb' 0 2 (w.word 0x27) : BitVec 2).toNat with | 0 => some (Instr.and (.ofWord w.form (w.word 0x27))) | 1 => some (Instr.or (.ofWord w.form (w.word 0x27))) | 2 => some (Instr.xor (.ofWord w.form (w.word 0x27))) | _ => some (Instr.not (.ofWord w.form (w.word 0x27)))) = _
  rw [RR.shared_bits, hm]
  exact congrArg (fun x => some (Instr.xor x)) (RR.ofWord_word w 0x27)

theorem RoundTrip.not (w : RR) : RoundTrip.Statement (.not w) := fun _ h hw => by
  cases h
  have hm : w.m = 3 := by have := hw; simp only [Instr.wellFormed, Legal.legal, Bool.and_eq_true, beq_iff_eq] at this; exact this.2
  refine decodeWord_upper w.toHdr 0x27 _ _ ?_ hw
  show (match (BitVec.extractLsb' 0 2 (w.word 0x27) : BitVec 2).toNat with | 0 => some (Instr.and (.ofWord w.form (w.word 0x27))) | 1 => some (Instr.or (.ofWord w.form (w.word 0x27))) | 2 => some (Instr.xor (.ofWord w.form (w.word 0x27))) | _ => some (Instr.not (.ofWord w.form (w.word 0x27)))) = _
  rw [RR.shared_bits, hm]
  exact congrArg (fun x => some (Instr.not x)) (RR.ofWord_word w 0x27)

theorem RoundTrip.shl (w : RR) : RoundTrip.Statement (.shl w) := fun _ h hw => by
  cases h
  have hm : w.m = 0 := by have := hw; simp only [Instr.wellFormed, Legal.legal, Bool.and_eq_true, beq_iff_eq] at this; exact this.2
  refine decodeWord_upper w.toHdr 0x28 _ _ ?_ hw
  show (match (BitVec.extractLsb' 0 2 (w.word 0x28) : BitVec 2).toNat with | 0 => some (Instr.shl (.ofWord w.form (w.word 0x28))) | 1 => some (Instr.shr (.ofWord w.form (w.word 0x28))) | 2 => some (Instr.sar (.ofWord w.form (w.word 0x28))) | _ => none) = _
  rw [RR.shared_bits, hm]
  exact congrArg (fun x => some (Instr.shl x)) (RR.ofWord_word w 0x28)

theorem RoundTrip.shr (w : RR) : RoundTrip.Statement (.shr w) := fun _ h hw => by
  cases h
  have hm : w.m = 1 := by have := hw; simp only [Instr.wellFormed, Legal.legal, Bool.and_eq_true, beq_iff_eq] at this; exact this.2
  refine decodeWord_upper w.toHdr 0x28 _ _ ?_ hw
  show (match (BitVec.extractLsb' 0 2 (w.word 0x28) : BitVec 2).toNat with | 0 => some (Instr.shl (.ofWord w.form (w.word 0x28))) | 1 => some (Instr.shr (.ofWord w.form (w.word 0x28))) | 2 => some (Instr.sar (.ofWord w.form (w.word 0x28))) | _ => none) = _
  rw [RR.shared_bits, hm]
  exact congrArg (fun x => some (Instr.shr x)) (RR.ofWord_word w 0x28)

theorem RoundTrip.sar (w : RR) : RoundTrip.Statement (.sar w) := fun _ h hw => by
  cases h
  have hm : w.m = 2 := by have := hw; simp only [Instr.wellFormed, Legal.legal, Bool.and_eq_true, beq_iff_eq] at this; exact this.2
  refine decodeWord_upper w.toHdr 0x28 _ _ ?_ hw
  show (match (BitVec.extractLsb' 0 2 (w.word 0x28) : BitVec 2).toNat with | 0 => some (Instr.shl (.ofWord w.form (w.word 0x28))) | 1 => some (Instr.shr (.ofWord w.form (w.word 0x28))) | 2 => some (Instr.sar (.ofWord w.form (w.word 0x28))) | _ => none) = _
  rw [RR.shared_bits, hm]
  exact congrArg (fun x => some (Instr.sar x)) (RR.ofWord_word w 0x28)

theorem RoundTrip.clz (w : RR) : RoundTrip.Statement (.clz w) := fun _ h hw => by
  cases h
  exact decodeWord_upper w.toHdr 0x29 _ _ (congrArg (fun x => some (Instr.clz x)) (RR.ofWord_word w 0x29)) hw

theorem RoundTrip.popc (w : RR) : RoundTrip.Statement (.popc w) := fun _ h hw => by
  cases h
  exact decodeWord_upper w.toHdr 0x2A _ _ (congrArg (fun x => some (Instr.popc x)) (RR.ofWord_word w 0x2A)) hw

theorem RoundTrip.bfe (w : RR) : RoundTrip.Statement (.bfe w) := fun _ h hw => by
  cases h
  exact decodeWord_upper w.toHdr 0x2B _ _ (congrArg (fun x => some (Instr.bfe x)) (RR.ofWord_word w 0x2B)) hw

theorem RoundTrip.bfi (w : RR) : RoundTrip.Statement (.bfi w) := fun _ h hw => by
  cases h
  exact decodeWord_upper w.toHdr 0x2C _ _ (congrArg (fun x => some (Instr.bfi x)) (RR.ofWord_word w 0x2C)) hw

theorem RoundTrip.sel (w : RR) : RoundTrip.Statement (.sel w) := fun _ h hw => by
  cases h
  exact decodeWord_upper w.toHdr 0x2D _ _ (congrArg (fun x => some (Instr.sel x)) (RR.ofWord_word w 0x2D)) hw

theorem RoundTrip.mov (w : RR) : RoundTrip.Statement (.mov w) := fun _ h hw => by
  cases h
  exact decodeWord_upper w.toHdr 0x2E _ _ (congrArg (fun x => some (Instr.mov x)) (RR.ofWord_word w 0x2E)) hw

theorem RoundTrip.lea (w : RR) : RoundTrip.Statement (.lea w) := fun _ h hw => by
  cases h
  exact decodeWord_upper w.toHdr 0x2F _ _ (congrArg (fun x => some (Instr.lea x)) (RR.ofWord_word w 0x2F)) hw

theorem RoundTrip.leaImm (w : RI) : RoundTrip.Statement (.leaImm w) := fun _ h hw => by
  cases h
  exact decodeWord_upper w.toHdr 0x3C _ _ (congrArg (fun x => some (Instr.leaImm x)) (RI.ofWord_word w 0x3C)) hw

theorem RoundTrip.movi (w : WI) : RoundTrip.Statement (.movi w) := fun _ h hw => by
  cases h
  exact decodeWord_upper w.toHdr 0x30 _ _ (congrArg (fun x => some (Instr.movi x)) (WI.ofWord_word w 0x30)) hw

theorem RoundTrip.movr (w : RR) : RoundTrip.Statement (.movr w) := fun _ h hw => by
  cases h
  exact decodeWord_upper w.toHdr 0x31 _ _ (congrArg (fun x => some (Instr.movr x)) (RR.ofWord_word w 0x31)) hw

theorem RoundTrip.movw (w : RR) : RoundTrip.Statement (.movw w) := fun _ h hw => by
  cases h
  exact decodeWord_upper w.toHdr 0x32 _ _ (congrArg (fun x => some (Instr.movw x)) (RR.ofWord_word w 0x32)) hw

theorem RoundTrip.xset (w : RI) : RoundTrip.Statement (.xset w) := fun _ h hw => by
  cases h
  exact decodeWord_upper w.toHdr 0x33 _ _ (congrArg (fun x => some (Instr.xset x)) (RI.ofWord_word w 0x33)) hw

theorem RoundTrip.xadd (w : RI) : RoundTrip.Statement (.xadd w) := fun _ h hw => by
  cases h
  exact decodeWord_upper w.toHdr 0x34 _ _ (congrArg (fun x => some (Instr.xadd x)) (RI.ofWord_word w 0x34)) hw

theorem RoundTrip.xmov (w : RR) : RoundTrip.Statement (.xmov w) := fun _ h hw => by
  cases h
  exact decodeWord_upper w.toHdr 0x35 _ _ (congrArg (fun x => some (Instr.xmov x)) (RR.ofWord_word w 0x35)) hw

theorem RoundTrip.iaddImm (w : RI) : RoundTrip.Statement (.iaddImm w) := fun _ h hw => by
  cases h
  exact decodeWord_upper w.toHdr 0x36 _ _ (congrArg (fun x => some (Instr.iaddImm x)) (RI.ofWord_word w 0x36)) hw

theorem RoundTrip.imulImm (w : RI) : RoundTrip.Statement (.imulImm w) := fun _ h hw => by
  cases h
  exact decodeWord_upper w.toHdr 0x37 _ _ (congrArg (fun x => some (Instr.imulImm x)) (RI.ofWord_word w 0x37)) hw

theorem RoundTrip.andImm (w : RI) : RoundTrip.Statement (.andImm w) := fun _ h hw => by
  cases h
  have hm : w.m = 0 := by have := hw; simp only [Instr.wellFormed, Legal.legal, Bool.and_eq_true, beq_iff_eq] at this; exact this.2
  refine decodeWord_upper w.toHdr 0x38 _ _ ?_ hw
  show (match (BitVec.extractLsb' 0 2 (w.word 0x38) : BitVec 2).toNat with | 0 => some (Instr.andImm (.ofWord w.form (w.word 0x38))) | 1 => some (Instr.orImm (.ofWord w.form (w.word 0x38))) | 2 => some (Instr.xorImm (.ofWord w.form (w.word 0x38))) | _ => none) = _
  rw [RI.shared_bits, hm]
  exact congrArg (fun x => some (Instr.andImm x)) (RI.ofWord_word w 0x38)

theorem RoundTrip.orImm (w : RI) : RoundTrip.Statement (.orImm w) := fun _ h hw => by
  cases h
  have hm : w.m = 1 := by have := hw; simp only [Instr.wellFormed, Legal.legal, Bool.and_eq_true, beq_iff_eq] at this; exact this.2
  refine decodeWord_upper w.toHdr 0x38 _ _ ?_ hw
  show (match (BitVec.extractLsb' 0 2 (w.word 0x38) : BitVec 2).toNat with | 0 => some (Instr.andImm (.ofWord w.form (w.word 0x38))) | 1 => some (Instr.orImm (.ofWord w.form (w.word 0x38))) | 2 => some (Instr.xorImm (.ofWord w.form (w.word 0x38))) | _ => none) = _
  rw [RI.shared_bits, hm]
  exact congrArg (fun x => some (Instr.orImm x)) (RI.ofWord_word w 0x38)

theorem RoundTrip.xorImm (w : RI) : RoundTrip.Statement (.xorImm w) := fun _ h hw => by
  cases h
  have hm : w.m = 2 := by have := hw; simp only [Instr.wellFormed, Legal.legal, Bool.and_eq_true, beq_iff_eq] at this; exact this.2
  refine decodeWord_upper w.toHdr 0x38 _ _ ?_ hw
  show (match (BitVec.extractLsb' 0 2 (w.word 0x38) : BitVec 2).toNat with | 0 => some (Instr.andImm (.ofWord w.form (w.word 0x38))) | 1 => some (Instr.orImm (.ofWord w.form (w.word 0x38))) | 2 => some (Instr.xorImm (.ofWord w.form (w.word 0x38))) | _ => none) = _
  rw [RI.shared_bits, hm]
  exact congrArg (fun x => some (Instr.xorImm x)) (RI.ofWord_word w 0x38)

theorem RoundTrip.shlImm (w : RI) : RoundTrip.Statement (.shlImm w) := fun _ h hw => by
  cases h
  have hm : w.m = 0 := by have := hw; simp only [Instr.wellFormed, Legal.legal, Bool.and_eq_true, beq_iff_eq] at this; exact this.1.2
  refine decodeWord_upper w.toHdr 0x39 _ _ ?_ hw
  show (match (BitVec.extractLsb' 0 2 (w.word 0x39) : BitVec 2).toNat with | 0 => some (Instr.shlImm (.ofWord w.form (w.word 0x39))) | 1 => some (Instr.shrImm (.ofWord w.form (w.word 0x39))) | 2 => some (Instr.sarImm (.ofWord w.form (w.word 0x39))) | _ => none) = _
  rw [RI.shared_bits, hm]
  exact congrArg (fun x => some (Instr.shlImm x)) (RI.ofWord_word w 0x39)

theorem RoundTrip.shrImm (w : RI) : RoundTrip.Statement (.shrImm w) := fun _ h hw => by
  cases h
  have hm : w.m = 1 := by have := hw; simp only [Instr.wellFormed, Legal.legal, Bool.and_eq_true, beq_iff_eq] at this; exact this.1.2
  refine decodeWord_upper w.toHdr 0x39 _ _ ?_ hw
  show (match (BitVec.extractLsb' 0 2 (w.word 0x39) : BitVec 2).toNat with | 0 => some (Instr.shlImm (.ofWord w.form (w.word 0x39))) | 1 => some (Instr.shrImm (.ofWord w.form (w.word 0x39))) | 2 => some (Instr.sarImm (.ofWord w.form (w.word 0x39))) | _ => none) = _
  rw [RI.shared_bits, hm]
  exact congrArg (fun x => some (Instr.shrImm x)) (RI.ofWord_word w 0x39)

theorem RoundTrip.sarImm (w : RI) : RoundTrip.Statement (.sarImm w) := fun _ h hw => by
  cases h
  have hm : w.m = 2 := by have := hw; simp only [Instr.wellFormed, Legal.legal, Bool.and_eq_true, beq_iff_eq] at this; exact this.1.2
  refine decodeWord_upper w.toHdr 0x39 _ _ ?_ hw
  show (match (BitVec.extractLsb' 0 2 (w.word 0x39) : BitVec 2).toNat with | 0 => some (Instr.shlImm (.ofWord w.form (w.word 0x39))) | 1 => some (Instr.shrImm (.ofWord w.form (w.word 0x39))) | 2 => some (Instr.sarImm (.ofWord w.form (w.word 0x39))) | _ => none) = _
  rw [RI.shared_bits, hm]
  exact congrArg (fun x => some (Instr.sarImm x)) (RI.ofWord_word w 0x39)

theorem RoundTrip.minImm (w : RI) : RoundTrip.Statement (.minImm w) := fun _ h hw => by
  cases h
  exact decodeWord_upper w.toHdr 0x3A _ _ (congrArg (fun x => some (Instr.minImm x)) (RI.ofWord_word w 0x3A)) hw

theorem RoundTrip.maxImm (w : RI) : RoundTrip.Statement (.maxImm w) := fun _ h hw => by
  cases h
  exact decodeWord_upper w.toHdr 0x3B _ _ (congrArg (fun x => some (Instr.maxImm x)) (RI.ofWord_word w 0x3B)) hw

theorem RoundTrip.sadd (w : RR) : RoundTrip.Statement (.sadd w) := fun _ h hw => by
  cases h
  exact decodeWord_upper w.toHdr 0x40 _ _ (congrArg (fun x => some (Instr.sadd x)) (RR.ofWord_word w 0x40)) hw

theorem RoundTrip.ssub (w : RR) : RoundTrip.Statement (.ssub w) := fun _ h hw => by
  cases h
  exact decodeWord_upper w.toHdr 0x41 _ _ (congrArg (fun x => some (Instr.ssub x)) (RR.ofWord_word w 0x41)) hw

theorem RoundTrip.smul (w : RR) : RoundTrip.Statement (.smul w) := fun _ h hw => by
  cases h
  exact decodeWord_upper w.toHdr 0x42 _ _ (congrArg (fun x => some (Instr.smul x)) (RR.ofWord_word w 0x42)) hw

theorem RoundTrip.smad (w : RR) : RoundTrip.Statement (.smad w) := fun _ h hw => by
  cases h
  exact decodeWord_upper w.toHdr 0x43 _ _ (congrArg (fun x => some (Instr.smad x)) (RR.ofWord_word w 0x43)) hw

theorem RoundTrip.smin (w : RR) : RoundTrip.Statement (.smin w) := fun _ h hw => by
  cases h
  exact decodeWord_upper w.toHdr 0x44 _ _ (congrArg (fun x => some (Instr.smin x)) (RR.ofWord_word w 0x44)) hw

theorem RoundTrip.smax (w : RR) : RoundTrip.Statement (.smax w) := fun _ h hw => by
  cases h
  exact decodeWord_upper w.toHdr 0x45 _ _ (congrArg (fun x => some (Instr.smax x)) (RR.ofWord_word w 0x45)) hw

theorem RoundTrip.sand (w : RR) : RoundTrip.Statement (.sand w) := fun _ h hw => by
  cases h
  have hm : w.m = 0 := by have := hw; simp only [Instr.wellFormed, Legal.legal, Bool.and_eq_true, beq_iff_eq] at this; exact this.2
  refine decodeWord_upper w.toHdr 0x46 _ _ ?_ hw
  show (match (BitVec.extractLsb' 0 2 (w.word 0x46) : BitVec 2).toNat with | 0 => some (Instr.sand (.ofWord w.form (w.word 0x46))) | 1 => some (Instr.sor (.ofWord w.form (w.word 0x46))) | 2 => some (Instr.sxor (.ofWord w.form (w.word 0x46))) | _ => some (Instr.snot (.ofWord w.form (w.word 0x46)))) = _
  rw [RR.shared_bits, hm]
  exact congrArg (fun x => some (Instr.sand x)) (RR.ofWord_word w 0x46)

theorem RoundTrip.sor (w : RR) : RoundTrip.Statement (.sor w) := fun _ h hw => by
  cases h
  have hm : w.m = 1 := by have := hw; simp only [Instr.wellFormed, Legal.legal, Bool.and_eq_true, beq_iff_eq] at this; exact this.2
  refine decodeWord_upper w.toHdr 0x46 _ _ ?_ hw
  show (match (BitVec.extractLsb' 0 2 (w.word 0x46) : BitVec 2).toNat with | 0 => some (Instr.sand (.ofWord w.form (w.word 0x46))) | 1 => some (Instr.sor (.ofWord w.form (w.word 0x46))) | 2 => some (Instr.sxor (.ofWord w.form (w.word 0x46))) | _ => some (Instr.snot (.ofWord w.form (w.word 0x46)))) = _
  rw [RR.shared_bits, hm]
  exact congrArg (fun x => some (Instr.sor x)) (RR.ofWord_word w 0x46)

theorem RoundTrip.sxor (w : RR) : RoundTrip.Statement (.sxor w) := fun _ h hw => by
  cases h
  have hm : w.m = 2 := by have := hw; simp only [Instr.wellFormed, Legal.legal, Bool.and_eq_true, beq_iff_eq] at this; exact this.2
  refine decodeWord_upper w.toHdr 0x46 _ _ ?_ hw
  show (match (BitVec.extractLsb' 0 2 (w.word 0x46) : BitVec 2).toNat with | 0 => some (Instr.sand (.ofWord w.form (w.word 0x46))) | 1 => some (Instr.sor (.ofWord w.form (w.word 0x46))) | 2 => some (Instr.sxor (.ofWord w.form (w.word 0x46))) | _ => some (Instr.snot (.ofWord w.form (w.word 0x46)))) = _
  rw [RR.shared_bits, hm]
  exact congrArg (fun x => some (Instr.sxor x)) (RR.ofWord_word w 0x46)

theorem RoundTrip.snot (w : RR) : RoundTrip.Statement (.snot w) := fun _ h hw => by
  cases h
  have hm : w.m = 3 := by have := hw; simp only [Instr.wellFormed, Legal.legal, Bool.and_eq_true, beq_iff_eq] at this; exact this.2
  refine decodeWord_upper w.toHdr 0x46 _ _ ?_ hw
  show (match (BitVec.extractLsb' 0 2 (w.word 0x46) : BitVec 2).toNat with | 0 => some (Instr.sand (.ofWord w.form (w.word 0x46))) | 1 => some (Instr.sor (.ofWord w.form (w.word 0x46))) | 2 => some (Instr.sxor (.ofWord w.form (w.word 0x46))) | _ => some (Instr.snot (.ofWord w.form (w.word 0x46)))) = _
  rw [RR.shared_bits, hm]
  exact congrArg (fun x => some (Instr.snot x)) (RR.ofWord_word w 0x46)

theorem RoundTrip.sshl (w : RR) : RoundTrip.Statement (.sshl w) := fun _ h hw => by
  cases h
  have hm : w.m = 0 := by have := hw; simp only [Instr.wellFormed, Legal.legal, Bool.and_eq_true, beq_iff_eq] at this; exact this.2
  refine decodeWord_upper w.toHdr 0x47 _ _ ?_ hw
  show (match (BitVec.extractLsb' 0 2 (w.word 0x47) : BitVec 2).toNat with | 0 => some (Instr.sshl (.ofWord w.form (w.word 0x47))) | 1 => some (Instr.sshr (.ofWord w.form (w.word 0x47))) | 2 => some (Instr.ssar (.ofWord w.form (w.word 0x47))) | _ => none) = _
  rw [RR.shared_bits, hm]
  exact congrArg (fun x => some (Instr.sshl x)) (RR.ofWord_word w 0x47)

theorem RoundTrip.sshr (w : RR) : RoundTrip.Statement (.sshr w) := fun _ h hw => by
  cases h
  have hm : w.m = 1 := by have := hw; simp only [Instr.wellFormed, Legal.legal, Bool.and_eq_true, beq_iff_eq] at this; exact this.2
  refine decodeWord_upper w.toHdr 0x47 _ _ ?_ hw
  show (match (BitVec.extractLsb' 0 2 (w.word 0x47) : BitVec 2).toNat with | 0 => some (Instr.sshl (.ofWord w.form (w.word 0x47))) | 1 => some (Instr.sshr (.ofWord w.form (w.word 0x47))) | 2 => some (Instr.ssar (.ofWord w.form (w.word 0x47))) | _ => none) = _
  rw [RR.shared_bits, hm]
  exact congrArg (fun x => some (Instr.sshr x)) (RR.ofWord_word w 0x47)

theorem RoundTrip.ssar (w : RR) : RoundTrip.Statement (.ssar w) := fun _ h hw => by
  cases h
  have hm : w.m = 2 := by have := hw; simp only [Instr.wellFormed, Legal.legal, Bool.and_eq_true, beq_iff_eq] at this; exact this.2
  refine decodeWord_upper w.toHdr 0x47 _ _ ?_ hw
  show (match (BitVec.extractLsb' 0 2 (w.word 0x47) : BitVec 2).toNat with | 0 => some (Instr.sshl (.ofWord w.form (w.word 0x47))) | 1 => some (Instr.sshr (.ofWord w.form (w.word 0x47))) | 2 => some (Instr.ssar (.ofWord w.form (w.word 0x47))) | _ => none) = _
  rw [RR.shared_bits, hm]
  exact congrArg (fun x => some (Instr.ssar x)) (RR.ofWord_word w 0x47)

theorem RoundTrip.sclz (w : RR) : RoundTrip.Statement (.sclz w) := fun _ h hw => by
  cases h
  exact decodeWord_upper w.toHdr 0x48 _ _ (congrArg (fun x => some (Instr.sclz x)) (RR.ofWord_word w 0x48)) hw

theorem RoundTrip.spopc (w : RR) : RoundTrip.Statement (.spopc w) := fun _ h hw => by
  cases h
  exact decodeWord_upper w.toHdr 0x49 _ _ (congrArg (fun x => some (Instr.spopc x)) (RR.ofWord_word w 0x49)) hw

theorem RoundTrip.sbfe (w : RR) : RoundTrip.Statement (.sbfe w) := fun _ h hw => by
  cases h
  exact decodeWord_upper w.toHdr 0x4A _ _ (congrArg (fun x => some (Instr.sbfe x)) (RR.ofWord_word w 0x4A)) hw

theorem RoundTrip.sbfi (w : RR) : RoundTrip.Statement (.sbfi w) := fun _ h hw => by
  cases h
  exact decodeWord_upper w.toHdr 0x4B _ _ (congrArg (fun x => some (Instr.sbfi x)) (RR.ofWord_word w 0x4B)) hw

theorem RoundTrip.ssel (w : RR) : RoundTrip.Statement (.ssel w) := fun _ h hw => by
  cases h
  exact decodeWord_upper w.toHdr 0x4C _ _ (congrArg (fun x => some (Instr.ssel x)) (RR.ofWord_word w 0x4C)) hw

theorem RoundTrip.smov (w : RR) : RoundTrip.Statement (.smov w) := fun _ h hw => by
  cases h
  exact decodeWord_upper w.toHdr 0x4D _ _ (congrArg (fun x => some (Instr.smov x)) (RR.ofWord_word w 0x4D)) hw

theorem RoundTrip.smovi (w : WI) : RoundTrip.Statement (.smovi w) := fun _ h hw => by
  cases h
  exact decodeWord_upper w.toHdr 0x4E _ _ (congrArg (fun x => some (Instr.smovi x)) (WI.ofWord_word w 0x4E)) hw

theorem RoundTrip.scmp (w : RR) : RoundTrip.Statement (.scmp w) := fun _ h hw => by
  cases h
  exact decodeWord_upper w.toHdr 0x4F _ _ (congrArg (fun x => some (Instr.scmp x)) (RR.ofWord_word w 0x4F)) hw

theorem RoundTrip.fadd (w : RR) : RoundTrip.Statement (.fadd w) := fun _ h hw => by
  cases h
  exact decodeWord_upper w.toHdr 0x50 _ _ (congrArg (fun x => some (Instr.fadd x)) (RR.ofWord_word w 0x50)) hw

theorem RoundTrip.fsub (w : RR) : RoundTrip.Statement (.fsub w) := fun _ h hw => by
  cases h
  exact decodeWord_upper w.toHdr 0x51 _ _ (congrArg (fun x => some (Instr.fsub x)) (RR.ofWord_word w 0x51)) hw

theorem RoundTrip.fmul (w : RR) : RoundTrip.Statement (.fmul w) := fun _ h hw => by
  cases h
  exact decodeWord_upper w.toHdr 0x52 _ _ (congrArg (fun x => some (Instr.fmul x)) (RR.ofWord_word w 0x52)) hw

theorem RoundTrip.ffma (w : RR) : RoundTrip.Statement (.ffma w) := fun _ h hw => by
  cases h
  exact decodeWord_upper w.toHdr 0x53 _ _ (congrArg (fun x => some (Instr.ffma x)) (RR.ofWord_word w 0x53)) hw

theorem RoundTrip.fmin (w : RR) : RoundTrip.Statement (.fmin w) := fun _ h hw => by
  cases h
  exact decodeWord_upper w.toHdr 0x54 _ _ (congrArg (fun x => some (Instr.fmin x)) (RR.ofWord_word w 0x54)) hw

theorem RoundTrip.fmax (w : RR) : RoundTrip.Statement (.fmax w) := fun _ h hw => by
  cases h
  exact decodeWord_upper w.toHdr 0x55 _ _ (congrArg (fun x => some (Instr.fmax x)) (RR.ofWord_word w 0x55)) hw

theorem RoundTrip.frcp (w : RR) : RoundTrip.Statement (.frcp w) := fun _ h hw => by
  cases h
  exact decodeWord_upper w.toHdr 0x56 _ _ (congrArg (fun x => some (Instr.frcp x)) (RR.ofWord_word w 0x56)) hw

theorem RoundTrip.frsq (w : RR) : RoundTrip.Statement (.frsq w) := fun _ h hw => by
  cases h
  exact decodeWord_upper w.toHdr 0x57 _ _ (congrArg (fun x => some (Instr.frsq x)) (RR.ofWord_word w 0x57)) hw

theorem RoundTrip.fsqrt (w : RR) : RoundTrip.Statement (.fsqrt w) := fun _ h hw => by
  cases h
  exact decodeWord_upper w.toHdr 0x58 _ _ (congrArg (fun x => some (Instr.fsqrt x)) (RR.ofWord_word w 0x58)) hw

theorem RoundTrip.fexp2 (w : RR) : RoundTrip.Statement (.fexp2 w) := fun _ h hw => by
  cases h
  exact decodeWord_upper w.toHdr 0x59 _ _ (congrArg (fun x => some (Instr.fexp2 x)) (RR.ofWord_word w 0x59)) hw

theorem RoundTrip.flog2 (w : RR) : RoundTrip.Statement (.flog2 w) := fun _ h hw => by
  cases h
  exact decodeWord_upper w.toHdr 0x5A _ _ (congrArg (fun x => some (Instr.flog2 x)) (RR.ofWord_word w 0x5A)) hw

theorem RoundTrip.fsin (w : RR) : RoundTrip.Statement (.fsin w) := fun _ h hw => by
  cases h
  exact decodeWord_upper w.toHdr 0x5B _ _ (congrArg (fun x => some (Instr.fsin x)) (RR.ofWord_word w 0x5B)) hw

theorem RoundTrip.fcos (w : RR) : RoundTrip.Statement (.fcos w) := fun _ h hw => by
  cases h
  exact decodeWord_upper w.toHdr 0x5C _ _ (congrArg (fun x => some (Instr.fcos x)) (RR.ofWord_word w 0x5C)) hw

theorem RoundTrip.faddImm (w : RI) : RoundTrip.Statement (.faddImm w) := fun _ h hw => by
  cases h
  exact decodeWord_upper w.toHdr 0x60 _ _ (congrArg (fun x => some (Instr.faddImm x)) (RI.ofWord_word w 0x60)) hw

theorem RoundTrip.fmulImm (w : RI) : RoundTrip.Statement (.fmulImm w) := fun _ h hw => by
  cases h
  exact decodeWord_upper w.toHdr 0x61 _ _ (congrArg (fun x => some (Instr.fmulImm x)) (RI.ofWord_word w 0x61)) hw

theorem RoundTrip.fminImm (w : RI) : RoundTrip.Statement (.fminImm w) := fun _ h hw => by
  cases h
  exact decodeWord_upper w.toHdr 0x62 _ _ (congrArg (fun x => some (Instr.fminImm x)) (RI.ofWord_word w 0x62)) hw

theorem RoundTrip.fmaxImm (w : RI) : RoundTrip.Statement (.fmaxImm w) := fun _ h hw => by
  cases h
  exact decodeWord_upper w.toHdr 0x63 _ _ (congrArg (fun x => some (Instr.fmaxImm x)) (RI.ofWord_word w 0x63)) hw

theorem RoundTrip.hadd2 (w : RR) : RoundTrip.Statement (.hadd2 w) := fun _ h hw => by
  cases h
  exact decodeWord_upper w.toHdr 0x70 _ _ (congrArg (fun x => some (Instr.hadd2 x)) (RR.ofWord_word w 0x70)) hw

theorem RoundTrip.hmul2 (w : RR) : RoundTrip.Statement (.hmul2 w) := fun _ h hw => by
  cases h
  exact decodeWord_upper w.toHdr 0x71 _ _ (congrArg (fun x => some (Instr.hmul2 x)) (RR.ofWord_word w 0x71)) hw

theorem RoundTrip.hfma2 (w : RR) : RoundTrip.Statement (.hfma2 w) := fun _ h hw => by
  cases h
  exact decodeWord_upper w.toHdr 0x72 _ _ (congrArg (fun x => some (Instr.hfma2 x)) (RR.ofWord_word w 0x72)) hw

theorem RoundTrip.cvt (w : RR) : RoundTrip.Statement (.cvt w) := fun _ h hw => by
  cases h
  exact decodeWord_upper w.toHdr 0x73 _ _ (congrArg (fun x => some (Instr.cvt x)) (RR.ofWord_word w 0x73)) hw

theorem RoundTrip.qswap (w : RR) : RoundTrip.Statement (.qswap w) := fun _ h hw => by
  cases h
  exact decodeWord_upper w.toHdr 0x80 _ _ (congrArg (fun x => some (Instr.qswap x)) (RR.ofWord_word w 0x80)) hw

theorem RoundTrip.qbcast (w : RR) : RoundTrip.Statement (.qbcast w) := fun _ h hw => by
  cases h
  exact decodeWord_upper w.toHdr 0x81 _ _ (congrArg (fun x => some (Instr.qbcast x)) (RR.ofWord_word w 0x81)) hw

theorem RoundTrip.qred (w : RR) : RoundTrip.Statement (.qred w) := fun _ h hw => by
  cases h
  exact decodeWord_upper w.toHdr 0x82 _ _ (congrArg (fun x => some (Instr.qred x)) (RR.ofWord_word w 0x82)) hw

theorem RoundTrip.shfl (w : RR) : RoundTrip.Statement (.shfl w) := fun _ h hw => by
  cases h
  exact decodeWord_upper w.toHdr 0x83 _ _ (congrArg (fun x => some (Instr.shfl x)) (RR.ofWord_word w 0x83)) hw

theorem RoundTrip.xpair (w : RI) : RoundTrip.Statement (.xpair w) := fun _ h hw => by
  cases h
  exact decodeWord_upper w.toHdr 0x84 _ _ (congrArg (fun x => some (Instr.xpair x)) (RI.ofWord_word w 0x84)) hw

theorem RoundTrip.xshuf (w : RI) : RoundTrip.Statement (.xshuf w) := fun _ h hw => by
  cases h
  exact decodeWord_upper w.toHdr 0x85 _ _ (congrArg (fun x => some (Instr.xshuf x)) (RI.ofWord_word w 0x85)) hw

theorem RoundTrip.ldB8 (w : ML) : RoundTrip.Statement (.ldB8 w) := fun _ h hw => by
  cases h
  exact decodeWord_upper w.toHdr 0x90 _ _ (congrArg (fun x => some (Instr.ldB8 x)) (ML.ofWord_word w 0x90)) hw

theorem RoundTrip.ldS8 (w : ML) : RoundTrip.Statement (.ldS8 w) := fun _ h hw => by
  cases h
  exact decodeWord_upper w.toHdr 0x91 _ _ (congrArg (fun x => some (Instr.ldS8 x)) (ML.ofWord_word w 0x91)) hw

theorem RoundTrip.ldB16 (w : ML) : RoundTrip.Statement (.ldB16 w) := fun _ h hw => by
  cases h
  exact decodeWord_upper w.toHdr 0x92 _ _ (congrArg (fun x => some (Instr.ldB16 x)) (ML.ofWord_word w 0x92)) hw

theorem RoundTrip.ldS16 (w : ML) : RoundTrip.Statement (.ldS16 w) := fun _ h hw => by
  cases h
  exact decodeWord_upper w.toHdr 0x93 _ _ (congrArg (fun x => some (Instr.ldS16 x)) (ML.ofWord_word w 0x93)) hw

theorem RoundTrip.ld (w : ML) : RoundTrip.Statement (.ld w) := fun _ h hw => by
  cases h
  exact decodeWord_upper w.toHdr 0x94 _ _ (congrArg (fun x => some (Instr.ld x)) (ML.ofWord_word w 0x94)) hw

theorem RoundTrip.ldB64 (w : ML) : RoundTrip.Statement (.ldB64 w) := fun _ h hw => by
  cases h
  exact decodeWord_upper w.toHdr 0x95 _ _ (congrArg (fun x => some (Instr.ldB64 x)) (ML.ofWord_word w 0x95)) hw

theorem RoundTrip.ldB128 (w : ML) : RoundTrip.Statement (.ldB128 w) := fun _ h hw => by
  cases h
  exact decodeWord_upper w.toHdr 0x96 _ _ (congrArg (fun x => some (Instr.ldB128 x)) (ML.ofWord_word w 0x96)) hw

theorem RoundTrip.stB8 (w : MS) : RoundTrip.Statement (.stB8 w) := fun _ h hw => by
  cases h
  exact decodeWord_upper w.toHdr 0x98 _ _ (congrArg (fun x => some (Instr.stB8 x)) (MS.ofWord_word w 0x98)) hw

theorem RoundTrip.stB16 (w : MS) : RoundTrip.Statement (.stB16 w) := fun _ h hw => by
  cases h
  exact decodeWord_upper w.toHdr 0x99 _ _ (congrArg (fun x => some (Instr.stB16 x)) (MS.ofWord_word w 0x99)) hw

theorem RoundTrip.st (w : MS) : RoundTrip.Statement (.st w) := fun _ h hw => by
  cases h
  exact decodeWord_upper w.toHdr 0x9A _ _ (congrArg (fun x => some (Instr.st x)) (MS.ofWord_word w 0x9A)) hw

theorem RoundTrip.stB64 (w : MS) : RoundTrip.Statement (.stB64 w) := fun _ h hw => by
  cases h
  exact decodeWord_upper w.toHdr 0x9B _ _ (congrArg (fun x => some (Instr.stB64 x)) (MS.ofWord_word w 0x9B)) hw

theorem RoundTrip.stB128 (w : MS) : RoundTrip.Statement (.stB128 w) := fun _ h hw => by
  cases h
  exact decodeWord_upper w.toHdr 0x9C _ _ (congrArg (fun x => some (Instr.stB128 x)) (MS.ofWord_word w 0x9C)) hw

theorem RoundTrip.ald (w : MS) : RoundTrip.Statement (.ald w) := fun _ h hw => by
  cases h
  exact decodeWord_upper w.toHdr 0xA0 _ _ (congrArg (fun x => some (Instr.ald x)) (MS.ofWord_word w 0xA0)) hw

theorem RoundTrip.ast (w : MS) : RoundTrip.Statement (.ast w) := fun _ h hw => by
  cases h
  exact decodeWord_upper w.toHdr 0xA1 _ _ (congrArg (fun x => some (Instr.ast x)) (MS.ofWord_word w 0xA1)) hw

theorem RoundTrip.pf (w : ML) : RoundTrip.Statement (.pf w) := fun _ h hw => by
  cases h
  exact decodeWord_upper w.toHdr 0xA2 _ _ (congrArg (fun x => some (Instr.pf x)) (ML.ofWord_word w 0xA2)) hw

theorem RoundTrip.seal (w : RR) : RoundTrip.Statement (.seal w) := fun _ h hw => by
  cases h
  exact decodeWord_upper w.toHdr 0xA3 _ _ (congrArg (fun x => some (Instr.seal x)) (RR.ofWord_word w 0xA3)) hw

theorem RoundTrip.waitc (w : RR) : RoundTrip.Statement (.waitc w) := fun _ h hw => by
  cases h
  exact decodeWord_upper w.toHdr 0xA4 _ _ (congrArg (fun x => some (Instr.waitc x)) (RR.ofWord_word w 0xA4)) hw

theorem RoundTrip.atom (w : MA) : RoundTrip.Statement (.atom w) := fun _ h hw => by
  cases h
  exact decodeWord_upper w.toHdr 0xB0 _ _ (congrArg (fun x => some (Instr.atom x)) (MA.ofWord_word w 0xB0)) hw

theorem RoundTrip.cas (w : MA) : RoundTrip.Statement (.cas w) := fun _ h hw => by
  cases h
  exact decodeWord_upper w.toHdr 0xB1 _ _ (congrArg (fun x => some (Instr.cas x)) (MA.ofWord_word w 0xB1)) hw

theorem RoundTrip.red (w : MA) : RoundTrip.Statement (.red w) := fun _ h hw => by
  cases h
  exact decodeWord_upper w.toHdr 0xB2 _ _ (congrArg (fun x => some (Instr.red x)) (MA.ofWord_word w 0xB2)) hw

theorem RoundTrip.wpush (w : MA) : RoundTrip.Statement (.wpush w) := fun _ h hw => by
  cases h
  exact decodeWord_upper w.toHdr 0xB3 _ _ (congrArg (fun x => some (Instr.wpush x)) (MA.ofWord_word w 0xB3)) hw

theorem RoundTrip.wpop (w : MA) : RoundTrip.Statement (.wpop w) := fun _ h hw => by
  cases h
  exact decodeWord_upper w.toHdr 0xB4 _ _ (congrArg (fun x => some (Instr.wpop x)) (MA.ofWord_word w 0xB4)) hw

theorem RoundTrip.cis (w : MA) : RoundTrip.Statement (.cis w) := fun _ h hw => by
  cases h
  exact decodeWord_upper w.toHdr 0xB5 _ _ (congrArg (fun x => some (Instr.cis x)) (MA.ofWord_word w 0xB5)) hw

theorem RoundTrip.fence (w : RR) : RoundTrip.Statement (.fence w) := fun _ h hw => by
  cases h
  exact decodeWord_upper w.toHdr 0xC0 _ _ (congrArg (fun x => some (Instr.fence x)) (RR.ofWord_word w 0xC0)) hw

theorem RoundTrip.bar (w : RI) : RoundTrip.Statement (.bar w) := fun _ h hw => by
  cases h
  exact decodeWord_upper w.toHdr 0xC1 _ _ (congrArg (fun x => some (Instr.bar x)) (RI.ofWord_word w 0xC1)) hw

theorem RoundTrip.tbar (w : MA) : RoundTrip.Statement (.tbar w) := fun _ h hw => by
  cases h
  exact decodeWord_upper w.toHdr 0xC2 _ _ (congrArg (fun x => some (Instr.tbar x)) (MA.ofWord_word w 0xC2)) hw

theorem RoundTrip.mwait (w : MA) : RoundTrip.Statement (.mwait w) := fun _ h hw => by
  cases h
  exact decodeWord_upper w.toHdr 0xC3 _ _ (congrArg (fun x => some (Instr.mwait x)) (MA.ofWord_word w 0xC3)) hw

theorem RoundTrip.waitm (w : RR) : RoundTrip.Statement (.waitm w) := fun _ h hw => by
  cases h
  exact decodeWord_upper w.toHdr 0xC4 _ _ (congrArg (fun x => some (Instr.waitm x)) (RR.ofWord_word w 0xC4)) hw

theorem RoundTrip.getm (w : RR) : RoundTrip.Statement (.getm w) := fun _ h hw => by
  cases h
  exact decodeWord_upper w.toHdr 0xC5 _ _ (congrArg (fun x => some (Instr.getm x)) (RR.ofWord_word w 0xC5)) hw

theorem RoundTrip.step (w : RI) : RoundTrip.Statement (.step w) := fun _ h hw => by
  cases h
  exact decodeWord_upper w.toHdr 0xC6 _ _ (congrArg (fun x => some (Instr.step x)) (RI.ofWord_word w 0xC6)) hw

theorem RoundTrip.gangset (w : RR) : RoundTrip.Statement (.gangset w) := fun _ h hw => by
  cases h
  exact decodeWord_upper w.toHdr 0xD0 _ _ (congrArg (fun x => some (Instr.gangset x)) (RR.ofWord_word w 0xD0)) hw

theorem RoundTrip.opfence (w : RR) : RoundTrip.Statement (.opfence w) := fun _ h hw => by
  cases h
  exact decodeWord_upper w.toHdr 0xD1 _ _ (congrArg (fun x => some (Instr.opfence x)) (RR.ofWord_word w 0xD1)) hw

theorem RoundTrip.mma (w : RR) : RoundTrip.Statement (.mma w) := fun _ h hw => by
  cases h
  exact decodeWord_upper w.toHdr 0xD2 _ _ (congrArg (fun x => some (Instr.mma x)) (RR.ofWord_word w 0xD2)) hw

theorem RoundTrip.mmwait (w : RR) : RoundTrip.Statement (.mmwait w) := fun _ h hw => by
  cases h
  exact decodeWord_upper w.toHdr 0xD3 _ _ (congrArg (fun x => some (Instr.mmwait x)) (RR.ofWord_word w 0xD3)) hw

theorem RoundTrip.tld (w : RR) : RoundTrip.Statement (.tld w) := fun _ h hw => by
  cases h
  exact decodeWord_upper w.toHdr 0xD4 _ _ (congrArg (fun x => some (Instr.tld x)) (RR.ofWord_word w 0xD4)) hw

theorem RoundTrip.tst (w : RR) : RoundTrip.Statement (.tst w) := fun _ h hw => by
  cases h
  exact decodeWord_upper w.toHdr 0xD5 _ _ (congrArg (fun x => some (Instr.tst x)) (RR.ofWord_word w 0xD5)) hw

theorem RoundTrip.tzero (w : RR) : RoundTrip.Statement (.tzero w) := fun _ h hw => by
  cases h
  exact decodeWord_upper w.toHdr 0xD6 _ _ (congrArg (fun x => some (Instr.tzero x)) (RR.ofWord_word w 0xD6)) hw

theorem RoundTrip.trav (w : RR) : RoundTrip.Statement (.trav w) := fun _ h hw => by
  cases h
  exact decodeWord_upper w.toHdr 0xE0 _ _ (congrArg (fun x => some (Instr.trav x)) (RR.ofWord_word w 0xE0)) hw

theorem RoundTrip.rcfence (w : RR) : RoundTrip.Statement (.rcfence w) := fun _ h hw => by
  cases h
  exact decodeWord_upper w.toHdr 0xE1 _ _ (congrArg (fun x => some (Instr.rcfence x)) (RR.ofWord_word w 0xE1)) hw

theorem RoundTrip.xchain (w : RR) : RoundTrip.Statement (.xchain w) := fun _ h hw => by
  cases h
  exact decodeWord_upper w.toHdr 0xE2 _ _ (congrArg (fun x => some (Instr.xchain x)) (RR.ofWord_word w 0xE2)) hw

theorem RoundTrip.qsub (w : RR) : RoundTrip.Statement (.qsub w) := fun _ h hw => by
  cases h
  exact decodeWord_upper w.toHdr 0xE3 _ _ (congrArg (fun x => some (Instr.qsub x)) (RR.ofWord_word w 0xE3)) hw

theorem RoundTrip.slset (w : RI) : RoundTrip.Statement (.slset w) := fun _ h hw => by
  cases h
  exact decodeWord_upper w.toHdr 0xE4 _ _ (congrArg (fun x => some (Instr.slset x)) (RI.ofWord_word w 0xE4)) hw

theorem RoundTrip.slpulse (w : RI) : RoundTrip.Statement (.slpulse w) := fun _ h hw => by
  cases h
  exact decodeWord_upper w.toHdr 0xE5 _ _ (congrArg (fun x => some (Instr.slpulse x)) (RI.ofWord_word w 0xE5)) hw

theorem RoundTrip.slwait (w : RI) : RoundTrip.Statement (.slwait w) := fun _ h hw => by
  cases h
  exact decodeWord_upper w.toHdr 0xE6 _ _ (congrArg (fun x => some (Instr.slwait x)) (RI.ofWord_word w 0xE6)) hw

theorem RoundTrip.getsr (w : RI) : RoundTrip.Statement (.getsr w) := fun _ h hw => by
  cases h
  exact decodeWord_upper w.toHdr 0xF0 _ _ (congrArg (fun x => some (Instr.getsr x)) (RI.ofWord_word w 0xF0)) hw

theorem RoundTrip.setsr (w : RI) : RoundTrip.Statement (.setsr w) := fun _ h hw => by
  cases h
  exact decodeWord_upper w.toHdr 0xF1 _ _ (congrArg (fun x => some (Instr.setsr x)) (RI.ofWord_word w 0xF1)) hw

theorem RoundTrip.rolesw (w : RI) : RoundTrip.Statement (.rolesw w) := fun _ h hw => by
  cases h
  exact decodeWord_upper w.toHdr 0xF2 _ _ (congrArg (fun x => some (Instr.rolesw x)) (RI.ofWord_word w 0xF2)) hw

theorem RoundTrip.sitearm (w : RR) : RoundTrip.Statement (.sitearm w) := fun _ h hw => by
  cases h
  exact decodeWord_upper w.toHdr 0xF3 _ _ (congrArg (fun x => some (Instr.sitearm x)) (RR.ofWord_word w 0xF3)) hw

theorem RoundTrip.bkpt (w : RI) : RoundTrip.Statement (.bkpt w) := fun _ h hw => by
  cases h
  exact decodeWord_upper w.toHdr 0xF4 _ _ (congrArg (fun x => some (Instr.bkpt x)) (RI.ofWord_word w 0xF4)) hw

theorem RoundTrip.dbgmb (w : RR) : RoundTrip.Statement (.dbgmb w) := fun _ h hw => by
  cases h
  exact decodeWord_upper w.toHdr 0xF5 _ _ (congrArg (fun x => some (Instr.dbgmb x)) (RR.ofWord_word w 0xF5)) hw

theorem RoundTrip.haltg (w : RR) : RoundTrip.Statement (.haltg w) := fun _ h hw => by
  cases h
  exact decodeWord_upper w.toHdr 0xF6 _ _ (congrArg (fun x => some (Instr.haltg x)) (RR.ofWord_word w 0xF6)) hw

theorem RoundTrip.stepg (w : RR) : RoundTrip.Statement (.stepg w) := fun _ h hw => by
  cases h
  exact decodeWord_upper w.toHdr 0xF7 _ _ (congrArg (fun x => some (Instr.stepg x)) (RR.ofWord_word w 0xF7)) hw

theorem RoundTrip.watchset (w : RR) : RoundTrip.Statement (.watchset w) := fun _ h hw => by
  cases h
  exact decodeWord_upper w.toHdr 0xF8 _ _ (congrArg (fun x => some (Instr.watchset x)) (RR.ofWord_word w 0xF8)) hw

theorem RoundTrip.eret (w : RR) : RoundTrip.Statement (.eret w) := fun _ h hw => by
  cases h
  exact decodeWord_upper w.toHdr 0xF9 _ _ (congrArg (fun x => some (Instr.eret x)) (RR.ofWord_word w 0xF9)) hw

theorem RoundTrip.cwb (w : ML) : RoundTrip.Statement (.cwb w) := fun _ h hw => by
  cases h
  exact decodeWord_upper w.toHdr 0xFA _ _ (congrArg (fun x => some (Instr.cwb x)) (ML.ofWord_word w 0xFA)) hw

theorem RoundTrip.cinv (w : ML) : RoundTrip.Statement (.cinv w) := fun _ h hw => by
  cases h
  exact decodeWord_upper w.toHdr 0xFB _ _ (congrArg (fun x => some (Instr.cinv x)) (ML.ofWord_word w 0xFB)) hw

theorem RoundTrip.weirPortArrival (id : Nat) : RoundTrip.Statement (.weirPortArrival id) := fun _ h => by cases h

theorem RoundTrip.weirWindowExpiry (id : Nat) : RoundTrip.Statement (.weirWindowExpiry id) := fun _ h => by cases h

theorem RoundTrip.weirHomeExecute (id : Nat) : RoundTrip.Statement (.weirHomeExecute id) := fun _ h => by cases h

theorem RoundTrip.cisBankOperation (id : Nat) : RoundTrip.Statement (.cisBankOperation id) := fun _ h => by cases h

theorem RoundTrip.monitorMatch (id : Nat) : RoundTrip.Statement (.monitorMatch id) := fun _ h => by cases h

theorem RoundTrip.travCommandBegin (id : Nat) : RoundTrip.Statement (.travCommandBegin id) := fun _ h => by cases h

theorem RoundTrip.travCommandPerformed (id : Nat) : RoundTrip.Statement (.travCommandPerformed id) := fun _ h => by cases h

theorem RoundTrip.returnLands (id : Nat) : RoundTrip.Statement (.returnLands id) := fun _ h => by cases h

theorem RoundTrip.cisReturn (id : Nat) : RoundTrip.Statement (.cisReturn id) := fun _ h => by cases h

theorem RoundTrip.asyncCopyPerformed (id : Nat) : RoundTrip.Statement (.asyncCopyPerformed id) := fun _ h => by cases h

theorem RoundTrip.probeArrival (id : Nat) : RoundTrip.Statement (.probeArrival id) := fun _ h => by cases h

theorem RoundTrip.fillArrival (id : Nat) : RoundTrip.Statement (.fillArrival id) := fun _ h => by cases h

theorem RoundTrip.homeRequest (id : Nat) : RoundTrip.Statement (.homeRequest id) := fun _ h => by cases h

theorem RoundTrip.atomicAtHome (id : Nat) : RoundTrip.Statement (.atomicAtHome id) := fun _ h => by cases h

theorem RoundTrip.uLineEviction (id : Nat) : RoundTrip.Statement (.uLineEviction id) := fun _ h => by cases h

theorem RoundTrip.siteStepQuicken (id : Nat) : RoundTrip.Statement (.siteStepQuicken id) := fun _ h => by cases h

theorem RoundTrip.siteStepWiden (id : Nat) : RoundTrip.Statement (.siteStepWiden id) := fun _ h => by cases h

theorem RoundTrip.scratchpadAccess (id : Nat) : RoundTrip.Statement (.scratchpadAccess id) := fun _ h => by cases h

theorem RoundTrip.probeAnswerArrival (id : Nat) : RoundTrip.Statement (.probeAnswerArrival id) := fun _ h => by cases h

theorem RoundTrip.tbarTimeout (gid : Nat) (k : Nat) : RoundTrip.Statement (.tbarTimeout gid k) := fun _ h => by cases h

theorem RoundTrip.mwaitTimeout (gid : Nat) (k : Nat) : RoundTrip.Statement (.mwaitTimeout gid k) := fun _ h => by cases h

theorem RoundTrip.waitmDeadline (gid : Nat) (k : Nat) : RoundTrip.Statement (.waitmDeadline gid k) := fun _ h => by cases h

theorem RoundTrip.sleepExpiry (gid : Nat) (k : Nat) : RoundTrip.Statement (.sleepExpiry gid k) := fun _ h => by cases h

theorem RoundTrip.xpairTimeout (gid : Nat) (k : Nat) : RoundTrip.Statement (.xpairTimeout gid k) := fun _ h => by cases h

theorem RoundTrip.roleSwitch (gid : Nat) (k : Nat) : RoundTrip.Statement (.roleSwitch gid k) := fun _ h => by cases h

theorem RoundTrip.roleswGrowResume (gid : Nat) (k : Nat) : RoundTrip.Statement (.roleswGrowResume gid k) := fun _ h => by cases h

theorem RoundTrip.barstall (bid : Nat) (bar : Nat) : RoundTrip.Statement (.barstall bid bar) := fun _ h => by cases h

theorem RoundTrip.mmaProductComplete (core : Nat) (bad1 : List Nat) (bad2 : List Nat) : RoundTrip.Statement (.mmaProductComplete core bad1 bad2) := fun _ h => by cases h

theorem RoundTrip.copyRecord (cluster : Nat) (ch : Nat) : RoundTrip.Statement (.copyRecord cluster ch) := fun _ h => by cases h

theorem RoundTrip.copyOwnWake (cluster : Nat) (ch : Nat) : RoundTrip.Statement (.copyOwnWake cluster ch) := fun _ h => by cases h

theorem RoundTrip.quantisationCommand (die : Nat) : RoundTrip.Statement (.quantisationCommand die) := fun _ h => by cases h

theorem RoundTrip.sluiceGateRelease (core : Nat) (line : Nat) : RoundTrip.Statement (.sluiceGateRelease core line) := fun _ h => by cases h

theorem RoundTrip.batchComplete (gid : Nat) (path : Path) : RoundTrip.Statement (.batchComplete gid path) := fun _ h => by cases h

theorem RoundTrip.spanDispatch (lid : Nat) : RoundTrip.Statement (.spanDispatch lid) := fun _ h => by cases h

theorem RoundTrip.migrationWave (lid : Nat) (moves : List GroupMove) : RoundTrip.Statement (.migrationWave lid moves) := fun _ h => by cases h

theorem RoundTrip.launchStartTime (lid : Nat) : RoundTrip.Statement (.launchStartTime lid) := fun _ h => by cases h

theorem RoundTrip.launchComplete (lid : Nat) : RoundTrip.Statement (.launchComplete lid) := fun _ h => by cases h

theorem RoundTrip.queueEnable (p : Nat) (q : Nat) : RoundTrip.Statement (.queueEnable p q) := fun _ h => by cases h

theorem RoundTrip.queuePacketRead (p : Nat) (q : Nat) : RoundTrip.Statement (.queuePacketRead p q) := fun _ h => by cases h

theorem RoundTrip.launch (p : Nat) (q : Nat) : RoundTrip.Statement (.launch p q) := fun _ h => by cases h

theorem RoundTrip.signal (p : Nat) (q : Nat) : RoundTrip.Statement (.signal p q) := fun _ h => by cases h

theorem RoundTrip.wait (p : Nat) (q : Nat) : RoundTrip.Statement (.wait p q) := fun _ h => by cases h

theorem RoundTrip.waitTimeout (p : Nat) (q : Nat) : RoundTrip.Statement (.waitTimeout p q) := fun _ h => by cases h

theorem RoundTrip.monitorReread (p : Nat) (q : Nat) : RoundTrip.Statement (.monitorReread p q) := fun _ h => by cases h

theorem RoundTrip.cond (p : Nat) (q : Nat) : RoundTrip.Statement (.cond p q) := fun _ h => by cases h

theorem RoundTrip.loop (p : Nat) (q : Nat) : RoundTrip.Statement (.loop p q) := fun _ h => by cases h

theorem RoundTrip.graph (p : Nat) (q : Nat) : RoundTrip.Statement (.graph p q) := fun _ h => by cases h

theorem RoundTrip.fencePacket (p : Nat) (q : Nat) : RoundTrip.Statement (.fencePacket p q) := fun _ h => by cases h

theorem RoundTrip.fix (p : Nat) (q : Nat) : RoundTrip.Statement (.fix p q) := fun _ h => by cases h

theorem RoundTrip.migrate (p : Nat) (q : Nat) (reply : MigrateReply) : RoundTrip.Statement (.migrate p q reply) := fun _ h => by cases h

theorem RoundTrip.nodeLaunch (p : Nat) (q : Nat) (r : Nat) : RoundTrip.Statement (.nodeLaunch p q r) := fun _ h => by cases h

theorem RoundTrip.nodeSignal (p : Nat) (q : Nat) (r : Nat) : RoundTrip.Statement (.nodeSignal p q r) := fun _ h => by cases h

theorem RoundTrip.nodeWait (p : Nat) (q : Nat) (r : Nat) : RoundTrip.Statement (.nodeWait p q r) := fun _ h => by cases h

theorem RoundTrip.nodeCond (p : Nat) (q : Nat) (r : Nat) : RoundTrip.Statement (.nodeCond p q r) := fun _ h => by cases h

theorem RoundTrip.nodeLoop (p : Nat) (q : Nat) (r : Nat) : RoundTrip.Statement (.nodeLoop p q r) := fun _ h => by cases h

theorem RoundTrip.nodeEnd (p : Nat) (q : Nat) (r : Nat) : RoundTrip.Statement (.nodeEnd p q r) := fun _ h => by cases h

theorem RoundTrip.nodeWaitTimeout (p : Nat) (q : Nat) (r : Nat) : RoundTrip.Statement (.nodeWaitTimeout p q r) := fun _ h => by cases h

theorem RoundTrip.openPart (p : Nat) (vf : Bool) : RoundTrip.Statement (.openPart p vf) := fun _ h => by cases h

theorem RoundTrip.create (p : Nat) (vf : Bool) : RoundTrip.Statement (.create p vf) := fun _ h => by cases h

theorem RoundTrip.destroy (p : Nat) (vf : Bool) : RoundTrip.Statement (.destroy p vf) := fun _ h => by cases h

theorem RoundTrip.halt (p : Nat) (vf : Bool) : RoundTrip.Statement (.halt p vf) := fun _ h => by cases h

theorem RoundTrip.resume (p : Nat) (vf : Bool) : RoundTrip.Statement (.resume p vf) := fun _ h => by cases h

theorem RoundTrip.savefull (p : Nat) (vf : Bool) : RoundTrip.Statement (.savefull p vf) := fun _ h => by cases h

theorem RoundTrip.saveback (p : Nat) (vf : Bool) : RoundTrip.Statement (.saveback p vf) := fun _ h => by cases h

theorem RoundTrip.restore (p : Nat) (vf : Bool) : RoundTrip.Statement (.restore p vf) := fun _ h => by cases h

theorem RoundTrip.kill (p : Nat) (vf : Bool) : RoundTrip.Statement (.kill p vf) := fun _ h => by cases h

theorem RoundTrip.replay (p : Nat) (vf : Bool) : RoundTrip.Statement (.replay p vf) := fun _ h => by cases h

theorem RoundTrip.tlbinv (p : Nat) (vf : Bool) : RoundTrip.Statement (.tlbinv p vf) := fun _ h => by cases h

theorem RoundTrip.gstep (p : Nat) (vf : Bool) : RoundTrip.Statement (.gstep p vf) := fun _ h => by cases h

theorem RoundTrip.saveImageWrite (p : Nat) (bad : List Nat) : RoundTrip.Statement (.saveImageWrite p bad) := fun _ h => by cases h

theorem RoundTrip.waymaskWrite (p : Nat) (die : Nat) (value : Dword) (vf : Bool) : RoundTrip.Statement (.waymaskWrite p die value vf) := fun _ h => by cases h

theorem RoundTrip.wayWalkEnd (p : Nat) (die : Nat) : RoundTrip.Statement (.wayWalkEnd p die) := fun _ h => by cases h

theorem RoundTrip.fqctlWrite (p : Nat) (value : Dword) : RoundTrip.Statement (.fqctlWrite p value) := fun _ h => by cases h

theorem RoundTrip.fwdclr (value : Dword) : RoundTrip.Statement (.fwdclr value) := fun _ h => by cases h

theorem RoundTrip.registerWrite (offset : Nat) (value : Dword) (bytes : Nat) (vf : Bool) : RoundTrip.Statement (.registerWrite offset value bytes vf) := fun _ h => by cases h

theorem RoundTrip.generationScrub (gen : Nat) : RoundTrip.Statement (.generationScrub gen) := fun _ h => by cases h

theorem RoundTrip.blockSwapOut (bid : Nat) : RoundTrip.Statement (.blockSwapOut bid) := fun _ h => by cases h

theorem RoundTrip.blockSwapIn (bid : Nat) : RoundTrip.Statement (.blockSwapIn bid) := fun _ h => by cases h

theorem RoundTrip.powerGood (verified : Bool) : RoundTrip.Statement (.powerGood verified) := fun _ h => by cases h

theorem RoundTrip.imageVerify (verified : Bool) : RoundTrip.Statement (.imageVerify verified) := fun _ h => by cases h

theorem RoundTrip.selfCalibration (result : Option (Bool × Nat)) (reference : Option Dword) : RoundTrip.Statement (.selfCalibration result reference) := fun _ h => by cases h

theorem RoundTrip.memoryInit (result : Option Nat) : RoundTrip.Statement (.memoryInit result) := fun _ h => by cases h

theorem RoundTrip.ferzuLinkUp (node : Nat) (time : Dword) : RoundTrip.Statement (.ferzuLinkUp node time) := fun _ h => by cases h

theorem RoundTrip.powerWindow (milliwatts : Nat) : RoundTrip.Statement (.powerWindow milliwatts) := fun _ h => by cases h

theorem RoundTrip.uncorrectableError (place : ErrorPlace) : RoundTrip.Statement (.uncorrectableError place) := fun _ h => by cases h

theorem RoundTrip.coreRepair (core : Nat) (unreadable : List ErrorPlace) : RoundTrip.Statement (.coreRepair core unreadable) := fun _ h => by cases h

theorem RoundTrip.l2WayRepair (die : Nat) (slice : Nat) (way : Nat) : RoundTrip.Statement (.l2WayRepair die slice way) := fun _ h => by cases h

theorem RoundTrip.dramRepair (part : DramPart) : RoundTrip.Statement (.dramRepair part) := fun _ h => by cases h

theorem RoundTrip.ferzuLaneRepair (port : Nat) (lane : Nat) : RoundTrip.Statement (.ferzuLaneRepair port lane) := fun _ h => by cases h

theorem RoundTrip.fixCutTime (p : Nat) (q : Nat) : RoundTrip.Statement (.fixCutTime p q) := fun _ h => by cases h

theorem RoundTrip.fixDeadline (p : Nat) (q : Nat) : RoundTrip.Statement (.fixDeadline p q) := fun _ h => by cases h

theorem RoundTrip.fixDrainPage (p : Nat) (q : Nat) : RoundTrip.Statement (.fixDrainPage p q) := fun _ h => by cases h

theorem RoundTrip.fixDrainFault (p : Nat) (q : Nat) : RoundTrip.Statement (.fixDrainFault p q) := fun _ h => by cases h

theorem RoundTrip.stubForwardWrite (addr : Nat) (bytes : List Byte) : RoundTrip.Statement (.stubForwardWrite addr bytes) := fun _ h => by cases h

theorem RoundTrip.measurementExtend (reg : Nat) (data : List Byte) : RoundTrip.Statement (.measurementExtend reg data) := fun _ h => by cases h

theorem RoundTrip.quoteRequest (vf : Option Nat) (nonce : List Byte) (mask : BitVec 8) : RoundTrip.Statement (.quoteRequest vf nonce mask) := fun _ h => by cases h

theorem RoundTrip.spareLaneTrained (port : Nat) : RoundTrip.Statement (.spareLaneTrained port) := fun _ h => by cases h

theorem RoundTrip.dramSpareCopyDone (part : DramPart) : RoundTrip.Statement (.dramSpareCopyDone part) := fun _ h => by cases h

theorem RoundTrip.migrationDestination (p : Nat) (arrival : MigrationArrival) : RoundTrip.Statement (.migrationDestination p arrival) := fun _ h => by cases h

end Sys2Proof.Laws
end

