-- ==== Sys2Proof/Certificates/Slice0/Obligations.lean ====
section
/-! DEFINITION. The statements for the provers, each a closed proposition, with the words they are stated in. A statement that gives the whole next state of a word says with it
that nothing else changes: every other register, flag, special register, split, group, queue and byte of memory is as before. -/

namespace Sys2Proof.Claims

open Sys2Proof Sys2Proof.Machine

/-- Split k of g issues in s and no STEP trap follows its word (R41, R279). -/
def Issues (s : State) (g : Group) (k : Nat) : Prop := Issuing s g k ∧ stepping g = false

/-- The word runs, its whole effect is that its group becomes g', and its split goes on at the next word. -/
def Lands (i : Instr) (s : State) (g : Group) (k : Nat) (g' : Group) : Prop :=
  exec i s = .next (landed s g' k ((entry g k).pc + 8))

/-- The first n sources of a word in format RR. -/
def sources (n : Nat) (w : RR) : List VSrc := ([.a, .b, .c].take n).map fun x => rrSrc w x

/-- All rows of some sources. -/
def rowsOf (l : List VSrc) : List Nat := l.flatMap VSrc.rows

/-- One row written in the active lanes with a value per lane. -/
def writesRow (g : Group) (k : Nat) (h : Hdr) (d : Nat) (tag : Tag) (f : Nat → Word) : Group :=
  writeRow g d (active g k h) tag (lanesOf f)

/-- The word runs and parks its split at its PC for the reason given; nothing else changes. -/
def Parks (i : Instr) (s : State) (g : Group) (k : Nat) (w : Wait) : Prop :=
  exec i s = .next ((s.setGroup (setEntry g k
    { entry g k with state := .waitPark, wait := w, age := 0, ibuf := none, turns := 0 })).turnOver)

end Sys2Proof.Claims

open Sys2Proof Sys2Proof.Machine Sys2Proof.Claims

namespace Sys2Proof.Claims

/-- Words written out bit by bit from the layouts of R138 and R140 and the opcodes of R150, one of each format and form, with the instructions they stand for. -/
def wordSamples : List (Dword × Instr) :=
  [(0x14D0140404030080, .ffma ⟨⟨.native, 2, false, 10, 4⟩, 8, 12, 0, 0, 2, 0⟩),
   (0x03C0000000000000, .nop ⟨⟨.native, 0, false, 0, 0⟩, 0, 0, 0, 0, 0, 0⟩),
   (0x0048000000001000, .bra ⟨⟨.native, 1, false, 0, 0⟩, 0x80, 0⟩),
   (0x0400000402944004, .cmp ⟨⟨.native, 0, false, 0, 4⟩, 5, 1, 2, 1, 0, 0, 0, 4⟩),
   (0x18400E073F000000, .fmulImm ⟨⟨.native, 0, false, 7, 7⟩, 0xFC00, 0, 0, 0, 0⟩),
   (0xA500280604000000, .ld ⟨⟨.generic, 0, false, 20, 6⟩, 0x40, 0, 0, 0, 0, 0, 0⟩),
   (0x2680000604841000, .st ⟨⟨.native, 0, false, 0, 6⟩, 9, 16, 2, 0, 0, 0⟩),
   (0x2C00060604821830, .atom ⟨⟨.native, 0, false, 3, 6⟩, 9, 8, 3, 0, 0, 0x30⟩),
   (0x3480002014000000, .mma ⟨⟨.native, 0, false, 0, 32⟩, 40, 0, 0, 0, 0, 0⟩),
   (0x5400060402800011, .fadd ⟨⟨.quick, 0, false, 3, 4⟩, 5, 0, 0, 0, 0, 0x11⟩)]

/-- Nothing of group g but the trap registers, handler mode, the stopped mask, the two halt bits and entry k differs in g'. -/
def OnlyTrapState (g g' : Group) (k : Nat) : Prop :=
  (∀ j, j ≠ k → entry g' j = entry g j) ∧
  g' = { g with trapcause := g'.trapcause, traplanes := g'.traplanes, trappc := g'.trappc, trapinfo := g'.trapinfo, hmode := g'.hmode,
                stopped := g'.stopped, halt := g'.halt, halt280 := g'.halt280, split := g'.split }

/-- The trap registers as a trap of split k of g leaves them (R278, R279). -/
def TrapSaved (g g' : Group) (k : Nat) (act : Mask) (cause : Cause) (lane : Option Nat) (info : Dword) : Prop :=
  g'.trappc = (entry g k).pc ∧ g'.traplanes = (act ++ (entry g k).ex : BitVec 64) ∧ g'.trapinfo = info ∧
  g'.trapcause = BitVec.ofNat 64 (causeCode cause + match lane with | some l => l * 256 + 2 ^ 13 | none => 0)

end Sys2Proof.Claims

/-- R137 to R140, R150: sample words decode to the instructions they stand for; and four words of R152 are none: a form its opcode does not have, an OP
marked —, FORM 0b11, and all zeros. -/
def Obligations.DecodeWords : Prop :=
  (∀ x ∈ wordSamples, decodeWord x.1 = .ok x.2) ∧
  decodeWord 0xB840040000000000 = .error (.fields 0xE1) ∧ decodeWord 0x0280000000000000 = .error (.opcode 0x0A) ∧ decodeWord 0xC000000000000000 = .error .form ∧
    decodeWord 0 = .error (.opcode 0)

/-- DECODE AND ENCODE AGREE (R137 to R151): the word written for a well-formed instruction decodes to that instruction, with every field at every value its encoding admits. -/
def Obligations.EncodeDecode : Prop :=
  ∀ (i : Instr) (w : Dword), encode i = some w → i.wellFormed = true → decodeWord w = .ok i

/-- The other direction: what a word decodes to is well formed and is written as that very word, so no bit of a word is ignored. -/
def Obligations.DecodeEncode : Prop :=
  ∀ (i : Instr) (w : Dword), decodeWord w = .ok i → i.wellFormed = true ∧ encode i = some w

/-- A STEP RUNS THE DECODED INSTRUCTION. Log 1's move `issue core` gives a core its turn. When one partition has groups there and no step is asked of a halted group, the first
split in the order of R41 merges with its equals (R25), its word is fetched, and the step is exec of that instruction, then what R328 notes of it (as logs 3 and 53 read it), the turn's
counters and whatever waits it has ended. A word that is no instruction traps ILLOP, a STEP that is owed is raised first, and a fetch that faults parks the group; of these only the first
counts as issued. A core that has issued in this cycle issues no more in it. A pending event runs as exec of it, and an empty agenda gives the core in focus its turn and one cycle. -/
def Obligations.StepRunsDecoded : Prop :=
  (∀ (s : State) (core p : Nat) (rest : List Move) (c : Cand) (cs : List Cand) (g g1 g2 : Group) (k1 : Nat),
    s.agenda = .issue core :: rest → s.turns.contains core = false →
    let s0 : State := State.due { s with agenda := rest } core
    let s' : State := State.freeLate { s0.setGroup (setEntry g1 k1 { entry g1 k1 with passed := false }) with cur := some (c.gid, k1) } c.gid
    s0.stepReqs core = [] → s0.coreParts core = [p] → s0.cands core p = c :: cs → s0.group? c.gid = some g →
    mergeInto g c.k .runnable = (g1, k1) → s'.group? c.gid = some g2 →
    let e := entry g2 k1
    let after (word : Bool) (t : State) : Prop := ∃ credits, step s = .next (((({ t with credits := credits }.countTurn core p c.gid k1).countIssue p word).spendTurn core).settled)
    (∀ act, g2.hmode = false → e.stepDue = some act → after false (s'.takeTrap c.gid k1 act .step none 0).turnOver) ∧
    (g2.hmode = true ∨ e.stepDue = none →
      (∀ (s1 : State) (f : WalkFault), e.ibuf = none → s'.fetchWord g2 e.pc = some (s1, .error f) → after false (s1.fetchFault g2 e f).turnOver) ∧
      (∀ (s1 : State) (w : Dword), e.ibuf = none ∧ s'.fetchWord g2 e.pc = some (s1, .ok w) ∨ e.ibuf = some w ∧ s1 = s' →
        (∀ (i : Instr) (t : State), decodeWord w = .ok i → exec i s1 = .next t → t.cur = none →
          after true (s1.noteRegion t g2 e.pc.toNat (s1.wrote t g2 k1 w))) ∧
        (∀ r, decodeWord w = .error r → ∀ t : State, t = (s1.takeTrap c.gid k1 (e.ex &&& guardMask g2 (hdrOf .native w)) .illop none w).turnOver →
          after true (s1.noteRegion t g2 e.pc.toNat (s1.wrote t g2 k1 w)))))) ∧
  (∀ (s : State) (core : Nat) (rest : List Move), s.agenda = .issue core :: rest → s.turns.contains core = true → step s = .next { s with agenda := rest }) ∧
  (∀ (s t : State) (i : Instr) (rest : List Move), s.agenda = .event i :: rest → encode i = none → exec i { s with agenda := rest } = .next t →
    step s = .next t.settled) ∧
  (∀ (s : State), s.agenda = [] → step s = match s.issueOn s.focus with | .next t => .next (t.tick 1) | o => o)

/-- No step ends in a fault or a refusal: whatever the state, the machine goes on. -/
def Obligations.StepGoesOn : Prop := ∀ s : State, goesOn s

/-- What the spec gives for reset and power-up (R360, R361, R367, R369, R408): partitions are FREE with RESULT OK and every WAYMASK bit set, WEIRWIN is 32, nothing is resident,
no memory has been written and every byte reads zero at generation 0, READY and ERR are 0. Generations 1 to 63 are free. That host and peer memory read zero (log 5) and that the step counter
starts at 0 (log 7) are the model's choice. -/
def Obligations.ResetState : Prop :=
  (∀ p, (State.reset.part p).state = .free ∧ (State.reset.part p).weirwin = 32 ∧ (State.reset.part p).gen = 0 ∧ (State.reset.part p).stepCtr = 0 ∧
    (State.reset.part p).result = .ok ∧ ∀ die < 4, ∀ way < 24, (vget (State.reset.part p).waymask die 0).getLsbD way = true) ∧
  State.reset.groups = [] ∧ State.reset.dev.ready = false ∧ State.reset.dev.err = 0 ∧ (∀ n, n ∈ State.reset.dev.freeGens ↔ 1 ≤ n ∧ n ≤ 63) ∧
  (∀ (m : Memory) (a : Nat), m ∈ [State.reset.dram, State.reset.scratch, State.reset.cistern, State.reset.host, State.reset.peer] → m.genOf a = 0 ∧ m.byte 0 a = 0)

/-- Reset memory is in canonical form. -/
def Obligations.ResetMemory : Prop := State.reset.memWf = true

/-- AN INVARIANT THAT EVERY STEP KEEPS: every storage stays in its one canonical form, so equal memories are equal data. -/
def Obligations.StepKeepsMemory : Prop := ∀ s t : State, s.memWf = true → step s = .next t → t.memWf = true

/-- R368, R369: a reader sees only what its own generation has written. A byte of a unit that another generation owns reads zero, a write by one generation gives a reader of
another either what it read before or zero, and the writer reads back what it wrote. -/
def Obligations.GenerationsApart : Prop :=
  ∀ (m : Memory) (gen a b : Nat) (bs : List Byte), m.wf = true →
    (m.genOf b ≠ gen → m.byte gen b = 0) ∧
    (∀ g, g ≠ gen → (m.putBytes g a bs).byte gen b = m.byte gen b ∨ (m.putBytes g a bs).byte gen b = 0) ∧
    (∀ g, g ≠ gen → (∀ i, i < bs.length → (a + i) / genUnit ≠ b / genUnit) → (m.putBytes g a bs).byte gen b = m.byte gen b) ∧
    (∀ i (h : i < bs.length), (m.putBytes gen a bs).byte gen (a + i) = bs[i])

/-- R278 to R280: TAKING A TRAP of split k. The four trap registers take the PC, the lanes, the cause and its information. A group outside handler mode with a TRAPBASE goes to its
handler in handler mode, its EX, OWN and resume field kept, every other split stopped with its state kept. In handler mode, or with TRAPBASE 0, the group halts at the
instruction instead and the driver is told. -/
def Obligations.TrapEntry : Prop :=
  ∀ (s : State) (g : Group) (k : Nat) (act : Mask) (cause : Cause) (lane : Option Nat) (info : Dword), s.group? g.gid = some g → k < 4 →
    (g.hmode = false → BitVec.extractLsb' 3 61 g.trapbase ≠ 0 → ∃ g' : Group, s.takeTrap g.gid k act cause lane info = s.setGroup g' ∧
      TrapSaved g g' k act cause lane info ∧ OnlyTrapState g g' k ∧ g'.hmode = true ∧ g'.halt = g.halt ∧ g'.halt280 = g.halt280 ∧
      (∀ j, j < 4 → (g'.stopped.getLsbD j = true ↔ j ≠ k ∧ (entry g j).state ≠ .free)) ∧
      (entry g' k).pc = (g.trapbase >>> 3) <<< 3 ∧ (entry g' k).ex = (entry g k).ex ∧ (entry g' k).own = (entry g k).own ∧
      (entry g' k).rv = (entry g k).rv ∧ (entry g' k).rpc = (entry g k).rpc ∧ (entry g' k).rmask = (entry g k).rmask ∧ (entry g' k).state = .runnable) ∧
    (g.hmode = true ∨ BitVec.extractLsb' 3 61 g.trapbase = 0 → ∃ (g' : Group) (l : Nat), s.takeTrap g.gid k act cause lane info = (s.setGroup g').trapHaltRecord g' cause l (entry g k).pc ∧
      TrapSaved g g' k act cause lane info ∧ OnlyTrapState g g' k ∧ g'.hmode = g.hmode ∧ g'.halt = true ∧ g'.stopped = g.stopped ∧
      (entry g' k).pc = (entry g k).pc ∧ (entry g' k).ex = (entry g k).ex ∧ (∀ n, lane = some n → l = n))

/-- R383 to R385: a record is appended to an enabled fault queue that has room and whose place translates for writing, in little-endian words at FQBASE + 32 × (FQWR mod N), and
FQWR grows by 1, update-only copies of the tables that are walked combined first (R79); to one that is disabled or full it is dropped and DROPPED counts it, up to 0xFFFF. A page still marked COW holds a record back and is drained next (R417), and records
behind one that is held back wait for it (log 92). -/
def Obligations.FaultRecords : Prop :=
  ∀ (s : State) (p : Nat) (w0 w1 w2 w3 : Dword), p < 40 →
    let q := s.part p
    let n := q.fqLog2.toNat
    let ipa := (q.fqbase + 32 * BitVec.ofNat 64 (q.fqwr.toNat % 2 ^ n)).toNat
    let bytes := leBytes 8 w0.toNat ++ leBytes 8 w1.toNat ++ leBytes 8 w2.toNat ++ leBytes 8 w3.toNat
    let s1 := s.recallTables2 p ipa
    (q.fqHeld ≠ [] → s.pushFault p w0 w1 w2 w3 = s.modPart p fun x => { x with fqHeld := x.fqHeld ++ [bytes] }) ∧
    (q.fqHeld = [] → q.fqEn = true → 4 ≤ n → n ≤ 16 → (q.fqwr - q.fqrd).toNat < 2 ^ n → ∀ l : PteLeaf, s1.stage2 p ipa needW = .ok l → l.pte.getLsbD 6 = true →
      (l.pte.getLsbD 62 = false →
        s.pushFault p w0 w1 w2 w3 = (s1.poke l.attr q.gen (l.at_ ipa) bytes false).modPart p (fun x => { x with fqwr := x.fqwr + 1 })) ∧
      (l.pte.getLsbD 62 = true → s.pushFault p w0 w1 w2 w3 = (s.modPart p fun x => { x with fqHeld := [bytes] }).wantPage p (ipa / 65536 * 65536))) ∧
    (q.fqHeld = [] → q.fqEn = false ∨ 4 ≤ n ∧ n ≤ 16 ∧ 2 ^ n ≤ (q.fqwr - q.fqrd).toNat → ∃ t : State, s.pushFault p w0 w1 w2 w3 = t ∧ t.dram = s.dram ∧ t.groups = s.groups ∧
      (t.part p).fqwr = q.fqwr ∧ (t.part p).fqDrop = (if q.fqDrop = 0xFFFF then 0xFFFF else q.fqDrop + 1) ∧ ∀ x, x ≠ p → t.part x = s.part x)

namespace Sys2Proof.Claims

/-- The native word of a quickened or generic one with format or space c in ASSUME and UN 0 (R147, R158). -/
def nativeRR (w : RR) (c : Nat) : RR := { w with form := .native, m := (w.m &&& 0x0E) ||| BitVec.ofNat 6 (c * 16) }
@[inherit_doc nativeRR]
def nativeRI (w : RI) (c : Nat) : RI := { w with form := .native, m := (w.m &&& 0x0E) ||| BitVec.ofNat 6 (c * 16) }
@[inherit_doc nativeRR]
def nativePP (w : PP) (c : Nat) : PP := { w with form := .native, m := (w.m &&& 0x0E) ||| BitVec.ofNat 6 (c * 16) }
@[inherit_doc nativeRR]
def nativeML (w : ML) (c : Nat) : ML := { w with form := .native, m := (w.m &&& 0x0E) ||| BitVec.ofNat 6 (c * 16) }
@[inherit_doc nativeRR]
def nativeMS (w : MS) (c : Nat) : MS := { w with form := .native, m := (w.m &&& 0x0E) ||| BitVec.ofNat 6 (c * 16) }

/-- The native `cvt` of a generic one whose A rows carry tag t: its SRCF is in M<5:3> (R147). -/
def nativeCvt (w : RR) (t : Tag) : RR := { w with form := .native, m := (w.m &&& 0x06) ||| BitVec.ofNat 6 (t.code * 8) }

/-- Every source holds one value across the lanes of a mask (R305). -/
def Uniform (g : Group) (m : Mask) (srcs : List VSrc) : Prop :=
  ∀ v ∈ srcs, ∀ j < v.n, ∀ l < 32, ∀ l' < 32, m.getLsbD l = true → m.getLsbD l' = true → srcLane g v j l = srcLane g v j l'

/-- The state in which a generic word of split k has sent the step that quickens its site, unless it has no sidecar or is pinned (R303, R307, R311). -/
def quickenSent (s : State) (g : Group) (k : Nat) (i : Instr) (c : Nat) (uni : Bool) : State :=
  match s.sidecar g.part (entry g k).pc with
  | none => s
  | some x => if (s.sideByte x.sideAttr (s.genOf g.part) x.side).getLsbD 2 then s
    else s.sendSite g.core g.part x ((encode i).getD 0) (quickWord ((encode i).getD 0) assume54 c uni) false

/-- The state in which a quickened word whose check failed has sent the step that widens its site (R309). -/
def widenSent (s : State) (g : Group) (k : Nat) (i : Instr) : State :=
  match s.sidecar g.part (entry g k).pc with
  | none => s
  | some x => s.sendSite g.core g.part x ((encode i).getD 0) (genericWord ((encode i).getD 0) assume54) true

/-- A word in a generic or quickened form has exactly the effect of its native word with the format resolved or confirmed, beside the step it sends to its site (R158, R305 to R307, R309). `nat c` is the
native word with format c, `tagOf c` the tag of format c, `codes` the formats a tag resolves to, `dflt` the one that RAW sources alone resolve to. -/
def AsNative (i : Instr) (nat : Nat → Instr) (h : Hdr) (m : BitVec 6) (dst : List Nat) (srcs : List VSrc) (tagOf : Nat → Tag) (codes : List Nat) (dflt : Nat)
    (s : State) (g : Group) (k : Nat) : Prop :=
  i.wellFormed = true → threadsOf g (active g k h) ≠ 0 → WritableRows g dst → ReadableRows g (rowsOf srcs) →
    (h.form = .quick → (nat (assumeOf m)).wellFormed = true → TagsAgree g (tagOf (assumeOf m)) (rowsOf srcs) →
      (m.getLsbD 0 = true → Uniform g (threadsOf g (active g k h)) srcs) → exec i s = exec (nat (assumeOf m)) s) ∧
    (h.form = .generic → (nat dflt).wellFormed = true → (∀ r ∈ rowsOf srcs, (row g r).tag = .raw) → exec i s = exec (nat dflt) s) ∧
    (∀ c ∈ codes, ∀ uni : Bool, (nat c).wellFormed = true → TagsAgree g (tagOf c) (rowsOf srcs) → (∃ r ∈ rowsOf srcs, (row g r).tag = tagOf c) →
      (uni = true ↔ 2 ≤ (maskLanes (threadsOf g (active g k h))).length ∧ Uniform g (threadsOf g (active g k h)) srcs) →
      (h.form = .generic → exec i s = exec (nat c) (quickenSent s g k i c uni)) ∧
      (h.form = .quick → tagOf c ≠ tagOf (assumeOf m) → exec i s = exec (nat c) (widenSent s g k i)))

/-- The same for a memory word with a space: a quickened one whose threads all lie in its space, and whose addresses are all equal under UN, and a generic one without a sidecar whose threads lie in one space,
its helper lanes wherever they lie (R146, R304, R306, R309). -/
def InSpace (i : Instr) (nat : Nat → Instr) (h : Hdr) (m : BitVec 6) (va : Nat → Dword) (s : State) (g : Group) (k : Nat) : Prop :=
  let act := threadsOf g (active g k h)
  i.wellFormed = true → act ≠ 0 →
    (h.form = .quick → (nat (assumeOf m)).wellFormed = true → (∀ l < 32, act.getLsbD l = true → windowOf (va l) = Space.ofCode (assumeOf m)) →
      (m.getLsbD 0 = true → ∀ l < 32, ∀ l' < 32, act.getLsbD l = true → act.getLsbD l' = true → va l = va l') → exec i s = exec (nat (assumeOf m)) s) ∧
    (∀ c < 3, h.form = .generic → (nat c).wellFormed = true → (∀ l < 32, act.getLsbD l = true → windowOf (va l) = Space.ofCode c) → s.sidecar g.part (entry g k).pc = none →
      exec i s = exec (nat c) s)

end Sys2Proof.Claims

namespace Sys2Proof.Claims

/-- The scalar words of format RR that read and write scalars only, with their result from the three source fields (R190). -/
def scalarOps : List ((RR → Instr) × (RR → Dword → Dword → Dword → Dword)) :=
  [(.sadd, fun _ a b _ => a + b), (.ssub, fun _ a b _ => a - b), (.smul, fun _ a b _ => a * b), (.smad, fun _ a b c => a * b + c),
   (.smin, fun w a b _ => if w.m.getLsbD 0 then (if a.toNat ≤ b.toNat then a else b) else (if a.toInt ≤ b.toInt then a else b)),
   (.smax, fun w a b _ => if w.m.getLsbD 0 then (if a.toNat ≤ b.toNat then b else a) else (if a.toInt ≤ b.toInt then b else a)),
   (.sand, fun _ a b _ => a &&& b), (.sor, fun _ a b _ => a ||| b), (.sxor, fun _ a b _ => a ^^^ b), (.snot, fun _ a _ _ => ~~~a),
   (.sshl, fun _ a b _ => if 64 ≤ b.toNat % 256 then 0 else a <<< (b.toNat % 256)),
   (.sshr, fun _ a b _ => if 64 ≤ b.toNat % 256 then 0 else a >>> (b.toNat % 256)),
   (.ssar, fun _ a b _ => if 64 ≤ b.toNat % 256 then (if a.msb then 0xFFFFFFFFFFFFFFFF else 0) else a.sshiftRight (b.toNat % 256)),
   (.sclz, fun _ a _ _ => BitVec.ofNat 64 (leadingZeros a)), (.spopc, fun _ a _ _ => BitVec.ofNat 64 (popCount a)),
   (.sbfe, fun w a b _ => extractField (w.m.getLsbD 0) a b), (.sbfi, fun _ a b c => insertField a b c),
   (.ssel, fun _ a b c => if c = 0 then b else a),
   (.scmp, fun w a b _ => if compareWord (Cond.ofCode (cond31 w.m)) true (w.m.getLsbD 0) a b then 1 else 0)]

/-- The constant a `smovi` leaves in its register (R192). -/
def smoviValue (w : WI) (old : Dword) : Dword :=
  match fieldN w.mw 1 0 with
  | 0 => w.imm.signExtend 64
  | 1 => w.imm.zeroExtend 64
  | 2 => BitVec.ofNat 64 (old.toNat % 2 ^ 27 + w.imm.toNat * 2 ^ 27 + old.toNat / 2 ^ 54 * 2 ^ 54)
  | _ => BitVec.ofNat 64 (old.toNat % 2 ^ 54 + w.imm.toNat % 2 ^ 10 * 2 ^ 54)

end Sys2Proof.Claims

/-- SCALAR WORDS (R28, R190, R191): SADD, SSUB, SMUL, SMAD, SMIN, SMAX, SAND, SOR, SXOR, SNOT, SSHL, SSHR, SSAR, SCLZ, SPOPC, SBFE, SBFI, SSEL and SCMP write their result to sD,
and without an executing lane only move the PC. -/
def Sys2Proof.Claims.ScalarWords : Prop :=
  ∀ p ∈ scalarOps, ∀ (w : RR) (s : State) (g : Group) (k : Nat), Issues s g k → (p.1 w).wellFormed = true →
    Lands (p.1 w) s g k (if executesIn g k w.toHdr then
      setS g w.d.toNat (p.2 w (sreg g w.a.toNat) (sreg g w.b.toNat) (sreg g w.c.toNat)) else g)

/-- SCALAR MOVES (R190, R192): SMOVI places its literal as its placement says; SMOV copies a scalar, or the lowest active lane of a readable vector register, or 0 with no active lane. -/
def Sys2Proof.Claims.ScalarMoves : Prop :=
  (∀ (w : WI) (s : State) (g : Group) (k : Nat), Issues s g k → (Instr.smovi w).wellFormed = true →
    Lands (.smovi w) s g k (if executesIn g k w.toHdr then setS g w.d.toNat (smoviValue w (sreg g w.d.toNat)) else g)) ∧
  (∀ (w : RR) (s : State) (g : Group) (k : Nat), Issues s g k → (Instr.smov w).wellFormed = true →
    (w.m.getLsbD 0 = true → ReadableRows g (rrSrc w .a).rows) →
    Lands (.smov w) s g k (if executesIn g k w.toHdr then
      setS g w.d.toNat (if w.m.getLsbD 0 then
        (match lowestLane (active g k w.toHdr) with | some l => (srcLane g (rrSrc w .a) 0 l).zeroExtend 64 | none => 0)
        else sreg g w.a.toNat) else g))

/-- REGISTERS MARKED POISONED (R388; when the mark is looked for, and its TRAPINFO, are the model's choice, log 82): a scalar word under `(p0)` that reads a scalar register which a restore has marked traps POISON and has no other effect; one that writes a marked register whose value it does not read completes and clears the mark. -/
def Sys2Proof.Claims.MarkedRegisters : Prop :=
  ∀ p ∈ scalarOps, ∀ (w : RR) (s : State) (g : Group) (k : Nat), s.cur = some (g.gid, k) → s.group? g.gid = some g → k < 4 → (entry g k).state = .runnable →
    (p.1 w).wellFormed = true → w.pg = 0 → w.pn = false → 24576 ∉ g.hurt → (g.rerun.any fun r => inRerun r (entry g k).pc.toNat) = false → (threadsOf g (entry g k).ex ≠ 0 ∨ (entry g k).ex = 0) →
    (8192 + w.a.toNat ∈ g.hurt → exec (p.1 w) s = .next (s.takeTrap g.gid k (entry g k).ex .poison none (BitVec.ofNat 64 w.a.toNat)).turnOver) ∧
    (g.hurt = [8192 + w.d.toNat] → w.d ≠ w.a → w.d ≠ w.b → w.d ≠ w.c → ∃ (t : State) (g' : Group), exec (p.1 w) s = .next t ∧ t.group? g.gid = some g' ∧ g'.hurt = [] ∧
      sreg g' w.d.toNat = p.2 w (sreg g w.a.toNat) (sreg g w.b.toNat) (sreg g w.c.toNat))

namespace Sys2Proof.Claims

/-- The source of a compare (R169). -/
def cmpSource (w : PP) (x : Src) : VSrc := ⟨(match x with | .a => w.a | _ => w.b).toNat, names w.z x, names w.e x, 1⟩

/-- The condition of R170 on the two sources of a lane, under FMT. -/
def cmpCond (g : Group) (w : PP) (fmt lane : Nat) : Bool :=
  cmpHolds fmt (Cond.ofCode (cond31 w.m)) (srcLane g (cmpSource w .a) 0 lane) (srcLane g (cmpSource w .b) 0 lane)

/-- The vote of R175 over the counted lanes. -/
def voteResult (mode : Nat) (counted p : Mask) : Mask :=
  match mode with
  | 0 => if (maskLanes counted).any (p.getLsbD ·) then 1 else 0
  | 1 => if (maskLanes counted).all (p.getLsbD ·) then 1 else 0
  | 2 => if (maskLanes counted).all (p.getLsbD ·) || (maskLanes counted).all (fun l => !p.getLsbD l) then 1 else 0
  | _ => counted &&& p

end Sys2Proof.Claims

/-- PREDICATE WORDS (R173 to R175): PAND, POR and PNOT write their result in the active lanes; PMOV moves a predicate, a mask or a test in its four modes; VOTE writes its vote to a
predicate in the active lanes, or to a scalar. -/
def Sys2Proof.Claims.PredicateWords : Prop :=
  ∀ (w : RR) (s : State) (g : Group) (k : Nat), Issues s g k →
    ((Instr.pand w).wellFormed = true → Lands (.pand w) s g k (setP g w.d.toNat (active g k w.toHdr)
      ((if w.m.getLsbD 1 then ~~~(preg g w.a.toNat) else preg g w.a.toNat) &&& (if w.m.getLsbD 0 then ~~~(preg g w.b.toNat) else preg g w.b.toNat)))) ∧
    ((Instr.por w).wellFormed = true → Lands (.por w) s g k (setP g w.d.toNat (active g k w.toHdr)
      ((if w.m.getLsbD 1 then ~~~(preg g w.a.toNat) else preg g w.a.toNat) ||| (if w.m.getLsbD 0 then ~~~(preg g w.b.toNat) else preg g w.b.toNat)))) ∧
    ((Instr.pnot w).wellFormed = true → Lands (.pnot w) s g k (setP g w.d.toNat (active g k w.toHdr) (~~~(preg g w.a.toNat)))) ∧
    ((Instr.pmov w).wellFormed = true → Lands (.pmov w) s g k (match fieldN w.m 1 0 with
      | 0 => setP g w.d.toNat (active g k w.toHdr) (preg g w.a.toNat)
      | 1 => if executesIn g k w.toHdr then setS g w.d.toNat ((preg g w.a.toNat &&& active g k w.toHdr).zeroExtend 64) else g
      | 2 => setP g w.d.toNat (active g k w.toHdr) (field (sreg g w.a.toNat) 31 0)
      | _ => setP g w.d.toNat (active g k w.toHdr) (if sreg g w.a.toNat = 0 then 0 else 0xFFFFFFFF))) ∧
    ((Instr.vote w).wellFormed = true →
      let v := voteResult (fieldN w.m 1 0) (threadsOf g (active g k w.toHdr)) (preg g w.a.toNat)
      Lands (.vote w) s g k (if w.m.getLsbD 2 then (if executesIn g k w.toHdr then setS g w.d.toNat (v.zeroExtend 64) else g)
        else setP g w.d.toNat (active g k w.toHdr) (if v = 0 then 0 else 0xFFFFFFFF)))

/-- CMP (R170, R171): a native compare on readable rows of its format writes PA and PB by its combining type in every lane with EX set, under the guard and the condition of each lane;
with no active lane it writes nothing. -/
def Sys2Proof.Claims.Compare : Prop :=
  ∀ (w : PP) (s : State) (g : Group) (k : Nat), Issues s g k → (Instr.cmp w).wellFormed = true →
    (active g k w.toHdr = 0 → Lands (.cmp w) s g k g) ∧
    (w.form = .native → active g k w.toHdr ≠ 0 → ReadableRows g (rowsOf [cmpSource w .a, cmpSource w .b]) →
      TagsAgree g (if assumeOf w.m = 2 then .f32 else .i32) (rowsOf [cmpSource w .a, cmpSource w .b]) →
      Lands (.cmp w) s g k (cmpWrite g (entry g k).ex (guardMask g w.toHdr) (maskOf (cmpCond g w (assumeOf w.m))) w.ct.toNat w.pa.toNat w.pb.toNat))

/-- COMBINING TYPES (R171, R172): what a compare leaves in PA and PB of a lane with EX set, each unless it is p0, and what it leaves of lanes with EX clear, of other predicates and of p0. PA and PB are one
predicate only under `.and`, `.or`, `.andc` and `.orc`. -/
def Sys2Proof.Claims.CombiningTypes : Prop :=
  ∀ (g : Group) (ex gd c : Mask) (ct : Nat) (pa pb l : Nat), pa < 8 → pb < 8 → (pa ≠ pb ∨ 2 ≤ ct ∧ ct ≤ 5) → l < 32 →
    (ex.getLsbD l = false → ∀ q < 8, (preg (cmpWrite g ex gd c ct pa pb) q).getLsbD l = (preg g q).getLsbD l) ∧
    (∀ q < 8, q ≠ pa → q ≠ pb → preg (cmpWrite g ex gd c ct pa pb) q = preg g q) ∧
    preg (cmpWrite g ex gd c ct pa pb) 0 = 0xFFFFFFFF ∧
    (ex.getLsbD l = true →
      let x := c.getLsbD l
      let now := fun q => (preg (cmpWrite g ex gd c ct pa pb) q).getLsbD l
      let are := fun (v : Bool × Bool) => (pa ≠ 0 → now pa = v.1) ∧ (pb ≠ 0 → now pb = v.2)
      let old := ((preg g pa).getLsbD l, (preg g pb).getLsbD l)
      (gd.getLsbD l = false → ct ≠ 1 → are old) ∧
      (gd.getLsbD l = false → ct = 1 → are (false, false)) ∧
      (gd.getLsbD l = true → (ct = 0 ∨ ct = 1) → are (x, !x)) ∧
      (gd.getLsbD l = true → ct = 2 → are (if x then old else (false, false))) ∧
      (gd.getLsbD l = true → ct = 3 → are (if x then (true, true) else old)) ∧
      (gd.getLsbD l = true → ct = 4 → are (if x then (false, false) else old)) ∧
      (gd.getLsbD l = true → ct = 5 → are (if x then old else (true, true))) ∧
      (gd.getLsbD l = true → ct = 6 → are (if x then old else (false, true))) ∧
      (gd.getLsbD l = true → ct = 7 → are (if x then (true, false) else old)))

namespace Sys2Proof.Claims

/-- Integer words on vector sources: number of sources, and the exact result of one element (R177). -/
def intOps : List ((RR → Instr) × Nat × (Int → Int → Int → Int)) :=
  [(.iadd, 2, fun a b _ => a + b), (.isub, 2, fun a b _ => a - b), (.imul, 2, fun a b _ => a * b), (.imad, 3, fun a b c => a * b + c),
   (.min, 2, fun a b _ => if a ≤ b then a else b), (.max, 2, fun a b _ => if a ≤ b then b else a)]

/-- Integer words with an immediate; `minImm` and `maxImm` zero-extend it under `.uns32` (R177). -/
def intImmOps : List ((RI → Instr) × Bool × (Int → Int → Int)) :=
  [(.iaddImm, false, fun a b => a + b), (.imulImm, false, fun a b => a * b),
   (.minImm, true, fun a b => if a ≤ b then a else b), (.maxImm, true, fun a b => if a ≤ b then b else a)]

/-- The tag of an integer FMT (R147). -/
def integerTag (fmt : Nat) : Tag := if fmt = 0 ∨ fmt = 1 then .i32 else .i8x4

/-- Bits of a per-lane word: tag of the result, number of sources, result (R179, R180). -/
def bitOps : List ((RR → Instr) × Tag × Nat × (RR → Word → Word → Word → Word)) :=
  [(.and, .raw, 2, fun _ a b _ => a &&& b), (.or, .raw, 2, fun _ a b _ => a ||| b), (.xor, .raw, 2, fun _ a b _ => a ^^^ b), (.not, .raw, 1, fun _ a _ _ => ~~~a),
   (.shl, .raw, 2, fun _ a b _ => if 32 ≤ b.toNat % 256 then 0 else a <<< (b.toNat % 256)),
   (.shr, .raw, 2, fun _ a b _ => if 32 ≤ b.toNat % 256 then 0 else a >>> (b.toNat % 256)),
   (.sar, .raw, 2, fun _ a b _ => if 32 ≤ b.toNat % 256 then (if a.msb then 0xFFFFFFFF else 0) else a.sshiftRight (b.toNat % 256)),
   (.clz, .i32, 1, fun _ a _ _ => BitVec.ofNat 32 (leadingZeros a)), (.popc, .i32, 1, fun _ a _ _ => BitVec.ofNat 32 (popCount a)),
   (.bfe, .i32, 2, fun w a b _ => extractField (w.m.getLsbD 0) a b), (.bfi, .raw, 3, fun _ a b c => insertField a b c)]

/-- Bits of a per-lane word with an immediate (R179). -/
def bitImmOps : List ((RI → Instr) × (RI → Word → Word)) :=
  [(.andImm, fun w a => a &&& w.imm.signExtend 32), (.orImm, fun w a => a ||| w.imm.signExtend 32), (.xorImm, fun w a => a ^^^ w.imm.signExtend 32),
   (.shlImm, fun w a => if 32 ≤ w.imm.toNat % 256 then 0 else a <<< (w.imm.toNat % 256)),
   (.shrImm, fun w a => if 32 ≤ w.imm.toNat % 256 then 0 else a >>> (w.imm.toNat % 256)),
   (.sarImm, fun w a => if 32 ≤ w.imm.toNat % 256 then (if a.msb then 0xFFFFFFFF else 0) else a.sshiftRight (w.imm.toNat % 256))]

end Sys2Proof.Claims

namespace Sys2Proof.Claims

/-- An integer word i on n vector sources completes, whatever its state and operands are under the conditions of R156: with no active lane it only moves the PC, and in its native form, on writable and readable
rows of its format, it writes the result `op` gives for each element, wrapped or saturated, in the active lanes. -/
def IntCompletes (i : RR → Instr) (n : Nat) (op : Int → Int → Int → Int) : Prop :=
  ∀ (w : RR) (s : State) (g : Group) (k : Nat), Issues s g k → (i w).wellFormed = true →
    (active g k w.toHdr = 0 → exec (i w) s = .next (landed s g k ((entry g k).pc + 8))) ∧
    (w.form = .native → active g k w.toHdr ≠ 0 → WritableRows g [w.d.toNat] → ReadableRows g (rowsOf (sources n w)) →
      TagsAgree g (integerTag (assumeOf w.m)) (rowsOf (sources n w)) →
      exec (i w) s = .next (landed s (writesRow g k w.toHdr w.d.toNat (integerTag (assumeOf w.m)) fun l => intResult (assumeOf w.m) (satOf w.m) fun el =>
        op (el (srcLane g (rrSrc w .a) 0 l)) (el (srcLane g (rrSrc w .b) 0 l)) (if n = 3 then el (srcLane g (rrSrc w .c) 0 l) else 0)) k ((entry g k).pc + 8)))

/-- The same for an integer word with an immediate, which is zero-extended under `.uns32` when `uns` says so. -/
def IntImmCompletes (i : RI → Instr) (uns : Bool) (op : Int → Int → Int) : Prop :=
  ∀ (w : RI) (s : State) (g : Group) (k : Nat), Issues s g k → (i w).wellFormed = true →
    (active g k w.toHdr = 0 → exec (i w) s = .next (landed s g k ((entry g k).pc + 8))) ∧
    (w.form = .native → active g k w.toHdr ≠ 0 → WritableRows g [w.d.toNat] → ReadableRows g (riSrc w).rows → TagsAgree g (integerTag (assumeOf w.m)) (riSrc w).rows →
      exec (i w) s = .next (landed s (writesRow g k w.toHdr w.d.toNat (integerTag (assumeOf w.m)) fun l => intResult (assumeOf w.m) (satOf w.m) fun el =>
        op (el (srcLane g (riSrc w) 0 l)) (if uns && assumeOf w.m == 1 then (w.imm.toNat : Int) else w.imm.toInt)) k ((entry g k).pc + 8)))

end Sys2Proof.Claims

/-- NATIVE INTEGER WORDS (R120, R156, R177): IADD, ISUB, IMUL, IMAD, MIN, MAX and their immediate forms IADD, IMUL, MIN and MAX COMPLETE: exec answers the next state in which they have written, in the active
lanes, the exact result of each element wrapped or saturated, with the tag of their format; with no active lane, in any form, they only move the PC. -/
def Sys2Proof.Claims.NativeInteger : Prop :=
  IntCompletes Instr.iadd 2 (fun a b _ => a + b) ∧
  IntCompletes Instr.isub 2 (fun a b _ => a - b) ∧
  IntCompletes Instr.imul 2 (fun a b _ => a * b) ∧
  IntCompletes Instr.imad 3 (fun a b c => a * b + c) ∧
  IntCompletes Instr.min 2 (fun a b _ => if a ≤ b then a else b) ∧
  IntCompletes Instr.max 2 (fun a b _ => if a ≤ b then b else a) ∧
  IntImmCompletes Instr.iaddImm false (fun a b => a + b) ∧
  IntImmCompletes Instr.imulImm false (fun a b => a * b) ∧
  IntImmCompletes Instr.minImm true (fun a b => if a ≤ b then a else b) ∧
  IntImmCompletes Instr.maxImm true (fun a b => if a ≤ b then b else a)

/-- INTEGER RESULTS (R119, R120, R177): the element results of an integer word, by format: 32-bit signed and unsigned, and four 8-bit elements, each wrapped to its width or saturated to its range. -/
def Sys2Proof.Claims.IntegerResults : Prop :=
  ∀ (f : (Word → Int) → Int),
    intResult 0 false f = BitVec.ofInt 32 (f BitVec.toInt) ∧
    intResult 1 false f = BitVec.ofInt 32 (f fun x => (x.toNat : Int)) ∧
    (intResult 0 true f).toInt = (if f BitVec.toInt < -2147483648 then -2147483648 else if 2147483647 < f BitVec.toInt then 2147483647 else f BitVec.toInt) ∧
    ((intResult 1 true f).toNat : Int) =
      (if (f fun x => (x.toNat : Int)) < 0 then 0 else if 4294967295 < (f fun x => (x.toNat : Int)) then 4294967295 else f fun x => (x.toNat : Int)) ∧
    (∀ j < 4, (intResult 2 false f).extractLsb' (8 * j) 8 = BitVec.ofInt 8 (f fun x => (x.extractLsb' (8 * j) 8).toInt)) ∧
    (∀ j < 4, (intResult 3 false f).extractLsb' (8 * j) 8 = BitVec.ofInt 8 (f fun x => ((x.extractLsb' (8 * j) 8).toNat : Int))) ∧
    (∀ j < 4, let r := f fun x => (x.extractLsb' (8 * j) 8).toInt
      ((intResult 2 true f).extractLsb' (8 * j) 8).toInt = if r < -128 then -128 else if 127 < r then 127 else r) ∧
    (∀ j < 4, let r := f fun x => ((x.extractLsb' (8 * j) 8).toNat : Int)
      (((intResult 3 true f).extractLsb' (8 * j) 8).toNat : Int) = if r < 0 then 0 else if 255 < r then 255 else r)

/-- BITWISE AND COUNTING WORDS (R179, R180): AND, OR, XOR, NOT, SHL, SHR, SAR, CLZ, POPC, BFE, BFI, and AND, OR, XOR, SHL, SHR and SAR with an immediate. -/
def Sys2Proof.Claims.BitWords : Prop :=
  (∀ p ∈ bitOps, ∀ (w : RR) (s : State) (g : Group) (k : Nat), Issues s g k → (p.1 w).wellFormed = true →
    (active g k w.toHdr = 0 → Lands (p.1 w) s g k g) ∧
    (active g k w.toHdr ≠ 0 → WritableRows g [w.d.toNat] → ReadableRows g (rowsOf (sources p.2.2.1 w)) →
      Lands (p.1 w) s g k (writesRow g k w.toHdr w.d.toNat p.2.1 fun l =>
        p.2.2.2 w (srcLane g (rrSrc w .a) 0 l) (srcLane g (rrSrc w .b) 0 l) (srcLane g (rrSrc w .c) 0 l)))) ∧
  (∀ p ∈ bitImmOps, ∀ (w : RI) (s : State) (g : Group) (k : Nat), Issues s g k → (p.1 w).wellFormed = true →
    (active g k w.toHdr = 0 → Lands (p.1 w) s g k g) ∧
    (active g k w.toHdr ≠ 0 → WritableRows g [w.d.toNat] → ReadableRows g (riSrc w).rows →
      Lands (p.1 w) s g k (writesRow g k w.toHdr w.d.toNat .raw fun l => p.2 w (srcLane g (riSrc w) 0 l))))

/-- MOVES AND ADDRESSES (R178, R181 to R184): IMADW writes a 64-bit sum to two rows; SEL chooses by a predicate; MOV copies a row or a half of a scalar; LEA writes a half of an address;
MOVI writes its literal; each with the tag its rule gives. -/
def Sys2Proof.Claims.MoveWords : Prop :=
  ∀ (s : State) (g : Group) (k : Nat), Issues s g k →
    (∀ w : RR, (Instr.imadw w).wellFormed = true → active g k w.toHdr ≠ 0 → WritableRows g [w.d.toNat, w.d.toNat + 1] →
      ReadableRows g (rowsOf [rrSrc w .a, rrSrc w .b, rrSrc w .c 2]) → TagsAgree g .i32 (rowsOf [rrSrc w .a, rrSrc w .b, rrSrc w .c 2]) →
      Lands (.imadw w) s g k (writeRows g [w.d.toNat, w.d.toNat + 1] (active g k w.toHdr) .i32 fun l =>
        let a := srcLane g (rrSrc w .a) 0 l
        let b := srcLane g (rrSrc w .b) 0 l
        let c : Dword := srcLane g (rrSrc w .c 2) 1 l ++ srcLane g (rrSrc w .c 2) 0 l
        let r : Dword := if assumeOf w.m = 0 then a.signExtend 64 * b.signExtend 64 + c else a.zeroExtend 64 * b.zeroExtend 64 + c
        [field r 31 0, field r 63 32])) ∧
    (∀ w : RR, (Instr.sel w).wellFormed = true → active g k w.toHdr ≠ 0 → WritableRows g [w.d.toNat] → ReadableRows g (rowsOf (sources 2 w)) →
      Lands (.sel w) s g k (writesRow g k w.toHdr w.d.toNat
        (if srcTag g (rrSrc w .a) = srcTag g (rrSrc w .b) then srcTag g (rrSrc w .a) else .raw) fun l =>
        if (preg g w.c.toNat).getLsbD l then srcLane g (rrSrc w .a) 0 l else srcLane g (rrSrc w .b) 0 l)) ∧
    (∀ w : RR, (Instr.mov w).wellFormed = true → active g k w.toHdr ≠ 0 → WritableRows g [w.d.toNat] →
      (fieldN w.m 1 0 = 0 → ReadableRows g (rrSrc w .a).rows →
        Lands (.mov w) s g k (writesRow g k w.toHdr w.d.toNat (srcTag g (rrSrc w .a)) fun l => srcLane g (rrSrc w .a) 0 l)) ∧
      (fieldN w.m 1 0 = 1 → Lands (.mov w) s g k (writesRow g k w.toHdr w.d.toNat .raw fun _ => field (sreg g w.a.toNat) 31 0)) ∧
      (fieldN w.m 1 0 = 2 → Lands (.mov w) s g k (writesRow g k w.toHdr w.d.toNat .raw fun _ => field (sreg g w.a.toNat) 63 32))) ∧
    (∀ w : RR, (Instr.lea w).wellFormed = true → active g k w.toHdr ≠ 0 → WritableRows g [w.d.toNat] → ReadableRows g (rrSrc w .b).rows →
      Lands (.lea w) s g k (writesRow g k w.toHdr w.d.toNat .raw fun l =>
        let x := srcLane g (rrSrc w .b) 0 l
        let sum : Dword := sreg g w.a.toNat + ((if w.m.getLsbD 4 then x.zeroExtend 64 else x.signExtend 64) <<< fieldN w.m 3 1)
        if w.m.getLsbD 0 then field sum 63 32 else field sum 31 0)) ∧
    (∀ w : RI, (Instr.leaImm w).wellFormed = true → active g k w.toHdr ≠ 0 → WritableRows g [w.d.toNat] →
      Lands (.leaImm w) s g k (writesRow g k w.toHdr w.d.toNat .raw fun _ =>
        let sum : Dword := sreg g w.a.toNat + w.imm.signExtend 64
        if w.m.getLsbD 0 then field sum 63 32 else field sum 31 0)) ∧
    (∀ w : WI, (Instr.movi w).wellFormed = true → active g k w.toHdr ≠ 0 → WritableRows g [w.d.toNat] →
      Lands (.movi w) s g k (writesRow g k w.toHdr w.d.toNat (Tag.ofCode (fieldN w.mw 4 2)) fun _ => match fieldN w.mw 1 0 with
        | 0 => w.imm.signExtend 32
        | 1 => w.imm.zeroExtend 32
        | _ => (w.imm ++ 0#5 : BitVec 32)))

/-- INDEX WORDS (R186): XSET, XADD and XMOV in its four modes write an index register, or a vector row, in the active lanes. -/
def Sys2Proof.Claims.IndexWords : Prop :=
  ∀ (s : State) (g : Group) (k : Nat), Issues s g k →
    (∀ w : RI, (Instr.xset w).wellFormed = true → active g k w.toHdr ≠ 0 → ReadableRows g (riSrc w).rows →
      Lands (.xset w) s g k (setX g w.d.toNat (active g k w.toHdr) (lanesOf fun l => BitVec.ofInt 16 ((srcLane g (riSrc w) 0 l).toInt + w.imm.toInt)))) ∧
    (∀ w : RI, (Instr.xadd w).wellFormed = true → active g k w.toHdr ≠ 0 →
      Lands (.xadd w) s g k (setX g w.d.toNat (active g k w.toHdr) (lanesOf fun l =>
        let sum := (laneOf (xreg g w.a.toNat) l).toInt + w.imm.toInt
        BitVec.ofInt 16 (if fieldN w.m 3 0 = 0 then sum else sum % (2 ^ fieldN w.m 3 0))))) ∧
    (∀ w : RR, (Instr.xmov w).wellFormed = true → active g k w.toHdr ≠ 0 →
      (fieldN w.m 1 0 = 0 → Lands (.xmov w) s g k (setX g w.d.toNat (active g k w.toHdr) (lanesOf (laneOf (xreg g w.a.toNat))))) ∧
      (fieldN w.m 1 0 = 1 → ReadableRows g (rrSrc w .a).rows →
        Lands (.xmov w) s g k (setX g w.d.toNat (active g k w.toHdr) (lanesOf fun l => field (srcLane g (rrSrc w .a) 0 l) 15 0))) ∧
      (fieldN w.m 1 0 = 2 → WritableRows g [w.d.toNat] →
        Lands (.xmov w) s g k (writesRow g k w.toHdr w.d.toNat .i32 fun l => (laneOf (xreg g w.a.toNat) l).signExtend 32)) ∧
      (fieldN w.m 1 0 = 3 → Lands (.xmov w) s g k (setX g w.d.toNat (active g k w.toHdr) (lanesOf fun _ => field (sreg g w.a.toNat) 15 0))))

namespace Sys2Proof.Claims

/-- The row a relative operand names in a lane (R187). -/
def relRow (g : Group) (x : Nat) (b : BitVec 9) (lane : Nat) : Int := (laneOf (xreg g x) lane).toInt + b.toInt

/-- It lies in the allotment. -/
def relIn (g : Group) (x : Nat) (b : BitVec 9) (lane : Nat) : Prop := 0 ≤ relRow g x b lane ∧ relRow g x b lane < g.allot

/-- Every active lane is a thread whose relative row is in the allotment and can be read (R187). -/
def relReady (g : Group) (m : Mask) (x : Nat) (b : BitVec 9) : Prop :=
  ∀ l < 32, m.getLsbD l = true → relIn g x b l ∧ ReadableRows g [(relRow g x b l).toNat]

end Sys2Proof.Claims

/-- RELATIVE READS (R187, R189): MOVR copies, lane by lane, the row its index register and offset name, with the common tag of the rows read or RAW; an index out of range in a thread lane
takes REGBOUND for the lowest such lane, with its effective index. -/
def Sys2Proof.Claims.RelativeRead : Prop :=
  ∀ (w : RR) (s : State) (g : Group) (k : Nat), Issues s g k → (Instr.movr w).wellFormed = true → active g k w.toHdr ≠ 0 →
    (active g k w.toHdr &&& g.helpers = 0 → WritableRows g [w.d.toNat] → relReady g (active g k w.toHdr) w.a.toNat w.b →
      ∃ tag, Lands (.movr w) s g k (writesRow g k w.toHdr w.d.toNat tag fun l =>
          if (active g k w.toHdr).getLsbD l then laneOf (row g (relRow g w.a.toNat w.b l).toNat).lanes l else 0) ∧
        (∀ t, (∀ l < 32, (active g k w.toHdr).getLsbD l = true → (row g (relRow g w.a.toNat w.b l).toNat).tag = t) → tag = t) ∧
        ((∃ l < 32, ∃ l' < 32, (active g k w.toHdr).getLsbD l = true ∧ (active g k w.toHdr).getLsbD l' = true ∧
          (row g (relRow g w.a.toNat w.b l).toNat).tag ≠ (row g (relRow g w.a.toNat w.b l').toNat).tag) → tag = .raw)) ∧
    (∀ l < 32, w.d.toNat < g.allot → (threadsOf g (active g k w.toHdr)).getLsbD l = true → ¬ relIn g w.a.toNat w.b l →
      (∀ l' < l, (threadsOf g (active g k w.toHdr)).getLsbD l' = true → relIn g w.a.toNat w.b l') →
      exec (.movr w) s = .next (s.takeTrap g.gid k (active g k w.toHdr) .regbound (some l) (BitVec.ofInt 64 (relRow g w.a.toNat w.b l))).turnOver)

/-- RELATIVE WRITES (R188, R189): MOVW writes its source, lane by lane, into the row each lane names, and no other lane of any row; every row it names takes the source's tag and is full. -/
def Sys2Proof.Claims.RelativeWrite : Prop :=
  ∀ (w : RR) (s : State) (g : Group) (k : Nat), Issues s g k → (Instr.movw w).wellFormed = true → active g k w.toHdr ≠ 0 → active g k w.toHdr &&& g.helpers = 0 →
    mapWf rowZero g.rows = true → ReadableRows g (rrSrc w .a).rows →
    (∀ l < 32, (active g k w.toHdr).getLsbD l = true → relIn g w.d.toNat w.b l ∧ (row g (relRow g w.d.toNat w.b l).toNat).full = true) →
    ∃ g', Lands (.movw w) s g k g' ∧ g' = { g with rows := g'.rows, since := g'.since } ∧
      ∀ r : Nat, ∀ l < 32,
        laneOf (row g' r).lanes l =
          (if (active g k w.toHdr).getLsbD l = true ∧ relRow g w.d.toNat w.b l = (r : Int) then srcLane g (rrSrc w .a) 0 l else laneOf (row g r).lanes l) ∧
        ((∃ j < 32, (active g k w.toHdr).getLsbD j = true ∧ relRow g w.d.toNat w.b j = (r : Int)) →
          (row g' r).tag = srcTag g (rrSrc w .a) ∧ (row g' r).full = true) ∧
        ((¬ ∃ j < 32, (active g k w.toHdr).getLsbD j = true ∧ relRow g w.d.toNat w.b j = (r : Int)) → row g' r = row g r)

namespace Sys2Proof.Claims

/-- Floating words on vector sources: number of sources, and the encoding of one element's result from the encodings of its operands (R197 to R200). -/
def floatOps : List ((RR → Instr) × Nat × (Rnd → Bool → Num.Fp → Nat → Nat → Nat → Nat)) :=
  [(.fadd, 2, fun r z f a b _ => Num.fsum f r z [Num.fdec f z a, Num.fdec f z b]),
   (.fsub, 2, fun r z f a b _ => Num.fsum f r z [Num.fdec f z a, (Num.fdec f z b).neg]),
   (.fmul, 2, fun r z f a b _ => Num.fround f r z false (Num.fprod (Num.fdec f z a) (Num.fdec f z b))),
   (.ffma, 3, fun r z f a b c => Num.fsum f r z [Num.fprod (Num.fdec f z a) (Num.fdec f z b), Num.fdec f z c]),
   (.fmin, 2, fun _ z f a b _ => Num.fpick f z false a b), (.fmax, 2, fun _ z f a b _ => Num.fpick f z true a b),
   (.frcp, 1, fun r z f a _ _ => Num.frcp f r z (Num.fdec f z a)), (.frsq, 1, fun r z f a _ _ => Num.frsq f r z (Num.fdec f z a)),
   (.fsqrt, 1, fun r z f a _ _ => Num.fsqrt f r z (Num.fdec f z a)), (.fexp2, 1, fun r z f a _ _ => Num.fexp2 f r z a (Num.fdec f z a)),
   (.flog2, 1, fun r z f a _ _ => Num.flog2 f r z a (Num.fdec f z a)), (.fsin, 1, fun r z f a _ _ => Num.fsin f r z a (Num.fdec f z a)),
   (.fcos, 1, fun r z f a _ _ => Num.fcos f r z a (Num.fdec f z a))]

/-- FP32 words with an immediate whose low 14 bits are zero (R196). -/
def floatImmOps : List ((RI → Instr) × (RI → Nat → Nat → Nat)) :=
  [(.faddImm, fun w a b => Num.fsum Num.fp32 (rndOf w.m) (fzOf w.m) [Num.fdec Num.fp32 (fzOf w.m) a, Num.fdec Num.fp32 (fzOf w.m) b]),
   (.fmulImm, fun w a b => Num.fround Num.fp32 (rndOf w.m) (fzOf w.m) false (Num.fprod (Num.fdec Num.fp32 (fzOf w.m) a) (Num.fdec Num.fp32 (fzOf w.m) b))),
   (.fminImm, fun w a b => Num.fpick Num.fp32 (fzOf w.m) false a b), (.fmaxImm, fun w a b => Num.fpick Num.fp32 (fzOf w.m) true a b)]

/-- Packed words (R202): number of sources, and the result of one element before it is placed, from rounding, saturation and the operands' encodings. -/
def packedOps : List ((RR → Instr) × Nat × (Num.Fp → Rnd → Bool → Nat → Nat → Nat → Nat)) :=
  [(.hadd2, 2, fun f r t a b _ => packedClamp f t (Num.fsum f r false [Num.fdec f false a, Num.fdec f false b])),
   (.hmul2, 2, fun f r t a b _ => Num.fround f r false t (Num.fprod (Num.fdec f false a) (Num.fdec f false b))),
   (.hfma2, 3, fun f r t a b c => packedClamp f t (Num.fsum f r false [Num.fprod (Num.fdec f false a) (Num.fdec f false b), Num.fdec f false c]))]

/-- The element format of a floating FMT code, and its tag (R125, R147). -/
def floatFormat (code : Nat) : Num.Fp × Tag := match code with
  | 1 => (Num.bf16, .bf16x2)
  | 2 => (Num.fp16, .f16x2)
  | _ => (Num.fp32, .f32)

/-- A word whose elements are each computed from the operands' elements. -/
def floatWord (f : Num.Fp) (op : Nat → Nat → Nat → Nat) (a b c : Word) : Word :=
  if f.width = 32 then BitVec.ofNat 32 (op a.toNat b.toNat c.toNat % 2 ^ 32)
  else BitVec.ofNat 32 (op (a.toNat % 2 ^ 16) (b.toNat % 2 ^ 16) (c.toNat % 2 ^ 16) % 2 ^ 16 +
    op (a.toNat / 2 ^ 16) (b.toNat / 2 ^ 16) (c.toNat / 2 ^ 16) % 2 ^ 16 * 2 ^ 16)

end Sys2Proof.Claims

/-- NATIVE FLOATING WORDS (R195 to R200): FADD, FSUB, FMUL, FFMA, FMIN, FMAX, FRCP, FRSQ, FSQRT, FEXP2, FLOG2, FSIN and FCOS, and FADD, FMUL, FMIN and FMAX with an immediate, write the
result of each element in the active lanes, tagged with their format. -/
def Obligations.NativeFloat : Prop :=
  (∀ p ∈ floatOps, ∀ (w : RR) (s : State) (g : Group) (k : Nat), Issues s g k → (p.1 w).wellFormed = true →
    (active g k w.toHdr = 0 → Lands (p.1 w) s g k g) ∧
    (w.form = .native → active g k w.toHdr ≠ 0 → WritableRows g [w.d.toNat] → ReadableRows g (rowsOf (sources p.2.1 w)) →
    TagsAgree g (floatFormat (assumeOf w.m)).2 (rowsOf (sources p.2.1 w)) →
    Lands (p.1 w) s g k (writesRow g k w.toHdr w.d.toNat (floatFormat (assumeOf w.m)).2 fun l =>
      floatWord (floatFormat (assumeOf w.m)).1 (p.2.2 (rndOf w.m) (fzOf w.m) (floatFormat (assumeOf w.m)).1)
        (srcLane g (rrSrc w .a) 0 l) (srcLane g (rrSrc w .b) 0 l) (srcLane g (rrSrc w .c) 0 l)))) ∧
  (∀ p ∈ floatImmOps, ∀ (w : RI) (s : State) (g : Group) (k : Nat), Issues s g k → (p.1 w).wellFormed = true →
    active g k w.toHdr ≠ 0 → WritableRows g [w.d.toNat] → ReadableRows g (riSrc w).rows → TagsAgree g .f32 (riSrc w).rows →
    Lands (p.1 w) s g k (writesRow g k w.toHdr w.d.toNat .f32 fun l =>
      BitVec.ofNat 32 (p.2 w (srcLane g (riSrc w) 0 l).toNat (w.imm.toNat * 2 ^ 14))))

/-- PACKED WORDS (R201, R202): HADD2, HMUL2 and HFMA2 work on the two halves of their sources, with the selected halves of B. -/
def Sys2Proof.Claims.PackedFloat : Prop :=
  ∀ p ∈ packedOps, ∀ (w : RR) (s : State) (g : Group) (k : Nat), Issues s g k → (p.1 w).wellFormed = true → active g k w.toHdr ≠ 0 →
    WritableRows g [w.d.toNat] → ReadableRows g (rowsOf (sources p.2.1 w)) →
    TagsAgree g (if w.m.getLsbD 5 then .f16x2 else .bf16x2) (rowsOf (sources p.2.1 w)) →
    Lands (p.1 w) s g k (writesRow g k w.toHdr w.d.toNat (if w.m.getLsbD 5 then .f16x2 else .bf16x2) fun l =>
      let f := if w.m.getLsbD 5 then Num.fp16 else Num.bf16
      let half (x : Word) (j : Nat) : Nat := if j = 0 then x.toNat % 2 ^ 16 else x.toNat / 2 ^ 16
      let sel (j : Nat) : Nat := if fieldN w.m 1 0 = 0 then j else if fieldN w.m 1 0 = 1 then 0 else if fieldN w.m 1 0 = 2 then 1 else 1 - j
      let el (j : Nat) : Nat := p.2.2 f (Rnd.ofCode (fieldN w.m 4 3)) (w.m.getLsbD 2)
        (half (srcLane g (rrSrc w .a) 0 l) j) (half (srcLane g (rrSrc w .b) 0 l) (sel j)) (half (srcLane g (rrSrc w .c) 0 l) j)
      BitVec.ofNat 32 (el 0 % 2 ^ 16 + el 1 % 2 ^ 16 * 2 ^ 16))

/-- CONVERSIONS (R203 to R205): a native CVT of a pair that R204 lists, on readable rows of its source format whose scale bytes name a scale, writes its destination rows with the
destination's tag. -/
def Sys2Proof.Claims.Conversion : Prop :=
  ∀ (w : RR) (s : State) (g : Group) (k : Nat) (pl : CvtPlan), Issues s g k → (Instr.cvt w).wellFormed = true →
    (active g k w.toHdr = 0 → Lands (.cvt w) s g k g) ∧
    (w.form = .native → active g k w.toHdr ≠ 0 → cvtPlan w (Tag.ofCode (srcfOf w.m)) = some pl → WritableRows g pl.d → ReadableRows g (pl.a.rows ++ rowsOf pl.b) →
    TagsAgree g (Tag.ofCode (srcfOf w.m)) pl.a.rows → (∀ t, pl.pair.b = some t → TagsAgree g t (rowsOf pl.b)) →
    (pl.pair.b = some .blk → ∀ l < 32, (threadsOf g (active g k w.toHdr)).getLsbD l = true → ∀ v ∈ pl.b,
      (srcLane g v 0 l).extractLsb' (8 * (l / 8)) 8 ≠ (255#8)) →
    Lands (.cvt w) s g k (writeRows g pl.d (active g k w.toHdr) (Tag.ofCode (dstfOf w.c)) fun l =>
      cvtLane (Tag.ofCode (srcfOf w.m)) (Tag.ofCode (dstfOf w.c)) pl.pair (cvtRnd w.m) (cvtFz w.c) (cvtSat w.c)
        ((List.range pl.a.n).map fun j => srcLane g pl.a j l) (match pl.b with | v :: _ => srcLane g v 0 l | [] => 0) l))

/-- QUAD EXCHANGES (R133, R207): QSWAP and QBCAST copy another lane's value of the quad, with the source's tag; QRED reduces the active members of each quad. -/
def Sys2Proof.Claims.QuadExchange : Prop :=
  ∀ (w : RR) (s : State) (g : Group) (k : Nat), Issues s g k → active g k w.toHdr ≠ 0 → WritableRows g [w.d.toNat] → ReadableRows g (rrSrc w .a).rows →
    ((Instr.qswap w).wellFormed = true →
      Lands (.qswap w) s g k (writesRow g k w.toHdr w.d.toNat (srcTag g (rrSrc w .a)) fun l => srcLane g (rrSrc w .a) 0 (Nat.xor l (fieldN w.m 1 0)))) ∧
    ((Instr.qbcast w).wellFormed = true →
      Lands (.qbcast w) s g k (writesRow g k w.toHdr w.d.toNat (srcTag g (rrSrc w .a)) fun l => srcLane g (rrSrc w .a) 0 (4 * (l / 4) + fieldN w.m 1 0))) ∧
    ((Instr.qred w).wellFormed = true →
      (∀ t, redNeeds (RedOp.ofCode (fieldN w.m 3 0)) (RedFmt.ofCode (assumeOf w.m)) = some t → TagsAgree g t (rrSrc w .a).rows) →
      Lands (.qred w) s g k (writesRow g k w.toHdr w.d.toNat (redTag (RedFmt.ofCode (assumeOf w.m))) fun l =>
        let v (m : Nat) : Word := if (active g k w.toHdr).getLsbD m then srcLane g (rrSrc w .a) 0 m
          else Num.ident (RedOp.ofCode (fieldN w.m 3 0)) (RedFmt.ofCode (assumeOf w.m))
        Num.qtree (RedOp.ofCode (fieldN w.m 3 0)) (RedFmt.ofCode (assumeOf w.m)) (v (4 * (l / 4))) (v (4 * (l / 4) + 1)) (v (4 * (l / 4) + 2))
          (v (4 * (l / 4) + 3))))

/-- SHUFFLE (R208): SHFL reads, in each active lane, the lane of its segment that its mode and control name when that lane is active, and its own lane otherwise; the row takes the tag of A. -/
def Sys2Proof.Claims.Shuffle : Prop :=
  ∀ (w : RR) (s : State) (g : Group) (k : Nat), Issues s g k → (Instr.shfl w).wellFormed = true → active g k w.toHdr ≠ 0 → WritableRows g [w.d.toNat] →
    ReadableRows g (rowsOf (sources 2 w)) →
    Lands (.shfl w) s g k (writesRow g k w.toHdr w.d.toNat (srcTag g (rrSrc w .a)) fun l =>
      let seg := 2 ^ fieldN w.m 4 2
      let i := l % seg
      let b := (srcLane g (rrSrc w .b) 0 l).toNat
      let j : Int := if fieldN w.m 1 0 = 0 then ((b % seg : Nat) : Int) else if fieldN w.m 1 0 = 1 then ((Nat.xor i (b % seg) : Nat) : Int)
        else if fieldN w.m 1 0 = 2 then (i : Int) - b else (i : Int) + b
      if 0 ≤ j ∧ j < seg ∧ (active g k w.toHdr).getLsbD (l - i + j.toNat) = true then srcLane g (rrSrc w .a) 0 (l - i + j.toNat)
      else srcLane g (rrSrc w .a) 0 l)

/-- PAIRS (R209, R211): XPAIR toward a group that does not exist writes 2; toward a group with splits parked in an XPAIR that names this one it writes 0 to both, pairs them and makes every such split runnable;
otherwise its split parks until then or until its limit. -/
def Sys2Proof.Claims.Pairing : Prop :=
  ∀ (w : RI) (s : State) (g : Group) (k : Nat), Issues s g k → (Instr.xpair w).wellFormed = true → executesIn g k w.toHdr = true → g.pair = none → g.xshufs = [] →
    let a := sreg g w.a.toNat
    let peer := if g.nblocks ≤ fieldN a 13 10 ∨ fieldN a 13 10 = g.block ∨ g.ngroups ≤ fieldN a 9 0 then none
      else s.peerGid g.lid g.span (fieldN a 13 10) (fieldN a 9 0)
    (peer = none → Lands (.xpair w) s g k (setS g w.d.toNat 2)) ∧
    (∀ p, peer = some p → (∀ h, s.group? p = some h → xpairWaits h g.gid = []) →
      exec (.xpair w) s = .next (s.setGroup (setEntry g k { entry g k with
        state := .waitPark, wait := .xpair w.d.toNat p (if w.imm = 0 then none else some (w.imm.toNat * 64)), age := 0, ibuf := none, turns := 0 })).turnOver) ∧
    (∀ p h, peer = some p → p ≠ g.gid → s.group? p = some h → h.pair = none → xpairWaits h g.gid ≠ [] →
      exec (.xpair w) s = .next (landed (s.modGroup p fun h => { (xpairWaits h g.gid).foldl (fun h x => wakeWith h x.1 x.2 0) h with pair := some g.gid }) { setS g w.d.toNat 0 with pair := some p } k ((entry g k).pc + 8)))

/-- EXCHANGE BETWEEN PAIRED GROUPS (R210): XSHUF of a group without a partner copies its own row; of a paired group whose partner has no XSHUF of its tag it empties its destination row and
waits beside the program; when the partner's has come, each group's row receives the other's values where the other was active, and its own elsewhere. -/
def Sys2Proof.Claims.CrossShuffle : Prop :=
  ∀ (w : RI) (s : State) (g : Group) (k : Nat), Issues s g k → (Instr.xshuf w).wellFormed = true → active g k w.toHdr ≠ 0 → WritableRows g [w.d.toNat] →
    ReadableRows g (riSrc w).rows →
    let mine : XShuf := { dst := w.d.toNat, xtag := w.imm.truncate 8, active := active g k w.toHdr, val := lanesOf (srcLane g (riSrc w) 0), vtag := srcTag g (riSrc w) }
    (g.pair = none → Lands (.xshuf w) s g k (writesRow g k w.toHdr w.d.toNat (srcTag g (riSrc w)) fun l => srcLane g (riSrc w) 0 l)) ∧
    (∀ p other, g.pair = some p → p ≠ g.gid → s.anyGroup? p = some other → g.xshufs.length < 4 →
      ((∀ x ∈ other.xshufs, x.xtag ≠ mine.xtag) →
        Lands (.xshuf w) s g k { setRow g w.d.toNat { row g w.d.toNat with full := false } with xshufs := g.xshufs ++ [mine] }) ∧
      (∀ theirs, other.xshufs.find? (fun x => x.xtag == mine.xtag) = some theirs →
        exec (.xshuf w) s = .next (landed (s.setGroup (xshufMeet other theirs mine)) (xshufMeet g mine theirs) k ((entry g k).pc + 8))))

namespace Sys2Proof.Claims

/-- Loads: width in bytes, destination rows, sign extension, tag (R216). -/
def loadOps : List ((ML → Instr) × Nat × Nat × Bool × (ML → Tag)) :=
  [(.ldB8, 1, 1, false, fun _ => .raw), (.ldS8, 1, 1, true, fun _ => .i32), (.ldB16, 2, 1, false, fun _ => .raw), (.ldS16, 2, 1, true, fun _ => .i32),
   (.ld, 4, 1, false, fun w => Tag.ofCode w.tag.toNat), (.ldB64, 8, 2, false, fun _ => .raw), (.ldB128, 16, 4, false, fun _ => .raw)]

/-- Stores: width in bytes and data rows (R218). -/
def storeOps : List ((MS → Instr) × Nat × Nat) := [(.stB8, 1, 1), (.stB16, 2, 1), (.st, 4, 1), (.stB64, 8, 2), (.stB128, 16, 4)]

/-- n rows from r on. -/
def rowsFrom (r n : Nat) : List Nat := (List.range n).map (r + ·)

/-- The rows of an address: none when it is a scalar, else a pair (R213). -/
def addrRows (a : BitVec 9) (ak : Bool) : List Nat := if ak then [] else [a.toNat, a.toNat + 1]

/-- The address of a lane: a scalar or a pair of rows, plus the offset (R213). -/
def laneVa (g : Group) (a : BitVec 9) (ak : Bool) (ofs : Dword) (l : Nat) : Dword :=
  (if ak then sreg g a.toNat else laneOf (row g (a.toNat + 1)).lanes l ++ laneOf (row g a.toNat).lanes l) + ofs

/-- Every lane of the mask is a thread whose address passes step 6 in the space the word demands, and hits no watch slot (R153, R288). -/
def AddressesPass (s : State) (g : Group) (m : Mask) (size : Nat) (sp : Option Space) (rd wr : Bool) (va : Nat → Dword) : Prop :=
  m &&& g.helpers = 0 ∧ ∀ l < 32, m.getLsbD l = true → s.addrFault g.part size sp (va l) = none ∧ s.watched g (va l) size rd wr = false

/-- No storage is changed. -/
def SameMemory (s t : State) : Prop := t.dram = s.dram ∧ t.scratch = s.scratch ∧ t.cistern = s.cistern ∧ t.host = s.host ∧ t.peer = s.peer

/-- No update-only copy of a line stands in a cache or is on its way home, so that no walk of the page tables has one to recall (R79). -/
def NoPartials (s : State) : Prop := (∀ l ∈ s.l1, isU l.st = false) ∧ s.uevicts = []

/-- No access leaves memory undefined, and no walk combines update-only copies: no weir operation is in flight (R230), at most one partition runs (R371), no copy is update-only. -/
def Steady (s : State) : Prop := s.weir = [] ∧ s.runners.length < 2 ∧ NoPartials s

/-- No access of the group has to wait: no acquire is outstanding and no fence of another split (R102, R217, R226). -/
def Unheld (g : Group) : Prop := g.holds = [] ∧ fencing g = false

/-- The group as a word leaves it that has gone on to the next word with its registers and queues as in g'. -/
def advanced (g' : Group) (k : Nat) (pc : Dword) : Group :=
  setEntry g' k { entry g' k with pc := pc + 8, age := 0, ibuf := none, turns := 0 }

/-- An access to this line would be the first of its core's: the core's L1 holds no copy, no access waits in it, no request for it is under way, and no `ald` of the group has still to read it. -/
def FirstAtLine (s : State) (g : Group) (line : Nat) : Prop :=
  s.l1Line? g.core line = none ∧ (∀ p ∈ s.pends, p.core = g.core → p.line ≠ line) ∧ s.outstanding g.core line = false ∧ s.asyHolds g.gid line = false

/-- In t an access to address addr, outside host memory, waits in the core's L1 for its line, and the line has been asked of the directory that keeps it (R75, R77). -/
def Asked (t : State) (g : Group) (addr : Nat) (act : PendAct) (kind : ReqKind) : Prop :=
  (∃ p ∈ t.pends, p.core = g.core ∧ p.line = addr / 128 ∧ p.gid = g.gid ∧ p.part = g.part ∧ p.act = act) ∧
  ∃ q ∈ t.reqs, q.gid = g.gid ∧ q.line = addr / 128 ∧ q.src = .l1 g.core ∧ q.node = nodeFor g.core (addr / 128) ∧ q.kind = kind

/-- A group with some rows marked empty (R214). -/
def emptied (g : Group) (rows : List Nat) : Group := rows.foldl (fun g r => setRow g r { row g r with full := false }) g

end Sys2Proof.Claims

/-- LOADS (R213, R214, R216, R217): a relaxed load without an active lane only moves the PC; a native load of any width, with an active lane, passing addresses, no acquire or fence outstanding and nothing of its core or group under way to its lines that it must follow (R98), completes: its destination rows are empty, a return for them in the
active lanes is open, no other register has changed and, where no access leaves memory undefined (R79, R230, R371), no byte of memory; every lane in a scratch or cistern window has a request for its bytes under way to that storage; every lane at a line of which the core's L1 holds no copy and asks for none waits there for its bytes, and the line is asked of its
directory for reading (R75); a lane in host memory has its bytes at once, since no cache holds its lines (R374). -/
def Sys2Proof.Claims.Loads : Prop :=
  (∀ p ∈ loadOps, ∀ (w : ML) (s : State) (g : Group) (k : Nat), Issues s g k → (p.1 w).wellFormed = true → active g k w.toHdr = 0 → Unheld g → w.ordsc = 0 →
    Lands (p.1 w) s g k g) ∧
  ∀ p ∈ loadOps, ∀ (w : ML) (s s1 : State) (g : Group) (k : Nat) (accs : List LaneAcc), Issues s g k → (p.1 w).wellFormed = true → w.form = .native →
    active g k w.toHdr ≠ 0 → Unheld g → WritableRows g (rowsFrom w.d.toNat p.2.2.1) → ReadableRows g (addrRows w.a (akOf w.m)) →
    AddressesPass s g (active g k w.toHdr) p.2.1 (Space.ofCode (fieldN w.m 5 4)) true false (laneVa g w.a (akOf w.m) (w.ofs.signExtend 64)) →
    s.resolve g needR false ((maskLanes (active g k w.toHdr)).map fun l => (l, laneVa g w.a (akOf w.m) (w.ofs.signExtend 64) l)) = (s1, accs, none) →
    s1.loadBehind g p.2.1 accs = false →
    ∃ t, exec (p.1 w) s = .next t ∧ t.cur = none ∧ (Steady s → SameMemory s t) ∧
      t.group? g.gid = some (advanced { emptied g (rowsFrom w.d.toNat p.2.2.1) with
        holds := if (Scope.ofCode w.ordsc.toNat).isSome then [s1.nextId] else [] } k (entry g k).pc) ∧
      (∃ r ∈ t.rets, r.id = s1.nextId ∧ r.gid = g.gid ∧ r.row = w.d.toNat ∧ r.count = p.2.2.1 ∧ r.lanes = active g k w.toHdr ∧ r.tag = p.2.2.2.2 w ∧
        r.acq = (Scope.ofCode w.ordsc.toNat).isSome ∧ r.cis = false ∧ r.weir = false ∧
        ∀ a ∈ accs, a.space = .global → a.attr = 1 →
          (a.lane, loadWord (s1.host.read 0 a.addr p.2.1) p.2.1 p.2.2.2.1, s1.host.anyPoison 0 a.addr p.2.1) ∈ r.vals) ∧
      (∀ a ∈ accs, a.space = .global → a.attr ≠ 1 → FirstAtLine s1 g (a.addr / 128) →
        Asked t g a.addr (.load s1.nextId a.lane (a.addr % 128) p.2.1 p.2.2.2.1) .getS) ∧
      (∀ l < 32, (active g k w.toHdr).getLsbD l = true → ∀ sp, windowOf (laneVa g w.a (akOf w.m) (w.ofs.signExtend 64) l) = some sp → sp ≠ .global →
        ∃ n ∈ t.near, n.space = sp ∧ n.addr = storageKey g.core (laneVa g w.a (akOf w.m) (w.ofs.signExtend 64) l) sp ∧ n.gid = g.gid ∧ n.gen = s.genOf g.part ∧
          ∃ lanes, n.act = .load s1.nextId lanes p.2.1 p.2.2.2.1 ∧ lanes.getLsbD l = true)

/-- STORES (R103, R118, R213, R218, R219): a release store is passed over, with nothing changed, until its group's earlier accesses are performed at its scope (that it waits as a word that is not ready is the model's choice, log 20), and then completes; a native relaxed store of any width, with passing addresses outside host memory and no acquire or fence outstanding, completes: no register and, where no access leaves memory undefined (R79, R230, R371), no byte of
storage has changed yet, every lane in a scratch or cistern window has its bytes under way to that storage, and every lane at a line of which the core's L1 holds no copy and asks for none has its bytes waiting there while the
line is asked of its directory for writing (R75). -/
def Obligations.Stores : Prop :=
  (∀ p ∈ storeOps, ∀ (w : MS) (s : State) (g : Group) (k : Nat), Issues s g k → (p.1 w).wellFormed = true → Unheld g →
    (threadsOf g (active g k w.toHdr) = 0 → w.ordsc = 0 → Lands (p.1 w) s g k g) ∧
    (∀ sc, threadsOf g (active g k w.toHdr) ≠ 0 → Scope.ofCode w.ordsc.toNat = some sc → s.performedFor g.gid (some sc) = false → exec (p.1 w) s = .next s) ∧
    (∀ sc s1 accs, threadsOf g (active g k w.toHdr) ≠ 0 → w.form = .native → Scope.ofCode w.ordsc.toNat = some sc → s.performedFor g.gid (some sc) = true →
      ReadableRows g (addrRows w.a (akOf w.m) ++ rowsFrom w.b.toNat p.2.2) →
      AddressesPass s g (active g k w.toHdr) p.2.1 (Space.ofCode (fieldN w.m 5 4)) false true (laneVa g w.a (akOf w.m) (w.ofs.signExtend 64)) →
      s.resolve g needW true ((maskLanes (active g k w.toHdr)).map fun l => (l, laneVa g w.a (akOf w.m) (w.ofs.signExtend 64) l)) = (s1, accs, none) →
      s1.storeBehind g p.2.1 accs = false → (∀ a ∈ accs, a.attr ≠ 1) →
      ∃ t scr, exec (p.1 w) s = .next t ∧ t.cur = none ∧ t.scratch = s.scratch ∧ t.cistern = s.cistern ∧ t.host = s.host ∧
        (Steady s → (∀ l ∈ s.l1, l.core = g.core → isPeer l.line = false) → t.peer = s.peer) ∧
        t.group? g.gid = some (advanced { g with scrSince := scr } k (entry g k).pc))) ∧
  ∀ p ∈ storeOps, ∀ (w : MS) (s s1 : State) (g : Group) (k : Nat) (accs : List LaneAcc), Issues s g k → (p.1 w).wellFormed = true → w.form = .native →
    active g k w.toHdr ≠ 0 → Unheld g → w.ordsc = 0 → ReadableRows g (addrRows w.a (akOf w.m) ++ rowsFrom w.b.toNat p.2.2) →
    AddressesPass s g (active g k w.toHdr) p.2.1 (Space.ofCode (fieldN w.m 5 4)) false true (laneVa g w.a (akOf w.m) (w.ofs.signExtend 64)) →
    s.resolve g needW true ((maskLanes (active g k w.toHdr)).map fun l => (l, laneVa g w.a (akOf w.m) (w.ofs.signExtend 64) l)) = (s1, accs, none) →
    s1.storeBehind g p.2.1 accs = false → (∀ a ∈ accs, a.attr ≠ 1) →
    ∃ t scr, exec (p.1 w) s = .next t ∧ t.cur = none ∧ (Steady s → SameMemory s t) ∧
      t.group? g.gid = some (advanced { g with scrSince := scr } k (entry g k).pc) ∧
      (∀ l < 32, (active g k w.toHdr).getLsbD l = true → ∀ sp, windowOf (laneVa g w.a (akOf w.m) (w.ofs.signExtend 64) l) = some sp → sp ≠ .global →
        ∃ n ∈ t.near, n.space = sp ∧ n.addr = storageKey g.core (laneVa g w.a (akOf w.m) (w.ofs.signExtend 64) l) sp ∧ n.gid = g.gid ∧ n.gen = s.genOf g.part ∧
          n.act = .store (dataBytes g w.b.toNat l p.2.1)) ∧
      (∀ a ∈ accs, a.space = .global → FirstAtLine s1 g (a.addr / 128) →
        Asked t g a.addr (.store (a.addr % 128) (dataBytes g w.b.toNat a.lane p.2.1) false) .getM)

namespace Sys2Proof.Claims

/-- Rows of a result or operand of `atom` and `cas`: two under W = 1 (R224). -/
def wordRows (w : MA) (r : BitVec 9) : List Nat := rowsFrom r.toNat (if w.m.getLsbD 0 then 2 else 1)

/-- A 32- or 64-bit operand of a lane. -/
def wordOperand (g : Group) (w : MA) (r : BitVec 9) (l : Nat) : Dword :=
  if w.m.getLsbD 0 then laneOf (row g (r.toNat + 1)).lanes l ++ laneOf (row g r.toNat).lanes l else (laneOf (row g r.toNat).lanes l).zeroExtend 64

/-- The operation of a lane of `atom`: OP and FMT of its extension, B as operand, the return it answers (R225, R226). -/
def atomSent (g : Group) (w : MA) (l ret : Nat) : AtomOp :=
  { lane := l, ret := some ret, w64 := w.m.getLsbD 0, cas := false, op := (if atomOp w.c < 8 then some (RedOp.ofCode (atomOp w.c)) else none),
    fmt := (if w.m.getLsbD 0 then .i64 else RedFmt.ofCode (atomFmt w.c)), b := wordOperand g w w.b l, c := 0 }

/-- The operation of a lane of `cas`: compare with B, write C (R228). -/
def casSent (g : Group) (w : MA) (l ret : Nat) : AtomOp :=
  { lane := l, ret := some ret, w64 := w.m.getLsbD 0, cas := true, op := none, fmt := .i32, b := wordOperand g w w.b l, c := wordOperand g w w.c l }

/-- A row in which the lanes of a return land: zero where a value is poisoned (R214, R215). -/
def landedRow (g : Group) (r : Ret) (j : Nat) : VRow :=
  { lanes := blend r.lanes (lanesOf fun l => if (retVal r l).2 then 0 else ((retVal r l).1 >>> (32 * j)).truncate 32) (row g (r.row + j)).lanes,
    tag := r.tag, full := true,
    poison := (row g (r.row + j)).poison && r.lanes != 0xFFFFFFFF || (maskLanes (threadsOf g r.lanes)).any fun l => (retVal r l).2 }

/-- The conditions in which an atomic word without a release goes out (R213, R224): its active lanes are threads, its rows can be read and written, its addresses pass and resolve, and no line of it waits in
the core's L1. -/
def AtomicReady (s s1 : State) (g : Group) (k : Nat) (w : MA) (dst srcs : List Nat) (accs : List LaneAcc) : Prop :=
  active g k w.toHdr ≠ 0 ∧ Unheld g ∧ w.m.getLsbD 5 = false ∧ WritableRows g dst ∧ ReadableRows g (addrRows w.a false ++ srcs) ∧
    AddressesPass s g (active g k w.toHdr) (if w.m.getLsbD 0 then 8 else 4) (some (if w.m.getLsbD 1 then .scratch else .global)) true true (laneVa g w.a false 0) ∧
    s.resolve g needRW true ((maskLanes (active g k w.toHdr)).map fun l => (l, laneVa g w.a false 0 l)) = (s1, accs, none) ∧
    (∀ a ∈ accs, a.attr ≠ 1) ∧ (∀ a ∈ accs, a.space = .global → s1.outstanding g.core (a.addr / 128) = false ∧ s1.asyHolds g.gid (a.addr / 128) = false)

/-- The word is an acquire: later accesses of its group wait for its result (R217, R224, R226). -/
def acquires (w : MA) : Bool := w.m.getLsbD 4 && (Scope.ofCode w.sc.toNat).isSome

/-- What an atomic word leaves: its rows empty with a return open for the active lanes, its group otherwise gone on, no storage changed since the state `s1` in which its addresses stood
translated, nor before, where no walk had an update-only copy to recall. -/
def AtomicSent (s s1 t : State) (g : Group) (k : Nat) (w : MA) (dst : List Nat) (tag : Tag) : Prop :=
  t.cur = none ∧ SameMemory s1 t ∧ (NoPartials s → SameMemory s t) ∧ (∃ scr, t.group? g.gid = some (advanced { emptied g dst with
      scrSince := scr, holds := if acquires w then [s1.nextId] else [] } k (entry g k).pc)) ∧
    ∃ r ∈ t.rets, r.id = s1.nextId ∧ r.gid = g.gid ∧ r.row = w.d.toNat ∧ r.count = dst.length ∧ r.lanes = active g k w.toHdr ∧ r.tag = tag ∧ r.acq = acquires w

end Sys2Proof.Claims

/-- ATOMICS (R224 to R228): an ATOM or CAS without a release, with passing addresses, completes, with its destination rows empty, a return open that later
accesses wait for when it is an acquire, and no byte of storage changed before its unit performs it; one in
scratch has each lane's operation under way to its scratchpad; a RED without a release completes with no return;
one that is a release is passed over, with nothing changed, until its group's earlier accesses are performed at its scope, which is the model's choice (log 20). -/
def Obligations.Atomics : Prop :=
  ∀ (w : MA) (s s1 : State) (g : Group) (k : Nat) (accs : List LaneAcc), Issues s g k →
    (∀ sc, ∀ i ∈ [Instr.atom w, Instr.cas w, Instr.red w], i.wellFormed = true → Unheld g → threadsOf g (active g k w.toHdr) ≠ 0 → w.m.getLsbD 5 = true →
      Scope.ofCode w.sc.toNat = some sc → s.performedFor g.gid (some sc) = false → exec i s = .next s) ∧
    ((Instr.atom w).wellFormed = true → AtomicReady s s1 g k w (wordRows w w.d) (wordRows w w.b) accs →
      (atomOp w.c < 5 → TagsAgree g (if w.m.getLsbD 0 then .i32 else redTag (RedFmt.ofCode (atomFmt w.c))) (wordRows w w.b)) →
      ∃ t tag, exec (.atom w) s = .next t ∧ AtomicSent s s1 t g k w (wordRows w w.d) tag ∧
        (w.m.getLsbD 1 = true → ∀ l < 32, (active g k w.toHdr).getLsbD l = true →
          ∃ n ∈ t.near, n.space = .scratch ∧ n.addr = storageKey g.core (laneVa g w.a false 0 l) .scratch ∧ n.gid = g.gid ∧
            n.act = .atom (atomSent g w l s1.nextId))) ∧
    ((Instr.cas w).wellFormed = true → AtomicReady s s1 g k w (wordRows w w.d) (wordRows w w.b ++ wordRows w w.c) accs →
      ∃ t, exec (.cas w) s = .next t ∧ AtomicSent s s1 t g k w (wordRows w w.d) .raw ∧
        (w.m.getLsbD 1 = true → ∀ l < 32, (active g k w.toHdr).getLsbD l = true →
          ∃ n ∈ t.near, n.space = .scratch ∧ n.addr = storageKey g.core (laneVa g w.a false 0 l) .scratch ∧ n.gid = g.gid ∧
            n.act = .atom (casSent g w l s1.nextId))) ∧
    ((Instr.red w).wellFormed = true → AtomicReady s s1 g k w [] [w.b.toNat] accs →
      (atomOp w.c < 5 → TagsAgree g (redTag (RedFmt.ofCode (atomFmt w.c))) [w.b.toNat]) →
      ∃ t, exec (.red w) s = .next t ∧ t.cur = none ∧ (Steady s → SameMemory s t) ∧
        (∃ scr, t.group? g.gid = some (advanced { g with scrSince := scr } k (entry g k).pc)) ∧
        (w.m.getLsbD 1 = true → ∀ l < 32, (active g k w.toHdr).getLsbD l = true →
          ∃ n ∈ t.near, n.space = .scratch ∧ n.addr = storageKey g.core (laneVa g w.a false 0 l) .scratch ∧ n.gid = g.gid ∧
            ∃ a, n.act = .atom a ∧ a.lane = l ∧ a.ret = none ∧ a.b = (laneOf (row g w.b.toNat).lanes l).zeroExtend 64))

namespace Sys2Proof.Claims

/-- The cistern address of a lane of a `cis`: 4 bytes a lane from a scalar base, or its own (R234). -/
def cisVa (g : Group) (w : MA) (l : Nat) : Dword := if w.m.getLsbD 4 then sreg g w.a.toNat + BitVec.ofNat 64 (4 * l) else laneVa g w.a false 0 l

/-- The rows a `cis` reads: its address pair when it is not a scalar, its operand, and C under `.fma` (R234). -/
def cisRows (w : MA) : List Nat :=
  (if w.m.getLsbD 4 then [] else [w.a.toNat, w.a.toNat + 1]) ++ [w.b.toNat] ++ (if fieldN w.m 3 0 = 8 then [w.c.toNat] else [])

end Sys2Proof.Claims

/-- CISTERN OPERATIONS (R83, R234 to R236): CIS with passing addresses completes: no byte has changed yet, its elements are under way to their banks, and with a result its row is empty, its return is
open and it counts in CISOUT. -/
def Obligations.CisternWords : Prop :=
  ∀ (w : MA) (s : State) (g : Group) (k : Nat), Issues s g k → (Instr.cis w).wellFormed = true → active g k w.toHdr ≠ 0 → active g k w.toHdr &&& g.helpers = 0 →
    Unheld g → g.cisq.length < 255 → (w.m.getLsbD 5 = true → WritableRows g [w.d.toNat]) → ReadableRows g (cisRows w) →
    (∀ t, cisNeeds w.m (RedFmt.ofCode w.sc.toNat) = some t → TagsAgree g t (w.b.toNat :: if fieldN w.m 3 0 = 8 then [w.c.toNat] else [])) →
    (∀ l < 32, (active g k w.toHdr).getLsbD l = true →
      s.addrFault g.part (if w.m.getLsbD 4 then 128 else 4) (some .cistern) (if w.m.getLsbD 4 then sreg g w.a.toNat else laneVa g w.a false 0 l) = none ∧
      s.watched g (cisVa g w l) 4 true true = false) →
    ∃ t, exec (.cis w) s = .next t ∧ t.cur = none ∧ SameMemory s t ∧
      t.group? g.gid = some (advanced (if w.m.getLsbD 5 then { emptied g [w.d.toNat] with cisq := g.cisq ++ [(s.nextId, false)] } else g) k (entry g k).pc) ∧
      (w.m.getLsbD 5 = true → ∃ r ∈ t.rets, r.id = s.nextId ∧ r.gid = g.gid ∧ r.row = w.d.toNat ∧ r.count = 1 ∧ r.lanes = active g k w.toHdr ∧ r.cis = true) ∧
      (∀ l < 32, (active g k w.toHdr).getLsbD l = true → ∃ n ∈ t.near, n.space = .cistern ∧ n.gid = g.gid ∧
        ∃ elems, n.act = .cis (cisOpOf w.m) (RedFmt.ofCode w.sc.toNat) (if w.m.getLsbD 5 then some s.nextId else none) elems ∧
          ∃ e ∈ elems, e.lane = l ∧ e.addr = storageKey g.core (cisVa g w l) .cistern ∧ e.b = laneOf (row g w.b.toNat).lanes l)

/-- PREFETCH (R222): PF with readable address rows completes, changes no register and, where no access leaves memory undefined, no byte of storage, and never parks its group, whatever its addresses. -/
def Sys2Proof.Claims.Prefetch : Prop :=
  ∀ (w : ML) (s : State) (g : Group) (k : Nat), Issues s g k → (Instr.pf w).wellFormed = true → ReadableRows g (addrRows w.a (akOf w.m)) →
    ∃ t, exec (.pf w) s = .next t ∧ t.cur = none ∧ (Steady s → SameMemory s t) ∧ t.near = s.near ∧ t.group? g.gid = some (advanced g k (entry g k).pc)

/-- ACCESSES AT AN L1 (R75, R77, R78, R217): an access that is the first of its core's to its line waits there, and the line is asked of its directory for what the access needs; a load that finds a copy it may read
has its bytes from it at once, and no storage changes. -/
def Sys2Proof.Claims.AccessesAtL1 : Prop :=
  ∀ (s : State) (g : Group) (prio addr : Nat) (act : PendAct), let line := addr / 128
    let gen := homeGen (s.genOf g.part) addr
    (FirstAtLine s g line → (∀ op fmt off b, act ≠ .red op fmt off b) → ∃ t, s.toL1 g prio addr act = t ∧ SameMemory s t ∧ t.groups = s.groups ∧ t.rets = s.rets ∧
      t.pends = s.pends ++ [{ core := g.core, line := line, gid := g.gid, seen := [], gen := gen, part := g.part, prio := prio, act := act }] ∧
      t.reqs = s.reqs ++ [{ id := s.nextId, gid := g.gid, line := line, src := .l1 g.core, node := nodeFor g.core line, gen := gen, part := g.part, prio := prio, kind := needOf act }]) ∧
    (∀ (c : L1Line) (ret lane width : Nat) (sign : Bool), s.l1Line? g.core line = some c → readable c.st = true → (∀ p ∈ s.pends, p.core = g.core → p.line ≠ line) →
      s.outstanding g.core line = false → s.asyHolds g.gid line = false → s.twice line = false → act = .load ret lane (addr % 128) width sign →
      let v := s.seenAs gen line c.val
      ∃ t, s.toL1 g prio addr act = t ∧ SameMemory s t ∧ t.pends = s.pends ∧ t.reqs = s.reqs ∧
        t.rets = (s.deliver ret lane (loadWord (v.read gen (addr % 128) width) width sign) (v.anyPoison gen (addr % 128) width)).rets)

/-- NEAR STORAGE (R72, R73, R219, R226, R235): when the next request of its core at a scratchpad or a bank takes place, a store writes its bytes there with its generation and nothing else; a load and
a vote change no byte; an atomic's and a `cis` element's old value is read before its new one is written. -/
def Sys2Proof.Claims.NearStorage : Prop :=
  ∀ (s : State) (n : NearReq), n.space ≠ .global → s.near.find? (fun x => x.id == n.id && x.space == n.space) = some n → s.nearBehind n = false →
    ∃ t : State, exec (if n.space = .scratch then .scratchpadAccess n.id else .cisBankOperation n.id) s = .next t.settle ∧
      (∀ x ∈ t.near, x.id ≠ n.id) ∧ t.dram = s.dram ∧ t.host = s.host ∧ t.peer = s.peer ∧ t.groups = s.groups ∧
      (∀ bs, n.act = .store bs → t.scratch = (if n.space = .scratch then s.scratch.write n.gen n.addr bs false else s.scratch) ∧
        t.cistern = (if n.space = .scratch then s.cistern else s.cistern.write n.gen n.addr bs false)) ∧
      (∀ a, n.act = .atom a → n.space = .scratch → t.scratch = (atomAt s.scratch n.gen n.addr a).1 ∧ t.cistern = s.cistern) ∧
      (∀ op fmt r e, n.act = .cis op fmt r [e] → t.scratch = s.scratch ∧ t.cistern = (if s.cistern.anyPoison n.gen e.addr 4 then s.cistern
        else s.cistern.write n.gen e.addr (leBytes 4 (cisNew op fmt (BitVec.ofNat 32 (ofLe (s.cistern.read n.gen e.addr 4))) e.b e.c).toNat) false)) ∧
      (∀ r m wd sg, n.act = .load r m wd sg → SameMemory s t ∧ ∀ x ∈ t.rets, x.id = r → ∃ y ∈ s.rets, y.id = r ∧
        x.vals = y.vals ++ (maskLanes m).map fun l => (l, loadWord ((s.nearMem n.space).read n.gen n.addr wd) wd sg, (s.nearMem n.space).anyPoison n.gen n.addr wd))

/-- RETURNS (R83, R214, R215): a return with all its values, behind the replies that its senders have sent its core before (R73), lands in whichever slot holds its group: it is gone, its rows hold the values in its lanes with its tag and are full (free values where R328 leaves them undefined), a `cis` leaves CISOUT, and no
byte of memory changes before the waits that it ends are settled. -/
def Sys2Proof.Claims.ReturnsLand : Prop :=
  ∀ (s : State) (r : Ret) (g : Group), s.rets.find? (fun x => x.id == r.id && x.cis == r.cis) = some r → retReady r = true → s.group? r.gid = some g →
    s.retBehind r = false → r.weir = false → mapWf rowZero g.rows = true →
    ∃ t g' x, x = { r with vals := x.vals } ∧ (r.loose = false → x = r) ∧ exec (if r.cis then .cisReturn r.id else .returnLands r.id) s = .next t.settle ∧ SameMemory s t ∧ (∀ x ∈ t.rets, x.id ≠ r.id) ∧
      t.group? r.gid = some g' ∧ (∀ q, (∀ j < r.count, q ≠ r.row + j) → row g' q = row g q) ∧
      (∀ j < r.count, row g' (r.row + j) = landedRow g x j) ∧
      (r.acq = true → r.id ∉ g'.holds) ∧ (r.cis = true → g'.cisq = countDone g.cisq r.id)

namespace Sys2Proof.Claims

/-- The open batch sealed, when it holds something (R84). -/
def sealedPath (p : PathCtl) : PathCtl := if p.count = 0 then p else { seq := p.seq + 1, count := 0, closed := p.closed ++ [p.seq] }

/-- It can be sealed: OUT stays within 255 (R84). -/
def sealable (p : PathCtl) : Prop := p.count = 0 ∨ p.closed.length < 255

/-- A group whose path of a code is sealed, for `waitc` (R85). -/
def sealedGroup (g : Group) (p : Path) : Group :=
  match p with
  | .asy => { g with asy := sealedPath g.asy }
  | .trv => { g with trv := sealedPath g.trv }
  | _ => g

end Sys2Proof.Claims

/-- SEALING AND COUNTED WAITS (R84, R85, R223): SEAL closes the open batch of its path; WAITC seals its path and goes on when at most sA batches or operations are out, and parks its split with that limit
otherwise. -/
def Sys2Proof.Claims.SealAndWait : Prop :=
  ∀ (w : RR) (s : State) (g : Group) (k : Nat), Issues s g k → executesIn g k w.toHdr = true →
    ((Instr.seal w).wellFormed = true → sealable (if w.m.getLsbD 0 then g.trv else g.asy) →
      Lands (.seal w) s g k (if w.m.getLsbD 0 then { g with trv := sealedPath g.trv } else { g with asy := sealedPath g.asy })) ∧
    ((Instr.waitc w).wellFormed = true → sealable g.asy → sealable g.trv →
      (pathOut (sealedGroup g (Path.ofCode (fieldN w.m 1 0))) (Path.ofCode (fieldN w.m 1 0)) ≤ (sreg g w.a.toNat).toNat →
        Lands (.waitc w) s g k (sealedGroup g (Path.ofCode (fieldN w.m 1 0)))) ∧
      ((sreg g w.a.toNat).toNat < pathOut (sealedGroup g (Path.ofCode (fieldN w.m 1 0))) (Path.ofCode (fieldN w.m 1 0)) →
        Parks (.waitc w) s (sealedGroup g (Path.ofCode (fieldN w.m 1 0))) k (.waitc (Path.ofCode (fieldN w.m 1 0)) (sreg g w.a.toNat))))

namespace Sys2Proof.Claims

/-- Bytes a lane of `ald` and `ast` moves, M<8:7> being 0: 4, 8 or 16 (R220). -/
def asySize (w : MS) : Nat := 4 * 2 ^ fieldN w.d 1 0

/-- The global address of a lane of `ald` and `ast`: consecutive blocks from a scalar base, or its own (R221). -/
def asyVa (g : Group) (w : MS) (l : Nat) : Dword :=
  laneVa g w.a (akOf w.m) (w.ofs.signExtend 64) l + (if akOf w.m then BitVec.ofNat 64 (l * asySize w) else 0)

/-- Its scratch key (R221). -/
def asyKey (g : Group) (w : MS) (l : Nat) : Nat := storageKey g.core (scratchVa (laneOf (row g w.b.toNat).lanes l)) .scratch

/-- The conditions in which an `ald` or `ast` goes out (R221): active threads only, readable rows, addresses that pass and are mapped, no watch hit, room in the batches, no earlier access of the
core to its lines, none of the group to its scratchpad and, for a fill, no weir operation of the group on its bytes under way. -/
def AsyReady (s s1 : State) (g : Group) (k : Nat) (w : MS) (fill : Bool) (asy : PathCtl) (accs : List LaneAcc) : Prop :=
  active g k w.toHdr ≠ 0 ∧ active g k w.toHdr &&& g.helpers = 0 ∧ Unheld g ∧ ReadableRows g (addrRows w.a (akOf w.m) ++ [w.b.toNat]) ∧
    (∀ l < 32, (active g k w.toHdr).getLsbD l = true → s.asyFault g.part (asySize w) (asyVa g w l) (scratchVa (laneOf (row g w.b.toNat).lanes l)) = none ∧
      s.watched g (asyVa g w l) (asySize w) fill (!fill) = false ∧ s.watched g (scratchVa (laneOf (row g w.b.toNat).lanes l)) (asySize w) (!fill) fill = false ∧
      s.nearBusy g.gid (asyKey g w l) = false) ∧
    joinBatch g.asy = some asy ∧ s.resolve g (if fill then needR else needW) false ((maskLanes (active g k w.toHdr)).map fun l => (l, asyVa g w l)) = (s1, accs, none) ∧
    (∀ a ∈ accs, a.attr ≠ 1 → (∀ p ∈ s1.pends, ¬ (p.core = g.core ∧ p.line = a.addr / 128)) ∧ s1.lineBusy g.core (a.addr / 128) = false ∧ s1.quiet (a.addr / 128) = true) ∧
    (fill = true → s1.weirHeld g (asySize w) accs = false)

end Sys2Proof.Claims

/-- ASYNCHRONOUS COPIES (R84, R220, R221): ALD and AST that go out join the open batch of the group's ASY path and put one operation in flight for all their lanes; no scratch byte and, for AST, no byte at
all has changed, but for update-only copies of page tables that its translation recalls (R79); it is gated by every sluice line that names its slot (R271); one that none gates and no earlier copy of the group delays has read its source, an AST its scratch bytes. That the source is read in the issuing step is the model's choice (log 88). -/
def Sys2Proof.Claims.AsyncCopies : Prop :=
  ∀ (fill : Bool) (w : MS) (s s1 : State) (g : Group) (k : Nat) (asy : PathCtl) (accs : List LaneAcc), Issues s g k →
    (if fill then Instr.ald w else Instr.ast w).wellFormed = true → AsyReady s s1 g k w fill asy accs →
    ∃ t op, exec (if fill then .ald w else .ast w) s = .next t ∧ t.cur = none ∧ t.scratch = s.scratch ∧ t.cistern = s.cistern ∧ t.host = s.host ∧
      (fill = false → NoPartials s → t.dram = s.dram ∧ t.peer = s.peer) ∧ t.group? g.gid = some (advanced { g with asy := asy } k (entry g k).pc) ∧ t.asys = s.asys ++ [op] ∧
      op.gid = g.gid ∧ op.part = g.part ∧ op.batch = asy.seq ∧ op.fill = fill ∧ op.size = asySize w ∧
      op.elems.map (fun e => (e.lane, e.va, e.addr)) = (maskLanes (active g k w.toHdr)).map (fun l => (l, asyVa g w l, asyKey g w l)) ∧
      op.gates = s.gatesOf g.core 2 g.slot ∧ (s.gatesOf g.core 2 g.slot = [] → (∀ x ∈ s.asys, x.gid ≠ g.gid) → op.read = true) ∧
      (fill = false → op.read = true → ∀ e ∈ op.elems, e.bytes = s.scratch.read (s.genOf g.part) e.addr (asySize w))

/-- ASYNCHRONOUS COPIES PERFORMED (R84, R111, R221, R258, R413): a copy of one lane that nothing delays and whose global side is still mapped and whose check holds: a fill writes its bytes to scratch, and nothing else
but what its late read does, a spill writes its bytes at its place; one that was gated reads them now. Poisoned bytes are written poisoned and end it in CMDERR with cause POISON; otherwise no group changes, but that a fill notes the scratch line it wrote, which may be an operand of a later `mma` (R114). Each leaves the path. BATCH_COMPLETE takes the oldest sealed batch with nothing left out of its path. -/
def Sys2Proof.Claims.CopiesComplete : Prop :=
  (∀ (s s1 : State) (op : AsyOp) (e : AsyElem) (attr pa : Nat), s.asys.find? (fun a => a.id == op.id) = some op → op.gates = [] → op.elems = [e] →
    State.engPlace { s with asys := s.asys.filter fun a => !(a.id == op.id) } op.core op.part e.va op.size (if op.fill then needR else needW) = (s1, .at_ attr pa) →
    s.asyWaits op = false → s.asyBehind op = false → s.checks.contains (.asy op.id, e.lane) = false →
    let x := if op.read then (e, s1) else s1.asySource op e attr pa
    let u := if x.1.pois then x.2.engineError op.gid .asy .poisoned (if op.fill then e.va.toNat else (scratchVa (BitVec.ofNat 32 (e.addr % 2 ^ 24))).toNat) else x.2
    ∃ t, exec (.asyncCopyPerformed op.id) s = .next t ∧ (∀ a ∈ t.asys, a.id ≠ op.id) ∧ (let noted (v : State) : State := if op.fill then v.modGroup op.gid (fun g => { g with scrSince := note g.scrSince (e.addr / 128) }) else v
        t.groups = (noted u).groups ∧ (x.1.pois = false → t.groups = (noted s).groups)) ∧ t.cistern = s.cistern ∧
      (op.fill = true → t.scratch = s.scratch.write (s.genOf op.part) e.addr x.1.bytes x.1.pois ∧ t.host = s.host ∧ (op.read = true → t.dram = s1.dram ∧ t.peer = s1.peer)) ∧
      (op.fill = false → t.scratch = s.scratch ∧ (op.read = true → t = (u.asyPoke op attr pa x.1.bytes x.1.pois).dropChecks (.asy op.id)))) ∧
  (∀ (s : State) (p : Path) (g : Group) (b : Nat) (rest : List Nat), (p = .asy ∨ p = .trv) → s.group? g.gid = some g → (pathCtl g p).closed = b :: rest →
    s.batchOpen g.gid p b = false →
    ∃ t g', exec (.batchComplete g.gid p) s = .next t.settle ∧ SameMemory s t ∧ t.group? g.gid = some g' ∧ pathCtl g' p = { pathCtl g p with closed := rest } ∧
      g'.s = g.s ∧ g'.rows = g.rows)

namespace Sys2Proof.Claims

/-- A weir word with its result rows: one status row for a push, two value rows and a status row for a pop (R231). -/
def weirRows (w : MA) (push : Bool) : List Nat := rowsFrom w.d.toNat (if push then 1 else 3)

/-- The 64-bit word i of a weir object's header as its home holds it (R229). -/
def headWord (s : State) (w : WeirReq) (i : Nat) : Dword := s.homeDword w.attr w.gen (w.pa + 8 * i)

end Sys2Proof.Claims

/-- WEIR WORDS (R98, R231, R232): WPUSH and WPOP, relaxed, with passing addresses and behind no access of their core under way to the lines of their objects, complete: their result rows are empty with a return open, no byte of memory has changed beyond what the translation recalls (R79), and each active lane has a request
under way that carries the kind and, for a push, the lane's value with its check code. -/
def Obligations.WeirWords : Prop :=
  ∀ (push : Bool) (w : MA) (s s1 : State) (g : Group) (k : Nat) (accs : List LaneAcc), Issues s g k → (if push then Instr.wpush w else Instr.wpop w).wellFormed = true →
    active g k w.toHdr ≠ 0 → Unheld g → w.m.getLsbD 4 = false → w.m.getLsbD 5 = false → WritableRows g (weirRows w push) →
    ReadableRows g (addrRows w.a false ++ if push then [w.b.toNat, w.b.toNat + 1] else []) →
    AddressesPass s g (active g k w.toHdr) 64 (some .global) true true (laneVa g w.a false 0) →
    s.resolve g needRW true ((maskLanes (active g k w.toHdr)).map fun l => (l, laneVa g w.a false 0 l)) = (s1, accs, none) →
    (∀ a ∈ accs, s1.weirWaits g (laneVa g w.a false 0 a.lane) a = false) →
    ∃ t, exec (if push then .wpush w else .wpop w) s = .next t ∧ t.cur = none ∧ SameMemory s1 t ∧ (NoPartials s → SameMemory s t) ∧
      t.group? g.gid = some (advanced (emptied g (weirRows w push)) k (entry g k).pc) ∧
      (∃ r ∈ t.rets, r.id = s1.nextId ∧ r.gid = g.gid ∧ r.row = w.d.toNat ∧ r.count = (weirRows w push).length ∧ r.lanes = active g k w.toHdr ∧ r.weir = true) ∧
      (∀ a ∈ accs, ∃ q ∈ t.weir, q.gid = g.gid ∧ q.core = g.core ∧ q.ret = s1.nextId ∧ q.lane = a.lane ∧ q.push = push ∧ q.pa = a.addr ∧ q.attr = a.attr ∧ q.part = g.part ∧
        q.gen = homeGen (s.genOf g.part) a.addr ∧ q.kind = weirKindOf w.m ∧ q.held = none ∧ q.check = weirCheck q.value ∧
        (push = true → q.value = laneOf (row g (w.b.toNat + 1)).lanes a.lane ++ laneOf (row g w.b.toNat).lanes a.lane))

/-- WEIR PORTS (R112, R113, R232, R233): at the next port of its path a request pairs with the oldest held partner of its object (the one issued first, which is the model's choice, log 57), else is held for WEIRWIN when the port may hold it, else goes on; a held
request whose window has passed goes on. -/
def Sys2Proof.Claims.WeirPorts : Prop :=
  ∀ (s : State) (q : WeirReq) (p : Port) (rest : List Port), q.ports = p :: rest →
    (s.weir.find? (fun x => x.id == q.id && x.held.isNone) = some q → s.weirBehind q = false →
      (∀ o, (s.heldAt p).find? (weirPairs q) = some o →
        exec (.weirPortArrival q.id) s = .next (if q.push then (s.answerWeir q 0 true 0 false).answerWeir o 0 true q.value (q.check != weirCheck q.value)
          else (s.answerWeir o 0 true 0 false).answerWeir q 0 true o.value (o.check != weirCheck o.value)).settle) ∧
      ((∀ o ∈ s.heldAt p, weirPairs q o = false) →
        exec (.weirPortArrival q.id) s = .next { s with weir := s.weir.map fun x => if x.id = q.id then
          (if (s.part q.part).weirwin ≠ 0 ∧ q.kind ≠ .queue ∧ (s.heldAt p).length < Config.weirEntries then { x with held := some (s.part q.part).weirwin.toNat }
            else { x with ports := rest }) else x })) ∧
    (s.weir.find? (fun x => x.id == q.id) = some q → q.held = some 0 →
      exec (.weirWindowExpiry q.id) s = .next { s with weir := s.weir.map fun x => if x.id = q.id then { x with held := none, ports := rest } else x })

/-- WEIR AT THE HOME (R229, R230, R233): an operation that has passed its ports answers MALFORMED, FULL or EMPTY without writing memory; else a push writes its entry and raises the count, and a pop lowers the
count, moving HEAD for a queue, and answers the entry's value, poisoned when its unit is or its check fails. The home first recalls what it reads (R79). That an object in host or peer memory, for which R230 names
no home, is operated on as one in device memory is the model's choice (log 57). -/
def Sys2Proof.Claims.WeirHome : Prop :=
  ∀ (s : State) (q : WeirReq), s.weir.find? (fun x => x.id == q.id) = some q → q.ports = [] → s.weirBehind q = false →
    (q.attr ≠ 1 → s.requestBehind q.id (.core q.core) (nodeEnd .home (q.pa / 128)) = false) →
    let free (line : Nat) : Prop := s.quiet line = true ∧ s.cowLine line = false
    (q.attr ≠ 1 → free (q.pa / 128) ∧ free ((q.pa + 64 + 16 * weirIndex (headWord s q) q) / 128)) →
    let s0 := s.recallAt q.attr q.gen q.pa 64
    let head := headWord s0 q
    let cap := (head 0).toNat % 2 ^ 32
    let count := (head 1).toNat
    let first := (head 2).toNat
    let at_ := q.pa + 64 + 16 * (if q.kind = .queue then (if q.push then (first + count) % cap else first) else if q.push then count else count - 1)
    let answers (u : State) (result : Nat) (v : Dword) (bad : Bool) : Prop := exec (.weirHomeExecute q.id) s = .next (u.answerWeir q result false v bad).settle
    let put (u : State) (a n v : Nat) : State := u.poke q.attr q.gen a (leBytes n v) false
    (weirBad head q = true → answers s0 3 0 false) ∧
    (weirBad head q = false → q.push = true → count = cap → answers s0 2 0 false) ∧
    (weirBad head q = false → q.push = false → count = 0 → answers s0 1 0 false) ∧
    (weirBad head q = false → q.push = true → count ≠ cap →
      answers (put (put s0 at_ 16 (q.value.toNat + q.check.toNat * 2 ^ 64)) (q.pa + 8) 8 (count + 1)) 0 0 false) ∧
    (weirBad head q = false → q.push = false → count ≠ 0 →
      let v := s0.homeDword q.attr q.gen at_
      let s1 := put (s0.recallAt q.attr q.gen at_ 16) (q.pa + 8) 8 (count - 1)
      answers (if q.kind = .queue then put s1 (q.pa + 16) 8 ((first + 1) % cap) else s1) 0 v
        (s0.peekPoison q.attr q.gen at_ 16 || decide ((s0.homeDword q.attr q.gen (at_ + 8)).truncate 16 ≠ weirCheck v)))

namespace Sys2Proof.Claims

/-- A scalar word's address translated for its group, its line quiet, none of its core's own accesses of it or requests to its home and no weir operation of its group on it under way (R73, R98, R213, R239); s1 is the state in which its home has recalled
what other caches update there (R79). -/
def HomeReady (s s1 : State) (g : Group) (va : Dword) (n : Need) (l : Leaf) : Prop :=
  ∃ s0 : State, s.translate g.core g.part va n = (s0, .ok l) ∧ (n.w = true → l.cow = false) ∧
    s0.homeBehind g l.attr (leafPa l va) 8 = false ∧ s0.weirAhead g.gid l.attr (leafPa l va) 8 = false ∧
    s1 = s0.recallAt l.attr (s0.genOf g.part) (leafPa l va) 1

end Sys2Proof.Claims

/-- FENCES (R102, R117, R118, R237): a FENCE goes on when its group's earlier accesses are performed at its scope, and its core then holds no dirty line unless the scope is the group; otherwise its split parks,
and nothing else changes. -/
def Obligations.Fences : Prop :=
  ∀ (w : RR) (s : State) (g : Group) (k : Nat), Issues s g k → (Instr.fence w).wellFormed = true →
    let sc := Scope.ofCode (fieldN w.m 2 0)
    (s.performedFor g.gid sc = true → ∃ t, exec (.fence w) s = .next t ∧ t.cur = none ∧ t.group? g.gid = some (advanced g k (entry g k).pc) ∧
      t.scratch = s.scratch ∧ t.cistern = s.cistern ∧ t.rets = s.rets ∧ (sc ≠ some .group → ∀ l ∈ t.l1, l.core = g.core → dirtySt l.st = false) ∧
      (sc = some .group → t.dram = s.dram ∧ t.l1 = s.l1)) ∧
    (s.performedFor g.gid sc = false → Parks (.fence w) s g k (.fence sc))

namespace Sys2Proof.Claims

/-- The state in which a split has arrived at barrier n with its active threads and parked there (R48, R238). -/
def arrivedState (s : State) (g : Group) (k n : Nat) (h : Hdr) : State :=
  (s.setGroup (setEntry g k { entry g k with state := .barPark, wait := .bar n (threadsOf g (active g k h)) })).modBlock g.bid fun b => armBar b n

end Sys2Proof.Claims

/-- BLOCK BARRIERS (R48, R49, R238): BAR parks its split with its active threads arrived, and arms the barrier at its first arrival; a split whose arrival completes the phase of a block of one group with one
split goes on, and the barrier is not armed again. -/
def Sys2Proof.Claims.Barriers : Prop :=
  ∀ (w : RI) (s : State) (g : Group) (k : Nat) (b : Block), Issues s g k → (Instr.bar w).wellFormed = true → s.block? g.bid = some b →
    let n := fieldN w.imm 3 0
    ((∀ m < 16, (arrivedState s g k n w.toHdr).phaseDone (armBar b n) m = false) →
      ∃ t g', exec (.bar w) s = .next t ∧ t.cur = none ∧ SameMemory s t ∧ t.group? g.gid = some g' ∧ g'.s = g.s ∧ g'.rows = g.rows ∧
        entry g' k = { entry g k with state := .barPark, wait := .bar n (threadsOf g (active g k w.toHdr)), age := 0, ibuf := none, turns := 0 } ∧
        (n < b.bars.length → ∃ b', t.block? g.bid = some b' ∧ (barOf b' n).armed = true)) ∧
    (s.groupsOf g.bid = [g] → s.groups.length = 1 → s.saved = [] → n < b.bars.length → b.image = none → (∀ j < 4, j ≠ k → (entry g j).wait = .none) → g.live &&& ~~~ threadsOf g (active g k w.toHdr) = 0 →
      g.live ≠ 0 → s.performedFor g.gid (some .block) = true →
      ∃ t g' b', exec (.bar w) s = .next t ∧ t.cur = none ∧ t.group? g.gid = some g' ∧ g'.s = g.s ∧ g'.rows = g.rows ∧ (entry g' k).state = .runnable ∧ (entry g' k).pc = (entry g k).pc + 8 ∧
        t.block? g.bid = some b' ∧ (barOf b' n).armed = false)

/-- TRANSACTION BARRIERS (R86, R87): what arrivals and bytes make of a well-formed barrier's words: arrivals and pending bytes are counted, an arrival too many is noted in OVR, as are bytes that pass either end of their count, which then stays at that end,
and a phase with all arrivals and no bytes left ends: PHASE inverts and the counts are zero. -/
def Sys2Proof.Claims.BarrierWords : Prop :=
  ∀ (w0 w1 : Dword) (n : Nat), tbarBad w0 w1 = false → n < 2 ^ 48 →
    let expect := fieldN w0 59 40
    let arrived := fieldN w0 39 20
    let pending := fieldN w1 47 0
    let phase := w0.getLsbD 63
    (∀ op, fieldN (tbarNext w0 w1 op).1 59 40 = expect ∧ tbarBad (tbarNext w0 w1 op).1 (tbarNext w0 w1 op).2 = false ∧
      (w0.getLsbD 62 = true → (tbarNext w0 w1 op).1.getLsbD 62 = true)) ∧
    (arrived < expect → pending + n < 2 ^ 48 → ¬ (arrived + 1 = expect ∧ pending + n = 0) → let r := tbarNext w0 w1 (.arrive n)
      fieldN r.1 39 20 = arrived + 1 ∧ fieldN r.2 47 0 = pending + n ∧ r.1.getLsbD 63 = phase ∧ r.1.getLsbD 62 = w0.getLsbD 62) ∧
    (arrived < expect → 2 ^ 48 ≤ pending + n → let r := tbarNext w0 w1 (.arrive n)
      fieldN r.1 39 20 = arrived + 1 ∧ fieldN r.2 47 0 = 2 ^ 48 - 1 ∧ r.1.getLsbD 62 = true ∧ r.1.getLsbD 63 = phase) ∧
    (arrived + 1 = expect → pending + n = 0 → let r := tbarNext w0 w1 (.arrive n)
      fieldN r.1 39 20 = 0 ∧ fieldN r.2 47 0 = 0 ∧ r.1.getLsbD 63 = !phase ∧ r.1.getLsbD 62 = w0.getLsbD 62) ∧
    (arrived = expect → pending ≠ 0 → let r := tbarNext w0 w1 (.arrive n)
      fieldN r.1 39 20 = arrived ∧ fieldN r.2 47 0 = pending ∧ r.1.getLsbD 62 = true ∧ r.1.getLsbD 63 = phase) ∧
    (arrived = expect → pending = 0 → let r := tbarNext w0 w1 (.arrive n)
      fieldN r.1 39 20 = 0 ∧ fieldN r.2 47 0 = 0 ∧ r.1.getLsbD 62 = true ∧ r.1.getLsbD 63 = !phase) ∧
    (arrived = expect → pending = n → let r := tbarNext w0 w1 (.bytes n)
      fieldN r.1 39 20 = 0 ∧ fieldN r.2 47 0 = 0 ∧ r.1.getLsbD 63 = !phase ∧ r.1.getLsbD 62 = w0.getLsbD 62) ∧
    (n ≤ pending → arrived < expect ∨ n ≠ pending → let r := tbarNext w0 w1 (.bytes n)
      fieldN r.1 39 20 = arrived ∧ fieldN r.2 47 0 = pending - n ∧ r.1.getLsbD 63 = phase ∧ r.1.getLsbD 62 = w0.getLsbD 62) ∧
    (pending < n → let r := tbarNext w0 w1 (.bytes n)
      fieldN r.2 47 0 = 0 ∧ r.1.getLsbD 62 = true ∧ fieldN r.1 39 20 = (if arrived = expect then 0 else arrived) ∧ r.1.getLsbD 63 = (if arrived = expect then !phase else phase))

namespace Sys2Proof.Claims

/-- A barrier's two words as its home holds them (R86). -/
def tbarWords (s : State) (gen : Nat) (l : Leaf) (va : Dword) : Dword × Dword := (s.homeDword l.attr gen (leafPa l va), s.homeDword l.attr gen (leafPa l va + 8))

end Sys2Proof.Claims

/-- TBAR (R86, R87, R239, R240): a TBAR on a 16-byte aligned global location. One that arrives is passed over, with nothing changed, until its group's earlier accesses are performed at its scope (the model's choice, log 20). Its effect is one step at the home: a malformed
barrier keeps its words and answers 2; an arrival writes the barrier's next words; the status holds the phase it arrived in or waits for; a wait on a phase that is over answers 0, one on the current phase parks its split on a
monitor entry, or answers 3 with none free. That a barrier in host or peer memory has no entry and so answers 3 to a wait on its current phase, and the phase bit of a malformed wait's status, are the
model's choice (log 23). -/
def Sys2Proof.Claims.TbarWord : Prop :=
  ∀ (w : MA) (s s1 : State) (g : Group) (k : Nat) (l : Leaf), Issues s g k → (Instr.tbar w).wellFormed = true → executesIn g k w.toHdr = true → Unheld g →
    (sreg g w.a.toNat).toNat % 16 = 0 → windowOf (sreg g w.a.toNat) = some .global →
    let va := sreg g w.a.toNat
    let b := sreg g w.b.toNat
    let gen := s.genOf g.part
    let mode := fieldN w.m 1 0
    (mode ≠ 1 → s.performedFor g.gid (Scope.ofCode w.sc.toNat) = false → exec (.tbar w) s = .next s) ∧
    ((mode ≠ 1 → s.performedFor g.gid (Scope.ofCode w.sc.toNat) = true) → HomeReady s s1 g va (if mode = 1 then needR else needRW) l →
      let s2 := if mode = 1 then s1 else s1.release g.core (Scope.ofCode w.sc.toNat)
      let x := tbarWords s2 gen l va
      let y := if mode = 1 then x else tbarNext x.1 x.2 (.arrive (fieldN b 47 0))
      let s3 := if mode = 1 then s2 else s2.softPoke l.attr gen (leafPa l va) (leBytes 8 y.1.toNat ++ leBytes 8 y.2.toNat) false
      let ph := if mode = 1 then b.getLsbD 0 else x.1.getLsbD 63
      let answers (u : State) (v : Dword) : Prop := exec (.tbar w) s = .next (landed u (setS g w.d.toNat v) k ((entry g k).pc + 8))
      (tbarBad x.1 x.2 = true → answers (if mode = 1 ∨ l.attr = 1 then s2 else s2.recallAll (leafPa l va / 128)) (tbarStatus 2 (x.1.getLsbD 62) ph)) ∧
      (tbarBad x.1 x.2 = false → mode = 0 ∨ (tbarWords s3 gen l va).1.getLsbD 63 ≠ ph → answers s3 (tbarStatus 0 (y.1.getLsbD 62) ph)) ∧
      (tbarBad x.1 x.2 = false → mode ≠ 0 → (tbarWords s3 gen l va).1.getLsbD 63 = ph →
        (l.attr ≠ 0 ∨ s3.monRoom .global (leafPa l va) = false → answers s3 (tbarStatus 3 (y.1.getLsbD 62) ph)) ∧
        (l.attr = 0 → s3.monRoom .global (leafPa l va) = true →
          let m := s3.addMon .global (leafPa l va) g.part (.phaseNot ph) (.split g.gid k)
          exec (.tbar w) s = .next ((m.2.setGroup (setEntry g k { entry g k with
            state := .waitPark, wait := .tbar w.d.toNat m.1 ph (timeoutCycles (sreg g w.c.toNat)), age := 0, ibuf := none, turns := 0 })).turnOver))))

/-- WAITING ON MEMORY (R89, R106, R241 to R243): MWAIT and WAITM on a location that can be read answer MATCH at once when their compare holds; a WAITM past its deadline then answers TIMEOUT; one that finds no free monitor
entry answers NOMATCH, an acquiring MWAIT only when its group's earlier accesses are performed at its scope, until when it is passed over with nothing changed (the model's choice, log 20); a location in host or peer memory has no entry and answers
NOMATCH, which is the model's choice too (log 24); otherwise the split parks on an entry that holds the compare. WAITM by time alone parks until its deadline. -/
def Obligations.MemoryWaits : Prop :=
  ∀ (s s1 : State) (g : Group) (k : Nat) (sp : Space) (attr addr : Nat), Issues s g k → Unheld g →
    (∀ w : MA, (Instr.mwait w).wellFormed = true → executesIn g k w.toHdr = true →
      (frameOf (.mwait w) w.toHdr s g k).waitPlace (sreg g w.a.toNat) (if w.m.getLsbD 2 then 8 else 4) =
        .ok ({ frameOf (.mwait w) w.toHdr s g k with s := s1 }, sp, attr, addr) → s1.group? g.gid = some g →
      let v := s1.locWord sp attr (s1.genOf g.part) addr (if w.m.getLsbD 2 then 8 else 4)
      let holds := compareWord (Cond.ofCode (cond53 w.m)) (w.m.getLsbD 2) (w.m.getLsbD 0) v (sreg g w.b.toNat)
      let acq := if w.m.getLsbD 1 then Scope.ofCode w.sc.toNat else none
      (holds = true → exec (.mwait w) s = .next (landed s1 (setS g w.d.toNat 0) k ((entry g k).pc + 8))) ∧
      (holds = false → (attr ≠ 0 ∨ s1.monRoom sp addr = false) →
        (acq = none → exec (.mwait w) s = .next (landed s1 (setS g w.d.toNat 1) k ((entry g k).pc + 8))) ∧
        (∀ sc, acq = some sc → s1.performedFor g.gid (some sc) = false → exec (.mwait w) s = .next s) ∧
        (∀ sc, acq = some sc → s1.performedFor g.gid (some sc) = true → ∃ t, exec (.mwait w) s = .next t ∧ t.cur = none ∧ t.scratch = s1.scratch ∧ t.cistern = s1.cistern ∧
          t.group? g.gid = some (advanced (setS g w.d.toNat 1) k (entry g k).pc))) ∧
      (holds = false → attr = 0 → s1.monRoom sp addr = true →
        let m := s1.addMon sp addr g.part (.cmp (Cond.ofCode (cond53 w.m)) (w.m.getLsbD 2) (w.m.getLsbD 0) (sreg g w.b.toNat)) (.split g.gid k)
        exec (.mwait w) s = .next ((m.2.setGroup (setEntry g k { entry g k with
          state := .waitPark, wait := .mwait w.d.toNat m.1 acq (timeoutCycles (sreg g w.c.toNat)), age := 0, ibuf := none, turns := 0 })).turnOver))) ∧
    (∀ w : RR, (Instr.waitm w).wellFormed = true → executesIn g k w.toHdr = true →
      let past := decide ((sreg g w.c.toNat).toNat ≤ (s.time (dieOf g.core)).toNat)
      (w.m.getLsbD 1 = true → if past then Lands (.waitm w) s g k (setS g w.d.toNat 2) else Parks (.waitm w) s g k (.waitm w.d.toNat none (sreg g w.c.toNat))) ∧
      (w.m.getLsbD 1 = false → (frameOf (.waitm w) w.toHdr s g k).waitPlace (sreg g w.a.toNat) (if w.m.getLsbD 2 then 8 else 4) =
          .ok ({ frameOf (.waitm w) w.toHdr s g k with s := s1 }, sp, attr, addr) → s1.group? g.gid = some g →
        let v := s1.locWord sp attr (s1.genOf g.part) addr (if w.m.getLsbD 2 then 8 else 4)
        let holds := compareWord (Cond.ofCode (cond53 w.m)) (w.m.getLsbD 2) (w.m.getLsbD 0) v (sreg g w.b.toNat)
        let answers (x : Dword) : Prop := exec (.waitm w) s = .next (landed s1 (setS g w.d.toNat x) k ((entry g k).pc + 8))
        (holds = true → answers 0) ∧ (holds = false → past = true → answers 2) ∧ (holds = false → past = false → (attr ≠ 0 ∨ s1.monRoom sp addr = false) → answers 1) ∧
        (holds = false → past = false → attr = 0 → s1.monRoom sp addr = true →
          let m := s1.addMon sp addr g.part (.cmp (Cond.ofCode (cond53 w.m)) (w.m.getLsbD 2) (w.m.getLsbD 0) (sreg g w.b.toNat)) (.split g.gid k)
          exec (.waitm w) s = .next ((m.2.setGroup (setEntry g k { entry g k with
            state := .waitPark, wait := .waitm w.d.toNat (some m.1) (sreg g w.c.toNat), age := 0, ibuf := none, turns := 0 })).turnOver))))

/-- TIME AND STEPS (R244 to R246): GETM empties its pair and opens a return that holds the die's meridian time in every active lane; STEP reads the step counter, or raises it by its immediate once the
group's accesses are performed for the system, and writes the new count. A STEP that does not execute leaves its register and the counter alone, but one that would have raised it still orders as a system fence (R28). -/
def Obligations.TimeWords : Prop :=
  ∀ (s : State) (g : Group) (k : Nat), Issues s g k →
    (∀ w : RR, (Instr.getm w).wellFormed = true → active g k w.toHdr ≠ 0 → WritableRows g [w.d.toNat, w.d.toNat + 1] →
      ∃ t, exec (.getm w) s = .next t ∧ t.cur = none ∧ SameMemory s t ∧ t.group? g.gid = some (advanced (emptied g [w.d.toNat, w.d.toNat + 1]) k (entry g k).pc) ∧
        ∃ r ∈ t.rets, r.gid = g.gid ∧ r.row = w.d.toNat ∧ r.count = 2 ∧ r.lanes = active g k w.toHdr ∧
          r.vals = (maskLanes (active g k w.toHdr)).map fun l => (l, (s.time (dieOf g.core)).zeroExtend 128, false)) ∧
    (∀ w : RI, (Instr.step w).wellFormed = true → executesIn g k w.toHdr = true →
      (w.m.getLsbD 0 = true → Lands (.step w) s g k (setS g w.d.toNat (s.part g.part).stepCtr)) ∧
      (w.m.getLsbD 0 = false → s.performedFor g.gid (some .system) = true → (s.part g.part).fixes = [] → g.part < 40 →
        ∃ t, exec (.step w) s = .next t ∧ t.cur = none ∧ t.scratch = s.scratch ∧ t.cistern = s.cistern ∧
          t.group? g.gid = some (advanced (setS g w.d.toNat ((s.part g.part).stepCtr + w.imm.zeroExtend 64)) k (entry g k).pc) ∧
          t.part g.part = { s.part g.part with stepCtr := (s.part g.part).stepCtr + w.imm.zeroExtend 64 } ∧ ∀ q, q ≠ g.part → t.part q = s.part q) ∧
      (w.m.getLsbD 0 = false → s.performedFor g.gid (some .system) = false → Parks (.step w) s g k (.stepAdv w.d.toNat (w.imm.zeroExtend 64)))) ∧
    (∀ w : RI, (Instr.step w).wellFormed = true → executesIn g k w.toHdr = false →
      (w.m.getLsbD 0 = true → Lands (.step w) s g k g) ∧
      (w.m.getLsbD 0 = false → s.performedFor g.gid (some .system) = true → ∃ t, exec (.step w) s = .next t ∧ t.cur = none ∧ t.scratch = s.scratch ∧ t.cistern = s.cistern ∧
        t.group? g.gid = some (advanced g k (entry g k).pc) ∧ t.parts = s.parts) ∧
      (w.m.getLsbD 0 = false → s.performedFor g.gid (some .system) = false → Parks (.step w) s g k (.fence (some .system))))

namespace Sys2Proof.Claims

/-- In t the wait of split k of g has ended with a status in scalar sd: the split is runnable at its next word, its monitor entry, if it waited on one, is free, and neither memory nor another register
of the group has changed since s. -/
def Woken (s t : State) (g : Group) (k sd : Nat) (v : Dword) (mon : Option Nat) : Prop :=
  SameMemory s t ∧ (∀ id, mon = some id → ∀ x ∈ t.mons, x.id ≠ id) ∧
    t.group? g.gid = some (setS (setEntry g k { entry g k with state := .runnable, wait := .none, pc := (entry g k).pc + 8 }) sd v)

/-- An event ends the wait of split k of g so. -/
def Wakes (i : Instr) (s : State) (g : Group) (k sd : Nat) (v : Dword) (mon : Option Nat) : Prop :=
  ∃ t, exec i s = .next t ∧ Woken s t g k sd v mon

end Sys2Proof.Claims

/-- THE ENDS OF TIMED WAITS (R90, R166, R209, R240, R242, R243, R428): TBAR_TIMEOUT, MWAIT_TIMEOUT, WAITM_DEADLINE, XPAIR_TIMEOUT and SLEEP_EXPIRY make the split runnable at its next word with the status their
rule gives, and the first three free the monitor entry it waited on; an acquiring MWAIT times out once its group's earlier accesses are performed at its scope, and as a fence there; MONITOR_MATCH frees the entry and wakes its split with MATCH. -/
def Obligations.WaitsEnd : Prop :=
  ∀ (s : State) (g : Group) (k sd mon : Nat), s.group? g.gid = some g →
    (∀ ph m, (entry g k).wait = .tbar sd mon ph (some 0) → s.mons.find? (fun x => x.id == mon) = some m →
      Wakes (.tbarTimeout g.gid k) s g k sd (tbarStatus 1 (bitAt (s.monWord m) 62) ph) (some mon)) ∧
    ((entry g k).wait = .mwait sd mon none (some 0) → Wakes (.mwaitTimeout g.gid k) s g k sd 2 (some mon)) ∧
    (∀ sc, (entry g k).wait = .mwait sd mon (some sc) (some 0) →
      (s.performedFor g.gid (some sc) = false → exec (.mwaitTimeout g.gid k) s = .next s) ∧
      (s.performedFor g.gid (some sc) = true → ∃ u, Woken s u g k sd 2 (some mon) ∧ exec (.mwaitTimeout g.gid k) s = .next (u.release g.core (some sc)))) ∧
    (∀ m deadline, (entry g k).wait = .waitm sd m deadline → deadline.toNat ≤ (s.time (dieOf g.core)).toNat → Wakes (.waitmDeadline g.gid k) s g k sd 2 m) ∧
    (∀ p, (entry g k).wait = .xpair sd p (some 0) → Wakes (.xpairTimeout g.gid k) s g k sd 1 none) ∧
    ((entry g k).wait = .sleep 0 → ∃ t, exec (.sleepExpiry g.gid k) s = .next t ∧ SameMemory s t ∧
      t.group? g.gid = some (setEntry g k { entry g k with state := .runnable, wait := .none, pc := (entry g k).pc + 8 })) ∧
    (∀ m v, s.mons.find? (fun x => x.id == mon) = some m → m.who = .split g.gid k → s.hitOf m = some v →
      (∀ acq rem, (entry g k).wait = .mwait sd mon acq rem → Wakes (.monitorMatch mon) s g k sd 0 (some mon)) ∧
      (∀ dl, (entry g k).wait = .waitm sd (some mon) dl → Wakes (.monitorMatch mon) s g k sd 0 (some mon)) ∧
      (∀ ph rem, (entry g k).wait = .tbar sd mon ph rem → Wakes (.monitorMatch mon) s g k sd (tbarStatus 0 (bitAt v 62) ph) (some mon)) ∧
      (∃ t, exec (.monitorMatch mon) s = .next t ∧ ∀ x ∈ t.mons, x.id ≠ mon))

/-- BARSTALL (R50, R384): when the first arrival of a resident block at a barrier lies as far back as its phase's limit, one record is offered to the fault queue of the block's partition, once in the phase; the groups are as they were. -/
def Sys2Proof.Claims.BarrierStall : Prop :=
  ∀ (s : State) (b : Block) (n : Nat), s.block? b.bid = some b → n < 16 → n < b.bars.length → resident b = true → (barOf b n).armed = true → (barOf b n).stalled = false → (barOf b n).limit ≠ 0 →
    (barOf b n).limit.toNat * 1024 ≤ (barOf b n).age →
    ∃ t b', exec (.barstall b.bid n) s = .next t ∧
      (∃ s' thread count, t = State.pushFault s' b.part (recordW0 3 0 false false false false) thread 0 count ∧ s'.parts = s.parts) ∧ t.groups = s.groups ∧ t.block? b.bid = some b' ∧ (barOf b' n).stalled = true ∧ (barOf b' n).armed = true ∧
      exec (.barstall b.bid n) t = .next t

namespace Sys2Proof.Claims

/-- The status a `gangset` answers for a value, for a group whose other members no longer wait (R249). -/
def gangStatus (s : State) (g : Group) (v : Dword) : Dword :=
  if gangBad g.slot v then 1
  else if (gangSlots v).all fun slot => s.groups.any fun x => x.core == g.core && x.slot == slot && x.bid == g.bid then 0 else 2

/-- Where a tile move of a group finds the 32 runs of 128 bytes of its tile, and that it may go (R257): a tile of the group's, an aligned base and stride, addresses that pass, no watch hit, no acquire
or fence outstanding, no earlier access of its core to its lines, to the home slices it goes to or to its scratch under way, nor a weir operation of the group on what it reads or a copy of the group that has yet to read what
it moves (R73, R98, R221). -/
def TileReady (s s1 : State) (g : Group) (k : Nat) (w : RR) (wr : Bool) (accs : List LaneAcc) : Prop :=
  let base := sreg g w.a.toNat
  let stride := tileStride (sreg g w.b.toNat)
  let sp : Space := if fieldN w.m 5 4 = 0 then .global else .scratch
  let lane := (lowestLane (entry g k).ex).getD ((lowestLane (entry g k).own).getD 0)
  w.d.toNat < g.tileCnt ∧ Unheld g ∧ base.toNat % 128 = 0 ∧ stride % 128 = 0 ∧ 256 ≤ stride ∧
    (∀ i < 32, s.addrFault g.part 128 (some sp) (tileVa base stride i) = none ∧ s.watched g (tileVa base stride i) 128 (!wr) wr = false) ∧
    s.resolve { g with helpers := 0 } (if wr then needW else needR) wr ((List.range 32).map fun i => (lane, tileVa base stride i)) = (s1, accs, none) ∧
    (wr = false → s1.weirHeld g 128 accs = false) ∧
    (∀ a ∈ accs, if a.space = .global then s1.homeBehind g a.attr a.addr 128 = false else s1.nearBusy g.gid a.addr = false ∧ s1.nearAhead g .scratch a.addr = false)

/-- No completed product whose `mmwait` the group has still to see return accumulates into the tile (R114). -/
def Covered (s : State) (g : Group) (tile : Nat) : Prop := ∀ p ∈ s.spent, p.left.contains g.gid = true → inTile g tile p = false

/-- The member a group is in an `mma` (R250), with the sluice lines that gate it as it issues (R271). -/
def memberOf (s : State) (g : Group) (w : RR) : MmaMember :=
  { gid := g.gid, tile := w.d.toNat, unit := g.tileBase + w.d.toNat, a := w.a.toNat, b := w.b.toNat, c := w.c.toNat, gates := s.gatesOf g.core 1 g.slot }

/-- The group parked at the rendezvous of its gang, with its word (R252). -/
def gangParked (g : Group) (k : Nat) (w : RR) : Group :=
  setEntry g k { entry g k with state := .gangPark, wait := .mma ((encode (.mma w)).getD 0) }

end Sys2Proof.Claims

/-- GANGS AND TILES (R114, R115, R249, R254, R256, R257): GANGSET writes GANG and answers 0, or answers 1 for a malformed value and 2 for a member that is absent; OPFENCE and MMWAIT go on when their condition
holds and park otherwise, MMWAIT covering the group's completed products and raising the MATRIXERR of a spoiled one first; TZERO and TLD write the 1,024 words of their tile and no other tile, unless a completed
product that accumulates there is still to be waited for, and no storage but what the home recalls for a TLD; TST stores the words and changes no tile. That the moves are performed whole in the issuing step, the split going on with no park and a TST's bytes at once at their home, is the
model's choice (log 27). -/
def Obligations.GangAndTileWords : Prop :=
  ∀ (w : RR) (s s1 : State) (g : Group) (k : Nat) (accs : List LaneAcc), Issues s g k →
    ((Instr.gangset w).wellFormed = true → g.mmas = [] → (s.leaveGang g).group? g.gid = some g →
      let st := gangStatus (s.leaveGang g) g (sreg g w.a.toNat)
      exec (.gangset w) s = .next (landed (s.leaveGang g) (setS (if st = 0 then { g with gang := sreg g w.a.toNat } else g) w.d.toNat st) k ((entry g k).pc + 8))) ∧
    ((Instr.opfence w).wellFormed = true →
      (s.opfenceDone g = true → Lands (.opfence w) s g k (s.fenced g)) ∧ (s.opfenceDone g = false → Parks (.opfence w) s g k .opfence)) ∧
    ((Instr.mmwait w).wellFormed = true →
      let most := if w.m.getLsbD 0 then 1 else 0
      (g.mmas.length ≤ most → g.matErr = [] → exec (.mmwait w) s = .next (landed (s.coverProducts g.gid) g k ((entry g k).pc + 8))) ∧
      (∀ m r, g.mmas.length ≤ most → g.matErr = m :: r → exec (.mmwait w) s =
        .next (((s.coverProducts g.gid).setGroup { g with matErr := r }).takeTrap g.gid k (active g k w.toHdr) .matrixerr none (BitVec.ofNat 64 m.2)).turnOver) ∧
      (most < g.mmas.length → Parks (.mmwait w) s g k (.mmwait (w.m.getLsbD 0)))) ∧
    ((Instr.tzero w).wellFormed = true → w.d.toNat < g.tileCnt → ∃ t, exec (.tzero w) s = .next t ∧ t.cur = none ∧ SameMemory s t ∧
      t.group? g.gid = some (advanced g k (entry g k).pc) ∧ (Covered s g w.d.toNat →
        (t.tileAt g.core (g.tileBase + w.d.toNat) (s.genOf g.part)).words = List.replicate 1024 0 ∧
        (t.tileAt g.core (g.tileBase + w.d.toNat) (s.genOf g.part)).poison = false ∧
        ∀ c u gen, ¬ (c = g.core ∧ u = g.tileBase + w.d.toNat) → t.tileAt c u gen = s.tileAt c u gen)) ∧
    ((Instr.tld w).wellFormed = true → TileReady s s1 g k w false accs →
      let gen := s.genOf g.part
      let s2 := if fieldN w.m 5 4 = 0 then accs.foldl (fun (u : State) a => u.recallAt a.attr gen a.addr 128) s1 else s1
      ∃ t, exec (.tld w) s = .next t ∧ t.cur = none ∧ SameMemory s2 t ∧ t.scratch = s.scratch ∧ t.cistern = s.cistern ∧ t.host = s.host ∧
        t.group? g.gid = some (advanced g k (entry g k).pc) ∧ (Covered s g w.d.toNat →
          (t.tileAt g.core (g.tileBase + w.d.toNat) gen).words = accs.flatMap (fun a =>
            rowWords (if fieldN w.m 5 4 = 0 then s2.peek a.attr gen a.addr 128 else s.scratch.read gen a.addr 128)) ∧
          (t.tileAt g.core (g.tileBase + w.d.toNat) gen).poison = accs.any (fun a =>
            if fieldN w.m 5 4 = 0 then s2.peekPoison a.attr gen a.addr 128 else s.scratch.anyPoison gen a.addr 128) ∧
          ∀ c u gen, ¬ (c = g.core ∧ u = g.tileBase + w.d.toNat) → t.tileAt c u gen = s.tileAt c u gen)) ∧
    ((Instr.tst w).wellFormed = true → TileReady s s1 g k w true accs → s.tileBusy g w.d.toNat = false →
      let tile := s.tileAt g.core (g.tileBase + w.d.toNat) (s.genOf g.part)
      let data (i : Nat) : List Byte := ((tile.words.drop (32 * i)).take 32).flatMap fun x => leBytes 4 x.toNat
      ∃ t scr, exec (.tst w) s = .next t ∧ t.cur = none ∧ t.tiles = s.tiles ∧ t.group? g.gid = some (advanced { g with scrSince := scr } k (entry g k).pc) ∧
        (fieldN w.m 5 4 ≠ 0 → t.dram = s.dram ∧ t.cistern = s.cistern ∧ t.host = s.host ∧ t.peer = s.peer ∧
          t.scratch = accs.zipIdx.foldl (fun m x => m.write (s.genOf g.part) x.1.addr (data x.2) tile.poison) s.scratch) ∧
        (fieldN w.m 5 4 = 0 → t.scratch = s.scratch ∧ t.cistern = s.cistern ∧
          let u := accs.zipIdx.foldl (fun (u : State) x => u.softPoke x.1.attr (s.genOf g.part) x.1.addr (data x.2) tile.poison)
            (s1.setGroup (setEntry g k { entry g k with pc := (entry g k).pc + 8 }))
          t.dram = u.dram ∧ t.host = u.host ∧ t.peer = u.peer))

/-- THE GANG'S PRODUCT (R247, R250 to R255): an MMA that is the first of its gang parks at a rendezvous that holds its form; the one that completes it, with good scale bytes, puts one product of all members in
member order in flight, gated by the sluice lines that named its members as they issued (R271), and goes on with it outstanding; a member that disagrees raises GANGERR in all of them. MMA_PRODUCT_COMPLETE takes the core's oldest product and writes every member's accumulator with
the joint product over its old words; no other tile changes, and no group keeps it outstanding. -/
def Obligations.MatrixProduct : Prop :=
  (∀ (w : RR) (s : State) (g : Group) (k : Nat), Issues s g k → (Instr.mma w).wellFormed = true → g.mmas.length < 2 →
    (∀ z ∈ s.rends, z.core = g.core → ∀ m ∈ z.members, m.1.gid ≠ g.gid) → mmaCheck g w = .ok () →
    let bsc := if bScratch w.m then sreg g w.b.toNat else 0
    (bScratch w.m = true → s.bscFault g.part w.m bsc = none) →
    (fieldN g.gang 2 0 = 0 → exec (.mma w) s = .next (s.takeTrap g.gid k (active g k w.toHdr) .gangerr none g.gang).turnOver) ∧
    (fieldN g.gang 2 0 ≠ 0 → s.rends.find? (fun z => z.core == g.core && (gangSlots z.gang).contains g.slot) = none →
      ∃ t, exec (.mma w) s = .next t ∧ t.cur = none ∧ SameMemory s t ∧ t.products = s.products ∧ t.tiles = s.tiles ∧
        t.rends = s.rends ++ [{ core := g.core, m := w.m, gang := g.gang, bsc := bsc, members := [(memberOf s g w, k)] }] ∧
        t.group? g.gid = some (setEntry g k { entry (gangParked g k w) k with age := 0, ibuf := none, turns := 0 })) ∧
    (∀ z, fieldN g.gang 2 0 ≠ 0 → s.rends.find? (fun z => z.core == g.core && (gangSlots z.gang).contains g.slot) = some z →
      (¬ (z.m = w.m ∧ z.gang = g.gang ∧ z.bsc = bsc) →
        exec (.mma w) s = .next ((s.gangErr z).takeTrap g.gid k (active g k w.toHdr) .gangerr none z.gang).turnOver) ∧
      (z.m = w.m → z.gang = g.gang → z.bsc = bsc → z.members.length + 1 = fieldN z.gang 2 0 → (z.members.map fun m => m.1.gid).Nodup → z.core = g.core →
        let z' : Rendezvous := { z with members := z.members ++ [(memberOf s g w, k)] }
        let s' : State := { s.setGroup (gangParked g k w) with rends := s.rends.map fun x => if x = z then z' else x }
        (s'.mmaEnv z'.m (storageKey g.core bsc .scratch) (s.genOf g.part) ((s'.inOrder z').map (·.1)) []).badScale = none →
        (∀ m ∈ (s'.inOrder z').head?, ∀ h, s'.group? m.1.gid = some h → h.core = g.core) → (∀ m ∈ z.members, (s.group? m.1.gid).isSome = true) →
        ∃ t p g', exec (.mma w) s = .next t ∧ t.cur = none ∧ SameMemory s t ∧ t.tiles = s.tiles ∧ t.products = s.products ++ [p] ∧ p.core = g.core ∧ p.m = w.m ∧
          p.members = (s'.inOrder z').map (·.1) ∧ p.gates = p.members.flatMap (·.gates) ∧ p.bsc = storageKey g.core bsc .scratch ∧ t.group? g.gid = some g' ∧ g'.mmas = g.mmas ++ [p.id] ∧ g'.rows = g.rows ∧ g'.s = g.s ∧
          (entry g' k).state = .runnable ∧ (entry g' k).pc = (entry g k).pc + 8))) ∧
  (∀ (s : State) (p : Product) (core : Nat), s.products.find? (fun x => x.core == core) = some p → p.gates = [] → p.hazard = false → s.mmaHazard p.m p.bsc p.members p.kept = false →
    (p.members.map (·.gid)).Nodup → (p.members.map (·.unit)).Nodup → p.members ≠ [] →
    (∀ x ∈ p.members, ∃ g, s.group? x.gid = some g ∧ g.core = core ∧ ∀ y ∈ p.members, ∀ h, s.group? y.gid = some h → h.part = g.part) →
    ∃ t : State, exec (.mmaProductComplete core [] []) s = .next t.settle ∧ (∀ q ∈ t.products, q.id ≠ p.id) ∧ t.scratch = s.scratch ∧ t.cistern = s.cistern ∧
      (∀ c u gen, ¬ (c = core ∧ ∃ x ∈ p.members, x.unit = u) → t.tileAt c u gen = s.tileAt c u gen) ∧
      ∀ x ∈ p.members, ∀ g, s.group? x.gid = some g →
        let env := s.mmaEnv p.m p.bsc (s.genOf g.part) p.members p.kept
        let old := s.tileAt core x.unit (s.genOf g.part)
        (t.tileAt core x.unit (s.genOf g.part)).words = (List.range 1024).map (fun e => env.elem x g (old.words.getD e 0) (e / 64) (e % 64)) ∧
        (∃ g', t.group? x.gid = some g' ∧ p.id ∉ g'.mmas))

namespace Sys2Proof.Claims

/-- A global 64-byte aligned record address (R262). -/
def recordAt (a : Dword) : Prop := a.toNat % 64 = 0 ∧ windowOf a = some .global

end Sys2Proof.Claims

/-- ENGINE SUBMISSIONS (R262, R264, R266, R268): TRAV with two record addresses joins the open TRV batch and puts one command in flight, gated by the sluice lines that name its slot (R271); XCHAIN appends its chain to the channel it names when the channel has room;
QSUB puts its submission in flight and counts it in QNTOUT; RCFENCE drops every record its cluster's cache holds. No register and no byte of memory changes. -/
def Sys2Proof.Claims.EngineWords : Prop :=
  ∀ (w : RR) (s : State) (g : Group) (k : Nat), Issues s g k → executesIn g k w.toHdr = true →
    let a := sreg g w.a.toNat
    ((Instr.trav w).wellFormed = true → recordAt a → recordAt (sreg g w.b.toNat) → ∀ trv, joinBatch g.trv = some trv →
      ∃ t c, exec (.trav w) s = .next t ∧ t.cur = none ∧ SameMemory s t ∧ t.travs = s.travs ++ [c] ∧ t.group? g.gid = some (advanced { g with trv := trv } k (entry g k).pc) ∧
        c.gid = g.gid ∧ c.part = g.part ∧ c.core = g.core ∧ c.batch = trv.seq ∧ c.src = a ∧ c.dst = sreg g w.b.toNat ∧ c.dmw = sreg g w.c.toNat ∧ c.recs = none ∧ c.gates = s.gatesOf g.core 3 g.slot) ∧
    ((Instr.rcfence w).wellFormed = true → exec (.rcfence w) s = .next (landed { s with recs := s.recs.filter fun r => r.cluster != clusterOf g.core } g k ((entry g k).pc + 8))) ∧
    ((Instr.xchain w).wellFormed = true → recordAt a → fieldN w.m 5 3 = 0 →
      let ch := fieldN (sreg g w.b.toNat) 3 0
      (s.channel (clusterOf g.core) ch).chains.length < Config.chainHeads → ∃ t, exec (.xchain w) s = .next t ∧ t.cur = none ∧ SameMemory s t ∧
        t.group? g.gid = some (advanced g k (entry g k).pc) ∧
        (t.channel (clusterOf g.core) ch).chains = (s.channel (clusterOf g.core) ch).chains ++ [{ gid := g.gid, part := g.part, core := g.core, head := a }] ∧
        (t.channel (clusterOf g.core) ch).cur = (s.channel (clusterOf g.core) ch).cur ∧
        ∀ cl n, ¬ (cl = clusterOf g.core ∧ n = ch) → t.channel cl n = s.channel cl n) ∧
    ((Instr.qsub w).wellFormed = true → recordAt a → g.qntq.length < 255 →
      ∃ t c, exec (.qsub w) s = .next t ∧ t.cur = none ∧ SameMemory s t ∧ t.qnts = s.qnts ++ [c] ∧ c.gid = g.gid ∧ c.part = g.part ∧ c.die = dieOf g.core ∧ c.addr = a ∧
        t.group? g.gid = some (advanced { g with qntq := g.qntq ++ [(c.id, false)] } k (entry g k).pc))

/-- THE SLUICE MATRIX (R111, R269 to R272): SLSET writes a line's configuration with its count at 0 and answers 0, or answers 1 for a malformed one and leaves the line; SLPULSE raises the count of a line nothing
waits on, up to 0xFFFF; SLWAIT takes a pulse that is there, and otherwise parks its split behind the line's other consumers. SLUICE_GATE_RELEASE gives the command that has waited longest one pulse: that line gates it no more. -/
def Sys2Proof.Claims.Sluice : Prop :=
  (∀ (w : RI) (s : State) (g : Group) (k : Nat), Issues s g k → executesIn g k w.toHdr = true → s.ownsSlot g.part (3 * fieldN w.imm 3 0) = true →
    let l := s.slLine g.core (fieldN w.imm 3 0)
    ((Instr.slset w).wellFormed = true →
      let cfg : BitVec 20 := (sreg g w.a.toNat).truncate 20
      exec (.slset w) s = .next (if s.slBad g.part cfg then landed s (setS g w.d.toNat 1) k ((entry g k).pc + 8)
        else landed (s.putSlLine { l with owner := some g.gid, cfg := cfg, count := 0 }) (setS g w.d.toNat 0) k ((entry g k).pc + 8))) ∧
    ((Instr.slpulse w).wellFormed = true → l.waiters = [] → ∃ t, exec (.slpulse w) s = .next t ∧ t.cur = none ∧ SameMemory s t ∧ t.group? g.gid = some (advanced g k (entry g k).pc) ∧
      t.slLine g.core (fieldN w.imm 3 0) = { l with count := if l.count = 0xFFFF then l.count else l.count + 1 } ∧
      ∀ c n, ¬ (c = l.core ∧ n = l.line) → t.slLine c n = s.slLine c n) ∧
    ((Instr.slwait w).wellFormed = true →
      (l.count ≠ 0 → l.waiters = [] → exec (.slwait w) s = .next (landed (s.putSlLine { l with count := l.count - 1 }) g k ((entry g k).pc + 8))) ∧
      (l.count = 0 ∨ l.waiters ≠ [] → 
        exec (.slwait w) s = .next (((s.putSlLine { l with waiters := l.waiters ++ [.split g.gid k] }).setGroup (setEntry g k
          { entry g k with state := .waitPark, wait := .slwait (fieldN w.imm 3 0), age := 0, ibuf := none, turns := 0 })).turnOver)))) ∧
  (∀ (s : State) (core line id : Nat) (rest : List SlWaiter), (s.slLine core line).count ≠ 0 → (s.slLine core line).waiters = .trav id :: rest → (s.slLine core line).core = core →
    (s.slLine core line).line = line → (∀ gid k, rest.head? ≠ some (.split gid k)) →
    ∃ t, exec (.sluiceGateRelease core line) s = .next t ∧ SameMemory s t ∧ t.groups = s.groups ∧
      t.slLine core line = { s.slLine core line with count := (s.slLine core line).count - 1, waiters := rest } ∧
      t.travs = s.travs.map fun c => if c.id = id then { c with gates := c.gates.erase line } else c)

namespace Sys2Proof.Claims

/-- A place an engine can use at once. -/
def usable (p : DataPlace) : Prop := p ≠ .wait ∧ ∀ c, p ≠ .fail c

end Sys2Proof.Claims

/-- THE TRAVERSE ENGINE (R84, R258 to R263): TRAV_COMMAND_BEGIN takes the next command of its cluster that no gate holds: it keeps both records when they pass every check, and otherwise ends the command with the
check's cause; TRAV_COMMAND_PERFORMED of a command of one element writes the element read at the source to the destination, poisoned where the read is poisoned (POISON, cause 0x09) or its check fails (cause 0x07); a read that is poisoned and whose check fails reports the poison, which is the model's choice (log 28); the update-only copies of the tables it walks are combined first (R79), what it writes in scratch is noted as an operand's (R114), and the command has left its path. -/
def Sys2Proof.Claims.TraverseEngine : Prop :=
  (∀ (s s1 s2 : State) (c : TravCmd) (sb db : List Byte), s.travs.find? (fun x => x.id == c.id && x.recs.isNone) = some c → c.gates = [] →
    (∀ x ∈ s.travs.takeWhile (fun x => x.id != c.id), clusterOf x.core = clusterOf c.core → x.recs.isSome = true) →
    s.readRec c.core c.part c.src = (s1, .got sb) → s1.readRec c.core c.part c.dst = (s2, .got db) →
    (travCheck c.dmw sb db = none →
      exec (.travCommandBegin c.id) s = .next { s2 with travs := s2.travs.map fun x => if x.id = c.id then { x with recs := some (sb, db) } else x }) ∧
    (∀ e d, travCheck c.dmw sb db = some (e, d) → exec (.travCommandBegin c.id) s =
      .next (State.engineError { s2 with travs := s2.travs.filter fun x => !(x.id == c.id) } c.gid .trv e (if d then c.dst.toNat else c.src.toNat)))) ∧
  (∀ (s : State) (c : TravCmd) (sb db : List Byte) (a b : Dword), s.travs.find? (fun x => x.id == c.id) = some c → c.recs = some (sb, db) →
    let size := 2 ^ (shapeOf sb).esz
    elemPairs c.dmw (shapeOf sb) (shapeOf db) ((mappingOf c.dmw (shapeOf sb) (shapeOf db)).getD []) = [(a, b)] →
    let sa := s.engSeen c.core c.part a needR
    let sb := sa.engSeen c.core c.part b needW
    let from_ := sa.dataPlace c.core c.part a size needR
    let dest := sb.dataPlace c.core c.part b size needW
    usable from_ → usable dest → s.dataPlace c.core c.part a size needR ≠ .wait → s.dataPlace c.core c.part b size needW ≠ .wait →
    placesMeet (s.dataPlace c.core c.part a size needR) size (s.dataPlace c.core c.part b size needW) size = false →
    let s1 := sb.recallPlace (s.genOf c.part) size from_
    let v := s1.placeRead (s.genOf c.part) size from_
    let failed := s1.checks.contains (.trav c.id, 0)
    let s2 := ((s1.placeWrite (s.genOf c.part) v.1 (v.2 || failed) dest).notePlace c.gid size dest).dropChecks (.trav c.id)
    let s3 : State := { s2 with travs := s2.travs.filter fun x => !(x.id == c.id) }
    exec (.travCommandPerformed c.id) s = .next (if v.2 then s3.engineError c.gid .trv .poisoned a.toNat else if failed then s3.engineError c.gid .trv .check a.toNat else s3))

/-- THE COPY CHANNELS (R89, R107, R265 to R267): COPY_RECORD at a record whose OWN is 0 parks the channel on a monitor entry of that word; at an owned, well-formed record without a transaction barrier, whose copy goes
through, it clears OWN with status 0 after the copy and goes on to NEXT, or ends the chain; COPY_OWN_WAKE frees the monitor entry that has matched and lets the channel go on; a malformed record ends the chain, and its cause and address stand in the ENGERR of the group that issued it (R6, R258; PATH, which names no channel, is free, log 98). That a record's whole copy is one step is the model's choice (log 30). -/
def Sys2Proof.Claims.CopyChannels : Prop :=
  ∀ (s : State) (cl ch : Nat),
    let x := s.channel cl ch
    (∀ (g : Group) (h : ChainHead) (e : EngCause) (a : Dword), s.group? g.gid = some g → h.gid = g.gid → ∃ g', (s.chainCause h (some e) a).group? g.gid = some g' ∧
      fieldN g'.engerr 7 0 = engCode e ∧ fieldN g'.engerr 55 8 = a.toNat / 256 % 2 ^ 48 ∧ g' = { g with engerr := g'.engerr }) ∧
    (∀ h rest pa, x.chains = h :: rest → x.parked = none → (x.cur.getD h.head).toNat % 64 = 0 →
      let sr := s.engSeen h.core h.part (x.cur.getD h.head + 40) needRW
      sr.dataPlace h.core h.part (x.cur.getD h.head + 40) 8 needRW = .mem 0 pa →
      let s0 := sr.recallAt 0 (s.genOf h.part) pa 8
      (s0.placeRead (s.genOf h.part) 8 (.mem 0 pa)).2 = false →
      let rec_ := x.cur.getD h.head
      let w5 := s0.homeDword 0 (s.genOf h.part) pa
      let own := w5.getLsbD 0
      (own = false → s0.monRoom .global pa = true → let m := s0.addMon .global pa h.part .ownSet (.channel cl ch)
        exec (.copyRecord cl ch) s = .next (m.2.putChannel { x with cur := some rec_, parked := some m.1 })) ∧
      (∀ s1 b, own = true → s0.readRec h.core h.part rec_ = (s1, .got b) → (xferOf w5 b).bad = true →
        exec (.copyRecord cl ch) s = .next (State.pushFault ((s1.putChannel { x with chains := rest, cur := none, parked := none }).chainCause h (some .malformed) rec_) h.part
          (recordW0 4 1 false false false false) (match s1.anyGroup? h.gid with | some g => threadWord g.span g.block g.group 0 | none => 0) rec_ (s1.time (dieOf h.core)))) ∧
      (∀ s1 b s2, own = true → s0.readRec h.core h.part rec_ = (s1, .got b) → (xferOf w5 b).bad = false → (xferOf w5 b).tbar = 0 →
        let f := xferOf w5 b
        let pieces := copyPieces f.src f.dst (f.len / 32 + 3) f.len
        (∀ p ∈ pieces, s1.dataPlace h.core h.part p.1 p.2.2 needR ≠ .wait ∧ s1.dataPlace h.core h.part p.2.1 p.2.2 needW ≠ .wait) →
        (∀ p ∈ pieces, ∀ q ∈ pieces, placesMeet (s1.dataPlace h.core h.part p.1 p.2.2 needR) p.2.2 (s1.dataPlace h.core h.part q.2.1 q.2.2 needW) q.2.2 = false) →
        s1.copyMove (.copy cl ch) h.gid h.core h.part (s.genOf h.part) 0 pieces = (s2, none) →
        let s4 := (s2.dropChecks (.copy cl ch)).poke 0 (s.genOf h.part) pa (leBytes 8 0) false
        (f.next = 0 → exec (.copyRecord cl ch) s = .next (s4.putChannel { x with chains := rest, cur := none, parked := none })) ∧
        (f.next ≠ 0 → f.next.toNat % 64 = 0 → exec (.copyRecord cl ch) s = .next (s4.putChannel { x with cur := some f.next })))) ∧
    (∀ id m, x.parked = some id → s.mons.find? (fun y => y.id == id) = some m → (s.hitOf m).isSome = true →
      ∃ t, exec (.copyOwnWake cl ch) s = .next t ∧ SameMemory s t ∧ t.groups = s.groups ∧ t.channel cl ch = { x with parked := none } ∧ ∀ y ∈ t.mons, y.id ≠ id)

/-- THE QUANTISATION ENGINE (R124, R258, R268): QUANTISATION_COMMAND serves its die's oldest submission: a record out of its limits or misaligned ends it with its cause; a good record of one block with the scale to be
found writes the block's scale byte and its 32 values to usable places, the values poisoned and the cause 0x07 where the block's check fails, and the submission is no longer in flight. -/
def Sys2Proof.Claims.QuantisationEngine : Prop :=
  ∀ (s : State) (c : QntCmd) (attr pa : Nat), s.qnts.find? (fun x => x.die == c.die) = some c →
    let sr := s.engSeen c.core c.part c.addr needR
    sr.dataPlace c.core c.part c.addr 64 needR = .mem attr pa →
    let gen := s.genOf c.part
    let s0 := sr.recallAt attr gen pa 64
    (s0.placeRead gen 64 (.mem attr pa)).2 = false →
    let q := qntOf (s0.placeRead gen 64 (.mem attr pa)).1
    let aligned := q.src.toNat % qntSize q = 0 ∧ q.dst.toNat % 32 = 0
    (q.bad = true → exec (.quantisationCommand c.die) s = .next (s0.endQnt c (some (.malformed, c.addr.toNat)))) ∧
    (q.bad = false → ¬ aligned → exec (.quantisationCommand c.die) s = .next (s0.endQnt c (some (.misaligned, c.addr.toNat)))) ∧
    (q.bad = false → aligned → q.nblk = 1 → q.supplied = false →
      let sb := ((s0.engSeen c.core c.part q.src needR).engSeen c.core c.part q.dst needW).engSeen c.core c.part q.scales needW
      let from_ := sb.dataPlace c.core c.part q.src (qntSize q) needR
      let dest := sb.dataPlace c.core c.part q.dst 32 needW
      let at_ := sb.dataPlace c.core c.part q.scales 1 needW
      s0.dataPlace c.core c.part q.src (qntSize q) needR ≠ .wait → s0.dataPlace c.core c.part q.dst 32 needW ≠ .wait → s0.dataPlace c.core c.part q.scales 1 needW ≠ .wait →
      let s1 := sb.recallPlace gen (qntSize q) from_
      let xs := qntValues q (s1.placeRead gen (qntSize q) from_).1
      let scale := Num.d2p8scale xs
      usable from_ → usable dest → usable at_ → (s1.placeRead gen (qntSize q) from_).2 = false → scale ≠ 0xFF →
      let s2 := (s1.placeWrite gen [scale] false at_).notePlace c.gid 1 at_
      let failed := s2.checks.contains (.qnt c.id, 0)
      exec (.quantisationCommand c.die) s = .next ((((s2.placeWrite gen (xs.map fun x => Num.d2p8q x scale) failed dest).notePlace c.gid 32 dest).dropChecks (.qnt c.id)).endQnt c
        (if failed then some (.check, q.src.toNat) else none))) ∧
    (∀ e, (s.endQnt c e).qnts = s.qnts.filter fun x => !(x.id == c.id))

/-- SYSTEM REGISTERS (R5, R18, R21, R22, R33, R49, R82, R248, R258, R273, R277): GETSR copies a register to a scalar, or its low word lane by lane to a row; SETSR writes one under its access: read-only registers and reserved bits keep
their values, the trap registers other than TRAPBASE and TRAPCTL.SS take a write in handler mode only, EXMASK keeps to owned lanes, BARLIMIT belongs to the block, INFLIGHT holds the counts of the paths and clears the error bits that a write
has set, ENGERR takes its PATH, ADDR and CAUSE. -/
def Obligations.SystemRegisters : Prop :=
  ∀ (w : RI) (s : State) (g : Group) (k : Nat), Issues s g k →
    let sel := srSel w
    ((Instr.getsr w).wellFormed = true → w.m.getLsbD 0 = false → executesIn g k w.toHdr = true → Lands (.getsr w) s g k (setS g w.d.toNat (sysReg s g k sel 0))) ∧
    ((Instr.getsr w).wellFormed = true → w.m.getLsbD 0 = true → active g k w.toHdr ≠ 0 → WritableRows g [w.d.toNat] →
      Lands (.getsr w) s g k (writesRow g k w.toHdr w.d.toNat .i32 fun l => (sysReg s g k sel l).truncate 32)) ∧
    ((Instr.setsr w).wellFormed = true → executesIn g k w.toHdr = true →
      (sel ≠ 0x014 → Lands (.setsr w) s g k (writeSysReg g k sel (sreg g w.a.toNat))) ∧
      (∀ b, sel = 0x014 → s.block? g.bid = some b → ∃ t, exec (.setsr w) s = .next t ∧ t.cur = none ∧ SameMemory s t ∧ t.group? g.gid = some (advanced g k (entry g k).pc) ∧
        t.block? g.bid = some { b with barlimit := (sreg g w.a.toNat).truncate 32 })) ∧
    (∀ (v : Dword) (lane : Nat),
      sysReg s g k 0x000 lane = BitVec.ofNat 64 lane ∧ sysReg s g k 0x001 lane = BitVec.ofNat 64 (lane / 4) ∧ sysReg s g k 0x008 lane = BitVec.ofNat 64 g.part ∧
      sysReg s g k 0x002 lane = BitVec.ofNat 64 g.group ∧ sysReg s g k 0x003 lane = BitVec.ofNat 64 g.block ∧ sysReg s g k 0x004 lane = BitVec.ofNat 64 g.span ∧
      sysReg s g k 0x005 lane = BitVec.ofNat 64 g.ngroups ∧ sysReg s g k 0x006 lane = BitVec.ofNat 64 g.nblocks ∧ sysReg s g k 0x007 lane = BitVec.ofNat 64 g.nspans ∧
      sysReg s g k 0x009 lane = BitVec.ofNat 64 (g.core / 4096) ∧ sysReg s g k 0x00A lane = BitVec.ofNat 64 (g.core / 256 % 16) ∧ sysReg s g k 0x00B lane = BitVec.ofNat 64 (g.core % 256) ∧
      (8 ≤ g.allot → g.allot ≤ 512 → g.prio < 4 → g.role < 4 → let r := sysReg s g k 0x012 lane
        fieldN r 10 4 = g.allot / 8 - 1 ∧ fieldN r 3 2 = g.prio ∧ fieldN r 1 0 = g.role ∧ fieldN r 63 11 = 0) ∧
      sysReg s g k 0x013 lane = g.gang ∧
      (g.trv.count < 4096 → g.asy.count < 4096 → g.qntq.length < 256 → g.cisq.length < 256 → g.trv.closed.length < 256 → g.asy.closed.length < 256 → let r := sysReg s g k 0x015 lane
        fieldN r 63 60 = 0 ∧ r.getLsbD 59 = g.errQnt ∧ r.getLsbD 58 = g.errCis ∧ r.getLsbD 57 = g.errTrv ∧ r.getLsbD 56 = g.errAsy ∧ fieldN r 55 44 = g.trv.count ∧ fieldN r 43 32 = g.asy.count ∧
        fieldN r 31 24 = g.qntq.length ∧ fieldN r 23 16 = g.cisq.length ∧ fieldN r 15 8 = g.trv.closed.length ∧ fieldN r 7 0 = g.asy.closed.length) ∧
      writeSysReg g k 0x015 v = { g with errQnt := g.errQnt && !v.getLsbD 59, errCis := g.errCis && !v.getLsbD 58, errTrv := g.errTrv && !v.getLsbD 57, errAsy := g.errAsy && !v.getLsbD 56 } ∧
      sysReg s g k 0x016 lane = g.engerr ∧ writeSysReg g k 0x016 v = { g with engerr := v &&& 0xC0FFFFFFFFFFFFFF } ∧
      sysReg s g k 0x00C lane = BitVec.ofNat 64 g.slot ∧ sysReg s g k 0x010 lane = (entry g k).ex.zeroExtend 64 ∧ sysReg s g k 0x011 lane = g.live.zeroExtend 64 ∧
      (k < 4 → (entry (writeSysReg g k 0x010 v) k).ex = v.truncate 32 &&& (entry g k).own) ∧
      sysReg s (writeSysReg g k 0x020 v) k 0x020 0 = v &&& ~~~7 ∧ (writeSysReg g k 0x021 v).ss = v.getLsbD 0 ∧ (writeSysReg g k 0x021 v).hmode = g.hmode ∧
      (∀ r ∈ [0x022, 0x023, 0x024, 0x025, 0x028, 0x029, 0x02A, 0x02B], g.hmode = false → writeSysReg g k r v = g) ∧
      (g.hmode = true → sysReg s (writeSysReg g k 0x022 v) k 0x022 0 = v &&& 0x3FFF ∧ sysReg s (writeSysReg g k 0x023 v) k 0x023 0 = v ∧
        sysReg s (writeSysReg g k 0x024 v) k 0x024 0 = v &&& ~~~7 ∧ sysReg s (writeSysReg g k 0x025 v) k 0x025 0 = v ∧
        ∀ r ∈ [0x028, 0x029, 0x02A, 0x02B], sysReg s (writeSysReg g k r v) k r 0 = v) ∧
      (∀ r ∈ [0x000, 0x001, 0x002, 0x003, 0x004, 0x005, 0x006, 0x007, 0x008, 0x009, 0x00A, 0x00B, 0x00C, 0x011, 0x012, 0x013], writeSysReg g k r v = g))

/-- BREAKPOINTS AND THE RETURN FROM A TRAP (R280 to R283): BKPT enters the handler with cause BKPT and its immediate, or, as a debugger breakpoint under DBKPT, halts its group at the word with a record for the driver and nothing else
of the group changed; ERET in handler mode goes to TRAPPC or the word behind it with EX restored within OWN and HMODE 0; outside it is an ACCESS trap that writes the trap registers and halts the group, with a record for the driver, whatever
TRAPBASE holds. -/
def Obligations.BreakpointAndReturn : Prop :=
  ∀ (s : State) (g : Group) (k : Nat), Issues s g k →
    (∀ w : RI, (Instr.bkpt w).wellFormed = true → executesIn g k w.toHdr = true →
      let dbg := w.imm.getLsbD 17 && (s.part g.part).dbkpt
      (dbg = false → exec (.bkpt w) s = .next (s.takeTrap g.gid k (active g k w.toHdr) .bkpt none (w.imm.zeroExtend 64)).turnOver) ∧
      (dbg = false → g.hmode = false → BitVec.extractLsb' 3 61 g.trapbase ≠ 0 → ∃ t g', exec (.bkpt w) s = .next t ∧ t.cur = none ∧ SameMemory s t ∧ t.group? g.gid = some g' ∧
        TrapSaved g g' k (active g k w.toHdr) .bkpt none (w.imm.zeroExtend 64) ∧ g'.hmode = true ∧ (entry g' k).pc = (g.trapbase >>> 3) <<< 3 ∧ (entry g' k).ex = (entry g k).ex ∧
        g'.s = g.s ∧ g'.rows = g.rows) ∧
      (dbg = true → ∃ t, exec (.bkpt w) s = .next t ∧ t.cur = none ∧ t.scratch = s.scratch ∧ t.cistern = s.cistern ∧ t.group? g.gid = some { g with halt := true }) ∧
      (dbg = true → exec (.bkpt w) s = .next ((s.setGroup { g with halt := true }).trapHaltRecord g .bkpt
        ((lowestLane (active g k w.toHdr)).getD ((lowestLane (entry g k).ex).getD ((lowestLane (entry g k).own).getD 0))) (entry g k).pc).turnOver)) ∧
    (∀ w : RR, (Instr.eret w).wellFormed = true ↔ w.form = .native ∧ w.d = 0 ∧ w.a = 0 ∧ w.b = 0 ∧ w.c = 0 ∧ w.z = 0 ∧ w.e = 0 ∧ w.k = 0 ∧ (w.m = 0 ∨ w.m = 1)) ∧
    (∀ w : RR, (Instr.eret w).wellFormed = true → executesIn g k w.toHdr = true → g.hmode = true →
      ∃ t g', exec (.eret w) s = .next t ∧ t.cur = none ∧ SameMemory s t ∧ t.group? g.gid = some g' ∧ g'.hmode = false ∧ g'.stopped = 0 ∧ g'.s = g.s ∧ g'.rows = g.rows ∧
        (entry g' k).pc = (if w.m.getLsbD 0 then g.trappc + 8 else g.trappc) ∧ (entry g' k).ex = g.traplanes.truncate 32 &&& (entry g k).own) ∧
    (∀ w : RR, (Instr.eret w).wellFormed = true → executesIn g k w.toHdr = true →
      (g.hmode = true → let r : Group := { g with hmode := false, stopped := 0 }
        let pc := if w.m.getLsbD 0 then g.trappc + 8 else g.trappc
        exec (.eret w) s = .next ((s.setGroup (setEntry r k
          { entry r k with pc := pc, ex := g.traplanes.truncate 32 &&& (entry g k).own, age := 0, ibuf := none, turns := 0 })).turnOver)) ∧
      (g.hmode = false → ∃ t g', exec (.eret w) s = .next t ∧ t.cur = none ∧ t.group? g.gid = some g' ∧ g'.halt = true ∧ g'.halt280 = true ∧ g'.hmode = false ∧
        g'.trapcause = 0x07 ∧ g'.trappc = (entry g k).pc ∧ g'.s = g.s ∧ g'.rows = g.rows) ∧
      (g.hmode = false → ∃ g' : Group, exec (.eret w) s = .next ((s.setGroup g').trapHaltRecord g' .access
          ((lowestLane (active g k w.toHdr)).getD ((lowestLane (entry g k).ex).getD 0)) (entry g k).pc).turnOver ∧
        TrapSaved g g' k (active g k w.toHdr) .access none 0 ∧ OnlyTrapState g g' k ∧ g'.hmode = false ∧ g'.halt = true ∧ g'.halt280 = true ∧ g'.stopped = g.stopped ∧
        (entry g' k).pc = (entry g k).pc ∧ (entry g' k).ex = (entry g k).ex))

namespace Sys2Proof.Claims

/-- A debugger word issued outside handler mode is refused by an ACCESS trap (R284). -/
def OutsideHandler (i : Instr) (s : State) (g : Group) (k : Nat) (h : Hdr) : Prop :=
  g.hmode = false → exec i s = .next (s.takeTrap g.gid k (active g k h) .access none 0).turnOver

/-- A watch slot as an address and a control word arm it (R287). -/
def slotOf (g : Group) (a b : Dword) : WatchSlot :=
  { en := b.getLsbD 6, wr := b.getLsbD 5, rd := b.getLsbD 4, log2len := fieldN b 3 0, addr := a, cluster := clusterOf g.core }

end Sys2Proof.Claims

/-- THE DEBUGGER'S WORDS (R284 to R287): outside handler mode HALTG, STEPG and WATCHSET trap ACCESS. In it, HALTG sets or clears the halt bit of its target, or dumps a halted target's four entries to scratch, with
status 1 for no such group, 2 for its own, 3 for a running target under `.dump`; STEPG asks its halted target for one instruction and parks, or answers 1, 2 or 3 (3 also for a target with a step already asked of it or in a block that is swapped out or saved, which is the model's choice, log 46); WATCHSET writes a slot and parks
its split, or answers 1 and leaves the slot; that the slot is written in the issuing step is the model's choice (log 46). -/
def Sys2Proof.Claims.DebuggerWords : Prop :=
  ∀ (w : RR) (s : State) (g : Group) (k : Nat), Issues s g k → executesIn g k w.toHdr = true →
    let a := sreg g w.a.toNat
    let b := sreg g w.b.toNat
    let who := s.peerGid g.lid (fieldN a 37 14) (fieldN a 13 10) (fieldN a 9 0)
    ((Instr.haltg w).wellFormed = true → OutsideHandler (.haltg w) s g k w.toHdr ∧ (g.hmode = true →
      (fieldN w.m 1 0 ≠ 2 →
        (who = none → Lands (.haltg w) s g k (setS g w.d.toNat 1)) ∧
        (who = some g.gid → Lands (.haltg w) s g k (setS g w.d.toNat 2)) ∧
        (∀ x, who = some x.gid → x.gid ≠ g.gid → s.group? x.gid = some x → ∃ t, exec (.haltg w) s = .next t ∧ t.cur = none ∧ SameMemory s t ∧
          t.group? g.gid = some (advanced (setS g w.d.toNat 0) k (entry g k).pc) ∧
          (fieldN w.m 1 0 = 0 → t.group? x.gid = some { x with halt := true }) ∧
          (fieldN w.m 1 0 = 1 → x.halt280 = true → t.group? x.gid = some x) ∧
          (fieldN w.m 1 0 = 1 → x.halt280 = false → ∃ y, t.group? x.gid = some y ∧ y.halt = false ∧ y.rows = x.rows ∧ y.s = x.s ∧
            ∀ j < 4, entry y j = { entry x j with ibuf := none }))) ∧
      (∀ x, fieldN w.m 1 0 = 2 → b.toNat % 128 = 0 → windowOf b = some .scratch → s.inWindow g.part b .scratch = true → who = some x.gid → x.gid ≠ g.gid → s.group? x.gid = some x →
        (x.halt = false → Lands (.haltg w) s g k (setS g w.d.toNat 3)) ∧
        (x.halt = true → s.nearBusy g.gid (storageKey g.core b .scratch) = false → ∃ t, exec (.haltg w) s = .next t ∧ t.cur = none ∧ t.dram = s.dram ∧ t.cistern = s.cistern ∧
          t.group? g.gid = some (advanced (setS g w.d.toNat 0) k (entry g k).pc) ∧ t.group? x.gid = some x ∧
          t.scratch = s.scratch.write (s.genOf g.part) (storageKey g.core b .scratch) (splitBytes x) false)))) ∧
    ((Instr.stepg w).wellFormed = true → OutsideHandler (.stepg w) s g k w.toHdr ∧ (g.hmode = true →
      (who = none → Lands (.stepg w) s g k (setS g w.d.toNat 1)) ∧
      (∀ x, who = some x.gid → s.group? x.gid = none → s.anyGroup? x.gid = some x → Lands (.stepg w) s g k (setS g w.d.toNat (if x.halt then 3 else 2))) ∧
      (∀ x, who = some x.gid → s.group? x.gid = some x →
        (x.halt = false → Lands (.stepg w) s g k (setS g w.d.toNat 2)) ∧
        (x.halt = true → (stepReady x (fieldN b 2 0) = false ∨ x.stepReq ≠ none) → Lands (.stepg w) s g k (setS g w.d.toNat 3)) ∧
        (x.halt = true → stepReady x (fieldN b 2 0) = true → x.stepReq = none → x.gid ≠ g.gid → ∃ t g' y, exec (.stepg w) s = .next t ∧ t.cur = none ∧ SameMemory s t ∧
          t.group? g.gid = some g' ∧ (entry g' k).state = .waitPark ∧ (entry g' k).wait = .stepg w.d.toNat ∧ (entry g' k).pc = (entry g k).pc ∧ g'.s = g.s ∧ g'.rows = g.rows ∧
          t.group? x.gid = some y ∧ y.halt = true ∧ y.stepReq = some { entry := fieldN b 2 0, by_ := some (g.gid, k, w.d.toNat) } ∧ y.rows = x.rows ∧ y.s = x.s)))) ∧
    ((Instr.watchset w).wellFormed = true → OutsideHandler (.watchset w) s g k w.toHdr ∧ (g.hmode = true →
      let n := fieldN b 3 0
      (n < 2 ∨ 12 < n ∨ a.toNat % 2 ^ n ≠ 0 → Lands (.watchset w) s g k (setS g w.d.toNat 1)) ∧
      (2 ≤ n → n ≤ 12 → a.toNat % 2 ^ n = 0 → g.part < 40 → ∃ t g', exec (.watchset w) s = .next t ∧ t.cur = none ∧ SameMemory s t ∧
        t.group? g.gid = some g' ∧ (entry g' k).state = .waitPark ∧ (entry g' k).wait = .watchset w.d.toNat ∧ (entry g' k).pc = (entry g k).pc ∧ g'.s = g.s ∧ g'.rows = g.rows ∧
        (∀ q, q ≠ g.part → t.part q = s.part q) ∧
        t.part g.part = { s.part g.part with watches := vset (s.part g.part).watches (fieldN w.m 1 0) (slotOf g a b) })))

namespace Sys2Proof.Claims

/-- The header of a partition's debug mailbox as its home holds it: WRIDX, RDIDX and CAP (R289). -/
def mailbox (s : State) (gen attr pa : Nat) : Dword × Dword × Nat := (s.homeDword attr gen pa, s.homeDword attr gen (pa + 8), fieldN (s.homeDword attr gen (pa + 16)) 31 0)

end Sys2Proof.Claims

/-- THE DEBUG MAILBOX (R289): once its group's earlier accesses are performed for the system, DBGMB answers 2 without a mailbox and 1 for a full one or a CAP that is no power of two; otherwise it writes its record
of eight words at WRIDX and raises WRIDX, in one step, and answers 0. Until then it is passed over with nothing changed (the model's choice, log 20). One that does not execute writes nothing and still orders as
a system fence (R28, R103). -/
def Sys2Proof.Claims.DebugMailbox : Prop :=
  (∀ (w : RR) (s : State) (g : Group) (k : Nat), Issues s g k → executesIn g k w.toHdr = true → (Instr.dbgmb w).wellFormed = true → s.performedFor g.gid (some .system) = false →
    exec (.dbgmb w) s = .next s) ∧
  (∀ (w : RR) (s : State) (g : Group) (k : Nat), Issues s g k → executesIn g k w.toHdr = false → (Instr.dbgmb w).wellFormed = true →
    (s.performedFor g.gid (some .system) = false → Parks (.dbgmb w) s g k (.fence (some .system))) ∧
    (s.performedFor g.gid (some .system) = true → ∃ t, exec (.dbgmb w) s = .next t ∧ t.cur = none ∧ t.scratch = s.scratch ∧ t.cistern = s.cistern ∧
      t.group? g.gid = some (advanced g k (entry g k).pc))) ∧
  ∀ (w : RR) (s : State) (g : Group) (k : Nat), Issues s g k → executesIn g k w.toHdr = true → (Instr.dbgmb w).wellFormed = true → s.performedFor g.gid (some .system) = true →
    let va := (s.part g.part).mbox
    (va = 0 → exec (.dbgmb w) s = .next (landed (s.cleanCore g.core) (setS g w.d.toNat 2) k ((entry g k).pc + 8))) ∧
    (∀ c attr pa, va ≠ 0 → recordAt va → (frameOf (.dbgmb w) w.toHdr s g k).homePlace va needRW = .ok (c, attr, pa) → c.s.group? g.gid = some g →
      let gen := s.genOf g.part
      let x := mailbox c.s gen attr pa
      (capOk x.2.2 = false ∨ x.1 - x.2.1 = BitVec.ofNat 64 x.2.2 → exec (.dbgmb w) s = .next (landed (c.s.cleanCore g.core) (setS g w.d.toNat 1) k ((entry g k).pc + 8))) ∧
      (∀ c' attr' pa', capOk x.2.2 = true → x.1 - x.2.1 ≠ BitVec.ofNat 64 x.2.2 →
        c.homePlace (va + 64 + 64 * BitVec.ofNat 64 (x.1.toNat % x.2.2)) needW = .ok (c', attr', pa') → c'.s.group? g.gid = some g →
        let words : List Dword := [BitVec.ofNat 64 (w.m.toNat + g.block * 2 ^ 6 + g.group * 2 ^ 10 + g.span * 2 ^ 20), (entry g k).pc, g.live ++ (entry g k).ex, sreg g w.a.toNat,
          sreg g w.b.toNat, sreg g w.c.toNat, s.time (dieOf g.core), x.1]
        exec (.dbgmb w) s = .next (landed ((((c'.s.cleanCore g.core).poke attr' gen pa' (words.flatMap fun v => leBytes 8 v.toNat) false).poke attr gen pa (leBytes 8 (x.1 + 1).toNat) false))
          (setS g w.d.toNat 0) k ((entry g k).pc + 8))))

namespace Sys2Proof.Claims

/-- Group g as a switch of its only split k to role r has made it: allotment, role, priority and entry point of the role; rows both allotments hold keep their contents and the rest are as never written; the
scalars are kept but for the status of a `rolesw` (R34). -/
def Switched (g g' : Group) (k : Nat) (sd : Option Nat) (r : Nat) (d : RoleDecl) : Prop :=
  g'.allot = d.regs ∧ g'.role = r ∧ g'.prio = d.prio ∧ (entry g' k).state = .runnable ∧ (entry g' k).pc = d.entry ∧ (∀ i < min g.allot d.regs, row g' i = row g i) ∧
    (∀ i, min g.allot d.regs ≤ i → row g' i = rowZero) ∧ (match sd with | some x => g'.s = vset g.s x 0 | none => g'.s = g.s)

end Sys2Proof.Claims

/-- ROLE SWITCHES (R34, R274): ROLESW of an undeclared role answers 1; of a declared one, by the only split of a group with no register write and no product outstanding whose pool has the rows, it switches the
group; with writes outstanding it parks in STATE 100, which R23 does not name for this wait (the model's choice, log 77). ROLE_SWITCH and ROLESW_GROW_RESUME make a switch that waited for its writes, or for rows with no earlier grower of its core, on the same conditions. -/
def Obligations.RoleSwitches : Prop :=
  (∀ (w : RI) (s : State) (g : Group) (k : Nat), Issues s g k → executesIn g k w.toHdr = true → (Instr.rolesw w).wellFormed = true →
    let r := fieldN w.imm 1 0
    (s.roleOf g r = none → Lands (.rolesw w) s g k (setS g w.d.toNat 1)) ∧
    (∀ d, s.roleOf g r = some d → (entry g k).rv = false → (∀ j < 4, j ≠ k → (entry g j).state = .free ∧ (entry g j).wait = .none) →
      (s.writesOut g = true → ∃ t g', exec (.rolesw w) s = .next t ∧ t.cur = none ∧ SameMemory s t ∧ t.group? g.gid = some g' ∧ (entry g' k).state = .waitPark ∧
        (entry g' k).wait = .rolesw (some w.d.toNat) r false ∧ (entry g' k).pc = (entry g k).pc ∧ g'.rows = g.rows ∧ g'.s = g.s) ∧
      (s.writesOut g = false → g.mmas = [] → d.regs ≤ g.allot + s.poolFree g → ∃ t g', exec (.rolesw w) s = .next t ∧ t.cur = none ∧ SameMemory s t ∧ t.group? g.gid = some g' ∧
        Switched g g' k (some w.d.toNat) r d))) ∧
  (∀ (s : State) (g : Group) (k r : Nat) (sd : Option Nat) (grow : Bool) (d : RoleDecl), k < 4 → s.group? g.gid = some g → (entry g k).state = .waitPark → (entry g k).wait = .rolesw sd r grow →
    s.roleOf g r = some d → s.writesOut g = false → g.mmas = [] → d.regs ≤ g.allot + s.poolFree g →
    (grow = true → ∀ x ∈ s.groupsOf g.bid, x.core = g.core → growing x = true → linearOf g ≤ linearOf x) →
    ∃ t g', exec (if grow then .roleswGrowResume g.gid k else .roleSwitch g.gid k) s = .next t ∧ SameMemory s t ∧ t.group? g.gid = some g' ∧ Switched g g' k sd r d)

namespace Sys2Proof.Claims

/-- A cache maintenance word may go (R276): active threads, readable address rows, global addresses, every line quiet with no access of the group waiting. -/
def MaintainReady (s s1 : State) (g : Group) (k : Nat) (w : ML) (accs : List LaneAcc) : Prop :=
  active g k w.toHdr ≠ 0 ∧ Unheld g ∧ active g k w.toHdr &&& g.helpers = 0 ∧ ReadableRows g (addrRows w.a (akOf w.m)) ∧
    (∀ l < 32, (active g k w.toHdr).getLsbD l = true → windowOf (laneVa g w.a (akOf w.m) (w.ofs.signExtend 64) l) = some .global) ∧
    s.resolve g ⟨false, false, false⟩ false ((maskLanes (active g k w.toHdr)).map fun l => (l, laneVa g w.a (akOf w.m) (w.ofs.signExtend 64) l)) = (s1, accs, none) ∧
    (∀ a ∈ accs, a.attr ≠ 1 → s1.pendBusy g.core (a.addr / 128) = false ∧ s1.quiet (a.addr / 128) = true)

end Sys2Proof.Claims

/-- CACHE AND SITE MAINTENANCE (R275, R276, R302, R307 to R311): CWB leaves no dirty copy of its lines in its core's L1, or in any cache for `.l2`; CINV leaves no copy there at all; SITEARM clears the sixteen
history bytes of a line and answers 0, or 1 without a sidecar, and traps ACCESS outside the global window. That CWB and CINV need no permission of their page is the model's choice (log 47), as is that SITEARM
writes sixteen zero bytes at once (log 45). -/
def Sys2Proof.Claims.Maintenance : Prop :=
  (∀ (w : ML) (s s1 : State) (g : Group) (k : Nat) (accs : List LaneAcc), Issues s g k → MaintainReady s s1 g k w accs →
    let l2 := w.d.getLsbD 0
    ((Instr.cwb w).wellFormed = true → ∃ t, exec (.cwb w) s = .next t ∧ t.cur = none ∧ t.scratch = s.scratch ∧ t.cistern = s.cistern ∧ t.group? g.gid = some (advanced g k (entry g k).pc) ∧
      ∀ a ∈ accs, a.attr ≠ 1 → (l2 = false → ∀ l, t.l1Line? g.core (a.addr / 128) = some l → dirtySt l.st = false) ∧
        (l2 = true → (∀ l ∈ t.l1, l.line = a.addr / 128 → dirtySt l.st = false) ∧ ∀ l ∈ t.slices, l.line = a.addr / 128 → dirtySt l.st = false)) ∧
    ((Instr.cinv w).wellFormed = true → ∃ t, exec (.cinv w) s = .next t ∧ t.cur = none ∧ t.scratch = s.scratch ∧ t.cistern = s.cistern ∧ t.group? g.gid = some (advanced g k (entry g k).pc) ∧
      ∀ a ∈ accs, a.attr ≠ 1 → (l2 = false → t.l1Line? g.core (a.addr / 128) = none) ∧
        (l2 = true → (∀ l ∈ t.l1, l.line ≠ a.addr / 128) ∧ ∀ l ∈ t.slices, l.line ≠ a.addr / 128))) ∧
  (∀ (w : RR) (s s1 : State) (g : Group) (k : Nat) (l : Leaf), Issues s g k → executesIn g k w.toHdr = true → (Instr.sitearm w).wellFormed = true →
    (windowOf (sreg g w.a.toNat &&& ~~~127) ≠ some .global →
      exec (.sitearm w) s = .next (s.takeTrap g.gid k (active g k w.toHdr) .access none (sreg g w.a.toNat)).turnOver) ∧
    (windowOf (sreg g w.a.toNat &&& ~~~127) = some .global → s.translate g.core g.part (sreg g w.a.toNat &&& ~~~127) needX = (s1, .ok l) →
    (s1.sidecar g.part (sreg g w.a.toNat &&& ~~~127) = none → exec (.sitearm w) s = .next (landed s1 (setS g w.d.toNat 1) k ((entry g k).pc + 8))) ∧
    (∀ x, s1.sidecar g.part (sreg g w.a.toNat &&& ~~~127) = some x → s1.homeBehind g x.sideAttr x.side 16 = false → (x.sideAttr ≠ 1 → s1.cowLine (x.side / 128) = false) →
      exec (.sitearm w) s = .next (landed (s1.poke x.sideAttr (s.genOf g.part) x.side (List.replicate 16 0) false) (setS g w.d.toNat 0) k ((entry g k).pc + 8)))))

/-- SITE STEPS (R307 to R312, R413): SITE_STEP_QUICKEN and SITE_STEP_WIDEN write their new word when the code word still is the one they expect and is not poisoned, and are over otherwise; a widening that has
written goes on to the sidecar as a new message, and its next step counts one flip there, and pins the site at the third. Update-only copies of the code line are recalled before it is compared (R79), and a line that two running partitions map otherwise than as shared code is undefined first (R315, R371). That the
instance which asked has gone on at once, and the two steps of a widening, are the model's choice (log 45). -/
def Sys2Proof.Claims.SiteSteps : Prop :=
  ∀ (s : State) (x : SiteStep), s.sites.find? (fun y => y.id == x.id && (y.widen == x.widen)) = some x → s.siteReady x = true →
    let s0 := s.dropSite x.id
    let s1 := if x.attr = 1 then s0 else (s0.recallURange x.pa 8).blurRange x.gen x.pa 8
    let hit := s1.codeWord x = x.expect ∧ s1.peekPoison x.attr x.gen x.pa 8 = false
    let s2 := s1.poke x.attr x.gen x.pa (leBytes 8 x.new.toNat) false
    (x.widen = false → (hit → exec (.siteStepQuicken x.id) s = .next s2) ∧ (¬ hit → exec (.siteStepQuicken x.id) s = .next s1)) ∧
    (x.widen = true → x.rewritten = false → (¬ hit → exec (.siteStepWiden x.id) s = .next s1) ∧
      (hit → exec (.siteStepWiden x.id) s = .next { s2.fresh.2 with sites := s2.sites ++ [{ x with id := s2.fresh.1, rewritten := true }] })) ∧
    (x.widen = true → x.rewritten = true →
      let u := if x.sideAttr = 1 then s0 else (s0.recallURange x.side 1).blurRange x.gen x.side 1
      exec (.siteStepWiden x.id) s = .next (if u.peekPoison x.sideAttr x.gen x.side 1 then u else u.poke x.sideAttr x.gen x.side [flipByte (u.sideByte x.sideAttr x.gen x.side)] false)) ∧
    flipByte 0 = 1 ∧ flipByte 1 = 2 ∧ flipByte 2 = 7 ∧ flipByte 3 = 7

namespace Sys2Proof.Claims

/-- PC + 8 × IMM (R143, R160). -/
def relTarget (g : Group) (k : Nat) (imm : BitVec 27) : Dword := (entry g k).pc + imm.signExtend 64 * 8

/-- The lanes of EX that do not take a branch (R24). -/
def notTaken (g : Group) (k : Nat) (h : Hdr) : Mask := (entry g k).ex &&& ~~~active g k h

/-- A word has issued and left the split table of its group as in g'; the issuing entry's AGE is cleared and its word used up. -/
def tableIs (s : State) (g' : Group) (k : Nat) : State :=
  (s.setGroup (setEntry g' k { entry g' k with age := 0, ibuf := none, turns := 0 })).turnOver

/-- The group after a branch to one target with active lanes (R24): the split goes there whole, or its taken lanes become a new split in the lowest free entry, or, with none free, the not-taken lanes wait in the
resume field. -/
def branched (g : Group) (k : Nat) (h : Hdr) (target : Dword) : Option Group :=
  let e := entry g k
  if notTaken g k h = 0 then some (setEntry g k { e with pc := target })
  else match freeEntry g with
    | some j => some (setEntry (setEntry g j (newSplit target (active g k h) e.age)) k { e with pc := e.pc + 8, ex := notTaken g k h, own := e.own &&& ~~~active g k h })
    | none => if e.rv then none
      else some (setEntry g k { e with rpc := e.pc + 8, rmask := notTaken g k h, rv := true, ex := active g k h, own := e.own &&& ~~~notTaken g k h, pc := target })

/-- A word takes SPLITFULL (R24, R161). -/
def SplitFull (i : Instr) (s : State) (g : Group) (k : Nat) (h : Hdr) : Prop := exec i s = .next (s.takeTrap g.gid k (active g k h) .splitfull none 0).turnOver

end Sys2Proof.Claims

/-- RELATIVE BRANCHES AND CALLS (R24, R27, R143, R160, R162): BRA and CALL with active lanes send them to PC + 8 × IMM and the others on, by the split table, or trap SPLITFULL with none free and the resume field
taken; CALL links PC + 8 in a scalar, or in a pair of rows in the active lanes; without an active lane the split goes on and no link is written (R28, R162), and one with EX zero moves to the target under `(p0)`, a CALL with its scalar link. -/
def Obligations.RelativeBranches : Prop :=
  ∀ (w : WI) (s : State) (g : Group) (k : Nat), Issues s g k →
    let t := relTarget g k w.imm
    let link := (entry g k).pc + 8
    ((Instr.bra w).wellFormed = true →
      (active g k w.toHdr ≠ 0 → ∀ g', branched g k w.toHdr t = some g' → exec (.bra w) s = .next (tableIs s g' k)) ∧
      (active g k w.toHdr ≠ 0 → branched g k w.toHdr t = none → SplitFull (.bra w) s g k w.toHdr) ∧
      ((entry g k).ex ≠ 0 → active g k w.toHdr = 0 → Lands (.bra w) s g k g) ∧
      ((entry g k).ex = 0 → w.pg = 0 → w.pn = false → exec (.bra w) s = .next (landed s g k t)) ∧
      ((entry g k).ex = 0 → ¬ (w.pg = 0 ∧ w.pn = false) → Lands (.bra w) s g k g)) ∧
    ((Instr.call w).wellFormed = true → active g k w.toHdr ≠ 0 →
      (∀ g', branched g k w.toHdr t = some g' → w.mw.getLsbD 0 = false → exec (.call w) s = .next (tableIs s (setS g' w.d.toNat link) k)) ∧
      (∀ g', branched g k w.toHdr t = some g' → w.mw.getLsbD 0 = true → WritableRows g [w.d.toNat, w.d.toNat + 1] →
        exec (.call w) s = .next (tableIs s (writeRows g' [w.d.toNat, w.d.toNat + 1] (active g k w.toHdr) .raw fun _ => [link.truncate 32, link.extractLsb' 32 32]) k)) ∧
      (branched g k w.toHdr t = none → SplitFull (.call w) s g k w.toHdr)) ∧
    ((Instr.call w).wellFormed = true → active g k w.toHdr = 0 →
      ((entry g k).ex ≠ 0 → Lands (.call w) s g k g) ∧
      ((entry g k).ex = 0 → w.pg = 0 → w.pn = false → exec (.call w) s = .next (landed s (if w.mw.getLsbD 0 then g else setS g w.d.toNat link) k t)) ∧
      ((entry g k).ex = 0 → ¬ (w.pg = 0 ∧ w.pn = false) → Lands (.call w) s g k g))

namespace Sys2Proof.Claims

/-- The target of a lane of `brx` and of `ret` (R161). -/
def brxTarget (g : Group) (w : RR) (l : Nat) : Dword :=
  sreg g w.a.toNat + if (rrSrc w .b).z then 0 else 8 * (laneOf (row g w.b.toNat).lanes l).zeroExtend 64
@[inherit_doc brxTarget]
def retTarget (g : Group) (w : RR) (l : Nat) : Dword :=
  if w.m.getLsbD 0 then sreg g w.a.toNat else laneOf (row g (w.a.toNat + 1)).lanes l ++ laneOf (row g w.a.toNat).lanes l

/-- The lanes of a mask whose target is an address (R161). -/
def lanesTo (m : Mask) (target : Nat → Dword) (a : Dword) : Mask := maskOf fun l => m.getLsbD l && target l == a

/-- The lowest lane of every part that does not go to `stay`, in increasing lane order (R161). -/
def leaders (m : Mask) (target : Nat → Dword) (stay : Dword) : List Nat :=
  (maskLanes m).filter fun l => target l != stay && (maskLanes m).all fun j => decide (l ≤ j) || target j != target l

end Sys2Proof.Claims

/-- BRANCHES BY TARGETS (R24, R155, R161): BRX and RET with active threads and readable target rows: a misaligned target traps ALIGN at its lowest lane, but a single scalar target whose branch
finds no room traps SPLITFULL first (for a vector target SPLITFULL stands behind the row checks and ALIGN, which is the model's choice, log 90). Otherwise the lanes divide by target: those that stay are the part of the lowest
lane, or, when other lanes of EX are left, these with any lanes whose target is PC + 8; they keep the split's entry and its lanes outside EX. Every other part, in the order of its lowest lane, becomes a new split in the next lowest
free entry. With one part more than free entries and the resume field free, the lanes that stay wait in the resume field and the last part takes the split's entry; with still more, or the resume field taken, the word traps
SPLITFULL and the table is as it was. -/
def Obligations.TargetBranches : Prop :=
  ∀ (ret : Bool) (w : RR) (s : State) (g : Group) (k : Nat), Issues s g k → (if ret then Instr.ret w else Instr.brx w).wellFormed = true → active g k w.toHdr ≠ 0 →
    active g k w.toHdr &&& g.helpers = 0 →
    ((if ret then w.m.getLsbD 0 else (rrSrc w .b).z) = false → ReadableRows g (if ret then [w.a.toNat, w.a.toNat + 1] else [w.b.toNat])) →
    let target := if ret then retTarget g w else brxTarget g w
    let i := if ret then Instr.ret w else Instr.brx w
    let aligned := ∀ l < 32, (active g k w.toHdr).getLsbD l = true → (target l).toNat % 8 = 0
    let scalar := if ret then w.m.getLsbD 0 else (rrSrc w .b).z
    (scalar = true → branchParts g k (active g k w.toHdr) (notTaken g k w.toHdr) target = none → SplitFull i s g k w.toHdr) ∧
    (∀ l, l < 32 → (scalar = true → branchParts g k (active g k w.toHdr) (notTaken g k w.toHdr) target ≠ none) → (active g k w.toHdr).getLsbD l = true → (target l).toNat % 8 ≠ 0 → (∀ j < l, (active g k w.toHdr).getLsbD j = true → (target j).toNat % 8 = 0) →
      exec i s = .next (s.takeTrap g.gid k (active g k w.toHdr) .align (some l) (target l)).turnOver) ∧
    (aligned → (∀ g', branchParts g k (active g k w.toHdr) (notTaken g k w.toHdr) target = some g' → exec i s = .next (tableIs s g' k)) ∧
      (branchParts g k (active g k w.toHdr) (notTaken g k w.toHdr) target = none → SplitFull i s g k w.toHdr)) ∧
    let act := active g k w.toHdr
    let left := notTaken g k w.toHdr
    let e := entry g k
    let off := e.own &&& ~~~e.ex
    let stay := if left = 0 then target ((lowestLane act).getD 0) else e.pc + 8
    let kept := lanesTo act target stay ||| left
    let ls := leaders act target stay
    let free := entries.filter fun j => (entry g j).state == .free
    let last := lanesTo act target (target (ls.getLastD 0))
    (∀ g', branchParts g k act left target = some g' → g' = { g with split := g'.split } ∧
      (∀ n, n < ls.length → n < free.length → entry g' (free.getD n 0) = newSplit (target (ls.getD n 0)) (lanesTo act target (target (ls.getD n 0))) e.age) ∧
      (∀ j < 4, j ≠ k → j ∉ free.take ls.length → entry g' j = entry g j) ∧
      entry g' k = if ls.length ≤ free.length then { e with pc := stay, ex := kept, own := kept ||| off }
        else { e with rpc := stay, rmask := kept, rv := true, pc := target (ls.getLastD 0), ex := last, own := last ||| off }) ∧
    (branchParts g k act left target = none ↔ free.length + 1 < ls.length ∨ (ls.length = free.length + 1 ∧ e.rv = true))

namespace Sys2Proof.Claims

/-- The entry at a join, with the lanes its resume field holds for that join taken back (R26). -/
def atJoin (e : Entry) (j : Dword) : Entry :=
  if e.rv ∧ e.rpc = j then { e with rv := false, rpc := 0, rmask := 0, ex := e.ex ||| e.rmask, own := e.own ||| e.rmask } else e

end Sys2Proof.Claims

/-- JOINS (R25, R26, R163): JOIN at its own PC and JOIN_LABEL at its target: lanes held for another PC issue next while the others wait at the join; otherwise the split parks there while another split of its group is not
at a join, and as the only split of its group it goes on behind the join with all lanes. That RPC and RMASK are cleared with RV, of which alone R26 speaks, is the model's choice (log 48). -/
def Sys2Proof.Claims.Joins : Prop :=
  ∀ (s : State) (g : Group) (k : Nat) (i : Instr) (j : Dword), Issues s g k → i.wellFormed = true →
    ((∃ w : RR, i = .join w ∧ j = (entry g k).pc) ∨ ∃ w : WI, i = .joinLabel w ∧ j = relTarget g k w.imm) →
    let e := atJoin (entry g k) j
    (e.rv = true → exec i s = .next (tableIs s (setEntry g k { e with rpc := j, rmask := e.ex, pc := e.rpc, ex := e.rmask, own := e.rmask ||| (e.own &&& ~~~e.ex) }) k)) ∧
    (e.rv = false → (∀ x < 4, x ≠ k → (entry g x).state = .free) → exec i s = .next (tableIs s (setEntry g k { e with pc := j + 8, wait := .none }) k)) ∧
    (e.rv = false → (∃ x < 4, x ≠ k ∧ (entry g x).state ≠ .free ∧ (entry g x).state ≠ .joinPark) → (∀ x < 4, x ≠ k → (entry g x).state ≠ .joinPark) →
      exec i s = .next (tableIs s (setEntry g k { e with pc := j, state := .joinPark, wait := .none }) k))

/-- THE END OF LANES (R15, R20, R27, R164): EXIT without an active lane only moves the PC; when some lanes of its split stay, and no helper lane ends, the active lanes leave it and the live lanes of its group, and it goes on; when none stays, it takes up its resume field, be that empty (RV alone decides);
when the last lane of its group's last split leaves, the group is no longer resident and no byte of memory has changed but what its block's barriers perform. -/
def Sys2Proof.Claims.EndOfLanes : Prop :=
  ∀ (w : RR) (s : State) (g : Group) (k : Nat) (b : Block), Issues s g k → (Instr.exit w).wellFormed = true → s.block? g.bid = some b → g.helpers = 0 →
    let m := active g k w.toHdr
    ((entry g k).own &&& ~~~m ≠ 0 → (∀ j < 4, (entry g j).state ≠ .joinPark) → (∀ n < 16, (barOf b n).armed = false) →
      exec (.exit w) s = .next (landed s (setEntry { g with live := g.live &&& ~~~m } k
        { entry g k with ex := (entry g k).ex &&& ~~~m, own := (entry g k).own &&& ~~~m, rmask := (entry g k).rmask &&& ~~~m }) k ((entry g k).pc + 8))) ∧
    ((entry g k).own &&& ~~~m = 0 → (entry g k).rv = true → (entry g k).rmask &&& m = 0 → (∀ j < 4, (entry g j).state ≠ .joinPark) → (∀ n < 16, (barOf b n).armed = false) →
      exec (.exit w) s = .next (tableIs s (setEntry { g with live := g.live &&& ~~~m } k
        { entry g k with pc := (entry g k).rpc, ex := (entry g k).rmask, own := (entry g k).rmask, rv := false, rpc := 0, rmask := 0, wait := .none }) k)) ∧
    ((entry g k).own &&& ~~~m = 0 → (entry g k).rv = false → (∀ j < 4, j ≠ k → (entry g j).state = .free) →
      ∃ t, exec (.exit w) s = .next t ∧ t.group? g.gid = none ∧ t.cur = none ∧ t.scratch = s.scratch ∧ t.cistern = s.cistern ∧
        ((∀ n < 16, (barOf b n).armed = false) → s.rends = [] → SameMemory s t))

/-- PASSING TIME AND TRAPPING (R37, R165 to R168): NOP only moves the PC, and its word with no guard is 0x03C0000000000000; YIELD and SLEEP 0 also leave their split passed over at its partition's next turn; a movable
YIELD that waits for no earlier access of its group to the queues it reads (R98) moves its group to the stage R37 names where no other split and no write holds the switch up, and where one does it acts as a plain YIELD and never parks (how R37 and R165 go together there is the model's choice, log 66); SLEEP parks its split for its cycles; TRAP raises SOFTTRAP
with its code. -/
def Obligations.TimeAndTraps : Prop :=
  ∀ (s : State) (g : Group) (k : Nat), Issues s g k →
    let passed := setEntry g k { entry g k with passed := true }
    (∀ w : RR, (Instr.nop w).wellFormed = true → Lands (.nop w) s g k g) ∧
    decodeWord 0x03C0000000000000 = .ok (.nop ⟨⟨.native, 0, false, 0, 0⟩, 0, 0, 0, 0, 0, 0⟩) ∧
    (∀ w : RR, (Instr.yield w).wellFormed = true → (w.m.getLsbD 0 = true → s.stageMove g = none ∧ (frameOf (.yield w) w.toHdr s g k).stageWaits = false) → Lands (.yield w) s g k passed) ∧
    (∀ w : RR, (Instr.yield w).wellFormed = true → w.m.getLsbD 0 = true → (frameOf (.yield w) w.toHdr s g k).stageWaits = false → (entry g k).rv = false → ∀ r d, s.stageMove g = some (r, d) →
      ((∃ x < 4, x ≠ k ∧ (entry g x).state ≠ .free ∧ (entry g x).state ≠ .joinPark) → Lands (.yield w) s g k passed) ∧
      ((∀ x < 4, x ≠ k → (entry g x).state = .free ∧ (entry g x).wait = .none) → (s.writesOut g = true ∨ g.mmas ≠ [] → Lands (.yield w) s g k passed) ∧
        (s.writesOut g = false → g.mmas = [] → ∃ t g', exec (.yield w) s = .next t ∧ t.cur = none ∧ SameMemory s t ∧ t.group? g.gid = some g' ∧ Switched g g' k none r d))) ∧
    (∀ w : RI, (Instr.sleep w).wellFormed = true → (w.imm = 0 → Lands (.sleep w) s g k passed) ∧ (w.imm ≠ 0 → Parks (.sleep w) s g k (.sleep w.imm.toNat))) ∧
    (∀ w : RI, (Instr.trap w).wellFormed = true → executesIn g k w.toHdr = true →
      exec (.trap w) s = .next (s.takeTrap g.gid k (active g k w.toHdr) .softtrap none (w.imm.zeroExtend 64)).turnOver)

/-- GENERIC AND QUICKENED WORDS (R127, R146, R158, R194, R304 to R307, R309): the integer, floating, compare, conversion, load and store words in their generic and quickened forms have exactly the effect of the native
word with the format, or the space, that their sources resolve or confirm, beside the one step they send to their site: a resolved generic word quickens it, a quickened word whose check fails widens it. -/
def Obligations.GenericForms : Prop :=
  ∀ (s : State) (g : Group) (k : Nat), Issues s g k →
    (∀ p ∈ intOps, ∀ w : RR, AsNative (p.1 w) (fun c => p.1 (nativeRR w c)) w.toHdr w.m [w.d.toNat] (sources p.2.1 w) integerTag [0, 2] 0 s g k) ∧
    (∀ p ∈ intImmOps, ∀ w : RI, AsNative (p.1 w) (fun c => p.1 (nativeRI w c)) w.toHdr w.m [w.d.toNat] [riSrc w] integerTag [0] 0 s g k) ∧
    (∀ p ∈ floatOps, ∀ w : RR, AsNative (p.1 w) (fun c => p.1 (nativeRR w c)) w.toHdr w.m [w.d.toNat] (sources p.2.1 w) (fun c => (floatFormat c).2) [0, 1, 2] 0 s g k) ∧
    (∀ w : PP, AsNative (.cmp w) (fun c => .cmp (nativePP w c)) w.toHdr w.m [] [cmpSource w .a, cmpSource w .b] (fun c => if c = 2 then .f32 else .i32)
      (if cond31 w.m < 6 then [0, 2] else [2]) (if cond31 w.m < 6 then 0 else 2) s g k) ∧
    (∀ p ∈ loadOps, ∀ w : ML, InSpace (p.1 w) (fun c => p.1 (nativeML w c)) w.toHdr w.m (laneVa g w.a (akOf w.m) (w.ofs.signExtend 64)) s g k) ∧
    (∀ p ∈ storeOps, ∀ w : MS, InSpace (p.1 w) (fun c => p.1 (nativeMS w c)) w.toHdr w.m (laneVa g w.a (akOf w.m) (w.ofs.signExtend 64)) s g k) ∧
    (∀ (w : RR) (t : Tag) (pl : CvtPlan), (Instr.cvt w).wellFormed = true → threadsOf g (active g k w.toHdr) ≠ 0 → cvtPlan w t = some pl → t ≠ .raw →
      (Instr.cvt (nativeCvt w t)).wellFormed = true → WritableRows g pl.d → ReadableRows g (pl.a.rows ++ rowsOf pl.b) → TagsAgree g t pl.a.rows →
      (∀ u, pl.pair.b = some u → TagsAgree g u (rowsOf pl.b)) →
      (pl.pair.b = some .blk → ∀ l < 32, (threadsOf g (active g k w.toHdr)).getLsbD l = true → ∀ v ∈ pl.b, (srcLane g v 0 l).extractLsb' (8 * (l / 8)) 8 ≠ (255#8)) →
      (w.form = .quick → t = Tag.ofCode (srcfOf w.m) → (w.m.getLsbD 0 = true → Uniform g (threadsOf g (active g k w.toHdr)) (pl.a :: pl.b)) →
        exec (.cvt w) s = exec (.cvt (nativeCvt w t)) s) ∧
      (w.form = .generic → (∃ r ∈ pl.a.rows, (row g r).tag = t) → s.sidecar g.part (entry g k).pc = none → exec (.cvt w) s = exec (.cvt (nativeCvt w t)) s))

/-- R429: a BRX with B = `vz`, or a RET with a scalar operand, that would move a split with EX zero under R160 checks its one target: with a nonzero bit in 2:0 it traps ALIGN without a lane, the target in TRAPINFO,
and the split does not move; otherwise the split moves there whole. -/
def Obligations.EmptySplitTargets : Prop :=
  ∀ (ret : Bool) (w : RR) (s : State) (g : Group) (k : Nat), Issues s g k → (if ret then Instr.ret w else Instr.brx w).wellFormed = true →
    (if ret then w.m.getLsbD 0 else (rrSrc w .b).z) = true → (entry g k).ex = 0 → w.pg = 0 → w.pn = false →
    let i := if ret then Instr.ret w else Instr.brx w
    let target := sreg g w.a.toNat
    (target.toNat % 8 ≠ 0 → exec i s = .next (s.takeTrap g.gid k 0 .align none target).turnOver ∧
      (∀ (t : State) (g' : Group), g.hmode = false → BitVec.extractLsb' 3 61 g.trapbase ≠ 0 → exec i s = .next t → t.group? g.gid = some g' →
        g'.trappc = (entry g k).pc ∧ g'.trapinfo = target ∧ fieldN g'.trapcause 13 13 = 0 ∧ fieldN g'.trapcause 7 0 = 0x06)) ∧
    (target.toNat % 8 = 0 → exec i s = .next (landed s g k target))

namespace Sys2Proof.Claims

/-- Nothing of a line is on its way or held anywhere: no cache copy, no directory entry, no writeback, no partial, no reply (R74 to R80). -/
def Uncached (s : State) (line : Nat) : Prop :=
  (∀ l ∈ s.l1, l.line ≠ line) ∧ (∀ l ∈ s.slices, l.line ≠ line) ∧ (∀ l ∈ s.icache, l.line ≠ line) ∧ (∀ d ∈ s.dirs, d.line ≠ line) ∧ (∀ u ∈ s.uevicts, u.line ≠ line) ∧
    (∀ a ∈ s.answers, a.line ≠ line) ∧ (∀ f ∈ s.fills, f.line ≠ line) ∧ ∀ t ∈ s.txns, t.req.line ≠ line

/-- A line that takes a way of its home's L2 puts no line of another die out (R93). -/
def Roomy (s : State) (line : Nat) : Prop := ∀ w ∈ s.sameSet (homeDie line) line, homeDie w.line = homeDie line

end Sys2Proof.Claims

/-- REQUESTS AT THE HOME (R73, R76 to R81, R90, R98): the home takes up the next request of a source for a line that is cached nowhere: a read answers with the home's data, E unless the line is monitored or stubbed; a write
request answers with the data in M, or without the line when it is monitored or has a forwarding stub (R422), as does an update-only request of a stubbed line; a store that leaves nothing undefined writes its bytes; an atomic returns the old value and, when it leaves nothing undefined, writes the new one, unless the unit
is poisoned; both at the destination of a stubbed line (R422); its answer to a core is a reply of the home's slice (R73). Each request leaves the network. That a stubbed line's home redirects them so is the model's choice (log 42). -/
def Sys2Proof.Claims.HomeRequests : Prop :=
  ∀ (s : State) (r : Req), s.reqs.find? (fun x => x.id == r.id) = some r → r.id < s.nextId → r.node = .home → s.reqBehind r = false → s.cowLine r.line = false → Uncached s r.line →
    Roomy s r.line →
    ((∀ off a, r.kind ≠ .atom off a) → ∃ t : State, exec (.homeRequest r.id) s = .next t.settle ∧ (∀ x ∈ t.reqs, x.id ≠ r.id) ∧ t.groups = s.groups ∧ t.scratch = s.scratch ∧ t.cistern = s.cistern ∧
      (r.kind = .getS → SameMemory s t ∧ ∃ f ∈ t.fills, f.line = r.line ∧ f.dest = r.src ∧ f.val = s.homeVal r.line ∧ f.st = if s.keepsLine r.line then .s else .e) ∧
      (r.kind = .getM → SameMemory s t ∧ ∃ f ∈ t.fills, f.line = r.line ∧ f.dest = r.src ∧ f.val = s.homeVal r.line ∧ f.st = if s.keepsLine r.line then .i else .m) ∧
      (∀ op fmt, r.kind = .getU op fmt → SameMemory s t ∧ ∃ f ∈ t.fills, f.line = r.line ∧ f.dest = r.src ∧
        (s.stubOf r.line = none → f.st = .u op fmt ∧ f.val = identityLine op fmt r.gen) ∧ ((s.stubOf r.line).isSome = true → f.st = .i)) ∧
      (∀ off bs, r.kind = .store off bs → let pa := r.line * 128 + off
        let at_ := s.homeAt pa
        bs ≠ [] → off + bs.length ≤ 128 → s.defines pa bs.length = true → s.mappedTwice r.line = false → t.homeMem at_ = (s.homeMem at_).write (homeGen r.gen at_) (homeKey at_) bs false)) ∧
    (∀ off a, r.kind = .atom off a → off + (if a.w64 then 8 else 4) ≤ 128 → s.failsBehind r off a = false → ∃ t : State, exec (.atomicAtHome r.id) s = .next t.settle ∧ (∀ x ∈ t.reqs, x.id ≠ r.id) ∧ t.groups = s.groups ∧
      let n := if a.w64 then 8 else 4
      let pa := r.line * 128 + off
      let at_ := s.homeAt pa
      let m := s.homeMem at_
      let old : Dword := BitVec.ofNat 64 (ofLe (m.read (homeGen r.gen at_) (homeKey at_) n))
      let bad := m.anyPoison (homeGen r.gen at_) (homeKey at_) n
      (bad = true → s.mappedTwice r.line = false → t.homeMem at_ = m) ∧
      (bad = false → s.defines pa n = true → s.mappedTwice r.line = false → t.homeMem at_ = match atomNew a old with
        | some v => m.write (homeGen r.gen at_) (homeKey at_) (leBytes n v.toNat) false
        | none => m) ∧
      (∀ ret c, a.ret = some ret → r.src = .l1 c → s.mappedTwice r.line = false → ∃ seq, t.rets = s.rets.map fun x => if x.id = ret then
        { x with vals := x.vals ++ [(a.lane, old.zeroExtend 128, bad)], sent := x.sent ++ [{ lanes := 1#32 <<< a.lane, src := nodeEnd .home r.line, dest := c, seq := seq }] } else x))

namespace Sys2Proof.Claims

/-- What a probed L1 copy is afterwards: taken away, or an owner's copy made shared (R74, R75). -/
def probedState (inval : Bool) (st : CState) : Option CState :=
  if inval then none else some (match st with | .m => .o | .o => .o | .e => .s | x => x)

end Sys2Proof.Claims

/-- PROBES, ANSWERS AND REPLIES (R74 to R81, R93): a probe of an L1 waits while a reply with the line is still to come, and otherwise takes the copy away or makes it shared and answers, with the data when the copy
was dirty, or from the writeback buffer when it has been evicted; a writeback reaches the home; the last answer a write request waits for has the home send the line in M with the data the answer brought; a reply installs its line in an L1 that waits for nothing more; an
evicted update-only line is combined into the home's value. Each in the order of its pair of agents (R73). -/
def Sys2Proof.Claims.ProbesAndReplies : Prop :=
  ∀ (s : State),
    (∀ (p : Probe) (c : Nat), s.probes.find? (fun x => x.id == p.id && !x.held) = some p → p.dest = .l1 c → s.probeBehind p = false →
      ((∃ f ∈ s.fills, f.line = p.line ∧ f.dest = p.dest ∧ f.node = p.node) →
        exec (.probeArrival p.id) s = .next { s with probes := s.probes.map fun x => if x.id = p.id then { x with held := true } else x }) ∧
      ((∀ f ∈ s.fills, ¬ (f.line = p.line ∧ f.dest = p.dest ∧ f.node = p.node)) → s.l1Line? c p.line = none → ∃ t : State, exec (.probeArrival p.id) s = .next t ∧ SameMemory s t ∧
        t.groups = s.groups ∧ t.l1 = s.l1 ∧ ∃ a ∈ t.answers, a.line = p.line ∧ a.node = p.node ∧ a.src = p.dest ∧ a.wb = false ∧
          (∀ w, s.answers.find? (fun x => x.wb && x.line == p.line && x.node == p.node && x.src == p.dest) = some w → a.val = w.val ∧ a.kept = w.kept) ∧
          (s.answers.find? (fun x => x.wb && x.line == p.line && x.node == p.node && x.src == p.dest) = none → a.val = none ∧ a.kept = false)) ∧
      ((∀ f ∈ s.fills, ¬ (f.line = p.line ∧ f.dest = p.dest ∧ f.node = p.node)) → ∀ l, s.l1Line? c p.line = some l → ∃ t : State, exec (.probeArrival p.id) s = .next t ∧ SameMemory s t ∧
        t.groups = s.groups ∧ t.l1Line? c p.line = (probedState p.inval l.st).map (fun st => { l with st := st }) ∧ (∀ x ∈ t.probes, x.id ≠ p.id) ∧
        ∃ a ∈ t.answers, a.line = p.line ∧ a.node = p.node ∧ a.src = p.dest ∧ a.wb = false ∧ (dirtySt l.st = true → a.val = some l.val) ∧ (dirtySt l.st = false → a.val = none))) ∧
    (∀ a : Answer, s.answers.find? (fun x => x.id == a.id) = some a → a.node = .home → a.id < s.nextId → s.replyBehind a.id (agentEnd a.src a.line) (nodeEnd a.node a.line) = false →
      let s0 : State := { s with answers := s.answers.filter fun x => !(x.id == a.id) }
      (∀ v, a.wb = true → a.val = some v → exec (.probeAnswerArrival a.id) s =
        .next ((if a.kept then s0.noteShared .home a.line a.src false else s0.noteGone .home a.line a.src).putHome a.line v)) ∧
      (∀ x, a.wb = false → s.txns.find? (fun y => y.node == Node.home && y.req.line == a.line && !y.wantUp) = some x → x.left = [a.src] → x.req.kind = .getM → x.req.node = .home →
        (s.txns.filter fun y => y == x).length = 1 →
        ∃ t : State, exec (.probeAnswerArrival a.id) s = .next t.settle ∧ t.groups = s.groups ∧ (∀ y ∈ t.answers, y.id ≠ a.id) ∧
          ∃ f ∈ t.fills, f.line = a.line ∧ f.dest = x.req.src ∧ f.st = .m ∧ f.val = match a.val with | some v => (s.putHome a.line v).homeVal a.line | none => s.homeVal a.line)) ∧
    (∀ (f : Fill) (c : Nat), s.fills.find? (fun x => x.id == f.id) = some f → f.dest = .l1 c → f.st ≠ .i → s.replyBehind f.id (nodeEnd f.node f.line) (agentEnd f.dest f.line) = false → (∀ p ∈ s.pends, ¬ (p.core = c ∧ p.line = f.line)) →
      (∀ p ∈ s.probes, p.line = f.line → p.held = false) → (s.l1.filter fun l => l.core == c).length < Config.l1Lines →
      ∃ (t : State) (l : L1Line), exec (.fillArrival f.id) s = .next t.settle ∧ SameMemory s t ∧ t.groups = s.groups ∧ (∀ x ∈ t.fills, x.id ≠ f.id) ∧
        t.l1Line? c f.line = some l ∧ l.st = f.st ∧ l.val = f.val) ∧
    (∀ u : UEvict, s.uevicts.find? (fun x => x.id == u.id) = some u → s.replyBehind u.id (.core u.core) (nodeEnd .home u.line) = false →
      exec (.uLineEviction u.id) s = .next (State.putHome { s with uevicts := s.uevicts.filter fun x => !(x.id == u.id) } u.line (combineLine u.op u.fmt (s.homeVal u.line) u.val)))

/-- A LOAD THAT FINDS ITS LINE (R75, R93, R214, R217): a reply that brings a readable line to an L1 with one load waiting for it delivers the line's bytes to the load's return, and the load waits no longer,
where no two running partitions map the line's frame (R371). -/
def Sys2Proof.Claims.LoadsAreServed : Prop :=
  ∀ (s : State) (f : Fill) (p : Pend) (ret lane off width : Nat) (sign : Bool), s.fills.find? (fun x => x.id == f.id) = some f → f.dest = .l1 p.core → f.line = p.line → readable f.st = true →
    s.replyBehind f.id (nodeEnd f.node f.line) (agentEnd f.dest f.line) = false → s.asyHolds p.gid p.line = false →
    (s.pends.filter fun x => x.core == p.core && x.line == p.line) = [p] → p.act = .load ret lane off width sign →
    (∀ q ∈ s.probes, q.line = f.line → q.held = false) → (s.l1.filter fun l => l.core == p.core).length < Config.l1Lines →
    (∀ x ∈ s.fills, x.id ≠ f.id → ¬ (x.dest = f.dest ∧ x.line = f.line)) → (∀ r ∈ s.reqs, ¬ (r.src = f.dest ∧ r.line = f.line)) → (∀ t ∈ s.txns, ¬ (t.req.src = f.dest ∧ t.req.line = f.line)) →
    (∀ prio, (State.putL1 { s with fills := s.fills.filter fun x => !(x.id == f.id) } { core := p.core, line := f.line, st := f.st, val := f.val, prio := prio }).mappedTwice f.line = false) →
    ∃ t : State, exec (.fillArrival f.id) s = .next t.settle ∧ SameMemory s t ∧ t.groups = s.groups ∧ t.pends = s.pends.erase p ∧
      t.rets = s.rets.map fun x => if x.id = ret then
        { x with vals := x.vals ++ [(lane, loadWord (f.val.read p.gen off width) width sign, f.val.anyPoison p.gen off width)] } else x

/-- WHAT THE HOME HAS WRITTEN IT READS (R77, R79, R98, R368): bytes an agent at the home writes, in device or in peer memory, are what an agent there then reads, whatever copies the caches held before, in every state whose storages are in canonical form, where none of the lines has a forwarding stub (R422); unless the write was poisoned its own units
read unpoisoned when it covers them. -/
def Sys2Proof.Claims.HomeReadsBack : Prop :=
  ∀ (s : State) (gen pa : Nat) (bs : List Byte), s.memWf = true → bs ≠ [] → pa + bs.length ≤ peerBase ∨ peerBase ≤ pa → (∀ l ∈ linesOf pa bs.length, s.stubOf l = none) →
    (s.cohWrite gen pa bs false).cohBytes gen pa bs.length = bs ∧ (s.cohWrite gen pa bs true).cohBytes gen pa bs.length = bs ∧
    (pa % 32 = 0 → bs.length % 32 = 0 → (s.cohWrite gen pa bs false).cohPoison gen pa bs.length = false) ∧ (s.cohWrite gen pa bs true).cohPoison gen pa bs.length = true

namespace Sys2Proof.Claims

/-- A group of a launch as its span's placement has made it (R19, R23, R29, R33, R68): numbers, argument and data addresses in s0 and s1, everything else zero; one split with all its lanes at its role's entry. -/
def Fresh (s : State) (l : Launch) (die : Nat) (h : Group) : Prop :=
  h.lid = l.lid ∧ h.part = l.part ∧ h.span = l.nextSpan ∧ h.block < l.params.nblocks ∧ dieOf h.core = die ∧ placed (s.part l.part) (clusterOf h.core) = true ∧
    (quotaOf (s.part l.part)).slotBase ≤ h.slot ∧ h.slot < (quotaOf (s.part l.part)).slotBase + (quotaOf (s.part l.part)).slots ∧
    h.rows = [] ∧ sreg h 0 = l.params.args ∧ sreg h 1 = l.params.data ∧ (∀ i, 2 ≤ i → sreg h i = 0) ∧ (∀ i, 0 < i → preg h i = 0) ∧
    (entry h 0).state = .runnable ∧ (entry h 0).pc = (startRole l.params h.group).2.entry ∧ (entry h 0).ex = h.live ||| h.helpers ∧ (entry h 0).own = h.live ||| h.helpers ∧
    (∀ k, 0 < k → (entry h k).state = .free) ∧ h.allot = (startRole l.params h.group).2.regs ∧ h.hmode = false ∧ h.halt = false ∧ h.trapbase = l.params.trap ∧
    h.begun = s.startCome l.params die

end Sys2Proof.Claims

/-- PLACING A LAUNCH (R11, R29, R30, R38, R39, R335, R352): SPAN_DISPATCH places the next span of a launch on one die, adding groups as at their start and, where no die needs a wave to take it, changing no other;
LAUNCH_START_TIME lets the placed groups of a launch whose time has come issue; MIGRATION_WAVE, where no die can take the span as things stand, moves groups with their whole state and places the span, or does nothing
where the moves open no run. -/
def Obligations.Placement : Prop :=
  ∀ (s : State) (l : Launch), s.launch? l.lid = some l →
    (∀ t, s.mayPlace l = true → s.dispatchSpan l = some t → exec (.spanDispatch l.lid) s = .next t ∧ SameMemory s t ∧ (∀ x ∈ t.launch? l.lid, x.nextSpan = l.nextSpan + 1) ∧
      ((∀ d < 4, (s.placeSpan l d l.nextSpan).isSome = true ∨ s.waveSpan l d = none) → ∃ die new, die < 4 ∧ t.groups = s.groups ++ new ∧ ∀ h ∈ new, Fresh s l die h)) ∧
    (s.mayPlace l = true → (∃ d < 4, (s.placeSpan l d l.nextSpan).isSome = true) → ∃ t, exec (.spanDispatch l.lid) s = .next t ∧ ∀ x ∈ t.launch? l.lid, x.nextSpan = l.nextSpan + 1) ∧
    (∃ t : State, exec (.launchStartTime l.lid) s = .next t ∧ SameMemory s t ∧
      t.groups = s.groups.map fun g => if g.lid = l.lid ∧ s.startCome l.params (dieOf g.core) then { g with begun := true } else g) ∧
    (∀ m s1, s.moveGroup l.part m = some s1 →
      (s.mayPlace l = true → l.waved = false → (∀ d < 4, s.placeSpan l d l.nextSpan = none) →
        exec (.migrationWave l.lid [m]) s = .next (((s1.modLaunch l.lid fun x => { x with waved := true }).dispatchSpan { l with waved := true }).getD s)) ∧
      ∀ g, s.group? m.gid = some g → s.mayMove g = true ∧ ∃ g', s1.group? m.gid = some g' ∧ g'.core = m.core ∧ g'.slot = m.slot ∧ g'.rows = g.rows ∧ g'.s = g.s ∧ g'.x = g.x ∧ g'.pr = g.pr ∧
        ∀ k < 4, entry g' k = { entry g k with ibuf := none })

/-- A signal of queue q that arrives at a transaction barrier (R86, R347): `t` is what a well-formed barrier leaves, and for a malformed one what its queue's STATUS leaves (log 75). -/
def Sys2Proof.Claims.Arrived (s : State) (p q : Nat) (addr operand status : Dword) (at_ : Nat × Nat) (t : State) : Prop :=
  let u := (s.recallTables p addr.toNat).tbarUpdate at_.1 (s.genOf p) at_.2 (.arrive (fieldN operand 47 0))
  (u.2.bad = false ∧ t = u.1) ∨ (u.2.bad = true ∧ u.1.queueStatus p q (cmdErrStatus status) = .ok t)

/-- COMPLETION SIGNALS (R86, R347): a SET with two translated places writes the status and then its operand; ADD and SUB change an unpoisoned value at its home after the status; ARRIVE arrives at a transaction
barrier without a status, and at a malformed one leaves the barrier's word and puts CMDERR in STATUS of the queue (that place and its number are the model's choice, log 75); a signal that is refused changes nothing. -/
def Sys2Proof.Claims.Signals : Prop :=
  ∀ (s : State) (p q : Nat) (x : SignalRec) (status : Dword),
    (s.badSignal p x = true → s.signal p q x status = .ok s) ∧
    (∀ a t, s.badSignal p x = false → x.op = .arrive → s.cpPlace p x.addr needRW = .ok a → Arrived s p q x.addr x.operand status a t → s.signal p q x status = .ok t) ∧
    (∀ a1 p1 a2 p2, s.badSignal p x = false → s.cpPlace p (x.addr + 8) needW = .ok (a1, p1) →
      let s1 := (s.recallTables p (x.addr + 8).toNat).poke a1 (s.genOf p) p1 (leBytes 8 status.toNat) false
      (x.op = .set → s1.cpPlace p x.addr needW = .ok (a2, p2) →
        s.signal p q x status = .ok ((s1.recallTables p x.addr.toNat).poke a2 (s1.genOf p) p2 (leBytes 8 x.operand.toNat) false)) ∧
      (x.op = .add → s1.cpPlace p x.addr needRW = .ok (a2, p2) → (s1.recallURange p2 8).cohPoison (s.genOf p) p2 8 = false →
        s.signal p q x status = .ok (s1.poke a2 (s.genOf p) p2 (leBytes 8 (s1.agentDword a2 (s.genOf p) p2 + x.operand).toNat) false)) ∧
      (x.op = .sub → s1.cpPlace p x.addr needRW = .ok (a2, p2) → (s1.recallURange p2 8).cohPoison (s.genOf p) p2 8 = false →
        s.signal p q x status = .ok (s1.poke a2 (s.genOf p) p2 (leBytes 8 (s1.agentDword a2 (s.genOf p) p2 - x.operand).toNat) false)))

namespace Sys2Proof.Claims

/-- Queue q of partition p takes its turn with a copied packet that is valid, not refused, and of the type its command starts; s1 is the state in which it has its number and is open (R335, R343, R345). -/
def Starts (s : State) (p q : Nat) (pk : Packet) (n : Nat) (s1 : State) : Prop :=
  ∃ raw s0 x, s.takeTurn p q = some (raw, s0) ∧ s.queue? p q = some x ∧ s0.rejectReason p x raw = .ok none ∧ validate raw = .ok pk ∧ n = x.nextPk ∧
    s1 = s0.modQueue p q fun x => passed { x with raw := none, nextPk := x.nextPk + 1, open_ := x.open_ ++ [x.nextPk] }

/-- A command processor's step comes to this. -/
def Comes (i : Instr) (s t : State) : Prop := exec i s = .next t.settle

/-- Packet pk has ended: it is no longer open and blocks its queue no longer (R345). -/
def closed (s : State) (p q pk : Nat) : State :=
  s.modQueue p q fun x => { x with open_ := x.open_.filter (· != pk), block := if x.block = some pk then none else x.block }

end Sys2Proof.Claims

/-- PACKETS THAT START (R344 to R347, R349, R353, R355): a LAUNCH stands among the launches with no span placed; SIGNAL and FENCE complete; WAIT completes when its word's test holds and blocks its queue otherwise;
COND skips the next packets when its test fails; a LOOP opens at the next packet; a GRAPH whose nodes pass begins its run, and ends with GRAPHERR and the node's index otherwise (which index a missing END gives, log 33,
and that unlisted COND and OP codes and reserved bits end it so, log 76, are the model's choice). -/
def Sys2Proof.Claims.PacketsStart : Prop :=
  ∀ (s s1 : State) (p q n : Nat) (pk : Packet), Starts s p q pk n s1 →
    (∀ l, pk.body = .launch l → ∃ t : State, Comes (.launch p q) s t ∧ SameMemory s t ∧ t.groups = s.groups ∧ t.launches = s.launches ++ [newLaunch s.nextId p q n pk.seq l pk.signal none]) ∧
    (∀ t, s1.finishPacket p q n pk.signal (statusWord pk.seq 0 false .done) = .ok t → (pk.body = .signal → Comes (.signal p q) s t) ∧ (pk.body = .fence → Comes (.fencePacket p q) s t)) ∧
    (pk.body = .fence → pk.signal = none → Comes (.fencePacket p q) s (closed s1 p q n)) ∧
    (∀ y a, pk.body = .signal → pk.signal = some y → y.op = .arrive → let s2 := closed s1 p q n
      s2.badSignal p y = false → s2.cpPlace p y.addr needRW = .ok a → ∀ t, Arrived s2 p q y.addr y.operand (statusWord pk.seq 0 false .done) a t → Comes (.signal p q) s t) ∧
    (∀ w v, pk.body = .wait w → (s.queue? p q).bind (·.waitp) = none → let s2 := s1.modQueue p q fun x => { x with block := some n }
      s2.cpRead p w.addr = .ok v → let s3 := s2.cpSeen p w.addr 1
      (∀ t, wordTest w v = true → (s3.modQueue p q fun x => { x with waitp := none }).finishPacket p q n pk.signal (statusWord pk.seq 0 false .done) = .ok t →
        Comes (.wait p q) s t) ∧
      (wordTest w v = true → pk.signal = none → Comes (.wait p q) s (closed (s3.modQueue p q fun x => { x with waitp := none }) p q n)) ∧
      (∀ at_, wordTest w v = false → s3.cpPlace p w.addr needR = .ok at_ → ∃ t x y : _, Comes (.wait p q) s t ∧ t.queue? p q = some x ∧ x.block = some n ∧ x.waitp = some y ∧ y.pk = n ∧ y.watch = w ∧ n ∈ x.open_)) ∧
    (∀ w skip v, pk.body = .cond w skip → s1.cpRead p w.addr = .ok v →
      let s2 := if wordTest w v then s1.cpSeen p w.addr 1 else (s1.cpSeen p w.addr 1).modQueue p q fun x => { x with skip := skip }
      (∀ t, s2.finishPacket p q n pk.signal (statusWord pk.seq 0 false .done) = .ok t → Comes (.cond p q) s t) ∧ (pk.signal = none → Comes (.cond p q) s (closed s2 p q n))) ∧
    (∀ w body count, pk.body = .loop w body count → (∀ x, s.queue? p q = some x → x.loop = none) → ∃ t x l : _, Comes (.loop p q) s t ∧ SameMemory s t ∧ t.queue? p q = some x ∧
      x.loop = some l ∧ l.watch = w ∧ l.body = body ∧ l.count = count ∧ l.done = 0 ∧ l.execs = 0 ∧ l.start = x.readAt ∧ n ∉ x.open_) ∧
    (∀ nodes count bs, pk.body = .graph nodes count → (List.range count).mapM (fun i => s1.cpReads p (nodes + BitVec.ofNat 64 (32 * i)) 4) = .ok bs →
      (∀ ns, graphNodes bs = .ok ns → Comes (.graph p q) s (((List.range count).foldl (fun s i => s.cpSeen p (nodes + BitVec.ofNat 64 (32 * i)) 4) s1).modQueue p q fun x =>
        { x with runs := x.runs ++ [newRun n pk.seq pk.signal ns] })) ∧
      (∀ i t, graphNodes bs = .error i → s1.finishPacket p q n pk.signal (statusWord pk.seq i false .graphErr) = .ok t → Comes (.graph p q) s t))

namespace Sys2Proof.Claims

/-- Queue q of a running partition, in RUN and enabled, with nothing copied and no loop open. -/
def ReadyQueue (s : State) (p : Nat) (x : Queue) : Prop :=
  s.queue? p x.q = some x ∧ (s.part p).state = .run ∧ x.st = .run ∧ x.enabled = true ∧ x.raw = none ∧ x.loop = none ∧ p < 40

/-- The queue no longer waits for WRIDX. -/
def unparked (s : State) (p : Nat) (x : Queue) : State := s.modQueue p x.q fun y => { y with park := none }

end Sys2Proof.Claims

/-- QUEUES AND THE ENDS OF PACKETS (R337 to R340, R343, R346, R353): QUEUE_ENABLE takes a well-formed queue up from its descriptor; QUEUE_PACKET_READ copies the next packet of a queue's ring, byte by byte around its end (R337), and moves RDIDX behind it,
parks when there is none, rejects a copied packet when its turn has come, and stops the queue at a WRIDX beyond its ring; WAIT_TIMEOUT puts the queue in ERROR; MONITOR_REREAD reads a WAIT's word again, whatever state its queue is in; LAUNCH_COMPLETE
takes a launch that is over away and completes its packet. -/
def Sys2Proof.Claims.QueuesAndEnds : Prop :=
  ∀ (s : State) (p : Nat),
    (∀ q pa bs dpa, p < 40 → q < 64 → (s.part p).state = .run → s.queue? p q = none → s.cpPlace p (s.part p).qtabUsed needR = .ok (0, pa) →
      (s.agentDword 0 (s.part p).gen pa).getLsbD q = true →
      let s1 := (s.enableMon p pa (s.agentDword 0 (s.part p).gen pa)).cpSeen p (s.part p).qtabUsed 1
      let desc := (s.part p).qtabUsed + 64 + 64 * BitVec.ofNat 64 q
      s1.cpPlace p desc needR = .ok (0, dpa) → s1.cpReads p desc 8 = .ok bs → badDescriptor (fun i => dwordAt bs (8 * i)) = false →
      exec (.queueEnable p q) s = .next ((s1.modPart p fun x =>
        { x with queues := x.queues.filter (fun y => !(y.q == q)) ++ [{ queueOf q desc (fun i => dwordAt bs (8 * i)) none .run with descPa := some dpa }] }).cpSeen p desc 8)) ∧
    (∀ x wr h ws, ReadyQueue s p x → x.park = none → x.skip = 0 → let s0 := unparked s p x
      s0.cpRead p (x.desc + 16) = .ok wr → wr ≠ x.readAt → (wr - x.rdidx).toNat ≤ 2 ^ x.log2 → let s1 := s0.cpSeen p (x.desc + 16) 1
      s1.ringWord p x x.readAt = .ok h → fieldN h 31 16 ≠ 0 → 8 * fieldN h 31 16 ≤ (wr - x.readAt).toNat →
      let len := fieldN h 31 16
      let s2 := s1.ringSeen p x x.readAt
      (List.range len).mapM (fun i => s2.ringWord p x (x.readAt + BitVec.ofNat 64 (8 * i))) = .ok ws →
      (((List.range len).foldl (fun s i => s.ringSeen p x (x.readAt + BitVec.ofNat 64 (8 * i))) s2).cpPlace p (x.desc + 24) needW).toOption.isSome = true → ∃ t y : _, Comes (.queuePacketRead p x.q) s t ∧ t.queue? p x.q = some y ∧
        y.raw = some (ws.flatMap fun w => leBytes 8 w.toNat) ∧ y.readAt = x.readAt + BitVec.ofNat 64 (8 * len) ∧ y.rdidx = y.readAt ∧ t.groups = s.groups) ∧
    (∀ x wr t, ReadyQueue s p x → x.park = none → (unparked s p x).cpRead p (x.desc + 16) = .ok wr → 2 ^ x.log2 < (wr - x.rdidx).toNat →
      ((unparked s p x).cpSeen p (x.desc + 16) 1).queueError p x.q 0 .overflow = .ok t →
      Comes (.queuePacketRead p x.q) s t) ∧
    (∀ x wr at_, ReadyQueue s p x → x.park = none → (unparked s p x).cpRead p (x.desc + 16) = .ok wr → wr = x.readAt → (wr - x.rdidx).toNat ≤ 2 ^ x.log2 →
      ((unparked s p x).cpSeen p (x.desc + 16) 1).cpPlace p (x.desc + 16) needR = .ok at_ →
      ∃ t y : _, Comes (.queuePacketRead p x.q) s t ∧ t.queue? p x.q = some y ∧ y.park ≠ none ∧ y.raw = none) ∧
    (∀ x raw s1 c tag t, s.queue? p x.q = some x → (s.part p).state = .run → x.st = .run → x.enabled = true → x.raw = some raw → s.takeTurn p x.q = some (raw, s1) →
      s1.rejectReason p x raw = .ok (some (c, tag)) → (s1.listSeen p raw).rejectPacket p x.q raw c tag = .ok t → Comes (.queuePacketRead p x.q) s t) ∧
    (∀ x w, s.queue? p x.q = some x → x.waitp = some w → (s.part p).state = .run → s.passedBy w.on = true →
      let r := ((s.freeCp w.on).modQueue p x.q fun y => { y with waitp := none, block := none, open_ := y.open_.filter (· != w.pk) }).queueError p x.q w.seq .timeout
      (∀ t, r = .ok t → Comes (.waitTimeout p x.q) s t) ∧
      ((∀ e, r ≠ .error e) → ∃ t y : _, Comes (.waitTimeout p x.q) s t ∧ t.queue? p x.q = some y ∧ y.st = .error ∧ y.waitp = none ∧ y.block = none ∧ w.pk ∉ y.open_)) ∧
    (∀ x w v, s.queue? p x.q = some x → x.waitp = some w → (s.part p).state = .run → s.mayReread w.on true = true → s.cpRead p w.watch.addr = .ok v →
      wordTest w.watch v = true → let s1 := (s.cpSeen p w.watch.addr 1).modQueue p x.q fun y => { y with waitp := none }
      (∀ t, s1.finishPacket p x.q w.pk w.signal (statusWord w.seq 0 false .done) = .ok t → Comes (.monitorReread p x.q) s t) ∧
      (w.signal = none → Comes (.monitorReread p x.q) s (closed s1 p x.q w.pk))) ∧
    (∀ l, s.launch? l.lid = some l → l.part = p → s.launchOver l = true →
      let s1 : State := { s.cleanAll with launches := s.cleanAll.launches.filter fun x => !(x.lid == l.lid) }
      (l.node = none → (∀ t, s1.finishPacket p l.q l.pk l.signal (statusWord l.seq 0 l.late (if l.killed then .killed else .done)) = .ok t → Comes (.launchComplete l.lid) s t ∧ s1.launch? l.lid = none) ∧
        (l.signal = none → Comes (.launchComplete l.lid) s (closed s1 p l.q l.pk))) ∧
      (∀ r i, l.node = some (r, i) → l.signal = none → Comes (.launchComplete l.lid) s (s1.modRun p l.q r fun x => { x with open_ := x.open_.filter (· != i) })))

/-- GRAPH NODES (R354 to R356): a node that may start does its work and its run goes on: LAUNCH adds a launch of its own and counts the node as started, SIGNAL signals, WAIT goes on when its test holds and waits
otherwise, COND goes to the next node or its link, LOOP goes back to its link while its test holds and its count is not reached, END completes the packet, whatever state its queue is in (the model's choice, log 33), and so does the last started node of a run that has failed; a WAIT that times out ends the run.
Control that a COND takes past a LOOP leaves that loop to begin afresh; an arrival at a malformed barrier is the model's choice (log 75). -/
def Sys2Proof.Claims.GraphNodes : Prop :=
  ∀ (s : State) (p q r : Nat) (g : GRun) (n : GNode), g.r = r → s.run? p q r = some g →
    let here (k : Nat) : Prop := s.nodeAt p q r k = some (g, n)
    let seen := s.cpSeen p n.addr 1
    let word (v : Dword) : Prop := n.addr.toNat % 8 = 0 ∧ s.cpRead p n.addr = .ok v
    (∀ h raw pk l, here 1 → n.addr.toNat % 8 = 0 → s.cpRead p n.addr = .ok h → s.cpReads p n.addr (max 1 (fieldN h 31 16)) = .ok raw → validate raw = .ok pk → pk.body = .launch l →
      let s1 := s.cpSeen p n.addr (max 1 (fieldN h 31 16))
      (∀ y, pk.signal = some y → s1.badSignal p y = false) → s1.noFit p l = false →
      ∃ t : State, Comes (.nodeLaunch p q r) s t ∧ SameMemory s1 t ∧ t.launches = s1.launches ++ [newLaunch s1.nextId p q r pk.seq l pk.signal (some (r, g.pos))] ∧
        ∃ g', t.run? p q r = some g' ∧ g'.open_ = g.open_ ++ [g.pos] ∧ g'.pos = g.pos + 1) ∧
    (∀ t, here 2 → let y : SignalRec := { addr := n.addr, operand := n.operand, op := match n.code with | 0 => .set | 1 => .add | 2 => .sub | _ => .arrive }
      s.badSignal p y = false → (s.modRun p q r fun x => { x with pos := g.pos + 1 }).signal p q y (statusWord g.seq 0 false .done) = .ok t → Comes (.nodeSignal p q r) s t) ∧
    (∀ a t, here 2 → n.code = 3 → let y : SignalRec := { addr := n.addr, operand := n.operand, op := .arrive }
      let s2 := s.modRun p q r fun x => { x with pos := g.pos + 1 }
      s.badSignal p y = false → s2.badSignal p y = false → s2.cpPlace p n.addr needRW = .ok a →
      Arrived s2 p q n.addr n.operand (statusWord g.seq 0 false .done) a t → Comes (.nodeSignal p q r) s t) ∧
    (∀ v, here 3 → word v → g.waiting = none →
      (wordTest (nodeWatch n) v = true → Comes (.nodeWait p q r) s (seen.modRun p q r fun x => { x with waiting := none, pos := x.pos + 1 })) ∧
      (∀ at_, wordTest (nodeWatch n) v = false → seen.cpPlace p n.addr needR = .ok at_ → ∃ (t : State) (g' : GRun), Comes (.nodeWait p q r) s t ∧ t.run? p q r = some g' ∧ g'.waiting ≠ none ∧ g'.pos = g.pos)) ∧
    (∀ v, here 4 → word v → Comes (.nodeCond p q r) s (seen.modRun p q r fun x => { x with runs := passNodes x.runs g.pos (if wordTest (nodeWatch n) v then g.pos + 1 else n.link), pos := if wordTest (nodeWatch n) v then g.pos + 1 else n.link })) ∧
    (∀ v, here 5 → word v → let k := g.runs.getD g.pos 0 + 1
      (wordTest (nodeWatch n) v = true → k < n.count → Comes (.nodeLoop p q r) s (seen.modRun p q r fun x => { x with runs := x.runs.set x.pos k, pos := n.link })) ∧
      (¬ (wordTest (nodeWatch n) v = true ∧ k < n.count) → Comes (.nodeLoop p q r) s (seen.modRun p q r fun x => { x with runs := x.runs.set x.pos 0, pos := x.pos + 1 }))) ∧
    (g.open_ = [] → g.result = none → g.nodes[g.pos]? = some n → n.kind = 0 → s.nodePlacing p q r = false →
      let s1 := s.modQueue p q fun x => { x with runs := x.runs.filter fun y => y.r != r }
      (∀ t, s1.finishPacket p q r g.signal (statusWord g.seq 0 false .done) = .ok t → Comes (.nodeEnd p q r) s t) ∧ (g.signal = none → Comes (.nodeEnd p q r) s (closed s1 p q r))) ∧
    (∀ t, g.open_ = [] → g.result ≠ none → (s.modQueue p q fun x => { x with runs := x.runs.filter fun y => y.r != r }).finishPacket p q r g.signal (runStatus g) = .ok t →
      Comes (.nodeEnd p q r) s t) ∧
    (∀ w, g.waiting = some w → (s.part p).state = .run → s.passedBy w = true →
      (∀ t, s.failRun p q g .timeout g.pos = .ok t → Comes (.nodeWaitTimeout p q r) s t) ∧
      (g.open_ ≠ [] → Comes (.nodeWaitTimeout p q r) s ((s.freeCp w).modRun p q r fun _ => { g with waiting := none, result := some (Code.timeout.num, g.pos) })))

namespace Sys2Proof.Claims

/-- The commands of PCMD with the states that allow them and whether a virtual function may write them (R360, R362). -/
def pcmdTable : List ((Nat → Bool → Instr) × List PState × Bool) :=
  [(.openPart, [.free], false), (.create, [.config], false), (.destroy, [.config, .run, .halted, .saved], false), (.halt, [.run], false), (.resume, [.halted], false),
   (.savefull, [.halted], false), (.saveback, [.halted], false), (.restore, [.saved], false), (.kill, [.run, .halted, .saved], false), (.replay, [.run], true), (.gstep, [.run, .halted], true)]

/-- A partition's last command has ended with a result (R362). -/
def ended (s : State) (p : Nat) (r : PResult) : State := s.modPart p fun x => { x with result := r, busy := false, pending := none }

/-- A command of the driver to partition p that is taken: the partition is not busy and in a state that allows it (R362). -/
def Taken (s : State) (p : Nat) (states : List PState) : Prop := p < 40 ∧ (s.part p).busy = false ∧ (s.part p).state ∈ states

end Sys2Proof.Claims

/-- PCMD BY STATE (R360, R362): a command written while BUSY, or by a virtual function that may not write it, changes nothing; one its partition's STATE does not allow changes RESULT to BADSTATE and nothing else; TLBINV likewise, which a virtual function may write for stage 1 alone. -/
def Sys2Proof.Claims.CommandStates : Prop :=
  ∀ c ∈ pcmdTable, ∀ (s : State) (p : Nat) (vf : Bool), p < 40 →
    ((s.part p).busy = true → exec (c.1 p vf) s = .next s) ∧ (vf = true → c.2.2 = false → exec (c.1 p vf) s = .next s) ∧
    ((s.part p).busy = false → (vf = false ∨ c.2.2 = true) → (s.part p).state ∉ c.2.1 → exec (c.1 p vf) s = .next (ended s p .badstate)) ∧
    (((s.part p).busy = true → exec (.tlbinv p vf) s = .next s) ∧ (vf = true → (s.part p).parg.getLsbD 1 = true → exec (.tlbinv p vf) s = .next s) ∧
      ((s.part p).busy = false → (vf = false ∨ (s.part p).parg.getLsbD 1 = false) → (s.part p).state ∉ [PState.run, .halted, .saved] → exec (.tlbinv p vf) s = .next (ended s p .badstate)))

/-- A PARTITION'S LIFE (R245, R287, R357, R359, R361, R362, R365, R367, R370, R382, R385, R386, R394): what OPEN, CREATE, HALT, RESUME, REPLAY, TLBINV, GSTEP, KILL and DESTROY do when they are
taken; where what they need is under way, or what has completed still awaits its signal before a DESTROY (R353), BUSY stands. HALT and RESUME reach every group, resident or saved; KILL leaves a swapped block of a partition that runs until it comes back. That OPEN before READY answers BADSTATE (log 60)
and which accesses a TLBINV waits for (log 74) are the model's choice. -/
def Sys2Proof.Claims.PartitionLife : Prop :=
  ∀ (s : State) (p : Nat),
    (Taken s p [.free] → s.dev.ready = true → exec (.openPart p false) s = .next (ended ({ s with dev := { s.dev with opened := true } }.modPart p fun x => { x with state := .config }) p .ok)) ∧
    (Taken s p [.free] → s.dev.ready = false → exec (.openPart p false) s = .next (ended s p .badstate)) ∧
    (Taken s p [.config] →
      (badRange (s.part p) = true → exec (.create p false) s = .next (ended s p .range)) ∧
      (badRange (s.part p) = false → s.overlaps p = true → exec (.create p false) s = .next (ended s p .overlap)) ∧
      (badRange (s.part p) = false → s.overlaps p = false → s.lowestGen = none → exec (.create p false) s = .next (ended s p .nogen)) ∧
      (∀ gen, badRange (s.part p) = false → s.overlaps p = false → gen ∈ s.dev.freeGens → gen < 64 → (∀ x ∈ s.dev.freeGens, gen ≤ x) →
        ∃ t, exec (.create p false) s = .next t ∧ SameMemory s t ∧ t.dev.freeGens = s.dev.freeGens.erase gen ∧ (t.part p).state = .run ∧ (t.part p).gen = gen ∧ (t.part p).stepCtr = 0 ∧
          (∀ i < 4, (vget (t.part p).watches i WatchSlot.reset).en = false) ∧ (t.part p).result = .ok ∧ ∀ q, q ≠ p → t.part q = s.part q)) ∧
    (Taken s p [.run] → (s.part p).queues = [] → exec (.halt p false) s = .next (ended (State.modPart
      { s with groups := s.groups.map fun g => if g.part = p then { g with preHalt := g.halt, halt := true } else g,
               saved := s.saved.map fun g => if g.part = p then { g with preHalt := g.halt, halt := true } else g } p fun x => { x with state := .halted, haltTime := s.now }) p .ok)) ∧
    (Taken s p [.halted] → (s.part p).queues = [] → ∃ t, exec (.resume p false) s = .next t ∧ SameMemory s t ∧ (t.part p).state = .run ∧ (t.part p).result = .ok ∧
      (t.groups = s.groups.map fun g => if g.part = p then unhalt g else g) ∧ t.saved = s.saved.map fun g => if g.part = p then unhalt g else g) ∧
    (∀ c ∈ [(Instr.halt, [PState.run], Pcmd.halt), (.resume, [.halted], .resume), (.destroy, [.run, .halted, .saved], .destroy), (.kill, [.run, .halted, .saved], .kill (fieldN (s.part p).parg 5 0))],
      Taken s p c.2.1 → ∀ u, s.perform? p c.2.2 = .error u → exec (c.1 p false) s = .next (u.modPart p fun x => { x with busy := true, pending := some c.2.2 })) ∧
    (∀ vf, Taken s p [.run] → exec (.replay p vf) s = .next (ended { s with groups := s.groups.map fun g => if g.part = p ∧ g.park = .fault then { refetch g with park := .none } else g } p .ok)) ∧
    (∀ vf, Taken s p [.run, .halted, .saved] → (vf = true → (s.part p).parg.getLsbD 1 = false) → let s1 := s.tlbInvalidate p (s.part p).parg
      (s.pendsOf p = [] → s.accessesOf p = [] → exec (.tlbinv p vf) s = .next (ended s1 p .ok)) ∧
      (s.pendsOf p ≠ [] ∨ s.accessesOf p ≠ [] → exec (.tlbinv p vf) s =
        .next (s1.modPart p fun x => { x with busy := true, pending := some (.tlbinv (s.part p).parg (s.pendsOf p) (s.accessesOf p)) }))) ∧
    (∀ vf g l, Taken s p [.run, .halted] → s.ringOrder p (fieldN (s.part p).parg 46 41) = [l] →
      s.peerGid l.lid (fieldN (s.part p).parg 37 14) (fieldN (s.part p).parg 13 10) (fieldN (s.part p).parg 9 0) = some g.gid → s.group? g.gid = some g → g.halt = true → g.halt280 = false →
      stepReady g (fieldN (s.part p).parg 40 38) = true → g.stepReq = none → ∃ t g', exec (.gstep p vf) s = .next t ∧ SameMemory s t ∧ (t.part p).busy = true ∧ t.group? g.gid = some g' ∧
        g'.stepReq = some { entry := fieldN (s.part p).parg 40 38, by_ := none } ∧ g'.halt = true ∧ g'.rows = g.rows ∧ g'.s = g.s) ∧
    (Taken s p [.run, .halted, .saved] → s.queue? p (fieldN (s.part p).parg 5 0) = none → (s.part p).fixes = [] → ∃ t, exec (.kill p false) s = .next t ∧ (t.part p).result = .ok ∧
      (t.part p).state = (s.part p).state ∧ (∀ l ∈ s.launches, l.part = p → l.q = fieldN (s.part p).parg 5 0 → s.inProgress l = true →
        (∀ b ∈ t.blocks, b.lid = l.lid → b.swapped = true ∧ (s.part p).state = .run) ∧ ∃ l' ∈ t.launches, l'.lid = l.lid ∧ l'.killed = true)) ∧
    (Taken s p [.config] → exec (.destroy p false) s = .next (ended (s.modPart p fun x => { x with state := .free }) p .ok)) ∧
    (Taken s p [.run, .halted, .saved] → (s.part p).queues = [] → (s.part p).fixes = [] → s.endsPending p = false → (∀ l ∈ s.launches, l.part = p → l.signal = none) →
      ∃ t, exec (.destroy p false) s = .next t ∧ (t.part p).state = .free ∧ (t.part p).gen = 0 ∧ (t.part p).result = .ok ∧ t.dev.scrub = s.dev.scrub ++ [(s.part p).gen] ∧
        (∀ b ∈ t.blocks, b.part ≠ p) ∧ (∀ l ∈ t.launches, l.part ≠ p) ∧ (∀ a ∈ t.asys, a.part ≠ p) ∧ (∀ a ∈ t.travs, a.part ≠ p) ∧ ∀ a ∈ t.qnts, a.part ≠ p)

namespace Sys2Proof.Claims

/-- A register block offset of partition p. -/
def blockReg (p r : Nat) : Nat := 0x100000 + 0x1000 * p + r

end Sys2Proof.Claims

/-- REGISTERS OF THE DRIVER (which low bits S2ROOT, QTABLE and MBOX keep is the model's choice, log 39) (R5, R6, R360 to R364, R367, R370, R375, R376, R383, R407, R423): a whole double word written to a partition's block by the physical function reads back under its access; a narrower write and a
write to a read-only register change nothing; PLACE and QUOTA keep their values outside CONFIG; WAYMASK, FQCTL, FWDCLR and PWRLIMIT act as their rules say; WAY_WALK_END ends a walk; GENERATION_SCRUB frees a generation
that nothing carries any more. -/
def Obligations.DriverRegisters : Prop :=
  ∀ (s : State) (p : Nat) (v : Dword), p < 40 →
    (∀ o n vf, n ≠ 8 → exec (.registerWrite o v n vf) s = .next s) ∧ (∀ vf, exec (.registerWrite (blockReg p 0x000) v 8 vf) s = .next s) ∧
    (∀ r ∈ [0x010, 0x060, 0x080, 0x088], ∀ vf, ∃ t, exec (.registerWrite (blockReg p r) v 8 vf) s = .next t ∧ SameMemory s t ∧ t.groups = s.groups ∧ t.readReg (blockReg p r) 8 vf = v ∧
      ∀ q, q ≠ p → t.part q = s.part q) ∧
    (∃ t, exec (.registerWrite (blockReg p 0x050) v 8 false) s = .next t ∧ t.readReg (blockReg p 0x050) 8 false = v &&& ~~~0x7FF) ∧
    exec (.registerWrite (blockReg p 0x050) v 8 true) s = .next s ∧
    ((s.part p).state ≠ .config → exec (.registerWrite (blockReg p 0x018) v 8 false) s = .next s ∧ exec (.registerWrite (blockReg p 0x020) v 8 false) s = .next s) ∧
    ((s.part p).state = .config → ∃ t, exec (.registerWrite (blockReg p 0x018) v 8 false) s = .next t ∧ t.readReg (blockReg p 0x018) 8 false = v) ∧
    exec (.fqctlWrite p v) s = .next (s.modPart p fun x => { x with fqEn := v.getLsbD 8, fqLog2 := v.truncate 5, fqDrop := 0 }) ∧
    exec (.registerWrite (blockReg p 0x070) v 8 false) s = exec (.fqctlWrite p v) s ∧
    exec (.fwdclr v) s = .next { s with dev := { s.dev with stubs := s.dev.stubs.filter fun t => t.line != v.toNat / 128 } } ∧
    exec (.registerWrite 0x018 v 8 false) s = exec (.fwdclr v) s ∧
    exec (.registerWrite 0x010 v 8 false) s = .next (if 1200 ≤ fieldN v 11 0 ∧ fieldN v 11 0 ≤ 3200 then { s with dev := { s.dev with pwrlimit := v.truncate 12 } } else s) ∧
    (∀ d < 4, let old := vget (s.part p).waymask d 0
      (vget (s.part p).walk d false = true → exec (.waymaskWrite p d v false) s = .next s) ∧ exec (.waymaskWrite p d v true) s = .next s ∧
      (vget (s.part p).walk d false = false → exec (.waymaskWrite p d v false) s = .next (s.modPart p fun x =>
        { x with waymask := vset x.waymask d (v.truncate 24), walk := vset x.walk d (old &&& ~~~(v.truncate 24) != 0) })) ∧
      (vget (s.part p).walk d false = true → (∀ w ∈ s.walked p d, s.wayIdle w = true) → ∃ t, exec (.wayWalkEnd p d) s = .next t ∧ t.groups = s.groups ∧ vget (t.part p).walk d false = false ∧
        ∀ w ∈ s.walked p d, (∀ x ∈ t.ways, ¬ (x.die = w.die ∧ x.line = w.line)) ∧ (∀ c ∈ t.slices, ¬ (c.die = w.die ∧ c.line = w.line)) ∧
          (w.die = homeDie w.line → (∀ c ∈ t.l1, c.line ≠ w.line) ∧ ∀ c ∈ t.slices, c.line ≠ w.line))) ∧
    (∀ gen, s.memWf = true → gen ∈ s.dev.scrub → s.genInFlight gen = false → ∃ t, exec (.generationScrub gen) s = .next t ∧ t.dev.freeGens = s.dev.freeGens ++ [gen] ∧ t.dev.scrub = s.dev.scrub.erase gen ∧
      (∀ a other, other ≠ gen → other ≠ 0 → s.dram.byte other a = t.dram.byte other a ∧ s.scratch.byte other a = t.scratch.byte other a) ∧
      (gen ≠ 0 → (∀ l ∈ t.icache, l.val.gen ≠ gen) ∧ (∀ l ∈ t.l1, l.val.gen ≠ gen) ∧ ∀ l ∈ t.slices, l.val.gen ≠ gen) ∧
      ∀ a, gen ≠ 0 → t.dram.byte gen a = 0 ∧ t.scratch.byte gen a = 0 ∧ t.cistern.byte gen a = 0)

/-- SAVING AND RESTORING (R326, R361, R362, R387 to R392, R417): a save whose area is large enough and pinned is under way until SAVE_IMAGE_WRITE, which takes every resident block of its partition out of its cores; one whose
area is too small or refused changes nothing but its RESULT; RESTORE waits while resources are missing and otherwise puts back what stands in the save area, zeros under another generation, and brings the partition to HALTED; an image waits for pages of its place still marked COW, which are drained next (R417); BLOCK_SWAP_OUT frees an idle block's slots and BLOCK_SWAP_IN brings a
block back that has something to go on for, or whose launch a KILL has hit, which then ends. -/
def Sys2Proof.Claims.SavingBlocks : Prop :=
  ∀ (s : State) (p : Nat),
    (∀ back : Bool, Taken s p [.halted] → let i := if back then Instr.saveback p false else Instr.savefull p false
      let s1 := if back then (s.tablesSeen p).modPart p fun x => { x with badtable := s.anyBadTable p } else s
      ((s1.part p).savesize.toNat < s1.saveBytes p back → exec i s = .next (ended s1 p .toosmall)) ∧
      (s1.saveBytes p back ≤ (s1.part p).savesize.toNat → s1.badSavePage p = none → exec i s = .next (s1.modPart p fun x => { x with busy := true, saving := if back then .back else .full })) ∧
      (∀ a, s1.saveBytes p back ≤ (s1.part p).savesize.toNat → s1.badSavePage p = some a → exec i s = .next (ended (s1.saveRecord p a.1 a.2) p .refused))) ∧
    (p < 40 → (s.part p).saving = .full → s.saveWaits p false = false → s.partBlocks p = [] → s.areaQuiet p 64 = true → s.cowPages p (s.part p).savebase.toNat 64 ≠ [] →
      exec (.saveImageWrite p []) s = .next (s.cowWaits p (s.cowPages p (s.part p).savebase.toNat 64))) ∧
    (∀ s1, p < 40 → (s.part p).saving = .full → s.saveWaits p false = false → s.partBlocks p = [] → s.areaQuiet p 64 = true → s.cowPages p (s.part p).savebase.toNat 64 = [] →
      let s0 := s.modPart p fun x => { x with saveAt := (s.part p).savebase.toNat }
      s0.writeImage p (s.part p).savebase.toNat { bytes := s0.saveHeader p false 0 0 64 0, pois := [] } = .ok s1 →
      exec (.saveImageWrite p []) s = .next (ended (s1.modPart p fun x => { x with saving := .none, state := .saved }) p .ok)) ∧
    (∀ b s1, p < 40 → (s.part p).saving = .full → s.saveWaits p false = false → s.partBlocks p = [b] → s.block? b.bid = some b → resident b = true →
      let m := s.blockImage false b
      let base := (s.part p).savebase.toNat
      let s0 := s.modPart p fun x => { x with saveAt := base }
      s.areaQuiet p (64 + m.bytes.length) = true → s.cowPages p base (64 + m.bytes.length) = [] →
      (s0.writeImage p base { bytes := s0.saveHeader p false 0 1 (64 + m.bytes.length) 0, pois := [] }).bind (fun s => s.writeImage p (base + 64) m) = .ok s1 →
      ∃ t, exec (.saveImageWrite p []) s = .next t ∧ (t.part p).state = .saved ∧ (t.part p).result = .ok ∧ (t.part p).busy = false ∧ (∀ g ∈ t.groups, g.bid ≠ b.bid) ∧
        ∃ b', t.block? b.bid = some b' ∧ b'.image = some (base + 64)) ∧
    (Taken s p [.saved] → (∀ gen ims, s.savedArea p = some (gen, ims) → ∃ i ∈ ims, i.1.swapped = false ∧ s.roomBack i.1 = false) → exec (.restore p false) s = .next (ended s p .waiting)) ∧
    (∀ b m gen at_, Taken s p [.saved] → s.savedArea p = some (gen, [(b, m, at_)]) → b.swapped = false → s.roomBack b = true →
      let s1 := ((s.physSeen p (s.part p).savebase.toNat 64).physSeen p at_ m.bytes.length).modBlock b.bid fun x => { x with image := some at_ }
      let m' := if gen = (s1.part p).gen then m else foreignImage b (s1.blockGroups b) m
      exec (.restore p false) s = .next (ended ((s1.putBacks p true [(b, m')]).modPart p fun x => { x with state := .halted }) p .ok)) ∧
    (∀ b s1, s.block? b.bid = some b → b.part = p → (s.part p).swap = true → (s.part p).state = .run → resident b = true → b.gids ≠ [] → (∀ g ∈ s.groupsOf b.bid, s.idleGroup g = true) →
      s.wantsRoom p = true → let m := s.blockImage false b
      s.swapPlace p + m.bytes.length ≤ (s.part p).savebase.toNat + (s.part p).savesize.toNat →
      s.areaQuiet p (s.swapPlace p - (s.part p).savebase.toNat + m.bytes.length) = true →
      let cow := s.cowPages p (s.swapPlace p) m.bytes.length
      (cow ≠ [] → exec (.blockSwapOut b.bid) s = .next (s.cowWaits p cow)) ∧
      (cow = [] → s.writeImage p (s.swapPlace p) m = .ok s1 →
        ∃ t, exec (.blockSwapOut b.bid) s = .next t ∧ (t.part p).state = .run ∧ (∀ g ∈ t.groups, g.bid ≠ b.bid) ∧ ∃ b', t.block? b.bid = some b' ∧ b'.image = some (s.swapPlace p) ∧ b'.swapped = true)) ∧
    (∀ b m i, s.block? b.bid = some b → b.part = p → b.swapped = true → b.image = some i → (s.part p).state = .run → s.roomBack b = true → s.keptImage p b = some m →
      let t := (s.physSeen p i m.bytes.length).putBacks p false [(b, m)]
      (s.blockKilled b = false → (∃ g ∈ s.blockGroups b, s.wakes g = true) → exec (.blockSwapIn b.bid) s = .next t.settle) ∧
      (s.blockKilled b = true → exec (.blockSwapIn b.bid) s = .next (t.removeBlocks [b]).settle))

/-- POWER-UP AND TIME (R407 to R409, R411): POWER_GOOD starts over from reset at stage 1 keeping only what lies outside the power domain and the record of repairs; each stage follows the one before it, a failed stage
records ERR and goes no further, MEMORY_INIT sets READY with every memory cleared; meridian time is loaded at calibration, and follows the lowest node met, stepped by a link before the first OPEN and slewed after it (that a link to a higher node changes nothing, and that the lowest node met is followed, are the model's choice, log 70); a power window counts when it is over
the limit. -/
def Obligations.PowerUp : Prop :=
  ∀ (s : State),
    (∃ t, exec (.powerGood true) s = .next t ∧ t.dev.stage = 1 ∧ t.dev.err = 0 ∧ t.dev.ready = false ∧ t.groups = [] ∧ t.blocks = [] ∧ t.launches = [] ∧ t.parts = State.reset.parts ∧
      t.dram = Memory.empty ∧ t.scratch = Memory.empty ∧ t.cistern = Memory.empty ∧ t.host = s.host ∧ t.peer = s.peer ∧ t.dev.spares = s.dev.spares ∧ t.dev.pwrlimit = 3200) ∧
    (∃ t, exec (.powerGood false) s = .next t ∧ t.dev.err = 1 ∧ t.dev.stage = 0) ∧
    (s.dev.stage = 1 → s.dev.err = 0 → exec (.imageVerify true) s = .next { s with dev := { s.dev with stage := 2 } } ∧
      exec (.imageVerify false) s = .next { s with dev := { s.dev with err := 2, faildie := 0 } }) ∧
    (∀ ref, s.dev.stage = 2 → s.dev.err = 0 → exec (.selfCalibration none ref) s = .next { s with meridian := Vector.replicate 4 (ref.getD 0), dev := { s.dev with stage := 3 } } ∧
      ∀ link n, ∃ t, exec (.selfCalibration (some (link, n)) ref) s = .next t ∧ t.dev.stage = 2 ∧ t.dev.err = (if link then 5 else 3) ∧ t.dev.faildie = BitVec.ofNat 8 n) ∧
    (s.dev.stage = 3 → s.dev.err = 0 → (∃ t, exec (.memoryInit none) s = .next t ∧ t.dev.stage = 5 ∧ t.dev.ready = true ∧ t.dram = Memory.empty ∧ t.scratch = Memory.empty ∧
      t.cistern = Memory.empty ∧ t.l1 = [] ∧ t.icache = [] ∧ t.slices = [] ∧ t.recs = []) ∧ ∀ n, ∃ t, exec (.memoryInit (some n)) s = .next t ∧ t.dev.err = 4 ∧ t.dev.ready = s.dev.ready) ∧
    (∀ node time, (∀ f, s.dev.follows = some f → node ≤ f) → let d : Dev := { s.dev with follows := some node }
      (s.dev.opened = false → exec (.ferzuLinkUp node time) s = .next { s with dev := d, meridian := Vector.replicate 4 time }) ∧
      (s.dev.opened = true → exec (.ferzuLinkUp node time) s = .next { s with dev := { d with slew := (time.toNat : Int) - ((s.time 0).toNat : Int) } })) ∧
    (∀ node time f, s.dev.follows = some f → f < node → exec (.ferzuLinkUp node time) s = .next s) ∧
    (∀ mw, exec (.powerWindow mw) s = .next { s with dev := { s.dev with power := mw, overlimit := s.dev.overlimit + if s.dev.pwrlimit.toNat * 1000 < mw then 1 else 0 } })

namespace Sys2Proof.Claims

/-- Nothing but the device's own records has changed. -/
def OnlyDev (s t : State) : Prop := ∃ d : Dev, t = { s with dev := d }

end Sys2Proof.Claims

/-- ERRORS, REPAIRS AND MEASUREMENTS (R413, R414, R422, R425, R426): a correctable error is corrected and counted; an uncorrectable one poisons its unit, row or tile once and is counted, in memory,
scratch, a vector row, another register or a cache, or fails the check of an engine's data; a repair takes a spare that is
left, is counted, and loses nothing but what it is told cannot be read; an extended measurement is the hash of the old value and the data; a virtual function's quote covers registers 4 to 7 of its own partition only (that a refused request
changes nothing is the model's choice, log 52, and so are how an extension names a partition's register, log 89, and that an error in a scalar, index or predicate register is one poisoned unit more, log 92); the
oldest write a stub has taken in is applied at its destination. -/
def Obligations.ErrorsAndRepairs : Prop :=
  ∀ (s : State),
    exec .correctableError s = .next { s with dev := { s.dev with corrected := s.dev.corrected + 1 } } ∧
    (∀ u, populated (u * 32) = true → mapGet false s.dram.pois u = false → ∃ t, exec (.uncorrectableError (.memory u)) s = .next t ∧ t.dram = s.dram.setPoison (u * 32) true ∧
      t.scratch = s.scratch ∧ t.cistern = s.cistern ∧ t.groups = s.groups ∧ t.dev.poisoned = s.dev.poisoned + 1) ∧
    (∀ u, mapGet false s.scratch.pois u = false → ∃ t, exec (.uncorrectableError (.scratch u)) s = .next t ∧ t.scratch = s.scratch.setPoison (u * 32) true ∧ t.dram = s.dram ∧ t.groups = s.groups) ∧
    (∀ g r, s.group? g.gid = some g → r < g.allot → (row g r).poison = false → ∃ t g', exec (.uncorrectableError (.row g.gid r)) s = .next t ∧ SameMemory s t ∧ t.group? g.gid = some g' ∧
      row g' r = { row g r with poison := true } ∧ (∀ i, i ≠ r → row g' i = row g i) ∧ g'.s = g.s) ∧
    (∀ g code, s.group? g.gid = some g → ownReg code = true → code ∉ g.hurt → ∃ t g', exec (.uncorrectableError (.reg g.gid code)) s = .next t ∧ SameMemory s t ∧ t.group? g.gid = some g' ∧
      code ∈ g'.hurt ∧ (∀ c ∈ g.hurt, c ∈ g'.hurt) ∧ g'.rows = g.rows ∧ g'.s = g.s ∧ t.dev.poisoned = s.dev.poisoned + 1) ∧
    (∀ core line unit l, s.l1Line? core line = some l → l.val.pois.getLsbD unit = false → ∃ t, exec (.uncorrectableError (.l1 core line unit)) s = .next t ∧ SameMemory s t ∧ t.groups = s.groups ∧
      t.l1Line? core line = some { l with val := poisonUnitOf l.val unit } ∧ t.dev.poisoned = s.dev.poisoned + 1) ∧
    (∀ w piece, s.working w = true → (w, piece) ∉ s.checks → exec (.uncorrectableError (.engine w piece)) s = .next { s with checks := s.checks ++ [(w, piece)] }) ∧
    (∀ core, clusterOf core < 64 → (s.dev.spares.filter fun x => x.1 == clusterOf core).length < 8 → ∃ t, exec (.coreRepair core []) s = .next t ∧ SameMemory s t ∧ t.groups = s.groups ∧
      t.dev.spares = (clusterOf core, core) :: s.dev.spares ∧ t.dev.repairs = s.dev.repairs + 1) ∧
    (∀ die slice way, die < 4 → slice < 64 → way < 24 → (∀ x ∈ s.dev.l2spare, ¬ (x.1 = die ∧ x.2.1 = slice)) →
      (∀ w ∈ s.ways, w.die = die → homeSlice w.line = slice → w.way = way → s.wayIdle w = true) → ∃ t, exec (.l2WayRepair die slice way) s = .next t ∧ t.groups = s.groups ∧
        (∀ w ∈ t.ways, ¬ (w.die = die ∧ homeSlice w.line = slice ∧ w.way = way)) ∧ t.dev.l2spare = (die, slice, way) :: s.dev.l2spare ∧ t.dev.repairs = s.dev.repairs + 1) ∧
    (∀ x, spareFor s.dev x = true → exec (.dramRepair x) s = .next { s with dev := { s.dev with dramCopy := x :: s.dev.dramCopy } }) ∧
    (∀ x, x ∈ s.dev.dramCopy → ∃ t, exec (.dramSpareCopyDone x) s = .next t ∧ OnlyDev s t ∧ t.dev.dramCopy = s.dev.dramCopy.erase x ∧ t.dev.dramSpared = x :: s.dev.dramSpared ∧
      t.dev.repairs = s.dev.repairs + 1) ∧
    (∀ port lane, port < 16 → lane < 4 → port ∉ s.dev.laneSpared → (∀ x ∈ s.dev.lanesDown, x.1 ≠ port) →
      exec (.ferzuLaneRepair port lane) s = .next { s with dev := { s.dev with lanesDown := (port, lane) :: s.dev.lanesDown } }) ∧
    (∀ port lane, (port, lane) ∈ s.dev.lanesDown → ∃ t, exec (.spareLaneTrained port) s = .next t ∧ OnlyDev s t ∧ (∀ x ∈ t.dev.lanesDown, x.1 ≠ port) ∧ t.dev.laneSpared = port :: s.dev.laneSpared ∧
      t.dev.repairs = s.dev.repairs + 1) ∧
    (∀ r data, r < 8 → ∃ t, exec (.measurementExtend r data) s = .next t ∧ OnlyDev s t ∧ vget t.dev.measure r 0 = extended (vget s.dev.measure r 0) data ∧
      ∀ i, i ≠ r → vget t.dev.measure i 0 = vget s.dev.measure i 0) ∧
    (∀ p i data, p < 40 → 4 ≤ i → i < 8 → exec (.measurementExtend (8 * (p + 1) + i) data) s =
      .next (s.modPart p fun x => { x with measure := vset x.measure (i - 4) (extended (vget x.measure (i - 4) 0) data) })) ∧
    (∀ nonce mask, nonce.length = 32 → exec (.quoteRequest none nonce mask) s =
      .next { s with dev := { s.dev with quote := some (quoteOf (fun i => vget s.dev.measure i 0) (s.time 0) nonce mask) } }) ∧
    (∀ p nonce mask, p < 40 → nonce.length = 32 → mask &&& 0x0F = 0 → exec (.quoteRequest (some p) nonce mask) s =
      .next (s.modPart p fun x => { x with quote := some (quoteOf (fun i => vget x.measure (i - 4) 0) (s.time 0) nonce mask) })) ∧
    (∀ x nonce mask, mask &&& 0x0F ≠ 0 → exec (.quoteRequest (some x) nonce mask) s = .next s) ∧
    (∀ target w rest, s.dev.stubQ = (target, w) :: rest → s.quietRange (peerBase + target) (inboundSize w) = true → exec (.stubForwardWrite target (inboundBytes w)) s =
      .next (State.applyInbound { s with dev := { s.dev with stubQ := rest } } 0 (peerBase + target) w).settle) ∧
    (∀ addr bytes, (∀ w, s.dev.stubQ.head? = some (addr, w) → inboundBytes w ≠ bytes) → exec (.stubForwardWrite addr bytes) s = .next s)

/-- FIXES AND MIGRATION (R245, R246, R415 to R421): a FIX that comes too late completes with LATECUT, and otherwise stands armed and blocks its queue; at its time the cut marks every page of its set in one step; a STEP fix past
its deadline completes with TIMEOUT; the drain copies the next page, clears its mark and lets its writers go on once no page of its leaf is left, and
after the last completes (FIXBYTES growing by 65,536 with each page is the model's choice, log 43); a fault of the target ends it with FAULT. MIGRATE of a partition that fits at its
destination halts it, keeps all that its groups hold, resident or saved, but for their halt bits, and leaves stubs; a MIGRATION_DESTINATION with room, whose memory is empty, brings the arriving partition to RUN (that each of the two is one step is the model's choice, log 42). -/
def Obligations.FixAndMigration : Prop :=
  ∀ (s : State) (p q : Nat),
    (∀ f pk n s1, Starts s p q pk n s1 → pk.body = .fix f →
      (∀ t, f.byTime = false → f.n.toNat ≤ (s.part p).stepCtr.toNat → s1.finishPacket p q n pk.signal (statusWord pk.seq 0 false .lateCut) = .ok t → Comes (.fix p q) s t) ∧
      (f.byTime = false → f.n.toNat ≤ (s.part p).stepCtr.toNat → pk.signal = none → Comes (.fix p q) s (closed s1 p q n)) ∧
      (∀ rs, (f.byTime = true ∨ (s.part p).stepCtr.toNat < f.n.toNat) → s1.fixRanges p f = .ok rs → ∃ t x y : _, Comes (.fix p q) s t ∧ (Steady s → SameMemory s t) ∧
        (t.part p).fixes = (s.part p).fixes ++ [y] ∧ y.params = f ∧ y.pages = fixPages rs ∧ y.cut = none ∧ t.queue? p q = some x ∧ x.block = some n)) ∧
    (∀ f t, s.fixOf p q false = some f → f.params.byTime = true → f.params.when_ = some t → t.toNat ≤ s.nowNs → exec (.fixCutTime p q) s = .next (s.cutFix p f)) ∧
    (∀ f t, s.fixOf p q false = some f → f.params.byTime = false → f.params.when_ = some t → t.toNat ≤ s.nowNs →
      (∀ u, s.endFix p f .timeout = .ok u → Comes (.fixDeadline p q) s u) ∧
      (f.signal = none → Comes (.fixDeadline p q) s (closed (s.modPart p fun x => { x with fixes := x.fixes.filter fun y => !(y.q == f.q && y.pk == f.pk) }) p f.q f.pk))) ∧
    (∀ f c, s.fixOf p q true = some f → s.nextPage p f = some c → s.pageQuiet p c.page = true → f.left.erase c ≠ [] → p < 40 → ∃ t, exec (.fixDrainPage p q) s = .next t ∧
      t.scratch = s.scratch ∧ ((s.part p).fqHeld = [] → t.host = s.host) ∧ t.dev.fixbytes = s.dev.fixbytes + 65536 ∧
      ((∀ x ∈ f.left.erase c, x.leaf ≠ c.leaf) → (∀ y ∈ (s.part p).fixes, ¬ (y.q = q ∧ y.pk = f.pk) → ∀ x ∈ y.left, x.leaf ≠ c.leaf) →
        ∀ g ∈ t.groups, g.part = p → ∀ a, g.park = .cow a → c.covers a = false) ∧
      (∀ y ∈ (t.part p).fixes, y.q = q → y.pk = f.pk → y.left = f.left.erase c)) ∧
    (∀ f, s.fixOf p q true = some f → s.nextPage p f = none → (∀ u, (s.fixHeader p f true).endFix p f .done = .ok u → Comes (.fixDrainPage p q) s u) ∧
      (f.signal = none → ∃ t : State, Comes (.fixDrainPage p q) s t ∧ ∀ y ∈ (t.part p).fixes, ¬ (y.q = f.q ∧ y.pk = f.pk))) ∧
    (∀ f, s.fixOf p q true = some f → f.signal = none → ∃ t : State, Comes (.fixDrainFault p q) s t ∧ ∀ y ∈ (t.part p).fixes, ¬ (y.q = f.q ∧ y.pk = f.pk)) ∧
    (∀ f u, s.fixOf p q true = some f → let f' := { f with left := [] }
      ((((s.clearCow p f).modPart p fun x => { x with fixes := x.fixes.map fun y => if y.q = q ∧ y.pk = f.pk then f' else y }).unparkCow p f.left).endFix p f' .fault = .ok u →
        Comes (.fixDrainFault p q) s u)) ∧
    (∀ reply pk n s1 node to_, Starts s p q pk n s1 → pk.body = .migrate node to_ → let s2 := s1.modQueue p q fun x => { x with block := some n }
      (∀ t, s2.fitsThere p reply = false ∨ Config.maxStubs < s2.dev.stubs.length + reply.lines.length → s2.finishPacket p q n pk.signal (statusWord pk.seq 0 false .nofit) = .ok t →
        Comes (.migrate p q reply) s t) ∧
      (∀ s3 s4, s2.fitsThere p reply = true → s2.dev.stubs.length + reply.lines.length ≤ Config.maxStubs → (∀ l ∈ s2.monLines p, ∃ x ∈ reply.lines, x.1 = l) →
        (∀ x ∈ reply.lines, s2.quiet x.1 = true) → s2.queuesHalt p = .ok s3 → s3.finishPacket p q n pk.signal (statusWord pk.seq 0 false .done) = .ok s4 →
        ∃ t : State, Comes (.migrate p q reply) s t ∧ (t.part p).state = .halted ∧ (∀ g ∈ t.groups ++ t.saved, g.part = p → g.halt = true) ∧
          (t.groups = s.groups.map fun g => if g.part = p then { g with preHalt := g.halt, halt := true } else g) ∧
          (t.saved = s.saved.map fun g => if g.part = p then { g with preHalt := g.halt, halt := true } else g) ∧ (∀ m ∈ t.mons, m.part ≠ p) ∧
          t.dev.stubs = s4.dev.stubs ++ reply.lines.map fun x => { line := x.1, node := node, target := x.2 : Stub })) ∧
    (∀ (a : MigrationArrival) gen, p < 40 → (s.part p).state = .config → (s.part p).busy = false → badRange (s.part p) = false → s.overlaps p = false → s.lowestGen = some gen → s.fitsHere p a = true →
      (∀ g ∈ s.groups, g.part ≠ p) → a.memory = [] → a.pois = [] → a.blocks = [] → a.groups = [] → a.launches = [] → a.monitors = [] → a.faults = [] → a.source.queues = [] →
      (∀ e, ({ s with nextId := nextNumber s.nextId a, dev := { s.dev with freeGens := s.dev.freeGens.erase gen } }.modPart p fun x => { x with state := .run, gen := gen }).writeImage p
        (s.part p).savebase.toNat { bytes := spliceBytes a.image 24 (leBytes 8 gen), pois := a.imagePois } ≠ .error e) →
      ∃ t, exec (.migrationDestination p a) s = .next t ∧ (t.part p).state = .run ∧ (t.part p).gen = gen ∧ (t.part p).stepCtr = a.source.stepCtr ∧ (t.part p).result = .ok ∧
        t.dev.freeGens = s.dev.freeGens.erase gen ∧ t.groups = s.groups)

/-- SCALAR INSTRUCTIONS (R28, R190 to R192): every scalar word writes its result to sD under the scalar rule, and otherwise only moves the PC. -/
def Obligations.ScalarInstructions : Prop := Sys2Proof.Claims.ScalarWords ∧ Sys2Proof.Claims.ScalarMoves

/-- PREDICATES (R170 to R175): the predicate words, CMP, and what its combining types leave in every lane. -/
def Obligations.Predicates : Prop := Sys2Proof.Claims.PredicateWords ∧ Sys2Proof.Claims.Compare ∧ Sys2Proof.Claims.CombiningTypes

/-- INTEGER WORDS (R119, R120, R156, R177): what they write, and the results of their elements. -/
def Obligations.IntegerWords : Prop := Sys2Proof.Claims.NativeInteger ∧ Sys2Proof.Claims.IntegerResults

/-- BITS, MOVES AND ADDRESSES (R178 to R184): the bitwise and counting words, IMADW, SEL, MOV, LEA and MOVI. -/
def Obligations.BitAndMoveWords : Prop := Sys2Proof.Claims.BitWords ∧ Sys2Proof.Claims.MoveWords

/-- INDEX REGISTERS (R186 to R189): XSET, XADD and XMOV, and the relative words MOVR and MOVW. -/
def Obligations.IndexRegisters : Prop := Sys2Proof.Claims.IndexWords ∧ Sys2Proof.Claims.RelativeRead ∧ Sys2Proof.Claims.RelativeWrite

/-- PACKED WORDS AND CONVERSIONS (R201 to R205). -/
def Obligations.PackedAndConversion : Prop := Sys2Proof.Claims.PackedFloat ∧ Sys2Proof.Claims.Conversion

/-- EXCHANGES WITHIN A GROUP (R133, R207, R208). -/
def Obligations.LaneExchanges : Prop := Sys2Proof.Claims.QuadExchange ∧ Sys2Proof.Claims.Shuffle

/-- EXCHANGES BETWEEN GROUPS (R209 to R211): XPAIR and XSHUF. -/
def Obligations.GroupExchanges : Prop := Sys2Proof.Claims.Pairing ∧ Sys2Proof.Claims.CrossShuffle

/-- LOADS AND PREFETCH (R213, R214, R216, R217, R222). -/
def Obligations.LoadWords : Prop := Sys2Proof.Claims.Loads ∧ Sys2Proof.Claims.Prefetch

/-- REQUESTS AT AN L1, AT SCRATCH AND CISTERN, AND RETURNS (R72, R73, R75, R77, R78, R83, R214, R215, R217, R219, R226, R235). -/
def Obligations.StorageAndReturns : Prop := Sys2Proof.Claims.AccessesAtL1 ∧ Sys2Proof.Claims.NearStorage ∧ Sys2Proof.Claims.ReturnsLand

/-- THE ASYNCHRONOUS PATHS (R84, R85, R220, R221, R223): SEAL and WAITC, ALD and AST, and the steps that complete them. -/
def Obligations.AsyncPath : Prop := Sys2Proof.Claims.SealAndWait ∧ Sys2Proof.Claims.AsyncCopies ∧ Sys2Proof.Claims.CopiesComplete

/-- WEIR REQUESTS UNDER WAY (R112, R113, R229, R230, R232, R233): at a port, and at their home. -/
def Obligations.WeirRequests : Prop := Sys2Proof.Claims.WeirPorts ∧ Sys2Proof.Claims.WeirHome

/-- BLOCK BARRIERS (R48 to R50, R238, R384): BAR, and BARSTALL. -/
def Obligations.BlockBarriers : Prop := Sys2Proof.Claims.Barriers ∧ Sys2Proof.Claims.BarrierStall

/-- TRANSACTION BARRIERS (R86, R87, R239, R240): the words of a barrier, and TBAR. -/
def Obligations.TransactionBarriers : Prop := Sys2Proof.Claims.BarrierWords ∧ Sys2Proof.Claims.TbarWord

/-- ENGINE SUBMISSIONS AND THE SLUICE MATRIX (R262, R264, R266, R268 to R272). -/
def Obligations.EnginesAndSluice : Prop := Sys2Proof.Claims.EngineWords ∧ Sys2Proof.Claims.Sluice

/-- THE ENGINES AT WORK (R89, R107, R124, R258 to R268): traverse commands, copy channels, quantisation. -/
def Obligations.EngineCommands : Prop := Sys2Proof.Claims.TraverseEngine ∧ Sys2Proof.Claims.CopyChannels ∧ Sys2Proof.Claims.QuantisationEngine

/-- THE DEBUGGER (R284 to R289): HALTG, STEPG, WATCHSET and DBGMB. -/
def Obligations.Debugger : Prop := Sys2Proof.Claims.DebuggerWords ∧ Sys2Proof.Claims.DebugMailbox

/-- CACHE AND SITE MAINTENANCE (R275, R276, R302, R307 to R311): CWB, CINV, SITEARM, and the steps of sites. -/
def Obligations.MaintenanceAndSites : Prop := Sys2Proof.Claims.Maintenance ∧ Sys2Proof.Claims.SiteSteps

/-- JOINS AND THE END OF LANES (R20, R25 to R27, R163, R164): JOIN, JOIN_LABEL and EXIT. -/
def Obligations.JoinsAndEnds : Prop := Sys2Proof.Claims.Joins ∧ Sys2Proof.Claims.EndOfLanes

/-- THE HOME OF A LINE (R73, R76 to R81, R98, R368): requests it takes up, and that what is written there is read there. -/
def Obligations.HomeAccess : Prop := Sys2Proof.Claims.HomeRequests ∧ Sys2Proof.Claims.HomeReadsBack

/-- PROBES, ANSWERS AND REPLIES (R74 to R81, R93, R214): what they change in the caches, and the load a reply serves. -/
def Obligations.CacheMessages : Prop := Sys2Proof.Claims.ProbesAndReplies ∧ Sys2Proof.Claims.LoadsAreServed

/-- COMPLETION SIGNALS AND THE PACKETS THAT START (R344 to R347, R349, R353, R355). -/
def Obligations.SignalsAndPackets : Prop := Sys2Proof.Claims.Signals ∧ Sys2Proof.Claims.PacketsStart

/-- QUEUES, THE ENDS OF PACKETS AND GRAPH RUNS (R337 to R340, R343, R346, R353 to R357). -/
def Obligations.QueuesAndGraphs : Prop := Sys2Proof.Claims.QueuesAndEnds ∧ Sys2Proof.Claims.GraphNodes

/-- SAVING, RESTORING AND WHAT A RESTORE LEAVES MARKED (R326, R361, R362, R387 to R392). -/
def Obligations.SaveAndRestore : Prop := Sys2Proof.Claims.SavingBlocks ∧ Sys2Proof.Claims.MarkedRegisters

/-- A PARTITION'S COMMANDS (R361, R362, R365, R386): the states they need, and what they leave. -/
def Obligations.PartitionCommands : Prop := Sys2Proof.Claims.CommandStates ∧ Sys2Proof.Claims.PartitionLife
end

