-- ==== Sys2Proof/Laws/Operands.lean ====
section
/-! SUPPORT. The checks of steps 3 to 5 of R153 on rows that pass them, and what a per-lane register word then comes to. -/

namespace Sys2Proof.Machine

/-- Step 3 passes inside the allotment. -/
theorem checkBound_ok {g : Group} {rows : List Nat} (h : ∀ r ∈ rows, r < g.allot) : checkBound g rows = .ok () := by
  have : rows.find? (fun r => decide (g.allot ≤ r)) = none := by
    rw [List.find?_eq_none]
    intro r hr
    have := h r hr
    simpa using this
  simp only [checkBound, this]

/-- Step 3 traps REGBOUND on the first row outside the allotment (R35, R153). -/
theorem checkBound_trap {g : Group} {rows : List Nat} {r : Nat} (h : rows.find? (fun r => decide (g.allot ≤ r)) = some r) :
    checkBound g rows = .error (.trap .regbound none (BitVec.ofNat 64 r)) := by
  simp only [checkBound, h]
  rfl

/-- Step 4 passes on full destinations and full, clean sources. -/
theorem checkFull_ok {g : Group} {dst : List Nat} {srcs : List VSrc} (hd : ∀ r ∈ dst, (row g r).full = true)
    (hs : ∀ v ∈ srcs, ∀ r ∈ v.rows, (row g r).full = true ∧ (row g r).poison = false) : checkFull g dst srcs = .ok () := by
  have hs' : ∀ x ∈ srcs.flatMap (fun v => v.rows.map fun r => (v.e, r)), (row g x.2).full = true ∧ (row g x.2).poison = false := by
    intro x hx
    obtain ⟨v, hv, hx⟩ := List.mem_flatMap.mp hx
    obtain ⟨r, hr, rfl⟩ := List.mem_map.mp hx
    exact hs v hv r hr
  have h1 : (srcs.flatMap (fun v => v.rows.map fun r => (v.e, r))).findSome? (fun x => rowStop g x.1 x.2) = none := by
    rw [List.findSome?_eq_none_iff]
    intro x hx
    have := hs' x hx
    simp [rowStop, this.1, this.2]
  have h2 : (srcs.flatMap (fun v => v.rows.map fun r => (v.e, r))).any (fun x => !(row g x.2).full) = false := by
    rw [List.any_eq_false]
    intro x hx
    simp [(hs' x hx).1]
  have h3 : dst.any (fun r => !(row g r).full) = false := by
    rw [List.any_eq_false]
    intro r hr
    simp [hd r hr]
  simp only [checkFull, h1, h2, h3]
  simp

/-- Step 5 passes on rows that agree with their formats. -/
theorem checkTags_ok {g : Group} {srcs : List (VSrc × Option Tag)} (h : ∀ x ∈ srcs, ∀ t, x.2 = some t → TagsAgree g t x.1.rows) :
    checkTags g srcs = .ok () := by
  unfold checkTags
  dsimp only
  split
  · rename_i r hr
    obtain ⟨x, hx, hf⟩ := List.exists_of_findSome?_eq_some hr
    split at hf
    · cases hf
    · rename_i t ht
      have hm := List.mem_of_find?_eq_some hf
      have hb := List.find?_some hf
      rcases h x hx t ht r hm with h | h <;> simp [agrees, h] at hb
  · rfl

/-- A per-lane word without generic forms whose checks pass writes its rows in its active lanes. -/
theorem vector_ok {c : Ctx} {dst : List Nat} {srcs : List (VSrc × Option Tag)} {tag : Tag} {f : Nat → List Word} (ha : c.act ≠ 0)
    (hd : WritableRows c.g dst) (hs : ∀ x ∈ srcs, ReadableRows c.g x.1.rows) (ht : ∀ x ∈ srcs, ∀ t, x.2 = some t → TagsAgree c.g t x.1.rows) :
    c.vector dst srcs noCheck tag f = .done (c.finish (writeRows c.g dst c.act tag f)) := by
  have h1 : checkBound c.g (dst ++ srcs.flatMap fun x => x.1.rows) = .ok () := by
    refine checkBound_ok fun r hr => ?_
    rcases List.mem_append.mp hr with hr | hr
    · exact (hd r hr).1
    · obtain ⟨x, hx, hr⟩ := List.mem_flatMap.mp hr
      exact (hs x hx r hr).1
  have h2 : checkFull c.g dst (srcs.map (·.1)) = .ok () := by
    refine checkFull_ok (fun r hr => (hd r hr).2) fun v hv r hr => ?_
    obtain ⟨x, hx, rfl⟩ := List.mem_map.mp hv
    exact (hs x hx r hr).2
  have h3 := checkTags_ok ht
  simp only [Ctx.vector, h1, h2, h3, noCheck, Ctx.writes, if_neg ha]
  rfl

/-- A per-lane word without an active lane only moves the PC (R28). -/
theorem vector_inactive {c : Ctx} {dst : List Nat} {srcs : List (VSrc × Option Tag)} {extra : Chk Unit} {tag : Tag} {f : Nat → List Word}
    (ha : c.act = 0) : c.vector dst srcs extra tag f = .done c.advance := by
  simp only [Ctx.vector, Ctx.writes, if_pos ha]

/-- A native arithmetic word whose checks pass writes its row under the format it names. -/
theorem arith_native_ok {c : Ctx} {m : BitVec 6} {d : Nat} {srcs : List VSrc} {tagOf : Nat → Tag} {ofTag : Tag → Option Nat} {dflt : Nat}
    {f : Nat → Nat → Word} (ha : c.act ≠ 0) (hn : c.h.form = .native) (hd : WritableRows c.g [d]) (hs : ReadableRows c.g (srcs.flatMap VSrc.rows))
    (ht : TagsAgree c.g (tagOf (assumeOf m)) (srcs.flatMap VSrc.rows)) :
    c.arith m d srcs tagOf ofTag dflt f =
      .done (c.finish (writeRow c.g d c.act (tagOf (assumeOf m)) (lanesOf fun l => f (assumeOf m) l))) := by
  have h1 : checkBound c.g (d :: srcs.flatMap VSrc.rows) = .ok () := by
    refine checkBound_ok fun r hr => ?_
    rcases List.mem_cons.mp hr with rfl | hr
    · exact (hd _ (List.mem_singleton.mpr rfl)).1
    · exact (hs r hr).1
  have h2 : checkFull c.g [d] srcs = .ok () :=
    checkFull_ok (fun r hr => (hd r hr).2) fun v hv r hr => (hs r (List.mem_flatMap.mpr ⟨v, hv, hr⟩)).2
  have h3 : checkTags c.g (srcs.map fun v => (v, some (tagOf (assumeOf m)))) = .ok () := by
    refine checkTags_ok fun x hx t hxt r hr => ?_
    obtain ⟨v, hv, rfl⟩ := List.mem_map.mp hx
    cases hxt
    exact ht r (List.mem_flatMap.mpr ⟨v, hv, hr⟩)
  simp only [Ctx.arith, if_neg ha, h1, h2, Ctx.format, hn, h3, noCheck, Ctx.writes, bind, Except.bind, pure, Except.pure]
  rfl

/-- An arithmetic word without an active lane only moves the PC (R28). -/
theorem arith_inactive {c : Ctx} {m : BitVec 6} {d : Nat} {srcs : List VSrc} {tagOf : Nat → Tag} {ofTag : Tag → Option Nat} {dflt : Nat}
    {f : Nat → Nat → Word} (ha : c.act = 0) : c.arith m d srcs tagOf ofTag dflt f = .done c.advance := by
  simp only [Ctx.arith, if_pos ha]

/-- A per-lane word that issues, with checks that pass: the whole step. -/
theorem runWord_vector {s : State} {g : Group} {k : Nat} (hs : Issuing s g k) (hss : stepping g = false) (i : Instr) (h : Hdr) (hw : i.wellFormed = true)
    {dst : List Nat} {srcs : List (VSrc × Option Tag)} {tag : Tag} {f : Nat → List Word} (body : Ctx → Issue)
    (hb : body (frameOf i h s g k) = (frameOf i h s g k).vector dst srcs noCheck tag f) (ha : active g k h ≠ 0) (hd : WritableRows g dst)
    (hr : ∀ x ∈ srcs, ReadableRows g x.1.rows) (ht : ∀ x ∈ srcs, ∀ t, x.2 = some t → TagsAgree g t x.1.rows) :
    runWord i h s body = .next (landed s (writeRows g dst (active g k h) tag f) k ((entry g k).pc + 8)) :=
  runWord_finish hs i h body hw hss (writeRows_gid _ _ _ _ _) (entry_writeRows ..)
    (hb.trans (vector_ok (c := frameOf i h s g k) ha hd hr ht))

/-- A native arithmetic word that issues, with checks that pass: the whole step. -/
theorem runWord_arith {s : State} {g : Group} {k : Nat} (hs : Issuing s g k) (hss : stepping g = false) (i : Instr) (h : Hdr) (hw : i.wellFormed = true)
    {m : BitVec 6} {d : Nat} {srcs : List VSrc} {tagOf : Nat → Tag} {ofTag : Tag → Option Nat} {dflt : Nat} {f : Nat → Nat → Word} (body : Ctx → Issue)
    (hb : body (frameOf i h s g k) = (frameOf i h s g k).arith m d srcs tagOf ofTag dflt f) (hn : h.form = .native) (ha : active g k h ≠ 0)
    (hd : WritableRows g [d]) (hr : ReadableRows g (srcs.flatMap VSrc.rows)) (ht : TagsAgree g (tagOf (assumeOf m)) (srcs.flatMap VSrc.rows)) :
    runWord i h s body =
      .next (landed s (writeRow g d (active g k h) (tagOf (assumeOf m)) (lanesOf fun l => f (assumeOf m) l)) k ((entry g k).pc + 8)) :=
  runWord_finish hs i h body hw hss rfl rfl (hb.trans (arith_native_ok (c := frameOf i h s g k) ha hn hd hr ht))

end Sys2Proof.Machine
end

