-- ==== Sys2Proof/Laws/Families.lean ====
section
/-! SUPPORT. One lemma per shared shape of a register word: what it comes to when its checks pass. Meanings call these shapes, so each is cited and never unfolded. -/

namespace Sys2Proof.Machine

variable {s : State} {g : Group} {k : Nat}

/-- A native integer word on vector sources (R177). -/
theorem intRR_ok (hs : Issuing s g k) (hss : stepping g = false) (i : Instr) (w : RR) (hw : i.wellFormed = true) (three : Bool) (f : Int → Int → Int → Int)
    (hn : w.form = .native) (ha : active g k w.toHdr ≠ 0) (hd : WritableRows g [w.d.toNat])
    (hr : ReadableRows g ((if three then [rrSrc w .a, rrSrc w .b, rrSrc w .c] else [rrSrc w .a, rrSrc w .b]).flatMap VSrc.rows))
    (ht : TagsAgree g (intTag (assumeOf w.m)) ((if three then [rrSrc w .a, rrSrc w .b, rrSrc w .c] else [rrSrc w .a, rrSrc w .b]).flatMap VSrc.rows)) :
    intRR i w s three f = .next (landed s (writeRow g w.d.toNat (active g k w.toHdr) (intTag (assumeOf w.m)) (lanesOf fun l =>
      intResult (assumeOf w.m) (satOf w.m) fun el => f (el (srcLane g (rrSrc w .a) 0 l)) (el (srcLane g (rrSrc w .b) 0 l))
        (if three then el (srcLane g (rrSrc w .c) 0 l) else 0))) k ((entry g k).pc + 8)) := by
  unfold intRR
  exact runWord_finish hs i w.toHdr _ hw hss rfl rfl (arith_native_ok (c := frameOf i w.toHdr s g k) ha hn hd hr ht)

/-- A native integer word with an immediate (R177). -/
theorem intRI_ok (hs : Issuing s g k) (hss : stepping g = false) (i : Instr) (w : RI) (hw : i.wellFormed = true) (zext : Bool) (f : Int → Int → Int)
    (hn : w.form = .native) (ha : active g k w.toHdr ≠ 0) (hd : WritableRows g [w.d.toNat])
    (hr : ReadableRows g (riSrc w).rows) (ht : TagsAgree g (intTag (assumeOf w.m)) (riSrc w).rows) :
    intRI i w s zext f = .next (landed s (writeRow g w.d.toNat (active g k w.toHdr) (intTag (assumeOf w.m)) (lanesOf fun l =>
      intResult (assumeOf w.m) (satOf w.m) fun el => f (el (srcLane g (riSrc w) 0 l))
        (if zext && assumeOf w.m == 1 then (w.imm.toNat : Int) else w.imm.toInt))) k ((entry g k).pc + 8)) := by
  unfold intRI
  refine runWord_finish hs i w.toHdr _ hw hss rfl rfl (arith_native_ok (c := frameOf i w.toHdr s g k) ha hn hd ?_ ?_)
  · intro r h; exact hr r (by simpa using h)
  · intro r h; exact ht r (by simpa using h)

/-- An integer word without an active lane only moves the PC (R28). -/
theorem intRR_inactive (hs : Issuing s g k) (hss : stepping g = false) (i : Instr) (w : RR) (hw : i.wellFormed = true) (three : Bool)
    (f : Int → Int → Int → Int) (ha : active g k w.toHdr = 0) : intRR i w s three f = .next (landed s g k ((entry g k).pc + 8)) := by
  unfold intRR
  exact runWord_finish hs i w.toHdr _ hw hss rfl rfl (arith_inactive (c := frameOf i w.toHdr s g k) ha)

@[inherit_doc intRR_inactive]
theorem intRI_inactive (hs : Issuing s g k) (hss : stepping g = false) (i : Instr) (w : RI) (hw : i.wellFormed = true) (zext : Bool)
    (f : Int → Int → Int) (ha : active g k w.toHdr = 0) : intRI i w s zext f = .next (landed s g k ((entry g k).pc + 8)) := by
  unfold intRI
  exact runWord_finish hs i w.toHdr _ hw hss rfl rfl (arith_inactive (c := frameOf i w.toHdr s g k) ha)

/-- A word on the bits of two sources (R179, R180). -/
theorem bitsRR_ok (hs : Issuing s g k) (hss : stepping g = false) (i : Instr) (w : RR) (hw : i.wellFormed = true) (tag : Tag) (f : Word → Word → Word)
    (ha : active g k w.toHdr ≠ 0) (hd : WritableRows g [w.d.toNat]) (hra : ReadableRows g (rrSrc w .a).rows) (hrb : ReadableRows g (rrSrc w .b).rows) :
    bitsRR i w s tag f = .next (landed s (writeRow g w.d.toNat (active g k w.toHdr) tag (lanesOf fun l =>
      f (srcLane g (rrSrc w .a) 0 l) (srcLane g (rrSrc w .b) 0 l))) k ((entry g k).pc + 8)) := by
  unfold bitsRR
  refine runWord_finish hs i w.toHdr _ hw hss rfl rfl (vector_ok (c := frameOf i w.toHdr s g k) ha hd ?_ ?_)
  · intro x hx; rcases List.mem_cons.mp hx with rfl | hx
    · exact hra
    · rcases List.mem_singleton.mp hx with rfl; exact hrb
  · intro x hx t ht; rcases List.mem_cons.mp hx with rfl | hx
    · cases ht
    · rcases List.mem_singleton.mp hx with rfl; cases ht

/-- A word on the bits of one source. -/
theorem bitsR_ok (hs : Issuing s g k) (hss : stepping g = false) (i : Instr) (w : RR) (hw : i.wellFormed = true) (tag : Tag) (f : Word → Word)
    (ha : active g k w.toHdr ≠ 0) (hd : WritableRows g [w.d.toNat]) (hra : ReadableRows g (rrSrc w .a).rows) :
    bitsR i w s tag f = .next (landed s (writeRow g w.d.toNat (active g k w.toHdr) tag (lanesOf fun l => f (srcLane g (rrSrc w .a) 0 l))) k ((entry g k).pc + 8)) := by
  unfold bitsR
  refine runWord_finish hs i w.toHdr _ hw hss rfl rfl (vector_ok (c := frameOf i w.toHdr s g k) ha hd ?_ ?_)
  · intro x hx; rcases List.mem_singleton.mp hx with rfl; exact hra
  · intro x hx t ht; rcases List.mem_singleton.mp hx with rfl; cases ht

/-- A word on the bits of one source and an immediate. -/
theorem bitsRI_ok (hs : Issuing s g k) (hss : stepping g = false) (i : Instr) (w : RI) (hw : i.wellFormed = true) (f : Word → Word)
    (ha : active g k w.toHdr ≠ 0) (hd : WritableRows g [w.d.toNat]) (hra : ReadableRows g (riSrc w).rows) :
    bitsRI i w s f = .next (landed s (writeRow g w.d.toNat (active g k w.toHdr) .raw (lanesOf fun l => f (srcLane g (riSrc w) 0 l))) k ((entry g k).pc + 8)) := by
  unfold bitsRI
  refine runWord_finish hs i w.toHdr _ hw hss rfl rfl (vector_ok (c := frameOf i w.toHdr s g k) ha hd ?_ ?_)
  · intro x hx; rcases List.mem_singleton.mp hx with rfl; exact hra
  · intro x hx t ht; rcases List.mem_singleton.mp hx with rfl; cases ht

/-- A word on bits without an active lane only moves the PC (R28). -/
theorem bits_inactive (hs : Issuing s g k) (hss : stepping g = false) (i : Instr) (h : Hdr) (hw : i.wellFormed = true) (body : Ctx → Issue)
    {dst : List Nat} {srcs : List (VSrc × Option Tag)} {extra : Chk Unit} {tag : Tag} {f : Nat → List Word}
    (hb : body (frameOf i h s g k) = (frameOf i h s g k).vector dst srcs extra tag f) (ha : active g k h = 0) :
    runWord i h s body = .next (landed s g k ((entry g k).pc + 8)) :=
  runWord_finish hs i h body hw hss rfl rfl (hb.trans (vector_inactive (c := frameOf i h s g k) ha))

/-- A native floating word (R195, R197). -/
theorem floatRR_ok (hs : Issuing s g k) (hss : stepping g = false) (i : Instr) (w : RR) (hw : i.wellFormed = true) (srcs : List VSrc)
    (f : Num.Fp → List Nat → Nat) (hn : w.form = .native) (ha : active g k w.toHdr ≠ 0) (hd : WritableRows g [w.d.toNat])
    (hr : ReadableRows g (srcs.flatMap VSrc.rows)) (ht : TagsAgree g (floatTag (assumeOf w.m)) (srcs.flatMap VSrc.rows)) :
    floatRR i w s srcs f = .next (landed s (writeRow g w.d.toNat (active g k w.toHdr) (floatTag (assumeOf w.m)) (lanesOf fun l =>
      floatElems (assumeOf w.m) fun fp el => f fp (srcs.map fun v => el (srcLane g v 0 l)))) k ((entry g k).pc + 8)) := by
  unfold floatRR
  exact runWord_finish hs i w.toHdr _ hw hss rfl rfl (arith_native_ok (c := frameOf i w.toHdr s g k) ha hn hd hr ht)

/-- An FP32 word with an immediate (R196). -/
theorem floatRI_ok (hs : Issuing s g k) (hss : stepping g = false) (i : Instr) (w : RI) (hw : i.wellFormed = true) (f : Nat → Nat → Nat)
    (ha : active g k w.toHdr ≠ 0) (hd : WritableRows g [w.d.toNat]) (hr : ReadableRows g (riSrc w).rows) (ht : TagsAgree g .f32 (riSrc w).rows) :
    floatRI i w s f = .next (landed s (writeRow g w.d.toNat (active g k w.toHdr) .f32 (lanesOf fun l =>
      BitVec.ofNat 32 (f (srcLane g (riSrc w) 0 l).toNat (w.imm.toNat * 2 ^ 14)))) k ((entry g k).pc + 8)) := by
  unfold floatRI
  refine runWord_finish hs i w.toHdr _ hw hss rfl rfl (vector_ok (c := frameOf i w.toHdr s g k) ha hd ?_ ?_)
  · intro x hx; rcases List.mem_singleton.mp hx with rfl; exact hr
  · intro x hx t h; rcases List.mem_singleton.mp hx with rfl; cases h; exact ht

/-- A packed word (R202). -/
theorem packed_ok (hs : Issuing s g k) (hss : stepping g = false) (i : Instr) (w : RR) (hw : i.wellFormed = true) (srcs : List VSrc)
    (f : Num.Fp → Rnd → Bool → List Nat → Nat) (ha : active g k w.toHdr ≠ 0) (hd : WritableRows g [w.d.toNat])
    (hr : ReadableRows g (srcs.flatMap VSrc.rows)) (ht : TagsAgree g (packedTag w.m) (srcs.flatMap VSrc.rows)) :
    packed i w s srcs f = .next (landed s (writeRow g w.d.toNat (active g k w.toHdr) (packedTag w.m) (lanesOf fun l =>
      let el (n j : Nat) : Nat := match srcs[n]? with | some v => Num.elemOf (srcLane g v 0 l) 16 j | none => 0
      Num.ofElems 16 ((List.range 2).map fun j =>
        f (packedFp w.m) (packedRnd w.m) (bitAt w.m 2) [el 0 j, el 1 (packedSel w.m j), el 2 j]))) k ((entry g k).pc + 8)) := by
  unfold packed
  refine runWord_finish hs i w.toHdr _ hw hss rfl rfl (vector_ok (c := frameOf i w.toHdr s g k) ha hd ?_ ?_)
  · intro x hx r h
    obtain ⟨v, hv, rfl⟩ := List.mem_map.mp hx
    exact hr r (List.mem_flatMap.mpr ⟨v, hv, h⟩)
  · intro x hx t h r hrr
    obtain ⟨v, hv, rfl⟩ := List.mem_map.mp hx
    cases h
    exact ht r (List.mem_flatMap.mpr ⟨v, hv, hrr⟩)

/-- A quad exchange (R207). -/
theorem quadMove_ok (hs : Issuing s g k) (hss : stepping g = false) (i : Instr) (w : RR) (hw : i.wellFormed = true) (from_ : Nat → Nat)
    (ha : active g k w.toHdr ≠ 0) (hd : WritableRows g [w.d.toNat]) (hr : ReadableRows g (rrSrc w .a).rows) :
    quadMove i w s from_ = .next (landed s (writeRow g w.d.toNat (active g k w.toHdr) (srcTag g (rrSrc w .a)) (lanesOf fun l =>
      srcLane g (rrSrc w .a) 0 (from_ l))) k ((entry g k).pc + 8)) := by
  unfold quadMove
  refine runWord_finish hs i w.toHdr _ hw hss rfl rfl (vector_ok (c := frameOf i w.toHdr s g k) ha hd ?_ ?_)
  · intro x hx; rcases List.mem_singleton.mp hx with rfl; exact hr
  · intro x hx t ht; rcases List.mem_singleton.mp hx with rfl; cases ht

/-- A predicate word (R173). -/
theorem predOp_ok (hs : Issuing s g k) (hss : stepping g = false) (i : Instr) (w : RR) (hw : i.wellFormed = true) (f : Mask → Mask → Mask) :
    predOp i w s f = .next (landed s (setP g w.d.toNat (active g k w.toHdr) (f (preg g w.a.toNat) (preg g w.b.toNat))) k ((entry g k).pc + 8)) := by
  unfold predOp
  exact runWord_finish hs i w.toHdr _ hw hss (setP_gid g _ _ _) (entry_setP ..) rfl

/-- A scalar word on two or three scalars that executes (R190). -/
theorem scalar2_ok (hs : Issuing s g k) (hss : stepping g = false) (i : Instr) (w : RR) (hw : i.wellFormed = true) (f : Dword → Dword → Dword) :
    scalar2 i w s f = .next (landed s (if executesIn g k w.toHdr then setS g w.d.toNat (f (sreg g w.a.toNat) (sreg g w.b.toNat)) else g) k
      ((entry g k).pc + 8)) := by
  unfold scalar2
  by_cases hx : executesIn g k w.toHdr = true
  · rw [if_pos hx]; exact runScalarG_eq hs i w.toHdr _ hw hss hx rfl rfl
  · rw [if_neg hx]; exact runScalar_skip hs i w.toHdr _ hw hss (by simpa using hx)

@[inherit_doc scalar2_ok]
theorem scalar3_ok (hs : Issuing s g k) (hss : stepping g = false) (i : Instr) (w : RR) (hw : i.wellFormed = true) (f : Dword → Dword → Dword → Dword) :
    scalar3 i w s f = .next (landed s (if executesIn g k w.toHdr then
      setS g w.d.toNat (f (sreg g w.a.toNat) (sreg g w.b.toNat) (sreg g w.c.toNat)) else g) k ((entry g k).pc + 8)) := by
  unfold scalar3
  by_cases hx : executesIn g k w.toHdr = true
  · rw [if_pos hx]; exact runScalarG_eq hs i w.toHdr _ hw hss hx rfl rfl
  · rw [if_neg hx]; exact runScalar_skip hs i w.toHdr _ hw hss (by simpa using hx)

end Sys2Proof.Machine
end

