-- ==== Sys2Proof/Laws/Home.lean ====
section
/-! SUPPORT. What the shared operations at a line's home come to where nothing there is stubbed, shared between partitions or undefined: cited, so that no proof unfolds them. -/

namespace Sys2Proof.Machine

/-- A frame is mapped twice only when two partitions run (R371). -/
theorem mappedTwice_single {s : State} (h : s.runners.length ≤ 1) (line : Nat) : s.mappedTwice line = false := by
  unfold State.mappedTwice
  split
  · next x y rest hr => simp [hr] at h
  · rfl

/-- A frame that one running partition maps is no shared code and leaves nothing undefined (R315, R371). -/
theorem twice_of_single {s : State} {line : Nat} (h : s.mappedTwice line = false) : s.twice line = false := by simp [State.twice, h]
@[inherit_doc twice_of_single]
theorem common_of_single {s : State} {line : Nat} (h : s.mappedTwice line = false) : s.common line = false := by simp [State.common, h]

/-- An access of such a line changes nothing there. -/
theorem blur_single {s : State} {gen line : Nat} (h : s.mappedTwice line = false) : s.blur gen line = s := by
  simp [State.blur, twice_of_single h, common_of_single h]

/-- A fold of steps that each leave the state alone leaves it alone. -/
theorem foldl_stays {α β : Type} (f : α → β → α) (a : α) : ∀ l : List β, (∀ b ∈ l, f a b = a) → l.foldl f a = a
  | [], _ => rfl
  | b :: l, h => by rw [List.foldl_cons, h b (List.mem_cons_self ..)]; exact foldl_stays f a l fun c hc => h c (List.mem_cons_of_mem _ hc)

/-- The same for the lines of a range. -/
theorem blurRange_single {s : State} {gen pa n : Nat} (h : ∀ l ∈ linesOf pa n, s.mappedTwice l = false) : s.blurRange gen pa n = s :=
  foldl_stays _ s _ fun l hl => blur_single (h l hl)
@[inherit_doc blurRange_single]
theorem takeIn_single {s : State} {gen pa n : Nat} (h : ∀ l ∈ linesOf pa n, s.mappedTwice l = false) : s.takeIn gen pa n = s :=
  foldl_stays _ s _ fun l hl => by simp [common_of_single (h l hl)]

/-- The bytes of an address without a forwarding stub stand there (R422). -/
theorem homeAt_unstubbed {s : State} {pa : Nat} (h : s.stubOf (pa / 128) = none) : s.homeAt pa = pa := by simp [State.homeAt, h]
@[inherit_doc homeAt_unstubbed]
theorem homeVal_unstubbed {s : State} {line : Nat} (h : s.stubOf line = none) : s.homeVal line = (s.homeMem (line * 128)).lineVal (homeKey (line * 128) / 128) := by
  have hd : line * 128 / 128 = line := by omega
  simp [State.homeVal, homeAt_unstubbed (s := s) (pa := line * 128) (by rw [hd]; exact h)]

/-- Bytes of lines without a stub go to their own storage. -/
theorem homeBytes_unstubbed {s : State} {pa : Nat} {bs : List Byte} (h : ∀ l ∈ linesOf pa bs.length, s.stubOf l = none) (f : Memory → Nat → Nat → List Byte → Memory) (gen : Nat) :
    s.homeBytes pa bs f gen = s.setHomeMem pa (f (s.homeMem pa) (homeGen gen pa) (homeKey pa) bs) := by
  unfold State.homeBytes
  rw [if_pos (List.all_eq_true.mpr fun l hl => by simp [h l hl])]

/-- A write that leaves nothing undefined touches no word that the command processor writes in a descriptor (R337). -/
theorem ownedTouched_of_defines {s : State} {pa n : Nat} (hn : 0 < n) (h : s.defines pa n = true) : s.ownedTouched pa n = [] := by
  simp only [State.defines, Bool.and_eq_true, List.all_eq_true, List.mem_range, beq_iff_eq] at h
  rw [State.ownedTouched, List.filter_eq_nil_iff]
  intro w hw hlt
  obtain ⟨d, hd, hwd⟩ := List.mem_flatMap.1 hw
  simp only [Bool.and_eq_true, decide_eq_true_eq] at hlt
  have hw3 : d ≤ w ∧ w + 8 ≤ d + 24 := by
    simp only [List.mem_cons, List.not_mem_nil, or_false] at hwd
    omega
  have ho := h.1.1 (max pa w - pa) (by omega)
  have hx : pa + (max pa w - pa) = max pa w := by omega
  rw [hx, State.openBits, if_pos ⟨by decide, List.any_eq_true.2 ⟨d, hd, by simp only [Bool.and_eq_true, decide_eq_true_eq]; omega⟩⟩] at ho
  exact absurd ho (by decide)

/-- A software write that leaves nothing undefined, of lines that one running partition maps, is the write alone (R230, R313, R337, R371). -/
theorem softly_of_defines {s : State} {gen pa n : Nat} (hn : 0 < n) (h : s.defines pa n = true) (h1 : ∀ l ∈ linesOf pa n, s.mappedTwice l = false) (f : State → State) : s.softly gen pa n f = f s := by
  have hw : s.weirRegions pa n = [] := by
    simp only [State.defines, Bool.and_eq_true, List.isEmpty_iff] at h
    exact h.1.2
  have hb : (linesOf pa n).filter s.twice = [] := List.filter_eq_nil_iff.2 fun l hl => by simp [twice_of_single (h1 l hl)]
  simp [State.softly, hw, ownedTouched_of_defines hn h, hb, takeIn_single h1]

/-- Its bytes are written as they are. -/
theorem softBytes_of_defines {s : State} {pa : Nat} {bs : List Byte} (h : s.defines pa bs.length = true) : s.softBytes pa bs = (bs, s) := by
  simp only [State.defines, Bool.and_eq_true, List.all_eq_true, List.mem_range, beq_iff_eq] at h
  unfold State.softBytes
  simp only
  rw [if_pos]
  simp only [List.all_map, List.all_eq_true, List.mem_range, Function.comp, beq_iff_eq]
  exact h.1.1

/-- A monitor entry whose line nothing has written since it was looked at has the hit it had (R90). -/
theorem hitOf_quiet {s : State} {m : Mon} (h : m.written = false) : s.hitOf m = m.hit := by simp [State.hitOf, h]

/-- A line without monitor entry and stub may be granted for writing (R90, R422). -/
theorem keepsLine_eq {s : State} {line : Nat} : s.keepsLine line = false ↔ s.monitored line = false ∧ s.stubOf line = none := by
  simp [State.keepsLine, Option.isSome_eq_false_iff]

/-- A group that runs no region again has nothing left to free (R328). -/
theorem freeLate_plain {s : State} {g : Group} (hg : s.group? g.gid = some g) (hr : g.rerun = none) : s.freeLate g.gid = s := by simp [State.freeLate, hg, hr]

/-- A command that no line gates queues nowhere (R271). -/
@[simp] theorem queueGates_nil (s : State) (core : Nat) (w : SlWaiter) : s.queueGates core [] w = s := rfl

/-- Without queues a halt and a resume write no STATE (R357, R386). -/
theorem queuesHalt_nil {s : State} {p : Nat} (h : (s.part p).queues = []) : s.queuesHalt p = .ok s := by simp [State.queuesHalt, h]; rfl
@[inherit_doc queuesHalt_nil]
theorem queuesRun_nil {s : State} {p : Nat} (h : (s.part p).queues = []) : s.queuesRun p = .ok s := by simp [State.queuesRun, h]; rfl

end Sys2Proof.Machine
end

