-- ==== Sys2Proof/Tests/Slice0.lean ====
section
/-! SUPPORT. Tests: words written from the spec's layouts decode to their instructions, ill-formed terms are refused, the spec's worked values come out, and each statement's hypotheses are met by a state. -/

namespace Sys2Proof.Tests

-- a thread for each theorem would need more memory than the check allows
set_option Elab.async false

open Sys2Proof Sys2Proof.Machine Sys2Proof.Claims

/-- A word decodes to an instruction. -/
def reads (x : Dword × Instr) : Bool := match decodeWord x.1 with | .ok i => i == x.2 | .error _ => false

/-- Words written from the layouts of R138 and R140 and the opcodes of R150, piece 1. -/
def words1 : List (Dword × Instr) :=
  [(0x00400000FFFFFFE0, .bra ⟨⟨.native, 0, false, 0, 0⟩, 0x7ffffff, 0⟩),
   (0x00BC003FFF800000, .brx ⟨⟨.native, 7, true, 0, 63⟩, 0x1ff, 0, 0, 0, 0, 0⟩),
   (0x00C07E00000000A0, .call ⟨⟨.native, 0, false, 63, 0⟩, 5, 0⟩),
   (0x010001FE00000000, .ret ⟨⟨.native, 0, false, 0, 510⟩, 0, 0, 0, 0, 0, 0⟩),
   (0x0140000000000000, .join ⟨⟨.native, 0, false, 0, 0⟩, 0, 0, 0, 0, 0, 0⟩),
   (0x0140000080000001, .joinLabel ⟨⟨.native, 0, false, 0, 0⟩, 0x4000000, 1⟩),
   (0x0198000000000000, .exit ⟨⟨.native, 3, false, 0, 0⟩, 0, 0, 0, 0, 0, 0⟩),
   (0x01C0000000000001, .yield ⟨⟨.native, 0, false, 0, 0⟩, 0, 0, 0, 0, 0, 1⟩),
   (0x02000000FFFFC000, .trap ⟨⟨.native, 0, false, 0, 0⟩, 0x3ffff, 0, 0, 0, 0⟩),
   (0x0240000080004000, .sleep ⟨⟨.native, 0, false, 0, 0⟩, 0x20001, 0, 0, 0, 0⟩),
   (0x03C0000000000000, .nop ⟨⟨.native, 0, false, 0, 0⟩, 0, 0, 0, 0, 0, 0⟩),
   (0x04000004029444A6, .cmp ⟨⟨.native, 0, false, 0, 4⟩, 5, 1, 2, 1, 0, 4, 2, 0x26⟩),
   (0x04400E0602800002, .pand ⟨⟨.native, 0, false, 7, 6⟩, 5, 0, 0, 0, 0, 2⟩),
   (0x04800E0602800002, .por ⟨⟨.native, 0, false, 7, 6⟩, 5, 0, 0, 0, 0, 2⟩),
   (0x04C0020700000000, .pnot ⟨⟨.native, 0, false, 1, 7⟩, 0, 0, 0, 0, 0, 0⟩),
   (0x05007E0500000001, .pmov ⟨⟨.native, 0, false, 63, 5⟩, 0, 0, 0, 0, 0, 1⟩),
   (0x05407C0300000007, .vote ⟨⟨.native, 0, false, 62, 3⟩, 0, 0, 0, 0, 0, 7⟩),
   (0x0803FF0000800038, .iadd ⟨⟨.native, 0, false, 511, 256⟩, 1, 0, 0, 0, 0, 0x38⟩),
   (0x4840060402800011, .isub ⟨⟨.quick, 0, false, 3, 4⟩, 5, 0, 0, 0, 0, 0x11⟩),
   (0x4880060402800698, .imul ⟨⟨.quick, 0, false, 3, 4⟩, 5, 0, 0, 6, 2, 0x18⟩),
   (0x88C0020201FFC148, .imad ⟨⟨.generic, 0, false, 1, 2⟩, 3, 0x1ff, 0, 1, 1, 8⟩),
   (0x0903FC0704008090, .imadw ⟨⟨.native, 0, false, 510, 7⟩, 8, 2, 0, 0, 2, 0x10⟩),
   (0x0940120803800020, .min ⟨⟨.native, 0, false, 9, 8⟩, 7, 0, 0, 0, 0, 0x20⟩),
   (0x4980120803800031, .max ⟨⟨.quick, 0, false, 9, 8⟩, 7, 0, 0, 0, 0, 0x31⟩),
   (0x09C0020201800000, .and ⟨⟨.native, 0, false, 1, 2⟩, 3, 0, 0, 0, 0, 0⟩),
   (0x09C0020201800001, .or ⟨⟨.native, 0, false, 1, 2⟩, 3, 0, 0, 0, 0, 1⟩),
   (0x09C0020201800002, .xor ⟨⟨.native, 0, false, 1, 2⟩, 3, 0, 0, 0, 0, 2⟩),
   (0x09C0020200000003, .not ⟨⟨.native, 0, false, 1, 2⟩, 0, 0, 0, 0, 0, 3⟩),
   (0x0A00020001802000, .shl ⟨⟨.native, 0, false, 1, 0⟩, 3, 0, 4, 0, 0, 0⟩),
   (0x0A00020200001001, .shr ⟨⟨.native, 0, false, 1, 2⟩, 0, 0, 2, 0, 0, 1⟩),
   (0x0A00020201800002, .sar ⟨⟨.native, 0, false, 1, 2⟩, 3, 0, 0, 0, 0, 2⟩),
   (0x0A43212C00000000, .clz ⟨⟨.native, 0, false, 400, 300⟩, 0, 0, 0, 0, 0, 0⟩),
   (0x0A83212C00000000, .popc ⟨⟨.native, 0, false, 400, 300⟩, 0, 0, 0, 0, 0, 0⟩),
   (0x0AC0020201800001, .bfe ⟨⟨.native, 0, false, 1, 2⟩, 3, 0, 0, 0, 0, 1⟩),
   (0x0B00020201810000, .bfi ⟨⟨.native, 0, false, 1, 2⟩, 3, 4, 0, 0, 0, 0⟩),
   (0x0B4002020181C000, .sel ⟨⟨.native, 0, false, 1, 2⟩, 3, 7, 0, 0, 0, 0⟩),
   (0x0B80023F00000002, .mov ⟨⟨.native, 0, false, 1, 63⟩, 0, 0, 0, 0, 0, 2⟩),
   (0x0BC0021F0100001F, .lea ⟨⟨.native, 0, false, 1, 31⟩, 2, 0, 0, 0, 0, 0x1f⟩),
   (0x0F00020280000001, .leaImm ⟨⟨.native, 0, false, 1, 2⟩, 0x20000, 0, 0, 0, 1⟩),
   (0x0C000C003FC0000A, .movi ⟨⟨.native, 0, false, 6, 0⟩, 0x1fe0000, 0xa⟩)]

theorem test_words1 : words1.all reads = true := by decide +kernel

/-- Words written from the layouts of R138 and R140 and the opcodes of R150, piece 2. -/
def words2 : List (Dword × Instr) :=
  [(0x0C401401F8000400, .movr ⟨⟨.native, 0, false, 10, 1⟩, 0x1f0, 0, 0, 4, 0, 0⟩),
   (0x0C800E0280800400, .movw ⟨⟨.native, 0, false, 7, 2⟩, 0x101, 0, 0, 4, 0, 0⟩),
   (0x0CC00FFFFFFFC040, .xset ⟨⟨.native, 0, false, 7, 511⟩, 0x3ffff, 0, 0, 1, 0⟩),
   (0x0D00020200010003, .xadd ⟨⟨.native, 0, false, 1, 2⟩, 4, 0, 0, 0, 3⟩),
   (0x0D400FF400000001, .xmov ⟨⟨.native, 0, false, 7, 500⟩, 0, 0, 0, 0, 0, 1⟩),
   (0x0D80020280000018, .iaddImm ⟨⟨.native, 0, false, 1, 2⟩, 0x20000, 0, 0, 0, 0x18⟩),
   (0x4DC002020000C001, .imulImm ⟨⟨.quick, 0, false, 1, 2⟩, 3, 0, 0, 0, 1⟩),
   (0x0E000202003FC000, .andImm ⟨⟨.native, 0, false, 1, 2⟩, 0xff, 0, 0, 0, 0⟩),
   (0x0E000202003FC001, .orImm ⟨⟨.native, 0, false, 1, 2⟩, 0xff, 0, 0, 0, 1⟩),
   (0x0E000202FFFFC002, .xorImm ⟨⟨.native, 0, false, 1, 2⟩, 0x3ffff, 0, 0, 0, 2⟩),
   (0x0E400202003FC000, .shlImm ⟨⟨.native, 0, false, 1, 2⟩, 0xff, 0, 0, 0, 0⟩),
   (0x0E4002020007C001, .shrImm ⟨⟨.native, 0, false, 1, 2⟩, 0x1f, 0, 0, 0, 1⟩),
   (0x0E40020200080002, .sarImm ⟨⟨.native, 0, false, 1, 2⟩, 0x20, 0, 0, 0, 2⟩),
   (0x0E8002027FFFC010, .minImm ⟨⟨.native, 0, false, 1, 2⟩, 0x1ffff, 0, 0, 0, 0x10⟩),
   (0x0EC002027FFFC010, .maxImm ⟨⟨.native, 0, false, 1, 2⟩, 0x1ffff, 0, 0, 0, 0x10⟩),
   (0x10007E3E00800000, .sadd ⟨⟨.native, 0, false, 63, 62⟩, 1, 0, 0, 0, 0, 0⟩),
   (0x10407E3E00800000, .ssub ⟨⟨.native, 0, false, 63, 62⟩, 1, 0, 0, 0, 0, 0⟩),
   (0x10807E3E00800000, .smul ⟨⟨.native, 0, false, 63, 62⟩, 1, 0, 0, 0, 0, 0⟩),
   (0x10C00202018FC000, .smad ⟨⟨.native, 0, false, 1, 2⟩, 3, 0x3f, 0, 0, 0, 0⟩),
   (0x1100020201800001, .smin ⟨⟨.native, 0, false, 1, 2⟩, 3, 0, 0, 0, 0, 1⟩),
   (0x1140020201800001, .smax ⟨⟨.native, 0, false, 1, 2⟩, 3, 0, 0, 0, 0, 1⟩),
   (0x1180020201800000, .sand ⟨⟨.native, 0, false, 1, 2⟩, 3, 0, 0, 0, 0, 0⟩),
   (0x1180020201800001, .sor ⟨⟨.native, 0, false, 1, 2⟩, 3, 0, 0, 0, 0, 1⟩),
   (0x1180020201800002, .sxor ⟨⟨.native, 0, false, 1, 2⟩, 3, 0, 0, 0, 0, 2⟩),
   (0x1180020200000003, .snot ⟨⟨.native, 0, false, 1, 2⟩, 0, 0, 0, 0, 0, 3⟩),
   (0x11C0020201800000, .sshl ⟨⟨.native, 0, false, 1, 2⟩, 3, 0, 0, 0, 0, 0⟩),
   (0x11C0020201800001, .sshr ⟨⟨.native, 0, false, 1, 2⟩, 3, 0, 0, 0, 0, 1⟩),
   (0x11C0020201800002, .ssar ⟨⟨.native, 0, false, 1, 2⟩, 3, 0, 0, 0, 0, 2⟩),
   (0x1200023F00000000, .sclz ⟨⟨.native, 0, false, 1, 63⟩, 0, 0, 0, 0, 0, 0⟩),
   (0x1240023F00000000, .spopc ⟨⟨.native, 0, false, 1, 63⟩, 0, 0, 0, 0, 0, 0⟩),
   (0x1280020201800001, .sbfe ⟨⟨.native, 0, false, 1, 2⟩, 3, 0, 0, 0, 0, 1⟩),
   (0x12C0020201810000, .sbfi ⟨⟨.native, 0, false, 1, 2⟩, 3, 4, 0, 0, 0, 0⟩),
   (0x1300020201810000, .ssel ⟨⟨.native, 0, false, 1, 2⟩, 3, 4, 0, 0, 0, 0⟩),
   (0x134003FF00000001, .smov ⟨⟨.native, 0, false, 1, 511⟩, 0, 0, 0, 0, 0, 1⟩),
   (0x1380080000007F03, .smovi ⟨⟨.native, 0, false, 4, 0⟩, 0x3f8, 3⟩),
   (0x13C002020180000B, .scmp ⟨⟨.native, 0, false, 1, 2⟩, 3, 0, 0, 0, 0, 0xb⟩),
   (0x140006040280002E, .fadd ⟨⟨.native, 0, false, 3, 4⟩, 5, 0, 0, 0, 0, 0x2e⟩),
   (0x5440060402800011, .fsub ⟨⟨.quick, 0, false, 3, 4⟩, 5, 0, 0, 0, 0, 0x11⟩),
   (0x9480060402800608, .fmul ⟨⟨.generic, 0, false, 3, 4⟩, 5, 0, 0, 6, 0, 8⟩),
   (0x14D0140404030080, .ffma ⟨⟨.native, 2, false, 10, 4⟩, 8, 0xc, 0, 0, 2, 0⟩)]

theorem test_words2 : words2.all reads = true := by decide +kernel

/-- Words written from the layouts of R138 and R140 and the opcodes of R150, piece 3. -/
def words3 : List (Dword × Instr) :=
  [(0x1500060402800022, .fmin ⟨⟨.native, 0, false, 3, 4⟩, 5, 0, 0, 0, 0, 0x22⟩),
   (0x1540060402800022, .fmax ⟨⟨.native, 0, false, 3, 4⟩, 5, 0, 0, 0, 0, 0x22⟩),
   (0x158007FF0000000C, .frcp ⟨⟨.native, 0, false, 3, 511⟩, 0, 0, 0, 0, 0, 0xc⟩),
   (0x15C007FF0000000C, .frsq ⟨⟨.native, 0, false, 3, 511⟩, 0, 0, 0, 0, 0, 0xc⟩),
   (0x160007FF0000000C, .fsqrt ⟨⟨.native, 0, false, 3, 511⟩, 0, 0, 0, 0, 0, 0xc⟩),
   (0x164007FF0000000C, .fexp2 ⟨⟨.native, 0, false, 3, 511⟩, 0, 0, 0, 0, 0, 0xc⟩),
   (0x168007FF0000000C, .flog2 ⟨⟨.native, 0, false, 3, 511⟩, 0, 0, 0, 0, 0, 0xc⟩),
   (0x16C007FF0000000C, .fsin ⟨⟨.native, 0, false, 3, 511⟩, 0, 0, 0, 0, 0, 0xc⟩),
   (0x170007FF0000000C, .fcos ⟨⟨.native, 0, false, 3, 511⟩, 0, 0, 0, 0, 0, 0xc⟩),
   (0x18000E073F00000C, .faddImm ⟨⟨.native, 0, false, 7, 7⟩, 0xfc00, 0, 0, 0, 0xc⟩),
   (0x18400E073F00000C, .fmulImm ⟨⟨.native, 0, false, 7, 7⟩, 0xfc00, 0, 0, 0, 0xc⟩),
   (0x18800E0780000002, .fminImm ⟨⟨.native, 0, false, 7, 7⟩, 0x20000, 0, 0, 0, 2⟩),
   (0x18C00E0780000002, .fmaxImm ⟨⟨.native, 0, false, 7, 7⟩, 0x20000, 0, 0, 0, 2⟩),
   (0x1C0002020180003F, .hadd2 ⟨⟨.native, 0, false, 1, 2⟩, 3, 0, 0, 0, 0, 0x3f⟩),
   (0x1C4002020180003F, .hmul2 ⟨⟨.native, 0, false, 1, 2⟩, 3, 0, 0, 0, 0, 0x3f⟩),
   (0x1C80800201880065, .hfma2 ⟨⟨.native, 0, false, 64, 2⟩, 3, 0x20, 0, 0, 1, 0x25⟩),
   (0x1CC00C0402B00010, .cvt ⟨⟨.native, 0, false, 6, 4⟩, 5, 0xc0, 0, 0, 0, 0x10⟩),
   (0x2000020200000003, .qswap ⟨⟨.native, 0, false, 1, 2⟩, 0, 0, 0, 0, 0, 3⟩),
   (0x2040020200000000, .qbcast ⟨⟨.native, 0, false, 1, 2⟩, 0, 0, 0, 0, 0, 0⟩),
   (0x2080020200000012, .qred ⟨⟨.native, 0, false, 1, 2⟩, 0, 0, 0, 0, 0, 0x12⟩),
   (0x20C0020201800017, .shfl ⟨⟨.native, 0, false, 1, 2⟩, 3, 0, 0, 0, 0, 0x17⟩),
   (0x210002020001C000, .xpair ⟨⟨.native, 0, false, 1, 2⟩, 7, 0, 0, 0, 0⟩),
   (0x2140160A003FC000, .xshuf ⟨⟨.native, 0, false, 11, 10⟩, 0xff, 0, 0, 0, 0⟩),
   (0x2400060680004000, .ldB8 ⟨⟨.native, 0, false, 3, 6⟩, 0x800, 0, 1, 0, 0, 0, 0⟩),
   (0x2440060500000026, .ldS8 ⟨⟨.native, 0, false, 3, 5⟩, 0, 0, 0, 0, 0, 0, 0x26⟩),
   (0x2480060680004000, .ldB16 ⟨⟨.native, 0, false, 3, 6⟩, 0x800, 0, 1, 0, 0, 0, 0⟩),
   (0x24C0060680004000, .ldS16 ⟨⟨.native, 0, false, 3, 6⟩, 0x800, 0, 1, 0, 0, 0, 0⟩),
   (0x2500283F04054026, .ld ⟨⟨.native, 0, false, 20, 63⟩, 0x40, 2, 5, 0, 0, 0, 0x26⟩),
   (0x6543FC067FF00011, .ldB64 ⟨⟨.quick, 0, false, 510, 6⟩, 0x7ff, 0, 0, 0, 0, 0, 0x11⟩),
   (0xA583F80200100002, .ldB128 ⟨⟨.generic, 0, false, 508, 2⟩, 1, 0, 0, 0, 0, 0, 2⟩),
   (0x2600000604C01000, .stB8 ⟨⟨.native, 0, false, 0, 6⟩, 9, 0x100, 2, 0, 0, 0⟩),
   (0x2640000604C01000, .stB16 ⟨⟨.native, 0, false, 0, 6⟩, 9, 0x100, 2, 0, 0, 0⟩),
   (0x2680000604C01000, .st ⟨⟨.native, 0, false, 0, 6⟩, 9, 0x100, 2, 0, 0, 0⟩),
   (0x66C00006FF040011, .stB64 ⟨⟨.quick, 0, false, 0, 6⟩, 0x1fe, 0x10, 0, 0, 0, 0x11⟩),
   (0xA7000006FE040000, .stB128 ⟨⟨.generic, 0, false, 0, 6⟩, 0x1fc, 0x10, 0, 0, 0, 0⟩),
   (0x2800040704FFC002, .ald ⟨⟨.native, 0, false, 2, 7⟩, 9, 0x1ff, 0, 0, 0, 2⟩),
   (0x2840040704FFC002, .ast ⟨⟨.native, 0, false, 2, 7⟩, 9, 0x1ff, 0, 0, 0, 2⟩),
   (0x2880000608000002, .pf ⟨⟨.native, 0, false, 0, 6⟩, 0x80, 0, 0, 0, 0, 0, 2⟩),
   (0x28C0000000000001, .seal ⟨⟨.native, 0, false, 0, 0⟩, 0, 0, 0, 0, 0, 1⟩),
   (0x2900000500000003, .waitc ⟨⟨.native, 0, false, 0, 5⟩, 0, 0, 0, 0, 0, 3⟩)]

theorem test_words3 : words3.all reads = true := by decide +kernel

/-- Words written from the layouts of R138 and R140 and the opcodes of R150, piece 4. -/
def words4 : List (Dword × Instr) :=
  [(0x2C00060604821830, .atom ⟨⟨.native, 0, false, 3, 6⟩, 9, 8, 3, 0, 0, 0x30⟩),
   (0x2C4008060402A811, .cas ⟨⟨.native, 0, false, 4, 6⟩, 8, 0xa, 5, 0, 0, 0x11⟩),
   (0x2C80000604800000, .red ⟨⟨.native, 0, false, 0, 6⟩, 9, 0, 0, 0, 0, 0⟩),
   (0x2CC0020202000004, .wpush ⟨⟨.native, 0, false, 1, 2⟩, 4, 0, 0, 0, 0, 4⟩),
   (0x2D00040400000818, .wpop ⟨⟨.native, 0, false, 2, 4⟩, 0, 0, 1, 0, 0, 0x18⟩),
   (0x2D40060202800027, .cis ⟨⟨.native, 0, false, 3, 2⟩, 5, 0, 0, 0, 0, 0x27⟩),
   (0x3000000000000003, .fence ⟨⟨.native, 0, false, 0, 0⟩, 0, 0, 0, 0, 0, 3⟩),
   (0x304000000003C000, .bar ⟨⟨.native, 0, false, 0, 0⟩, 0xf, 0, 0, 0, 0⟩),
   (0x3080180D07022001, .tbar ⟨⟨.native, 0, false, 12, 13⟩, 0xe, 8, 4, 0, 0, 1⟩),
   (0x30C002020181102E, .mwait ⟨⟨.native, 0, false, 1, 2⟩, 3, 4, 2, 0, 0, 0x2e⟩),
   (0x310002020181000D, .waitm ⟨⟨.native, 0, false, 1, 2⟩, 3, 4, 0, 0, 0, 0xd⟩),
   (0x3143FC0000000000, .getm ⟨⟨.native, 0, false, 510, 0⟩, 0, 0, 0, 0, 0, 0⟩),
   (0x31800200FFFFC000, .step ⟨⟨.native, 0, false, 1, 0⟩, 0x3ffff, 0, 0, 0, 0⟩),
   (0x3400020200000000, .gangset ⟨⟨.native, 0, false, 1, 2⟩, 0, 0, 0, 0, 0, 0⟩),
   (0x3440000000000000, .opfence ⟨⟨.native, 0, false, 0, 0⟩, 0, 0, 0, 0, 0, 0⟩),
   (0x34801E2818000000, .mma ⟨⟨.native, 0, false, 15, 40⟩, 0x30, 0, 0, 0, 0, 0⟩),
   (0x34C0000000000001, .mmwait ⟨⟨.native, 0, false, 0, 0⟩, 0, 0, 0, 0, 0, 1⟩),
   (0x3500060101000010, .tld ⟨⟨.native, 0, false, 3, 1⟩, 2, 0, 0, 0, 0, 0x10⟩),
   (0x3540060101000010, .tst ⟨⟨.native, 0, false, 3, 1⟩, 2, 0, 0, 0, 0, 0x10⟩),
   (0x35801E0000000000, .tzero ⟨⟨.native, 0, false, 15, 0⟩, 0, 0, 0, 0, 0, 0⟩),
   (0x380000010100C000, .trav ⟨⟨.native, 0, false, 0, 1⟩, 2, 3, 0, 0, 0, 0⟩),
   (0x3840000000000000, .rcfence ⟨⟨.native, 0, false, 0, 0⟩, 0, 0, 0, 0, 0, 0⟩),
   (0x3880000101000018, .xchain ⟨⟨.native, 0, false, 0, 1⟩, 2, 0, 0, 0, 0, 0x18⟩),
   (0x38C0003F00000000, .qsub ⟨⟨.native, 0, false, 0, 63⟩, 0, 0, 0, 0, 0, 0⟩),
   (0x390002020003C000, .slset ⟨⟨.native, 0, false, 1, 2⟩, 0xf, 0, 0, 0, 0⟩),
   (0x394000000003C000, .slpulse ⟨⟨.native, 0, false, 0, 0⟩, 0xf, 0, 0, 0, 0⟩),
   (0x398000000003C000, .slwait ⟨⟨.native, 0, false, 0, 0⟩, 0xf, 0, 0, 0, 0⟩),
   (0x3C000800000AC000, .getsr ⟨⟨.native, 0, false, 4, 0⟩, 0x2b, 0, 0, 0, 0⟩),
   (0x3C40000100050000, .setsr ⟨⟨.native, 0, false, 0, 1⟩, 0x14, 0, 0, 0, 0⟩),
   (0x3C8002000000C000, .rolesw ⟨⟨.native, 0, false, 1, 0⟩, 3, 0, 0, 0, 0⟩),
   (0x3CC0020200000000, .sitearm ⟨⟨.native, 0, false, 1, 2⟩, 0, 0, 0, 0, 0, 0⟩),
   (0x3D00000080014000, .bkpt ⟨⟨.native, 0, false, 0, 0⟩, 0x20005, 0, 0, 0, 0⟩),
   (0x3D4002020181003F, .dbgmb ⟨⟨.native, 0, false, 1, 2⟩, 3, 4, 0, 0, 0, 0x3f⟩),
   (0x3D80020201800002, .haltg ⟨⟨.native, 0, false, 1, 2⟩, 3, 0, 0, 0, 0, 2⟩),
   (0x3DC0020201800000, .stepg ⟨⟨.native, 0, false, 1, 2⟩, 3, 0, 0, 0, 0, 0⟩),
   (0x3E00020201800003, .watchset ⟨⟨.native, 0, false, 1, 2⟩, 3, 0, 0, 0, 0, 3⟩),
   (0x3E40000000000001, .eret ⟨⟨.native, 0, false, 0, 0⟩, 0, 0, 0, 0, 0, 1⟩),
   (0x3E80020608000000, .cwb ⟨⟨.native, 0, false, 1, 6⟩, 0x80, 0, 0, 0, 0, 0, 0⟩),
   (0x3EC0020608000000, .cinv ⟨⟨.native, 0, false, 1, 6⟩, 0x80, 0, 0, 0, 0, 0, 0⟩)]

theorem test_words4 : words4.all reads = true := by decide +kernel

/-- Ill-formed: unused fields must be zero (R6, R140, R141). -/
def illFormed1 : List Instr :=
  [.bra ⟨⟨.native, 0, false, 1, 0⟩, 0x7ffffff, 0⟩,
   .bra ⟨⟨.native, 0, false, 0, 1⟩, 0x7ffffff, 0⟩,
   .bra ⟨⟨.native, 0, false, 0, 0⟩, 0x7ffffff, 1⟩,
   .brx ⟨⟨.native, 7, true, 0, 63⟩, 0x1ff, 0, 0, 0, 0, 1⟩,
   .brx ⟨⟨.native, 7, true, 0, 63⟩, 0x1ff, 1, 0, 0, 0, 0⟩,
   .call ⟨⟨.native, 0, false, 63, 0⟩, 5, 2⟩,
   .call ⟨⟨.native, 0, false, 63, 1⟩, 5, 0⟩,
   .ret ⟨⟨.native, 0, false, 0, 510⟩, 1, 0, 0, 0, 0, 0⟩,
   .join ⟨⟨.native, 0, false, 0, 0⟩, 0, 0, 0, 0, 0, 1⟩,
   .exit ⟨⟨.native, 3, false, 1, 0⟩, 0, 0, 0, 0, 0, 0⟩,
   .trap ⟨⟨.native, 0, false, 0, 0⟩, 0x3ffff, 0, 0, 0, 1⟩,
   .sleep ⟨⟨.native, 0, false, 0, 1⟩, 0x20001, 0, 0, 0, 0⟩,
   .nop ⟨⟨.native, 0, false, 0, 0⟩, 0, 1, 0, 0, 0, 0⟩,
   .cmp ⟨⟨.native, 0, false, 1, 4⟩, 5, 1, 2, 1, 0, 4, 2, 0x26⟩,
   .pnot ⟨⟨.native, 0, false, 1, 7⟩, 1, 0, 0, 0, 0, 0⟩,
   .not ⟨⟨.native, 0, false, 1, 2⟩, 1, 0, 0, 0, 0, 3⟩,
   .clz ⟨⟨.native, 0, false, 400, 300⟩, 0, 0, 0, 0, 0, 1⟩,
   .getm ⟨⟨.native, 0, false, 510, 1⟩, 0, 0, 0, 0, 0, 0⟩,
   .seal ⟨⟨.native, 0, false, 1, 0⟩, 0, 0, 0, 0, 0, 1⟩,
   .snot ⟨⟨.native, 0, false, 1, 2⟩, 1, 0, 0, 0, 0, 3⟩,
   .rcfence ⟨⟨.native, 0, false, 0, 1⟩, 0, 0, 0, 0, 0, 0⟩,
   .qsub ⟨⟨.native, 0, false, 0, 63⟩, 0, 1, 0, 0, 0, 0⟩,
   .eret ⟨⟨.native, 0, false, 1, 0⟩, 0, 0, 0, 0, 0, 1⟩,
   .opfence ⟨⟨.native, 0, false, 0, 0⟩, 0, 0, 0, 0, 1, 0⟩,
   .bkpt ⟨⟨.native, 0, false, 0, 0⟩, 0x20005, 0, 0, 0, 1⟩,
   .setsr ⟨⟨.native, 0, false, 1, 1⟩, 0x14, 0, 0, 0, 0⟩,
   .trav ⟨⟨.native, 0, false, 1, 1⟩, 2, 3, 0, 0, 0, 0⟩,
   .shlImm ⟨⟨.native, 0, false, 1, 2⟩, 0x100, 0, 0, 0, 0⟩,
   .xshuf ⟨⟨.native, 0, false, 11, 10⟩, 0x100, 0, 0, 0, 0⟩,
   .bar ⟨⟨.native, 0, false, 0, 0⟩, 0x10, 0, 0, 0, 0⟩,
   .slwait ⟨⟨.native, 0, false, 0, 0⟩, 0x10, 0, 0, 0, 0⟩,
   .rolesw ⟨⟨.native, 0, false, 1, 0⟩, 4, 0, 0, 0, 0⟩,
   .pf ⟨⟨.native, 0, false, 0, 6⟩, 0x80, 1, 0, 0, 0, 0, 2⟩,
   .pf ⟨⟨.native, 0, false, 0, 6⟩, 0x80, 0, 1, 0, 0, 0, 2⟩,
   .ld ⟨⟨.native, 0, false, 20, 63⟩, 0x40, 2, 5, 1, 0, 0, 0x26⟩,
   .step ⟨⟨.native, 0, false, 1, 0⟩, 0x3ffff, 0, 0, 0, 1⟩]

theorem test_illFormed1 : ∀ i ∈ illFormed1, i.wellFormed = false := by decide +kernel

/-- Ill-formed: registers outside their class (R141). -/
def illFormed2 : List Instr :=
  [.brx ⟨⟨.native, 7, true, 0, 64⟩, 0x1ff, 0, 0, 0, 0, 0⟩,
   .call ⟨⟨.native, 0, false, 64, 0⟩, 5, 0⟩,
   .call ⟨⟨.native, 0, false, 1, 0⟩, 5, 1⟩,
   .ret ⟨⟨.native, 0, false, 0, 509⟩, 0, 0, 0, 0, 0, 0⟩,
   .pand ⟨⟨.native, 0, false, 8, 6⟩, 5, 0, 0, 0, 0, 2⟩,
   .pmov ⟨⟨.native, 0, false, 63, 8⟩, 0, 0, 0, 0, 0, 1⟩,
   .sadd ⟨⟨.native, 0, false, 63, 62⟩, 0x40, 0, 0, 0, 0, 0⟩,
   .xadd ⟨⟨.native, 0, false, 8, 2⟩, 4, 0, 0, 0, 3⟩,
   .movr ⟨⟨.native, 0, false, 10, 8⟩, 0x1f0, 0, 0, 4, 0, 0⟩,
   .imadw ⟨⟨.native, 0, false, 511, 7⟩, 8, 2, 0, 0, 2, 0x10⟩,
   .sel ⟨⟨.native, 0, false, 1, 2⟩, 3, 8, 0, 0, 0, 0⟩,
   .ldB64 ⟨⟨.quick, 0, false, 511, 6⟩, 0x7ff, 0, 0, 0, 0, 0, 0x11⟩,
   .ldB128 ⟨⟨.generic, 0, false, 510, 2⟩, 1, 0, 0, 0, 0, 0, 2⟩,
   .stB128 ⟨⟨.generic, 0, false, 0, 6⟩, 0x1fe, 0x10, 0, 0, 0, 0⟩,
   .ldB8 ⟨⟨.native, 0, false, 3, 7⟩, 0x800, 0, 1, 0, 0, 0, 0⟩,
   .mma ⟨⟨.native, 0, false, 16, 40⟩, 0x30, 0, 0, 0, 0, 0⟩,
   .mma ⟨⟨.native, 0, false, 15, 41⟩, 0x30, 0, 0, 0, 0, 0⟩,
   .tzero ⟨⟨.native, 0, false, 16, 0⟩, 0, 0, 0, 0, 0, 0⟩,
   .getm ⟨⟨.native, 0, false, 1, 0⟩, 0, 0, 0, 0, 0, 0⟩,
   .wpop ⟨⟨.native, 0, false, 2, 4⟩, 1, 0, 1, 0, 0, 0x18⟩,
   .tbar ⟨⟨.native, 0, false, 64, 13⟩, 0xe, 8, 4, 0, 0, 1⟩,
   .watchset ⟨⟨.native, 0, false, 1, 2⟩, 0x40, 0, 0, 0, 0, 3⟩]

theorem test_illFormed2 : ∀ i ∈ illFormed2, i.wellFormed = false := by decide +kernel

/-- Ill-formed: Z, E and K name only vector sources, Z a zero field, and not two of them (R142). -/
def illFormed3 : List Instr :=
  [.fadd ⟨⟨.native, 0, false, 3, 4⟩, 5, 0, 4, 0, 0, 0x2e⟩,
   .fadd ⟨⟨.native, 0, false, 3, 0⟩, 5, 0, 4, 4, 0, 0x2e⟩,
   .sadd ⟨⟨.native, 0, false, 63, 0⟩, 1, 0, 4, 0, 0, 0⟩,
   .clz ⟨⟨.native, 0, false, 400, 300⟩, 0, 0, 0, 2, 0, 0⟩,
   .iadd ⟨⟨.native, 0, false, 511, 256⟩, 1, 0, 0, 0, 3, 0x38⟩,
   .andImm ⟨⟨.native, 0, false, 1, 2⟩, 0xff, 1, 0, 0, 0⟩,
   .andImm ⟨⟨.native, 0, false, 1, 2⟩, 0xff, 0, 0, 2, 0⟩,
   .cmp ⟨⟨.native, 0, false, 0, 4⟩, 5, 1, 2, 1, 0, 4, 3, 0x26⟩,
   .ldB8 ⟨⟨.native, 0, false, 3, 6⟩, 0x800, 0, 1, 0, 1, 0, 0⟩,
   .st ⟨⟨.native, 0, false, 0, 6⟩, 9, 0x100, 2, 0, 3, 0⟩,
   .atom ⟨⟨.native, 0, false, 3, 6⟩, 9, 8, 3, 1, 0, 0x30⟩]

theorem test_illFormed3 : ∀ i ∈ illFormed3, i.wellFormed = false := by decide +kernel

/-- Ill-formed: a form the opcode does not have (R139, R151). -/
def illFormed4 : List Instr :=
  [.bra ⟨⟨.quick, 0, false, 0, 0⟩, 0x7ffffff, 0⟩,
   .pand ⟨⟨.quick, 0, false, 7, 6⟩, 5, 0, 0, 0, 0, 2⟩,
   .and ⟨⟨.quick, 0, false, 1, 2⟩, 3, 0, 0, 0, 0, 0⟩,
   .sadd ⟨⟨.quick, 0, false, 63, 62⟩, 1, 0, 0, 0, 0, 0⟩,
   .faddImm ⟨⟨.quick, 0, false, 7, 7⟩, 0xfc00, 0, 0, 0, 0xc⟩,
   .hadd2 ⟨⟨.quick, 0, false, 1, 2⟩, 3, 0, 0, 0, 0, 0x3f⟩,
   .qswap ⟨⟨.quick, 0, false, 1, 2⟩, 0, 0, 0, 0, 0, 3⟩,
   .shfl ⟨⟨.quick, 0, false, 1, 2⟩, 3, 0, 0, 0, 0, 0x17⟩,
   .xpair ⟨⟨.quick, 0, false, 1, 2⟩, 7, 0, 0, 0, 0⟩,
   .ald ⟨⟨.quick, 0, false, 2, 7⟩, 9, 0x1ff, 0, 0, 0, 2⟩,
   .seal ⟨⟨.quick, 0, false, 0, 0⟩, 0, 0, 0, 0, 0, 1⟩,
   .atom ⟨⟨.quick, 0, false, 3, 6⟩, 9, 8, 3, 0, 0, 0x30⟩,
   .cas ⟨⟨.quick, 0, false, 4, 6⟩, 8, 0xa, 5, 0, 0, 0x11⟩,
   .fence ⟨⟨.quick, 0, false, 0, 0⟩, 0, 0, 0, 0, 0, 3⟩,
   .tbar ⟨⟨.quick, 0, false, 12, 13⟩, 0xe, 8, 4, 0, 0, 1⟩,
   .gangset ⟨⟨.quick, 0, false, 1, 2⟩, 0, 0, 0, 0, 0, 0⟩,
   .mma ⟨⟨.quick, 0, false, 15, 40⟩, 0x30, 0, 0, 0, 0, 0⟩,
   .trav ⟨⟨.quick, 0, false, 0, 1⟩, 2, 3, 0, 0, 0, 0⟩,
   .getsr ⟨⟨.quick, 0, false, 4, 0⟩, 0x2b, 0, 0, 0, 0⟩,
   .dbgmb ⟨⟨.quick, 0, false, 1, 2⟩, 3, 4, 0, 0, 0, 0x3f⟩,
   .movi ⟨⟨.quick, 0, false, 6, 0⟩, 0x1fe0000, 0xa⟩,
   .lea ⟨⟨.quick, 0, false, 1, 31⟩, 2, 0, 0, 0, 0, 0x1f⟩]

theorem test_illFormed4 : ∀ i ∈ illFormed4, i.wellFormed = false := by decide +kernel

/-- Ill-formed: words that take no guard (R159, R163, R165, R247). -/
def illFormed5 : List Instr :=
  [.join ⟨⟨.native, 1, false, 0, 0⟩, 0, 0, 0, 0, 0, 0⟩,
   .joinLabel ⟨⟨.native, 0, true, 0, 0⟩, 0x4000000, 1⟩,
   .yield ⟨⟨.native, 7, false, 0, 0⟩, 0, 0, 0, 0, 0, 1⟩,
   .sleep ⟨⟨.native, 1, false, 0, 0⟩, 0x20001, 0, 0, 0, 0⟩,
   .mma ⟨⟨.native, 1, false, 15, 40⟩, 0x30, 0, 0, 0, 0, 0⟩,
   .tld ⟨⟨.native, 2, false, 3, 1⟩, 2, 0, 0, 0, 0, 0x10⟩,
   .mmwait ⟨⟨.native, 1, false, 0, 0⟩, 0, 0, 0, 0, 0, 1⟩,
   .gangset ⟨⟨.native, 0, true, 1, 2⟩, 0, 0, 0, 0, 0, 0⟩,
   .rolesw ⟨⟨.native, 1, false, 1, 0⟩, 3, 0, 0, 0, 0⟩]

theorem test_illFormed5 : ∀ i ∈ illFormed5, i.wellFormed = false := by decide +kernel

/-- Ill-formed: ASSUME and UN of the three forms (R147, R148). -/
def illFormed6 : List Instr :=
  [.fadd ⟨⟨.native, 0, false, 3, 4⟩, 5, 0, 0, 0, 0, 0x30⟩,
   .fadd ⟨⟨.native, 0, false, 3, 4⟩, 5, 0, 0, 0, 0, 1⟩,
   .iadd ⟨⟨.native, 0, false, 511, 256⟩, 1, 0, 0, 0, 0, 0x31⟩,
   .imad ⟨⟨.generic, 0, false, 1, 2⟩, 3, 0x1ff, 0, 1, 1, 0x10⟩,
   .imad ⟨⟨.generic, 0, false, 1, 2⟩, 3, 0x1ff, 0, 1, 1, 1⟩,
   .iaddImm ⟨⟨.native, 0, false, 1, 2⟩, 0x20000, 0, 0, 0, 0x20⟩,
   .ldB128 ⟨⟨.generic, 0, false, 508, 2⟩, 1, 0, 0, 0, 0, 0, 0x10⟩,
   .ldB8 ⟨⟨.native, 0, false, 3, 6⟩, 0x800, 0, 1, 0, 0, 0, 0x30⟩,
   .stB64 ⟨⟨.quick, 0, false, 0, 6⟩, 0x1fe, 0x10, 0, 0, 0, 0x13⟩,
   .cmp ⟨⟨.native, 0, false, 0, 4⟩, 5, 1, 2, 1, 0, 4, 2, 0x30⟩,
   .imadw ⟨⟨.native, 0, false, 510, 7⟩, 8, 2, 0, 0, 2, 0x20⟩]

theorem test_illFormed6 : ∀ i ∈ illFormed6, i.wellFormed = false := by decide +kernel

/-- Ill-formed: reserved modifier values. -/
def illFormed7 : List Instr :=
  [.pmov ⟨⟨.native, 0, false, 63, 5⟩, 0, 0, 0, 0, 0, 4⟩,
   .vote ⟨⟨.native, 0, false, 62, 3⟩, 0, 0, 0, 0, 0, 3⟩,
   .iadd ⟨⟨.native, 0, false, 511, 256⟩, 1, 0, 0, 0, 0, 0x3a⟩,
   .min ⟨⟨.native, 0, false, 9, 8⟩, 7, 0, 0, 0, 0, 0x28⟩,
   .mov ⟨⟨.native, 0, false, 1, 63⟩, 0, 0, 0, 0, 0, 3⟩,
   .movi ⟨⟨.native, 0, false, 6, 0⟩, 0x1fe0000, 3⟩,
   .smovi ⟨⟨.native, 0, false, 4, 0⟩, 0x400, 3⟩,
   .smovi ⟨⟨.native, 0, false, 4, 0⟩, 0x3f8, 4⟩,
   .scmp ⟨⟨.native, 0, false, 1, 2⟩, 3, 0, 0, 0, 0, 0xc⟩,
   .fmin ⟨⟨.native, 0, false, 3, 4⟩, 5, 0, 0, 0, 0, 0x26⟩,
   .fminImm ⟨⟨.native, 0, false, 7, 7⟩, 0x20000, 0, 0, 0, 4⟩,
   .qswap ⟨⟨.native, 0, false, 1, 2⟩, 0, 0, 0, 0, 0, 0⟩,
   .qred ⟨⟨.native, 0, false, 1, 2⟩, 0, 0, 0, 0, 0, 8⟩,
   .qred ⟨⟨.native, 0, false, 1, 2⟩, 0, 0, 0, 0, 0, 0x13⟩,
   .shfl ⟨⟨.native, 0, false, 1, 2⟩, 3, 0, 0, 0, 0, 0x18⟩,
   .cvt ⟨⟨.native, 0, false, 6, 4⟩, 5, 0, 0, 0, 0, 0x10⟩,
   .cvt ⟨⟨.native, 0, false, 6, 4⟩, 5, 0x1c0, 0, 0, 0, 0x10⟩,
   .cvt ⟨⟨.native, 0, false, 6, 4⟩, 5, 0xc0, 0, 0, 0, 0x28⟩,
   .waitc ⟨⟨.native, 0, false, 0, 5⟩, 0, 0, 0, 0, 0, 4⟩,
   .xchain ⟨⟨.native, 0, false, 0, 1⟩, 2, 0, 0, 0, 0, 0x30⟩,
   .haltg ⟨⟨.native, 0, false, 1, 2⟩, 3, 0, 0, 0, 0, 3⟩,
   .watchset ⟨⟨.native, 0, false, 1, 2⟩, 3, 0, 0, 0, 0, 4⟩,
   .fence ⟨⟨.native, 0, false, 0, 0⟩, 0, 0, 0, 0, 0, 0⟩,
   .fence ⟨⟨.native, 0, false, 0, 0⟩, 0, 0, 0, 0, 0, 7⟩,
   .fence ⟨⟨.native, 0, false, 0, 0⟩, 0, 0, 0, 0, 0, 8⟩,
   .xmov ⟨⟨.native, 0, false, 7, 500⟩, 0, 0, 0, 0, 0, 5⟩,
   .lea ⟨⟨.native, 0, false, 1, 31⟩, 2, 0, 0, 0, 0, 0x20⟩,
   .bfe ⟨⟨.native, 0, false, 1, 2⟩, 3, 0, 0, 0, 0, 2⟩,
   .shl ⟨⟨.native, 0, false, 1, 0⟩, 3, 0, 4, 0, 0, 3⟩,
   .smin ⟨⟨.native, 0, false, 1, 2⟩, 3, 0, 0, 0, 0, 2⟩,
   .tbar ⟨⟨.native, 0, false, 12, 13⟩, 0xe, 8, 4, 0, 0, 3⟩,
   .mwait ⟨⟨.native, 0, false, 1, 2⟩, 3, 4, 2, 0, 0, 0x36⟩,
   .tld ⟨⟨.native, 0, false, 3, 1⟩, 2, 0, 0, 0, 0, 0x20⟩,
   .mmwait ⟨⟨.native, 0, false, 0, 0⟩, 0, 0, 0, 0, 0, 2⟩]

theorem test_illFormed7 : ∀ i ∈ illFormed7, i.wellFormed = false := by decide +kernel

/-- Ill-formed: rules of one instruction: CMP (R170, R172), orders and scopes (R95, R144), atomics (R225, R227), CIS (R234), weir (R231), copies (R220), hints (R145), selectors (R273), MMA (R250). -/
def illFormed8 : List Instr :=
  [.cmp ⟨⟨.native, 0, false, 0, 4⟩, 5, 1, 1, 1, 0, 4, 2, 0x26⟩,
   .cmp ⟨⟨.native, 0, false, 0, 4⟩, 5, 1, 2, 1, 0, 4, 2, 0xc⟩,
   .ldB8 ⟨⟨.native, 0, false, 3, 6⟩, 0x800, 0, 6, 0, 0, 0, 0⟩,
   .st ⟨⟨.native, 0, false, 0, 6⟩, 9, 0x100, 7, 0, 0, 0⟩,
   .atom ⟨⟨.native, 0, false, 3, 6⟩, 9, 8, 0, 0, 0, 0x30⟩,
   .atom ⟨⟨.native, 0, false, 3, 6⟩, 9, 8, 3, 0, 0, 0⟩,
   .atom ⟨⟨.native, 0, false, 3, 6⟩, 9, 8, 6, 0, 0, 0x30⟩,
   .cas ⟨⟨.native, 0, false, 4, 6⟩, 8, 0xa, 0, 0, 0, 0x11⟩,
   .atom ⟨⟨.native, 0, false, 3, 6⟩, 9, 9, 3, 0, 0, 0x30⟩,
   .atom ⟨⟨.native, 0, false, 3, 6⟩, 9, 0x120, 3, 0, 0, 0x30⟩,
   .atom ⟨⟨.native, 0, false, 3, 6⟩, 9, 0x68, 3, 0, 0, 0x30⟩,
   .red ⟨⟨.native, 0, false, 0, 6⟩, 9, 0x100, 0, 0, 0, 0⟩,
   .red ⟨⟨.native, 0, false, 1, 6⟩, 9, 0, 0, 0, 0, 0⟩,
   .red ⟨⟨.native, 0, false, 0, 6⟩, 9, 0, 0, 0, 0, 1⟩,
   .cis ⟨⟨.native, 0, false, 3, 2⟩, 5, 0, 4, 0, 0, 0x27⟩,
   .cis ⟨⟨.native, 0, false, 3, 2⟩, 5, 0, 0, 0, 0, 0x29⟩,
   .cis ⟨⟨.native, 0, false, 3, 2⟩, 5, 0, 1, 0, 0, 0x23⟩,
   .cis ⟨⟨.native, 0, false, 3, 2⟩, 5, 1, 0, 0, 0, 0x27⟩,
   .wpush ⟨⟨.native, 0, false, 1, 2⟩, 4, 0, 0, 0, 0, 0⟩,
   .wpush ⟨⟨.native, 0, false, 1, 2⟩, 4, 0, 1, 0, 0, 0x14⟩,
   .wpop ⟨⟨.native, 0, false, 2, 4⟩, 0, 0, 1, 0, 0, 0x28⟩,
   .wpush ⟨⟨.native, 0, false, 1, 2⟩, 4, 0, 0, 0, 0, 5⟩,
   .ald ⟨⟨.native, 0, false, 3, 7⟩, 9, 0x1ff, 0, 0, 0, 2⟩,
   .ald ⟨⟨.native, 0, false, 4, 7⟩, 9, 0x1ff, 0, 0, 0, 2⟩,
   .ald ⟨⟨.native, 0, false, 2, 7⟩, 9, 0x1ff, 1, 0, 0, 2⟩,
   .ldB8 ⟨⟨.native, 0, false, 3, 6⟩, 0x800, 0, 1, 0, 0, 0, 0x1c⟩,
   .getsr ⟨⟨.native, 0, false, 4, 0⟩, 0xd, 0, 0, 0, 0⟩,
   .getsr ⟨⟨.native, 0, false, 4, 0⟩, 0, 0, 0, 0, 0⟩,
   .getsr ⟨⟨.native, 0, false, 4, 0⟩, 0x400, 0, 0, 0, 0⟩,
   .setsr ⟨⟨.native, 0, false, 0, 1⟩, 0x17, 0, 0, 0, 0⟩,
   .tbar ⟨⟨.native, 0, false, 12, 13⟩, 0xe, 8, 6, 0, 0, 1⟩,
   .mwait ⟨⟨.native, 0, false, 1, 2⟩, 3, 4, 0, 0, 0, 0x2e⟩,
   .waitm ⟨⟨.native, 0, false, 1, 2⟩, 3, 4, 0, 0, 0, 2⟩,
   .waitm ⟨⟨.native, 0, false, 1, 2⟩, 3, 4, 0, 0, 0, 0x30⟩,
   .step ⟨⟨.native, 0, false, 1, 0⟩, 0x3ffff, 0, 0, 0, 2⟩,
   .mma ⟨⟨.native, 0, false, 15, 40⟩, 0x30, 0, 0, 0, 0, 0x31⟩,
   .mma ⟨⟨.native, 0, false, 15, 40⟩, 0x30, 8, 0, 0, 0, 0⟩,
   .cwb ⟨⟨.native, 0, false, 2, 6⟩, 0x80, 0, 0, 0, 0, 0, 0⟩,
   .cinv ⟨⟨.native, 0, false, 1, 6⟩, 0x80, 0, 1, 0, 0, 0, 0⟩,
   .ldB16 ⟨⟨.native, 0, false, 3, 6⟩, 0x800, 1, 1, 0, 0, 0, 0⟩]

theorem test_illFormed8 : ∀ i ∈ illFormed8, i.wellFormed = false := by decide +kernel

/-- R150, R151, R152, R157: words that are no instruction. -/
theorem test_illegal : ([0, 0x0280000000000000, 0xB840040000000000, 0xFFFFFFFFFFFFFFFF] : List Dword).all (fun w => match decodeWord w with | .ok _ => false | .error _ => true) = true := by decide +kernel

/-- The state of `withFetchWord` with a word at the PC of its one group, and its split selected (log 2). -/
def labWith (word : Nat) : State :=
  { State.reset.modPart 0 bootPart with
    cur := some (0, 0), nextId := 1, dev := { Dev.reset with freeGens := (List.range 62).map (· + 2) }, groups := [newGroup bootLaunch 0 0 0 0 0 0 0 true], blocks := [bootBlock], launches := [bootLaunch],
    dram := { bytes := [(65536, 1), (65538, 2), (131072, 1), (131074, 3), (196616, 31), (262144, 1), (262146, 5), (327680, 1), (327682, 6), (393216, 31)] ++
                ((leBytes 8 word).zipIdx.filter fun x => x.1 != 0).map fun x => (bootPa + x.2, x.1),
              gens := [512, 1024, 1536, 2048, 2560, 3072, 8192].map fun u => (u, 1), pois := [] } }
theorem labWith_boot : labWith 0x1122334455667788 = { State.reset.boot 0x1122334455667788 with cur := some (0, 0) } := by decide +kernel
@[inherit_doc labWith]
def lab : State := labWith 0x03C0000000000000
/-- Its group. -/
def labG : Group := newGroup bootLaunch 0 0 0 0 0 0 0 true
/-- The same with the group changed. -/
def labOf (g : Group) : State := { lab with groups := [g] }

/-- What makes split 0 of a group issue. -/
theorem issues_of (s : State) (g : Group) (h : s.cur = some (g.gid, 0) ∧ (entry g 0).state = .runnable ∧ stepping g = false ∧ g.hurt = [] ∧ g.rerun = none) (hg : s.group? g.gid = some g := by rfl) :
    Issues s g 0 := ⟨⟨h.1, hg, by decide, h.2.1, h.2.2.2.1, by rw [h.2.2.2.2]; rfl⟩, h.2.2.1⟩

/-- A look-up of places that meets no park, as the equation the statements ask for. -/
theorem resolved (x : State × List LaneAcc × Option ParkWhy) (h : x.2.2 = none) : x = (x.1, x.2.1, none) := by
  obtain ⟨a, b, c⟩ := x
  simp only at h
  rw [h]

/-- A row with a value per lane. -/
def rowOf (tag : Tag) (f : Nat → Word) : VRow := { lanes := lanesOf f, tag := tag, full := true, poison := false }

/-- A group with scalars s2 to s7, integer rows v4 and v5, floating rows v8 and v9, a global address pair v6, a scratch address pair v10 and a cistern address pair v12. -/
def gA : Group :=
  { labG with
    rows := [(4, rowOf .i32 fun l => BitVec.ofNat 32 (l + 1)), (5, rowOf .i32 fun _ => 0xFFFFFFFF), (6, rowOf .raw fun l => BitVec.ofNat 32 (0x40200000 + 64 * l)),
      (8, rowOf .f32 fun _ => 0x3F800000), (9, rowOf .f32 fun _ => 0x40000000), (10, rowOf .raw fun l => BitVec.ofNat 32 (16 * l)), (11, rowOf .raw fun _ => 0xFE000000),
      (12, rowOf .raw fun l => BitVec.ofNat 32 (4 * l)), (13, rowOf .raw fun _ => 0xFD000000)],
    s := Vector.ofFn fun i => ([0, 0, 0x40200000, 3, 0xFE00000000000000, 0xFD00000000000000, 0x40200100, 7] : List Dword).getD i.val 0 }
/-- The state with that group. -/
def sA : State := labOf gA

theorem lab_issues : Issues lab labG 0 := issues_of _ _ (by decide +kernel)
theorem sA_issues : Issues sA gA 0 := issues_of _ _ (by decide +kernel)

/-- Words of format RR, RI and the rest with the fields that most tests use. -/
def rr (d a b c : BitVec 9) (m : BitVec 6) : RR := ⟨⟨.native, 0, false, d, a⟩, b, c, 0, 0, 0, m⟩
@[inherit_doc rr]
def ri (d a : BitVec 9) (imm : BitVec 18) (m : BitVec 6) : RI := ⟨⟨.native, 0, false, d, a⟩, imm, 0, 0, 0, m⟩
@[inherit_doc rr]
def wi (d : BitVec 9) (imm : BitVec 27) (mw : BitVec 5) : WI := ⟨⟨.native, 0, false, d, 0⟩, imm, mw⟩
@[inherit_doc rr]
def ml (d a : BitVec 9) (ordsc : BitVec 3) (m : BitVec 6) : ML := ⟨⟨.native, 0, false, d, a⟩, 0, 0, ordsc, 0, 0, 0, m⟩
@[inherit_doc rr]
def ms (d a b : BitVec 9) (ordsc : BitVec 3) (m : BitVec 6) : MS := ⟨⟨.native, 0, false, d, a⟩, b, 0, ordsc, 0, 0, m⟩
@[inherit_doc rr]
def ma (d a b c : BitVec 9) (sc : BitVec 3) (m : BitVec 6) : MA := ⟨⟨.native, 0, false, d, a⟩, b, c, sc, 0, 0, m⟩

/-- Native words of one shape that some modifier value makes well formed. -/
def someM (f : BitVec 6 → Instr) : Bool := (List.range 64).any fun m => (f (BitVec.ofNat 6 m)).wellFormed

theorem witness_encode : ∃ i w, encode i = some w ∧ i.wellFormed = true := ⟨.ffma ⟨⟨.native, 2, false, 10, 4⟩, 8, 12, 0, 0, 2, 0⟩, 0x14D0140404030080, by decide +kernel⟩
theorem witness_decode : ∃ i w, decodeWord w = .ok i := ⟨.ffma ⟨⟨.native, 2, false, 10, 4⟩, 8, 12, 0, 0, 2, 0⟩, 0x14D0140404030080, by rfl⟩

/-- What a result that is a value says of it. -/
theorem ok_of {ε α : Type} {x : Except ε α} {p : α → Bool} (h : (match x with | .ok l => p l | .error _ => false) = true) : ∃ l, x = .ok l ∧ p l = true := by
  cases x with
  | ok l => exact ⟨l, rfl, h⟩
  | error _ => cases h

/-- The same for an option. -/
theorem some_of {α : Type} {x : Option α} {p : α → Bool} (h : (match x with | some l => p l | none => false) = true) : ∃ l, x = some l ∧ p l = true := by
  cases x with
  | some l => exact ⟨l, rfl, h⟩
  | none => cases h

/-- The state after an outcome. -/
def after (o : Host.Outcome State Fault Refusal) : State := match o with | .next t => t | _ => State.reset
/-- It is a next state that passes a test. -/
def goes (o : Host.Outcome State Fault Refusal) (p : State → Bool) : Bool := match o with | .next t => p t | _ => false

theorem next_of {o : Host.Outcome State Fault Refusal} {p : State → Bool} (h : goes o p = true) : ∃ t, o = .next t ∧ p t = true := by
  cases o with
  | next t => exact ⟨t, rfl, h⟩
  | fault _ => cases h
  | refused _ => cases h

/-- The group of `gA` with two lanes in EX. -/
def gM : Group := setEntry gA 0 { entry gA 0 with ex := 3 }
/-- Its state. -/
def sM : State := labOf gM

theorem sM_issues : Issues sM gM 0 := issues_of _ _ (by decide +kernel)


/-- A second group, in block 1 of the same launch. -/
def gB : Group := { gA with gid := 1, bid := 1, block := 1, slot := 1, nblocks := 2 }
/-- Two groups of two blocks, the second with what a test gives it. -/
def twoOf (g h : Group) : State :=
  { labOf g with groups := [g, h], blocks := [bootBlock, { bootBlock with bid := 1, block := 1, gids := [(0, 1)] }] }
/-- A store of the group still under way to its scratchpad, which a release waits for. -/
def sBusy : State := sM.toNear gM .scratch 0 (.store [1])
/-- Its group. -/
def gBusy : Group := { gM with scrSince := [0] }

theorem sBusy_issues : Issues sBusy gBusy 0 := issues_of _ _ (by decide +kernel)


/-- A group whose split 0 waits for a reason. -/
def waitingFor (w : Wait) : Group := setEntry gM 0 { entry gM 0 with state := .waitPark, wait := w }

/-- 64-bit words stored from a device-physical address on. -/
def dwordsAt (s : State) (pa : Nat) (ws : List Nat) : State := { s with dram := (ws.zipIdx.filter fun x => x.1 != 0).foldl (fun m x => bootStore m (pa + 8 * x.2, x.1)) s.dram }
/-- A return of one row of the group under way. -/
def retOne : Ret := { id := 5, gid := 0, row := 4, count := 1, lanes := 3, tag := .raw, cis := false, weir := false, acq := false, vals := [] }
/-- A compare of v4 and v5 into p1 and p2. -/
def wCmp0 : PP := ⟨⟨.native, 0, false, 0, 4⟩, 5, 1, 2, 1, 0, 0, 0, 4⟩

/-- The group after an instruction that went on. -/
def groupAfter (i : Instr) (g : Group) : Group := ((after (exec i (labOf g))).group? 0).getD g
/-- The instruction of a word. -/
def word (x : Dword) : Instr := match decodeWord x with | .ok i => i | .error _ => .correctableError
/-- What lane l of row r holds after it. -/
def laneAfter (i : Instr) (g : Group) (r l : Nat) : Nat := (laneOf (row (groupAfter i g) r).lanes l).toNat

/-- R177: the worked values of a saturating sum. -/
theorem test_iadd : laneAfter (.iadd (rr 3 4 5 0 0x38)) (setRow (setRow labG 4 (rowOf .i8x4 fun _ => 0x10F0FF01)) 5 (rowOf .i8x4 fun _ => 0x10200102)) 3 7 = 0x20FFFF03 ∧
    laneAfter (.iaddImm (ri 3 4 (BitVec.ofInt 18 (-5)) 0x18)) (setRow (setRow labG 3 (rowOf .i32 fun _ => 9)) 4 (rowOf .i32 fun _ => 3)) 3 0 = 0 := by decide +kernel

/-- R172: the worked values of two compares, with EX = 7. -/
theorem test_cmp :
    let a := rowOf .i32 fun l => if l = 0 then 1 else if l = 1 then 3 else 0
    let c := rowOf .i32 fun l => if l = 2 then 0 else 5
    let g := setRow (setRow (setRow labG 4 a) 5 (rowOf .i32 fun _ => 2)) 6 c
    let g := setEntry { g with pr := (g.pr.set 1 8).set 2 8 } 0 { entry g 0 with ex := 7 }
    let g1 := groupAfter (word 0x0400000402944004) g
    let g2 := groupAfter (word 0x0408000600159002) g1
    (preg g1 1, preg g1 2, preg g2 1, preg g2 2) = ((13 : Mask), (10 : Mask), (9 : Mask), (14 : Mask)) := by decide +kernel

/-- R192: a 64-bit constant built by three words. -/
theorem test_smovi : sreg (groupAfter (.smovi (wi 8 4 3)) (groupAfter (.smovi (wi 8 0x468ACF1 2)) (groupAfter (.smovi (wi 8 0x1ABCDEF 1)) labG))) 8 = 0x0123456789ABCDEF := by decide +kernel

/-- R202: the worked values of a packed multiply-add that saturates. -/
theorem test_hfma2 : laneAfter (word 0x1C80100201800825) (setRow (setRow labG 2 (rowOf .f16x2 fun _ => 0x3C007BFF)) 3 (rowOf .f16x2 fun _ => 0x4000)) 8 31 = 0x40007BFF := by decide +kernel

/-- R205: the worked values of a conversion with a tie. -/
theorem test_cvt : laneAfter (word 0x1CC00C0402B00010) (setRow (setRow labG 4 (rowOf .f32 fun _ => 0x3F808000)) 5 (rowOf .f32 fun _ => 0xC0200000)) 6 1 = 0xC0203F80 := by decide +kernel

/-- A core whose turn it is, in the state of `withFetchWord`. -/
def sTurn : State := { lab with cur := none, agenda := [.issue 0] }

/-- That turn as far as the word: the split selected, its group's late values freed. -/
def sSplit (s : State) (g : Group) : State := State.freeLate { s.setGroup (setEntry g 0 { entry g 0 with passed := false }) with cur := some (0, 0) } 0

theorem witness_stepRuns : let s0 : State := State.due { sTurn with agenda := [] } 0
    sTurn.agenda = [.issue 0] ∧ sTurn.turns.contains 0 = false ∧ s0.stepReqs 0 = [] ∧ s0.coreParts 0 = [0] ∧ (s0.cands 0 0).map (fun c => (c.gid, c.k)) = [(0, 0)] ∧ s0.group? 0 = some labG ∧
      mergeInto labG 0 .runnable = (labG, 0) ∧ (sSplit s0 labG).group? 0 = some labG ∧ labG.hmode = false ∧ (entry labG 0).stepDue = none ∧ (entry labG 0).ibuf = none ∧
      (match (sSplit s0 labG).fetchWord labG (entry labG 0).pc with
        | some (s1, .ok w) => (match decodeWord w with | .ok i => goes (exec i s1) fun t => t.cur.isNone | _ => false)
        | _ => false) = true := by decide +kernel

/-- The same where a STEP is owed, and where the PC has no page. -/
theorem witness_stepOwed : (let g := setEntry labG 0 { entry labG 0 with stepDue := some 1 }; let s := sSplit (labOf g) g
      g.hmode = false ∧ mergeInto g 0 .runnable = (g, 0) ∧ s.group? 0 = some g ∧ (entry g 0).stepDue = some 1) ∧
    (let g := setEntry labG 0 { entry labG 0 with pc := 0x8000000000 }; let s := sSplit (labOf g) g
      mergeInto g 0 .runnable = (g, 0) ∧ s.group? 0 = some g ∧ (entry g 0).ibuf = none ∧ (match s.fetchWord g (entry g 0).pc with | some (_, .error _) => true | _ => false) = true) := by decide +kernel

theorem witness_illegalWord : (match (labWith 0).fetchWord labG (entry labG 0).pc with
    | some (_, .ok w) => (match decodeWord w with | .error r => r == .opcode 0 | _ => false)
    | _ => false) = true := by decide +kernel

theorem witness_eventStep : let s : State := { lab with agenda := [.event .correctableError] }
    s.agenda = [.event .correctableError] ∧ encode .correctableError = none ∧ goes (exec .correctableError lab) (fun _ => true) = true := by decide +kernel

theorem witness_stepKeepsMemory : lab.memWf = true ∧ goes (step lab) (fun _ => true) = true := by decide +kernel

theorem witness_generations : Memory.empty.wf = true ∧ Memory.empty.genOf 0 ≠ 1 ∧ (1 : Nat) ≠ 2 ∧ (∀ i < 2, (0 + i) / genUnit ≠ 128 / genUnit) := by decide +kernel

/-- The group with a handler, and in it. -/
def gTrap : Group := { gA with trapbase := 0x40300000 }

theorem witness_trapEntry :
    ((labOf gTrap).group? gTrap.gid = some gTrap ∧ gTrap.hmode = false ∧ BitVec.extractLsb' 3 61 gTrap.trapbase ≠ 0) ∧
    ((labOf gA).group? gA.gid = some gA ∧ BitVec.extractLsb' 3 61 gA.trapbase = 0) ∧
    ((labOf { gTrap with hmode := true }).group? 0 = some { gTrap with hmode := true }) := by decide +kernel

/-- The state with the page of the partition pinned, and a fault queue of 16 records. -/
def sFq : State := { lab with dram := bootStore lab.dram (bootS2 + 0x20000, 0x5F) }.modPart 0 fun x => { x with fqEn := true, fqLog2 := 4, fqbase := 0x300000 }

theorem witness_faultHeld : (sFq.part 0).fqHeld = [] ∧ ((sFq.modPart 0 fun x => { x with fqHeld := [[1]] }).part 0).fqHeld ≠ [] ∧
    (match ({ sFq with dram := bootStore sFq.dram (bootS2 + 0x20000, 2 ^ 62 + 0x5F) } : State).stage2 0 0x300000 needW with | .ok l => l.pte.getLsbD 6 && l.pte.getLsbD 62 | _ => false) = true ∧
    (match sFq.stage2 0 0x300000 needW with | .ok l => !l.pte.getLsbD 62 | _ => false) = true := by decide +kernel

theorem witness_faultRecords : (sFq.part 0).fqEn = true ∧ (sFq.part 0).fqLog2.toNat = 4 ∧ ((sFq.part 0).fqwr - (sFq.part 0).fqrd).toNat < 2 ^ 4 ∧
    (match sFq.stage2 0 ((sFq.part 0).fqbase + 32 * BitVec.ofNat 64 ((sFq.part 0).fqwr.toNat % 2 ^ 4)).toNat needW with | .ok l => l.pte.getLsbD 6 | _ => false) = true ∧
    (lab.part 0).fqEn = false ∧ (let t := sFq.modPart 0 fun x => { x with fqwr := 16 }
      (t.part 0).fqEn = true ∧ 2 ^ 4 ≤ ((t.part 0).fqwr - (t.part 0).fqrd).toNat) := by decide +kernel

theorem witness_scalars : Issues sA gA 0 ∧ (∀ p ∈ scalarOps, someM (fun m => p.1 (rr 7 2 (if m = 3 then 0 else 3) 0 m)) = true ∨ someM (fun m => p.1 (rr 7 2 0 0 m)) = true) ∧
    (∀ m < 3, (Instr.smovi (wi 7 5 (BitVec.ofNat 5 m))).wellFormed = true) ∧ (Instr.smovi (wi 7 1023 3)).wellFormed = true ∧
    (Instr.smov (rr 7 2 0 0 0)).wellFormed = true ∧ (Instr.smov (rr 7 4 0 0 1)).wellFormed = true ∧ ReadableRows gA (rrSrc (rr 7 4 0 0 1) .a).rows := by
  refine ⟨sA_issues, ?_⟩
  unfold ReadableRows
  decide +kernel

/-- A group one of whose scalar registers a restore has marked poisoned. -/
def gHurt (i : Nat) : Group := { gA with hurt := [8192 + i] }

theorem witness_marked : (∀ i ∈ [2, 7], let g := gHurt i; let s := labOf g; s.cur = some (g.gid, 0) ∧ s.group? g.gid = some g ∧ (entry g 0).state = .runnable ∧ 24576 ∉ g.hurt ∧ (g.rerun.any fun r => inRerun r (entry g 0).pc.toNat) = false ∧ threadsOf g (entry g 0).ex ≠ 0) ∧
    8192 + (rr 7 2 3 0 0).a.toNat ∈ (gHurt 2).hurt ∧ (gHurt 7).hurt = [8192 + (rr 7 2 3 0 0).d.toNat] ∧ (Instr.sadd (rr 7 2 3 0 0)).wellFormed = true ∧ (rr 7 2 3 0 0).pg = 0 ∧ (rr 7 2 3 0 0).pn = false ∧
    (∀ p ∈ scalarOps, someM (fun m => p.1 (rr 7 2 (if m = 3 then 0 else 3) 0 m)) = true ∨ someM (fun m => p.1 (rr 7 2 0 0 m)) = true) := by
  decide +kernel

/-- R388: a scalar word that reads a marked register traps POISON, cause 8. -/
theorem test_markedTraps : (match exec (.sadd (rr 7 2 3 0 0)) (labOf { gHurt 2 with trapbase := 0x1000 }) with
    | .next t => (t.group? 0).map (fun g => (g.trapcause.toNat % 256, g.hmode)) | _ => none) = some (8, true) := by decide +kernel

theorem gA_rows : WritableRows gA [1] ∧ WritableRows gA [1, 2] ∧ ReadableRows gA [4] ∧ ReadableRows gA [4, 5] ∧ ReadableRows gA [4, 5, 4] ∧ ReadableRows gA [8, 9, 8] ∧
    TagsAgree gA .i32 [4, 5, 4] ∧ TagsAgree gA .f32 [8, 9, 8] := by
  unfold WritableRows ReadableRows TagsAgree
  decide +kernel

theorem witness_predicates : Issues sA gA 0 ∧ (Instr.pand (rr 1 2 3 0 3)).wellFormed = true ∧ (Instr.por (rr 1 2 3 0 0)).wellFormed = true ∧ (Instr.pnot (rr 1 2 0 0 0)).wellFormed = true ∧
    (∀ m < 4, (Instr.pmov (rr 7 7 0 0 (BitVec.ofNat 6 m))).wellFormed = true) ∧ (∀ m ∈ [0, 1, 2, 4, 5, 6, 7], (Instr.vote (rr 7 7 0 0 (BitVec.ofNat 6 m))).wellFormed = true) := by
  refine ⟨sA_issues, ?_⟩
  decide +kernel

/-- A compare of v4 and v5. -/
def wCmp : PP := ⟨⟨.native, 0, false, 0, 4⟩, 5, 1, 2, 1, 0, 0, 0, 4⟩

theorem witness_compare : Issues sA gA 0 ∧ (Instr.cmp wCmp).wellFormed = true ∧ active gA 0 wCmp.toHdr ≠ 0 ∧ wCmp.form = .native ∧
    (rowsOf [cmpSource wCmp .a, cmpSource wCmp .b] = [4, 5]) ∧ assumeOf wCmp.m = 0 ∧
    (let n : PP := { wCmp with pg := 1 }; (Instr.cmp n).wellFormed = true ∧ active gA 0 n.toHdr = 0) := by
  refine ⟨sA_issues, ?_⟩
  decide +kernel

theorem witness_combiningTypes : ∀ ct < 8, ∃ pa ∈ [(0 : Nat), 1], ∃ pb ∈ [1, 7], pa < 8 ∧ pb < 8 ∧ (pa ≠ pb ∨ 2 ≤ ct ∧ ct ≤ 5) := by decide

theorem witness_integers : Issues sA gA 0 ∧ active gA 0 (rr 1 4 5 0 0).toHdr ≠ 0 ∧ assumeOf (rr 1 4 5 0 0).m = 0 ∧
    (∀ p ∈ intOps, (p.1 (rr 1 4 5 (if p.2.1 = 3 then 4 else 0) 0)).wellFormed = true ∧ rowsOf (sources p.2.1 (rr 1 4 5 (if p.2.1 = 3 then 4 else 0) 0)) ⊆ [4, 5, 4]) ∧
    (∀ p ∈ intImmOps, (p.1 (ri 1 4 0x3FFFF 0)).wellFormed = true ∧ (riSrc (ri 1 4 0x3FFFF 0)).rows = [4]) := by
  refine ⟨sA_issues, ?_⟩
  decide +kernel

theorem witness_bits : Issues sA gA 0 ∧ active gA 0 (rr 1 4 5 0 0).toHdr ≠ 0 ∧
    (∀ p ∈ bitOps, ∃ m < 4, let w := rr 1 4 (if p.2.2.1 = 1 then 0 else 5) (if p.2.2.1 = 3 then 4 else 0) (BitVec.ofNat 6 m)
      (p.1 w).wellFormed = true ∧ rowsOf (sources p.2.2.1 w) ⊆ [4, 5, 4]) ∧
    (∀ p ∈ bitImmOps, ∃ m < 3, (p.1 (ri 1 4 255 (BitVec.ofNat 6 m))).wellFormed = true) := by
  refine ⟨sA_issues, ?_⟩
  decide +kernel

theorem witness_moves : Issues sA gA 0 ∧ active gA 0 (rr 1 4 5 0 0).toHdr ≠ 0 ∧
    (let w := rr 0 4 5 4 0; (Instr.imadw w).wellFormed = true ∧ rowsOf [rrSrc w .a, rrSrc w .b, rrSrc w .c 2] = [4, 5, 4, 5]) ∧
    (Instr.sel (rr 1 4 5 7 0)).wellFormed = true ∧ (∀ m < 3, (Instr.mov (rr 1 4 0 0 (BitVec.ofNat 6 m))).wellFormed = true) ∧
    (Instr.lea (rr 1 2 4 0 0x1F)).wellFormed = true ∧ (Instr.leaImm (ri 1 2 0x20000 1)).wellFormed = true ∧ (∀ m < 3, (Instr.movi (wi 1 7 (BitVec.ofNat 5 m))).wellFormed = true) := by
  refine ⟨sA_issues, ?_⟩
  decide +kernel

theorem witness_indexWords : Issues sA gA 0 ∧ active gA 0 (ri 7 4 1 0).toHdr ≠ 0 ∧ (Instr.xset (ri 7 4 0x3FFFF 0)).wellFormed = true ∧ (∀ n < 16, (Instr.xadd (ri 1 2 4 (BitVec.ofNat 6 n))).wellFormed = true) ∧
    (∀ m < 4, (Instr.xmov (rr 1 4 0 0 (BitVec.ofNat 6 m))).wellFormed = true) := by
  refine ⟨sA_issues, ?_⟩
  decide +kernel

/-- Index registers x1, whose lane 3 names row 511, and x2, whose lanes name a row below v0. -/
def gX : Group := setX (setX gA 1 0xFFFFFFFF (lanesOf fun l => if l = 3 then 511 else 4)) 2 0xFFFFFFFF (lanesOf fun l => if l < 2 then 4 else 0xFFFF)

theorem sX_issues : Issues (labOf gX) gX 0 := issues_of _ _ (by decide +kernel)

theorem witness_relativeRead : Issues (labOf gX) gX 0 ∧ (Instr.movr (rr 1 1 0 0 0)).wellFormed = true ∧ active gX 0 (rr 1 1 0 0 0).toHdr ≠ 0 ∧ active gX 0 (rr 1 1 0 0 0).toHdr &&& gX.helpers = 0 ∧
    WritableRows gX [1] ∧ relReady gX (active gX 0 (rr 1 1 0 0 0).toHdr) 1 0 ∧
    ((Instr.movr (rr 1 2 0 0 0)).wellFormed = true ∧ (threadsOf gX (active gX 0 (rr 1 2 0 0 0).toHdr)).getLsbD 2 = true ∧ ¬ relIn gX 2 0 2 ∧ relIn gX 2 0 0 ∧ relIn gX 2 0 1) := by
  refine ⟨sX_issues, ?_⟩
  unfold WritableRows relReady ReadableRows relIn
  decide +kernel

theorem witness_relativeWrite : Issues (labOf gX) gX 0 ∧ (Instr.movw (rr 1 4 0 0 0)).wellFormed = true ∧ active gX 0 (rr 1 4 0 0 0).toHdr &&& gX.helpers = 0 ∧ mapWf rowZero gX.rows = true ∧
    ReadableRows gX (rrSrc (rr 1 4 0 0 0) .a).rows ∧
    (∀ l < 32, (active gX 0 (rr 1 4 0 0 0).toHdr).getLsbD l = true → relIn gX 1 0 l ∧ (row gX (relRow gX 1 0 l).toNat).full = true) := by
  refine ⟨sX_issues, ?_⟩
  unfold ReadableRows relIn
  decide +kernel

theorem witness_floats : Issues sA gA 0 ∧ active gA 0 (rr 1 8 9 0 0).toHdr ≠ 0 ∧ (floatFormat (assumeOf 0)).2 = .f32 ∧
    (∀ p ∈ floatOps, let w := rr 1 8 (if p.2.1 = 1 then 0 else 9) (if p.2.1 = 3 then 8 else 0) 0; (p.1 w).wellFormed = true ∧ rowsOf (sources p.2.1 w) ⊆ [8, 9, 8]) ∧
    (∀ p ∈ floatImmOps, (p.1 (ri 1 8 0xFC00 0)).wellFormed = true) := by
  refine ⟨sA_issues, ?_⟩
  decide +kernel

/-- Rows v4 and v5 of packed halves, v8 of block scales. -/
def gH : Group := [(4, rowOf .bf16x2 fun _ => 0x3F804000), (5, rowOf .bf16x2 fun _ => 0x40003F80), (8, rowOf .blk fun _ => 0x7F7F7F7F)].foldl (fun g x => setRow g x.1 x.2) gA

theorem sH_issues : Issues (labOf gH) gH 0 := issues_of _ _ (by decide +kernel)

theorem witness_packed : Issues (labOf gH) gH 0 ∧ WritableRows gH [1] ∧ ReadableRows gH [4, 5, 4] ∧ TagsAgree gH .bf16x2 [4, 5, 4] ∧
    (∀ p ∈ packedOps, let w := rr 1 4 5 (if p.2.1 = 3 then 4 else 0) 3; (p.1 w).wellFormed = true ∧ w.m.getLsbD 5 = false ∧ rowsOf (sources p.2.1 w) ⊆ [4, 5, 4]) := by
  refine ⟨sH_issues, ?_⟩
  unfold WritableRows ReadableRows TagsAgree
  decide +kernel

/-- Rows v12 to v15 of FP32 values. -/
def gC : Group := [12, 13, 14, 15].foldl (fun g r => setRow g r (rowOf .f32 fun _ => 0x3F800000)) gH

theorem sC_issues : Issues (labOf gC) gC 0 := issues_of _ _ (by decide +kernel)

/-- `cvt` of FP32 values to D2P8 under the scales of v8. -/
def wCvt : RR := rr 1 12 8 0x180 0x10

theorem witness_conversion : Issues (labOf gC) gC 0 ∧ (Instr.cvt wCvt).wellFormed = true ∧ wCvt.form = .native ∧ active gC 0 wCvt.toHdr ≠ 0 ∧
    ∃ pl, cvtPlan wCvt (Tag.ofCode (srcfOf wCvt.m)) = some pl ∧ pl.pair.b = some .blk ∧ WritableRows gC pl.d ∧ ReadableRows gC (pl.a.rows ++ rowsOf pl.b) ∧
      TagsAgree gC (Tag.ofCode (srcfOf wCvt.m)) pl.a.rows ∧ (∀ t, pl.pair.b = some t → TagsAgree gC t (rowsOf pl.b)) ∧
      (∀ l < 32, (threadsOf gC (active gC 0 wCvt.toHdr)).getLsbD l = true → ∀ v ∈ pl.b, (srcLane gC v 0 l).extractLsb' (8 * (l / 8)) 8 ≠ (255#8)) := by
  refine ⟨sC_issues, ?_, rfl, ?_, _, rfl, ?_, ?_, ?_, ?_, ?_, ?_⟩
  case refine_7 =>
    intro t ht
    cases ht
    unfold TagsAgree
    decide +kernel
  all_goals first | decide +kernel | (unfold WritableRows; decide +kernel) | (unfold ReadableRows; decide +kernel) | (unfold TagsAgree; decide +kernel)

theorem witness_laneExchanges : Issues sA gA 0 ∧ (Instr.qswap (rr 1 4 0 0 3)).wellFormed = true ∧ (Instr.qbcast (rr 1 4 0 0 3)).wellFormed = true ∧
    (∀ m < 8, (Instr.qred (rr 1 4 0 0 (BitVec.ofNat 6 m))).wellFormed = true ∧ redNeeds (RedOp.ofCode (fieldN (BitVec.ofNat 6 m) 3 0)) (RedFmt.ofCode (assumeOf (BitVec.ofNat 6 m))) ∈ [none, some .i32]) ∧
    (∀ m < 24, (Instr.shfl (rr 1 4 5 0 (BitVec.ofNat 6 m))).wellFormed = true) ∧ rowsOf (sources 2 (rr 1 4 5 0 0)) = [4, 5] := by
  refine ⟨sA_issues, ?_⟩
  decide +kernel

/-- The first of two groups, with s2 naming the group of block 1 (R209). -/
def gP : Group := setS { gA with nblocks := 2 } 2 0x400

theorem sP_issues (h : Group) : Issues (twoOf gP h) gP 0 := by
  refine ⟨⟨rfl, ?_, by decide, by decide +kernel, rfl, rfl⟩, by decide +kernel⟩
  have : gP.gid = 0 := rfl
  simp [twoOf, State.group?, this]

/-- The second group parked in an XPAIR that names the first. -/
def gBx : Group := setEntry gB 0 { entry gB 0 with state := .waitPark, wait := .xpair 9 0 none }

theorem witness_pairing : Issues (twoOf gP gB) gP 0 ∧ (Instr.xpair (ri 1 2 0 0)).wellFormed = true ∧ executesIn gP 0 (ri 1 2 0 0).toHdr = true ∧ gP.pair = none ∧ gP.xshufs = [] ∧
    (let a := sreg gP 2; ¬ (gP.nblocks ≤ fieldN a 13 10 ∨ fieldN a 13 10 = gP.block ∨ gP.ngroups ≤ fieldN a 9 0) ∧
      (twoOf gP gB).peerGid gP.lid gP.span (fieldN a 13 10) (fieldN a 9 0) = some 1) ∧
    (∀ h, (twoOf gP gB).group? 1 = some h → xpairWaits h gP.gid = []) ∧
    (gP.nblocks ≤ fieldN (sreg gP 3) 13 10 ∨ fieldN (sreg gP 3) 13 10 = gP.block) := by
  have second : (twoOf gP gB).group? 1 = some gB := by decide +kernel
  refine ⟨sP_issues gB, ?_, ?_, ?_, ?_, ?_, ?_, ?_⟩
  case refine_6 =>
    intro h hh
    cases second.symm.trans hh
    decide +kernel
  all_goals decide +kernel

/-- Two paired groups; the second has an XSHUF of tag 7 waiting. -/
def gQ : Group := { gP with pair := some 1 }
def gBs : Group := { gB with pair := some 0, xshufs := [{ dst := 1, xtag := 7, active := 3, val := lanesOf fun _ => 9, vtag := .i32 }] }

theorem sQ_issues : Issues (twoOf gQ gBs) gQ 0 := issues_of _ _ (by decide +kernel)

theorem witness_crossShuffle : Issues sA gA 0 ∧ Issues (twoOf gQ gBs) gQ 0 ∧ (Instr.xshuf (ri 1 4 7 0)).wellFormed = true ∧ gA.pair = none ∧ WritableRows gA [1] ∧ ReadableRows gA (riSrc (ri 1 4 7 0)).rows ∧
    gQ.pair = some 1 ∧ (1 : Nat) ≠ gQ.gid ∧ (twoOf gQ gBs).group? 1 = some gBs ∧ gQ.xshufs.length < 4 ∧ WritableRows gQ [1] ∧ ReadableRows gQ [4] ∧
    (gBs.xshufs.find? fun x => x.xtag == 7).isSome = true ∧ (∀ x ∈ gBs.xshufs, x.xtag ≠ 8) := by
  refine ⟨sA_issues, sQ_issues, ?_⟩
  unfold WritableRows ReadableRows
  decide +kernel

theorem witness_loads : Issues sM gM 0 ∧ Unheld gM ∧ Steady sM ∧ WritableRows gM (rowsFrom 0 4) ∧ ReadableRows gM (addrRows 6 false) ∧ ReadableRows gM (addrRows 10 false) ∧
    (∀ p ∈ loadOps, (p.1 (ml 0 6 0 0)).wellFormed = true ∧ (p.1 (ml 0 10 0 0x10)).wellFormed = true ∧ (p.1 (ml 0 6 3 0)).wellFormed = true ∧
      AddressesPass sM gM (active gM 0 (ml 0 6 0 0).toHdr) p.2.1 (Space.ofCode 0) true false (laneVa gM 6 false 0) ∧
      AddressesPass sM gM (active gM 0 (ml 0 6 0 0).toHdr) p.2.1 (Space.ofCode 1) true false (laneVa gM 10 false 0)) := by
  refine ⟨sM_issues, ?_⟩
  unfold Unheld Steady NoPartials WritableRows ReadableRows AddressesPass
  decide +kernel

theorem witness_loadPlaces : ∀ a ∈ [(6 : BitVec 9), 10], ∀ size ∈ [1, 2, 4, 8, 16], let r := sM.resolve gM needR false ((maskLanes (active gM 0 (ml 0 a 0 0).toHdr)).map fun l => (l, laneVa gM a false 0 l))
    r.2.2 = none ∧ r.1.loadBehind gM size r.2.1 = false ∧ r.2.1.length = 2 ∧ (∀ x ∈ r.2.1, x.space = .global → FirstAtLine r.1 gM (x.addr / 128)) := by
  unfold FirstAtLine
  decide +kernel

/-- The same with a second page of 1 GiB, at 0x80000000, that maps host memory at bus address 0. -/
def sHost : State := dwordsAt (dwordsAt sM 0x30010 [0x4000001F]) 0x60008 [0x11F]

/-- A group whose address rows stand in that page, and a host that holds one byte there. -/
def gHost : Group := setRow gM 6 (rowOf .raw fun l => BitVec.ofNat 32 (0x80200000 + 64 * l))

theorem witness_hostLoad : let s : State := { sHost with groups := [gHost], host := Memory.empty.write 0 0x200000 [0x85] false }
    Issues s gHost 0 ∧ (let r := s.resolve gHost needR false ((maskLanes (active gHost 0 (ml 0 6 0 0).toHdr)).map fun l => (l, laneVa gHost 6 false 0 l))
      r.2.2 = none ∧ r.2.1.map (fun a => (a.lane, a.attr, a.addr)) = [(0, 1, 0x200000), (1, 1, 0x200040)] ∧ r.1.loadBehind gHost 1 r.2.1 = false) ∧
      goes (exec (.ldS8 (ml 0 6 0 0)) s) (fun t => t.rets.map (·.vals) == [[(0, 0xFFFFFF85, false), (1, 0, false)]]) = true :=
  ⟨issues_of _ _ (by decide +kernel), by decide +kernel⟩

/-- R75: a load and a store of a line that no cache holds wait in the L1, and ask for it to read and to write. -/
theorem test_lineAsked : goes (exec (.ld (ml 0 6 0 0)) sM) (fun t => t.pends.map (·.act) == [.load 1 0 0 4 false, .load 1 1 64 4 false] && t.reqs.map (fun q => (q.line, q.kind)) == [(0x4000, .getS)]) = true ∧
    goes (exec (.st (ms 0 6 4 0 0)) sM) (fun t => t.pends.map (·.act) == [.store 0 [1, 0, 0, 0] false, .store 64 [2, 0, 0, 0] false] && t.reqs.map (fun q => (q.line, q.kind)) == [(0x4000, .getM)]) = true := by decide +kernel

/-- A core's L1 with a shared copy of a line. -/
def sShared : State := sM.putL1 { core := 0, line := 0x4000, st := .s, val := ⟨(List.range 128).map fun i => BitVec.ofNat 8 i, 1, 0⟩, prio := 0 }

theorem witness_accessesAtL1 : FirstAtLine sM gM 0x4000 ∧ (sShared.l1Line? gM.core 0x4000).map (·.st) = some .s ∧ readable .s = true ∧ sShared.pends = [] ∧ sShared.outstanding gM.core 0x4000 = false ∧
    sShared.asyHolds gM.gid 0x4000 = false ∧ sShared.twice 0x4000 = false ∧
    (({ sShared with rets := [retOne] } : State).toL1 gM 1 (0x4000 * 128 + 4) (.load 5 1 4 4 false)).rets.map (fun x => x.vals) = [[(1, 0x07060504, false)]] := by
  unfold FirstAtLine
  decide +kernel

theorem witness_loadIdle : let w : ML := { ml 0 6 0 0 with pg := 1 }; ∀ p ∈ loadOps, (p.1 w).wellFormed = true ∧ active gM 0 w.toHdr = 0 ∧ w.ordsc = 0 := by decide +kernel

theorem witness_stores : Issues sM gM 0 ∧ Unheld gM ∧ (∀ l ∈ sM.l1, l.core = gM.core → isPeer l.line = false) ∧ (∀ p ∈ storeOps, (p.1 (ms 0 6 12 0 0)).wellFormed = true ∧ (p.1 (ms 0 10 12 0 0x10)).wellFormed = true ∧ (p.1 (ms 0 6 12 2 0)).wellFormed = true ∧
      ReadableRows gM (addrRows 6 false ++ rowsFrom 12 p.2.2) ∧
      AddressesPass sM gM (active gM 0 (ms 0 6 12 0 0).toHdr) p.2.1 (Space.ofCode 0) false true (laneVa gM 6 false 0) ∧
      AddressesPass sM gM (active gM 0 (ms 0 6 12 0 0).toHdr) p.2.1 (Space.ofCode 1) false true (laneVa gM 10 false 0)) ∧
    (let w : MS := { ms 0 6 12 0 0 with pg := 1 }; ∀ p ∈ storeOps, (p.1 w).wellFormed = true ∧ threadsOf gM (active gM 0 w.toHdr) = 0) := by
  refine ⟨sM_issues, ?_⟩
  unfold Unheld ReadableRows AddressesPass
  decide +kernel

theorem witness_storePlaces : ∀ a ∈ [(6 : BitVec 9), 10], ∀ size ∈ [1, 2, 4, 8, 16], let r := sM.resolve gM needW true ((maskLanes (active gM 0 (ml 0 a 0 0).toHdr)).map fun l => (l, laneVa gM a false 0 l))
    r.2.2 = none ∧ r.1.storeBehind gM size r.2.1 = false ∧ (∀ x ∈ r.2.1, x.attr = 0) ∧ (∀ x ∈ r.2.1, x.space = .global → FirstAtLine r.1 gM (x.addr / 128)) := by
  unfold FirstAtLine
  decide +kernel

theorem witness_releases : Scope.ofCode 2 = some .block ∧ sM.performedFor gM.gid (some .block) = true ∧ Issues sBusy gBusy 0 ∧ Unheld gBusy ∧
    sBusy.performedFor gBusy.gid (some .block) = false := by
  refine ⟨rfl, ?_, sBusy_issues, ?_, ?_⟩
  · decide +kernel
  · exact ⟨rfl, by decide +kernel⟩
  · decide +kernel

/-- The atomic words of a test: W = 0, relaxed; scratch under `sc`. -/
def wAtom (sc : Bool) : MA := ma 0 (if sc then 10 else 6) 4 0 0 (if sc then 2 else 0)

theorem witness_atomics : ∀ sc : Bool, (Instr.atom (wAtom sc)).wellFormed = true ∧ (Instr.red { wAtom sc with d := 0 }).wellFormed = true ∧
    (Instr.cas { wAtom sc with c := 12 }).wellFormed = true ∧ (Instr.atom { wAtom sc with sc := 2, m := 0x20 }).wellFormed = true ∧
    active gM 0 (wAtom sc).toHdr ≠ 0 ∧ (wAtom sc).m.getLsbD 5 = false ∧ wordRows (wAtom sc) 0 = [0] ∧ wordRows (wAtom sc) 4 = [4] ∧
    (let r := sM.resolve gM needRW true ((maskLanes (active gM 0 (wAtom sc).toHdr)).map fun l => (l, laneVa gM (wAtom sc).a false 0 l));
      r.2.2 = none ∧ (∀ a ∈ r.2.1, a.attr = 0) ∧ (∀ a ∈ r.2.1, a.space = .global → r.1.outstanding gM.core (a.addr / 128) = false ∧ r.1.asyHolds gM.gid (a.addr / 128) = false)) := by decide +kernel

theorem witness_atomicRows : WritableRows gM [0] ∧ WritableRows gM [] ∧ ReadableRows gM (addrRows 6 false ++ [4]) ∧ ReadableRows gM (addrRows 10 false ++ [4, 12]) ∧
    TagsAgree gM (redTag (RedFmt.ofCode 0)) [4] ∧
    (∀ sc : Bool, AddressesPass sM gM (active gM 0 (wAtom sc).toHdr) 4 (some (if (wAtom sc).m.getLsbD 1 then .scratch else .global)) true true (laneVa gM (wAtom sc).a false 0)) := by
  unfold WritableRows ReadableRows TagsAgree AddressesPass
  decide +kernel

/-- An addition to the cistern with a result. -/
def wCis : MA := ma 3 12 4 0 0 0x20

theorem witness_cistern : Issues sM gM 0 ∧ (Instr.cis wCis).wellFormed = true ∧ active gM 0 wCis.toHdr ≠ 0 ∧ active gM 0 wCis.toHdr &&& gM.helpers = 0 ∧ Unheld gM ∧ gM.cisq.length < 255 ∧
    WritableRows gM [3] ∧ ReadableRows gM (cisRows wCis) ∧ (∀ t ∈ cisNeeds wCis.m (RedFmt.ofCode 0), TagsAgree gM t [4]) ∧
    (∀ l < 32, (active gM 0 wCis.toHdr).getLsbD l = true → sM.addrFault gM.part 4 (some .cistern) (laneVa gM 12 false 0 l) = none ∧ sM.watched gM (cisVa gM wCis l) 4 true true = false) := by
  refine ⟨sM_issues, ?_⟩
  unfold Unheld WritableRows ReadableRows TagsAgree
  decide +kernel

theorem witness_prefetch : Issues sM gM 0 ∧ (Instr.pf (ml 0 6 0 0)).wellFormed = true ∧ ReadableRows gM (addrRows 6 false) := by
  refine ⟨sM_issues, ?_⟩
  unfold ReadableRows
  decide +kernel

/-- Requests of the four kinds, each the only one under way. -/
def nearOf (sp : Space) (a : NearAct) : NearReq := { id := 5, space := sp, core := 0, gid := 0, gen := 1, addr := 64, act := a }

theorem witness_near : ∀ n ∈ [nearOf .scratch (.store [1, 2]), nearOf .cistern (.store [1, 2]), nearOf .scratch (.load 1 3 4 false), nearOf .scratch (.atom (casSent gM (wAtom true) 0 1)),
      nearOf .cistern (.cis (.red .add) .i32 none [{ lane := 0, addr := 64, b := 1, c := 0 }])],
    n.space ≠ .global ∧ ({ sM with near := [n] }.near.find? fun x => x.id == n.id && x.space == n.space) = some n ∧ { sM with near := [n] }.nearBehind n = false := by decide +kernel

/-- A return whose two values have come, the second poisoned. -/
def retTwo (cis : Bool) : Ret := { id := 5, gid := 0, row := 4, count := 2, lanes := 3, tag := .raw, cis := cis, weir := false, acq := true, vals := [(0, 7, false), (1, 9, true)] }

theorem witness_returns : ∀ c : Bool, let s : State := { sM with rets := [retTwo c] }
    (s.rets.find? fun x => x.id == 5 && x.cis == c) = some (retTwo c) ∧ retReady (retTwo c) = true ∧ s.retBehind (retTwo c) = false ∧ (retTwo c).weir = false ∧ (retTwo c).loose = false ∧ s.group? 0 = some gM ∧ mapWf rowZero gM.rows = true := by decide +kernel

/-- A group with one sealed batch on each path. -/
def gW : Group := { gM with asy := { seq := 3, count := 1, closed := [2] }, trv := { seq := 1, count := 0, closed := [0] } }

theorem sW_issues : Issues (labOf gW) gW 0 := issues_of _ _ (by decide +kernel)

theorem witness_sealAndWait : Issues (labOf gW) gW 0 ∧ executesIn gW 0 (rr 0 0 0 0 0).toHdr = true ∧ (∀ m < 2, (Instr.seal (rr 0 0 0 0 (BitVec.ofNat 6 m))).wellFormed = true) ∧
    (∀ m < 4, (Instr.waitc (rr 0 3 0 0 (BitVec.ofNat 6 m))).wellFormed = true) ∧ sealable gW.asy ∧ sealable gW.trv ∧
    pathOut (sealedGroup gW .asy) .asy ≤ (sreg gW 3).toNat ∧ (sreg gW 2).toNat = 0x40200000 ∧ (sreg gW 8).toNat < pathOut (sealedGroup gW .trv) .trv := by
  refine ⟨sW_issues, ?_⟩
  unfold sealable
  decide +kernel

/-- A group whose v10 holds distinct scratch offsets, and an `ald` of 4 bytes from v6. -/
def wAld : MS := ms 0 6 10 0 0

theorem witness_asynchronous : Issues sM gM 0 ∧ Unheld gM ∧ (Instr.ald wAld).wellFormed = true ∧ (Instr.ast wAld).wellFormed = true ∧ active gM 0 wAld.toHdr ≠ 0 ∧ active gM 0 wAld.toHdr &&& gM.helpers = 0 ∧
    ReadableRows gM (addrRows wAld.a (akOf wAld.m) ++ [10]) ∧ (joinBatch gM.asy).isSome = true ∧
    (∀ fill : Bool, ∀ l < 32, (active gM 0 wAld.toHdr).getLsbD l = true → sM.asyFault gM.part (asySize wAld) (asyVa gM wAld l) (scratchVa (laneOf (row gM 10).lanes l)) = none ∧
      sM.watched gM (asyVa gM wAld l) (asySize wAld) fill (!fill) = false ∧ sM.watched gM (scratchVa (laneOf (row gM 10).lanes l)) (asySize wAld) (!fill) fill = false ∧
      sM.nearBusy gM.gid (asyKey gM wAld l) = false) ∧
    (∀ n ∈ [needR, needW], let r := sM.resolve gM n false ((maskLanes (active gM 0 wAld.toHdr)).map fun l => (l, asyVa gM wAld l))
      r.2.2 = none ∧ r.1.weirHeld gM (asySize wAld) r.2.1 = false ∧ ∀ a ∈ r.2.1, a.attr ≠ 1 → (∀ p ∈ r.1.pends, ¬ (p.core = gM.core ∧ p.line = a.addr / 128)) ∧ r.1.lineBusy gM.core (a.addr / 128) = false ∧ r.1.quiet (a.addr / 128) = true) ∧
    sM.gatesOf gM.core 2 gM.slot = [] ∧ (∀ x ∈ sM.asys, x.gid ≠ gM.gid) := by
  refine ⟨sM_issues, ?_⟩
  unfold Unheld ReadableRows
  decide +kernel

/-- An asynchronous copy of one lane under way, its source read or not. -/
def asyOne (fill read : Bool) : AsyOp :=
  { id := 5, gid := 0, part := 0, core := 0, batch := 2, fill := fill, prio := 1, size := 4, read := read, gates := [],
    elems := [{ lane := 0, va := 0x40200000, attr := 0, pa := 0x200000, addr := 64, bytes := [1, 2, 3, 4], pois := false }] }

theorem witness_copiesComplete : (∀ fill read : Bool, let op := asyOne fill read; let s : State := { labOf gW with asys := [op] }
      s.asys.find? (fun a => a.id == 5) = some op ∧ op.gates = [] ∧ s.asyWaits op = false ∧ s.asyBehind op = false ∧ s.checks.contains (.asy 5, 0) = false ∧
      (match (State.engPlace { s with asys := s.asys.filter fun a => !(a.id == 5) } 0 0 0x40200000 4 (if fill then needR else needW)).2 with | .at_ attr pa => attr == 0 && pa == 0x200000 | _ => false) = true) ∧
    (∀ p ∈ [Path.asy, Path.trv], (labOf gW).group? gW.gid = some gW ∧ ∀ b ∈ (pathCtl gW p).closed.head?, (labOf gW).batchOpen gW.gid p b = false) ∧
    (pathCtl gW .asy).closed = [2] ∧ (pathCtl gW .trv).closed = [0] := by decide +kernel

/-- Weir words on an object of v6, whose first lane's address is 64-byte aligned. -/
def wWeir (push : Bool) : MA := ma 0 6 (if push then 4 else 0) 0 0 4

theorem witness_weirWords : Issues sM gM 0 ∧ Unheld gM ∧ (∀ push : Bool, (if push then Instr.wpush (wWeir push) else Instr.wpop (wWeir push)).wellFormed = true ∧ active gM 0 (wWeir push).toHdr ≠ 0 ∧
      WritableRows gM (weirRows (wWeir push) push) ∧ ReadableRows gM (addrRows (wWeir push).a false ++ if push then [4, 5] else []) ∧
      AddressesPass sM gM (active gM 0 (wWeir push).toHdr) 64 (some .global) true true (laneVa gM (wWeir push).a false 0)) ∧
    (let r := sM.resolve gM needRW true ((maskLanes (active gM 0 (wWeir true).toHdr)).map fun l => (l, laneVa gM 6 false 0 l));
      r.2.2 = none ∧ ∀ a ∈ r.2.1, r.1.weirWaits gM (laneVa gM 6 false 0 a.lane) a = false) := by
  refine ⟨sM_issues, ?_⟩
  unfold Unheld WritableRows ReadableRows AddressesPass
  decide +kernel

/-- A weir request at a port or at its home. -/
def weirAt (id : Nat) (push : Bool) (kind : WeirKind) (ports : List Port) (held : Option Nat) : WeirReq :=
  { id := id, gid := id, core := 0, ret := 9, lane := 0, push := push, part := 0, gen := 1, attr := 0, pa := 0x300000, limit := 0x10000, kind := kind, value := 5, check := weirCheck 5, ports := ports, held := held }

theorem witness_weirPorts : let p := Port.uplink 0 0
    (let q := weirAt 5 true .stack [p] none; let o := weirAt 6 false .stack [p] (some 3); let s : State := { sM with weir := [o, q] }
      (s.weir.find? fun x => x.id == 5 && x.held.isNone) = some q ∧ s.weirBehind q = false ∧ (s.heldAt p).find? (weirPairs q) = some o) ∧
    (∀ kd ∈ [WeirKind.stack, .queue], let q := weirAt 5 true kd [p] none; let s : State := { sM with weir := [q] }
      (s.weir.find? fun x => x.id == 5 && x.held.isNone) = some q ∧ s.weirBehind q = false ∧ ∀ o ∈ s.heldAt p, weirPairs q o = false) ∧
    (let q := weirAt 5 true .stack [p] (some 0); ({ sM with weir := [q] }.weir.find? fun x => x.id == 5) = some q ∧ q.held = some 0) := by decide +kernel

/-- The state with the header of a weir object of two entries at 0x300000. -/
def sWeir (kind count : Nat) : State := { sM with dram := [(0x300000, kind * 2 ^ 56 + 2), (0x300008, count)].foldl bootStore sM.dram }

theorem witness_weirHome : ∀ c ∈ [(true, 1, 0, WeirKind.stack), (true, 3, 1, .queue), (true, 2, 2, .pool), (false, 1, 0, .stack), (false, 1, 2, .stack), (false, 3, 1, .queue), (true, 0, 0, .stack)],
    let q := weirAt 5 c.1 c.2.2.2 [] none
    let s : State := { sWeir c.2.1 c.2.2.1 with weir := [q] }
    s.weir.find? (fun x => x.id == 5) = some q ∧ q.ports = [] ∧ s.weirBehind q = false ∧ s.requestBehind 5 (.core 0) (nodeEnd .home (q.pa / 128)) = false ∧
      (∀ l ∈ [q.pa / 128, (q.pa + 64 + 16 * weirIndex (headWord s q) q) / 128], s.quiet l = true ∧ s.cowLine l = false) ∧
      let s0 := s.recallAt 0 1 q.pa 64
      weirBad (headWord s0 q) q = (c.2.1 == 0) ∧ (headWord s0 q 1).toNat = c.2.2.1 ∧ (c.2.1 ≠ 0 → (headWord s0 q 0).toNat % 2 ^ 32 = 2) := by decide +kernel

theorem witness_fences : Issues sM gM 0 ∧ Issues sBusy gBusy 0 ∧ (∀ m ∈ [1, 2, 3, 4, 5, 6], (Instr.fence (rr 0 0 0 0 (BitVec.ofNat 6 m))).wellFormed = true ∧
    sM.performedFor gM.gid (Scope.ofCode m) = true) ∧ (∀ m ∈ [2, 3, 4, 5, 6], sBusy.performedFor gBusy.gid (Scope.ofCode m) = false) := by
  refine ⟨sM_issues, sBusy_issues, ?_⟩
  decide +kernel

/-- The group with all lanes waiting for nothing, alone in its block; and one whose block has another group. -/
def sPair : State := { twoOf gA { gB with bid := 0, block := 0 } with blocks := [bootBlock] }

theorem sPair_issues : Issues sPair gA 0 := issues_of _ _ (by decide +kernel)

theorem witness_barriers : Issues sA gA 0 ∧ Issues sPair gA 0 ∧ (∀ n < 16, (Instr.bar (ri 0 0 (BitVec.ofNat 18 n) 0)).wellFormed = true) ∧
    (sPair.block? gA.bid = some bootBlock ∧ ∀ m < 16, (arrivedState sPair gA 0 15 (ri 0 0 15 0).toHdr).phaseDone (armBar bootBlock 15) m = false) ∧
    (sA.block? gA.bid = some bootBlock ∧ sA.groupsOf gA.bid = [gA] ∧ sA.groups.length = 1 ∧ sA.saved = [] ∧ 15 < bootBlock.bars.length ∧ bootBlock.image = none ∧ (∀ j < 4, j ≠ 0 → (entry gA j).wait = .none) ∧
      gA.live &&& ~~~threadsOf gA (active gA 0 (ri 0 0 15 0).toHdr) = 0 ∧ gA.live ≠ 0 ∧ sA.performedFor gA.gid (some .block) = true) := by
  refine ⟨sA_issues, sPair_issues, ?_⟩
  decide +kernel

/-- Words of a barrier that expects n arrivals, has `a` of them and `b` bytes pending. -/
def barWords (n a b : Nat) : Dword × Dword := (BitVec.ofNat 64 (n * 2 ^ 40 + a * 2 ^ 20), BitVec.ofNat 64 b)

theorem witness_barrierWords : ∀ c ∈ [(2, 0, 0), (2, 1, 0), (2, 1, 2 ^ 48 - 1), (3, 1, 5), (2, 2, 5), (2, 2, 0), (0xFFFFF, 0xFFFFE, 0), (0xFFFFF, 0xFFFFE, 1)],
    tbarBad (barWords c.1 c.2.1 c.2.2).1 (barWords c.1 c.2.1 c.2.2).2 = false ∧ fieldN (barWords c.1 c.2.1 c.2.2).1 59 40 = c.1 ∧ fieldN (barWords c.1 c.2.1 c.2.2).1 39 20 = c.2.1 ∧
      fieldN (barWords c.1 c.2.1 c.2.2).2 47 0 = c.2.2 := by decide +kernel

/-- The state with a barrier of two arrivals at 0x40200100, the address in s6. -/
def sBar (w0 : Nat) : State := { sM with dram := bootStore sM.dram (0x200100, w0) }

/-- A place in device memory that a scalar word finds ready. -/
def readyAt (s : State) (va : Dword) (n : Need) : Bool :=
  match s.translate 0 0 va n with
  | (s1, .ok l) => !l.cow && l.attr == 0 && !s1.homeBehind gM l.attr (leafPa l va) 8 && !s1.weirAhead 0 l.attr (leafPa l va) 8
  | _ => false

theorem witness_tbar : Issues (sBar (2 * 2 ^ 40)) gM 0 ∧ (∀ sc ∈ [1, 5], ∀ m < 3, (Instr.tbar (ma 7 6 3 (if m = 0 then 0 else 8) (BitVec.ofNat 3 sc) (BitVec.ofNat 6 m))).wellFormed = true ∧
      sM.performedFor gM.gid (Scope.ofCode sc) = true) ∧ sBusy.performedFor gBusy.gid (Scope.ofCode 5) = false ∧ executesIn gM 0 (ma 7 6 3 0 1 0).toHdr = true ∧ Unheld gM ∧ (sreg gM 6).toNat % 16 = 0 ∧ windowOf (sreg gM 6) = some .global ∧
    readyAt (sBar (2 * 2 ^ 40)) (sreg gM 6) needRW = true ∧ readyAt (sBar (2 * 2 ^ 40)) (sreg gM 6) needR = true ∧ (sBar (2 * 2 ^ 40)).monRoom .global 0x200100 = true ∧
    (let s := sBar (2 * 2 ^ 40); tbarBad (s.homeDword 0 1 0x200100) (s.homeDword 0 1 0x200108) = false) ∧ (let s := sBar 0; tbarBad (s.homeDword 0 1 0x200100) (s.homeDword 0 1 0x200108) = true) := by
  refine ⟨issues_of _ _ (by decide +kernel), ?_⟩
  unfold Unheld
  decide +kernel

theorem witness_memoryWaits : Issues sM gM 0 ∧ Unheld gM ∧ (Instr.mwait (ma 9 6 3 7 0 0)).wellFormed = true ∧ (Instr.waitm (rr 9 6 3 7 0)).wellFormed = true ∧ (Instr.waitm (rr 9 0 0 7 2)).wellFormed = true ∧
    (Instr.mwait (ma 9 6 3 7 5 2)).wellFormed = true ∧ sM.performedFor gM.gid (some .device) = true ∧ sBusy.performedFor gBusy.gid (some .device) = false ∧
    executesIn gM 0 (ma 9 6 3 7 0 0).toHdr = true ∧
    (match (frameOf (.mwait (ma 9 6 3 7 0 0)) (ma 9 6 3 7 0 0).toHdr sM gM 0).waitPlace (sreg gM 6) 4 with
      | .ok (c, sp, attr, addr) => c.k == 0 && sp == .global && attr == 0 && decide (c.s.group? 0 = some gM) &&
          c.s.monRoom sp addr && compareWord .ne false false (c.s.locWord sp attr 1 addr 4) (sreg gM 3) && !compareWord .eq false false (c.s.locWord sp attr 1 addr 4) (sreg gM 3)
      | _ => false) = true := by
  refine ⟨sM_issues, ?_⟩
  unfold Unheld
  decide +kernel

theorem witness_timeWords : Issues sM gM 0 ∧ (Instr.getm (rr 0 0 0 0 0)).wellFormed = true ∧ WritableRows gM [0, 1] ∧ (Instr.step (ri 7 0 0 1)).wellFormed = true ∧ (Instr.step (ri 7 0 0x3FFFF 0)).wellFormed = true ∧
    sM.performedFor gM.gid (some .system) = true ∧ (sM.part gM.part).fixes = [] ∧ gM.part < 40 ∧ sBusy.performedFor gBusy.gid (some .system) = false ∧
    (∀ m < 2, let w : RI := { ri 7 0 0 (BitVec.ofNat 6 m) with pg := 1 }; (Instr.step w).wellFormed = true ∧ executesIn gM 0 w.toHdr = false ∧ executesIn gBusy 0 w.toHdr = false) := by
  refine ⟨sM_issues, ?_⟩
  unfold WritableRows
  decide +kernel

theorem witness_waitsEnd : sM.performedFor gM.gid (some .block) = true ∧ sBusy.performedFor gM.gid (some .block) = false ∧ (∀ w ∈ [Wait.tbar 9 5 true (some 0), .mwait 9 5 none (some 0), .mwait 9 5 (some .block) (some 0), .waitm 9 none 0, .xpair 9 1 (some 0), .sleep 0],
      (labOf (waitingFor w)).group? 0 = some (waitingFor w) ∧ (entry (waitingFor w) 0).wait = w) ∧ (0 : Dword).toNat ≤ (lab.time (dieOf 0)).toNat ∧
    (let m : Mon := { id := 5, space := .global, addr := 0x200100, part := 0, gen := 1, test := .ownSet, who := .split 0 0, hit := some 1 }
      let s : State := { labOf (waitingFor (.waitm 9 (some 5) 0)) with mons := [m] }
      (s.mons.find? fun x => x.id == 5) = some m ∧ m.who = .split 0 0 ∧ s.hitOf m = some 1) ∧
    (let m : Mon := { id := 5, space := .global, addr := 0x200100, part := 0, gen := 1, test := .phaseNot true, who := .split 0 0, hit := none }
      let s : State := { labOf (waitingFor (.tbar 9 5 true (some 0))) with mons := [m] }
      (s.mons.find? fun x => x.id == 5) = some m ∧ (entry (waitingFor (.tbar 9 5 true (some 0))) 0).wait = .tbar 9 5 true (some 0)) := by decide +kernel

/-- A block whose barrier 15 has been armed as long as its limit allows. -/
def oldBlock : Block := { bootBlock with bars := bootBlock.bars.set 15 { armed := true, age := 1024, limit := 1, stalled := false } }

theorem witness_barrierStall : { sM with blocks := [oldBlock] }.block? oldBlock.bid = some oldBlock ∧ 15 < oldBlock.bars.length ∧ resident oldBlock = true ∧ (barOf oldBlock 15).armed = true ∧ (barOf oldBlock 15).stalled = false ∧
    (barOf oldBlock 15).limit ≠ 0 ∧ (barOf oldBlock 15).limit.toNat * 1024 ≤ (barOf oldBlock 15).age := by decide +kernel

/-- The group with a tile's base in s2 and a scratch base in s4, and a gang of its slot 0 and slot 1 in s3. -/
def gG : Group := setS gM 3 (2 + 1 * 2 ^ 9)
/-- A GANG of slots 0 and 1. -/
def gang2 : Dword := 2 + 1 * 2 ^ 9
/-- Two groups of one block with that gang; the second has reached its MMA first. -/
def gGang : Group := { gM with gang := gang2 }
@[inherit_doc gGang]
def gGang1 : Group := setEntry { gM with gid := 1, slot := 1, group := 1, gang := gang2, tileBase := 16 } 0 { entry gM 0 with state := .gangPark, wait := .mma 0 }
/-- An `mma.bf16` of tile 0 from v16 and v24. -/
def wMma : RR := rr 0 16 24 0 0
/-- The rendezvous at which the second group waits. -/
def rendOne (m : BitVec 6) : Rendezvous :=
  { core := 0, m := m, gang := gang2, bsc := 0, members := [({ gid := 1, tile := 0, unit := 16, a := 16, b := 24, c := 0 }, 0)] }
def sGang (z : List Rendezvous) : State := { labOf gGang with groups := [gGang, gGang1], rends := z }

theorem sGang_issues (z : List Rendezvous) : Issues (sGang z) gGang 0 := by
  refine ⟨⟨rfl, ?_, by decide, by decide +kernel, rfl, rfl⟩, by decide +kernel⟩
  have : gGang.gid = 0 := rfl
  simp [sGang, State.group?, this]

/-- The places of a tile move. -/
def tileGo (s : State) (g : Group) (wr scr : Bool) (r : Nat) : Bool :=
  let x := s.resolve { g with helpers := 0 } (if wr then needW else needR) wr ((List.range 32).map fun i => (0, tileVa (sreg g r) 256 i))
  x.2.2.isNone && x.2.1.length == 32 && (wr || !x.1.weirHeld g 128 x.2.1) && x.2.1.all fun a => if scr then a.space == .scratch && !x.1.nearBusy g.gid a.addr && !x.1.nearAhead g .scratch a.addr else a.space == .global && !x.1.homeBehind g a.attr a.addr 128

theorem witness_gangAndTiles : Issues sM gM 0 ∧ Unheld gM ∧ Covered sM gM 15 ∧ (Instr.gangset (rr 7 3 0 0 0)).wellFormed = true ∧ gM.mmas = [] ∧ (sM.leaveGang gM).group? gM.gid = some gM ∧ gangStatus sM gM 0 = 0 ∧ gangStatus sM gM 3 = 1 ∧
    gangStatus sM gM gang2 = 2 ∧ (Instr.opfence (rr 0 0 0 0 0)).wellFormed = true ∧ sM.opfenceDone gM = true ∧ sBusy.opfenceDone gBusy = false ∧
    (∀ m < 2, (Instr.mmwait (rr 0 0 0 0 (BitVec.ofNat 6 m))).wellFormed = true) ∧ gM.matErr = [] ∧ (Instr.tzero (rr 15 0 0 0 0)).wellFormed = true ∧ 15 < gM.tileCnt ∧
    (∀ m ∈ [0, 0x10], (Instr.tld (rr 15 2 8 0 (BitVec.ofNat 6 m))).wellFormed = true ∧ (Instr.tst (rr 15 2 8 0 (BitVec.ofNat 6 m))).wellFormed = true) ∧
    (∀ wr : Bool, (∀ i < 32, sM.addrFault 0 128 (some .global) (tileVa (sreg gM 2) 256 i) = none ∧ sM.watched gM (tileVa (sreg gM 2) 256 i) 128 (!wr) wr = false ∧
      sM.addrFault 0 128 (some .scratch) (tileVa (sreg gM 4) 256 i) = none) ∧ tileGo sM gM wr false 2 = true ∧ tileGo sM gM wr true 4 = true) ∧
    (lowestLane (entry gM 0).ex).getD 0 = 0 ∧ tileStride (sreg gM 8) = 256 ∧ sM.tileBusy gM 15 = false := by
  refine ⟨sM_issues, ?_⟩
  unfold Unheld Covered
  decide +kernel

theorem witness_matrixErr : let g : Group := { gM with mmas := [4, 5], matErr := [(3, 0)] }; ¬ g.mmas.length ≤ 1 ∧ 1 < g.mmas.length ∧ ({ g with mmas := [] } : Group).mmas.length ≤ 0 := by decide +kernel

theorem witness_mma : (∀ z, Issues (sGang z) gGang 0) ∧ (Instr.mma wMma).wellFormed = true ∧ gGang.mmas.length < 2 ∧ bScratch wMma.m = false ∧ fieldN gM.gang 2 0 = 0 ∧ fieldN gGang.gang 2 0 ≠ 0 ∧
    (match mmaCheck gGang wMma with | .ok () => true | _ => false) = true ∧ (match mmaCheck gM wMma with | .ok () => true | _ => false) = true ∧
    ((sGang []).rends.find? fun z => z.core == gGang.core && (gangSlots z.gang).contains gGang.slot) = none ∧
    (∀ m ∈ [(0 : BitVec 6), 2], ((sGang [rendOne m]).rends.find? fun z => z.core == gGang.core && (gangSlots z.gang).contains gGang.slot) = some (rendOne m)) ∧
    (∀ x ∈ (rendOne 0).members, x.1.gid ≠ gGang.gid) ∧ (rendOne 0).members.length + 1 = fieldN (rendOne 0).gang 2 0 ∧ ((rendOne 0).members.map fun m => m.1.gid).Nodup ∧
    (let z' : Rendezvous := { rendOne 0 with members := (rendOne 0).members ++ [(memberOf (sGang [rendOne 0]) gGang wMma, 0)] }
      let s' : State := { (sGang [rendOne 0]).setGroup (gangParked gGang 0 wMma) with rends := [z'] }
      (s'.mmaEnv z'.m 0 1 ((s'.inOrder z').map (·.1)) []).badScale = none ∧ (s'.inOrder z').map (·.1.gid) = [0, 1] ∧ (s'.group? 0).map (·.core) = some gGang.core ∧ z'.core = gGang.core ∧ ∀ m ∈ (rendOne 0).members, ((sGang [rendOne 0]).group? m.1.gid).isSome = true) ∧
    (let w : RR := { wMma with b := 4, m := 8 }; (Instr.mma w).wellFormed = true ∧ bScratch w.m = true ∧ (sGang []).bscFault 0 w.m (sreg gGang 4) = none ∧
      (match mmaCheck gGang w with | .ok () => true | _ => false) = true) := by
  refine ⟨sGang_issues, ?_⟩
  decide +kernel

/-- A product of the two groups. -/
def prodTwo : Product :=
  { id := 5, core := 0, m := 0, bsc := 0, members := [{ gid := 0, tile := 0, unit := 0, a := 16, b := 24, c := 0 }, { gid := 1, tile := 0, unit := 16, a := 16, b := 24, c := 0 }], hazard := false, gates := [], kept := [], left := [] }

theorem witness_product : let s : State := { sGang [] with groups := [{ gGang with since := [] }, { gGang1 with since := [] }], products := [prodTwo] }
    s.products.find? (fun x => x.core == 0) = some prodTwo ∧ prodTwo.gates = [] ∧ prodTwo.hazard = false ∧ s.mmaHazard prodTwo.m prodTwo.bsc prodTwo.members prodTwo.kept = false ∧ (prodTwo.members.map (·.gid)).Nodup ∧
      (prodTwo.members.map (·.unit)).Nodup ∧ prodTwo.members ≠ [] ∧ (∀ x ∈ prodTwo.members, ((s.group? x.gid).map fun g => (g.core, g.part)) = some (0, 0)) := by decide +kernel

theorem witness_engineWords : Issues sM gM 0 ∧ executesIn gM 0 (rr 0 2 6 3 0).toHdr = true ∧ (Instr.trav (rr 0 2 6 3 0)).wellFormed = true ∧ recordAt (sreg gM 2) ∧ recordAt (sreg gM 6) ∧ (joinBatch gM.trv).isSome = true ∧
    (Instr.rcfence (rr 0 0 0 0 0)).wellFormed = true ∧ (Instr.xchain (rr 0 2 3 0 0)).wellFormed = true ∧ (sM.channel (clusterOf gM.core) (fieldN (sreg gM 3) 3 0)).chains.length < Config.chainHeads ∧
    (Instr.qsub (rr 0 2 0 0 0)).wellFormed = true ∧ gM.qntq.length < 255 := by
  refine ⟨sM_issues, ?_⟩
  unfold recordAt
  decide +kernel

theorem witness_sluice : Issues sM gM 0 ∧ executesIn gM 0 (ri 7 3 15 0).toHdr = true ∧ sM.ownsSlot gM.part (3 * fieldN (ri 7 3 15 0).imm 3 0) = true ∧ (Instr.slset (ri 7 3 15 0)).wellFormed = true ∧
    (Instr.slpulse (ri 0 0 15 0)).wellFormed = true ∧ (Instr.slwait (ri 0 0 15 0)).wellFormed = true ∧ (sM.slLine gM.core 15).waiters = [] ∧ (sM.slLine gM.core 15).count = 0 ∧
    ((sM.putSlLine { sM.slLine 0 15 with count := 0xFFFF }).slLine 0 15).count ≠ 0 ∧ sM.slBad 0 ((sreg gM 3).truncate 20) = false ∧ sM.slBad 0 0xFFFFF = true ∧
    (let s := sM.putSlLine { sM.slLine 0 15 with count := 1, waiters := [.trav 5] };
      (s.slLine 0 15).count ≠ 0 ∧ (s.slLine 0 15).waiters = [.trav 5] ∧ (s.slLine 0 15).core = 0 ∧ (s.slLine 0 15).line = 15) := by
  refine ⟨sM_issues, ?_⟩
  decide +kernel

/-- A record of one element of 4 bytes at an address: BASE, RANK 1 and ESZ 2, EXT 0 (R259). -/
def recWords (base : Nat) : List Nat := [base, 0x12, 0, 0, 0, 0, 0, 0]
/-- Two records at 0x40200000 and 0x40200100 and a command from one to the other. -/
def travOne : TravCmd := { id := 5, gid := 0, part := 0, core := 0, batch := 0, src := 0x40200000, dst := 0x40200100, dmw := 2 * 2 ^ 52 + 1 * 2 ^ 48 + 2, gates := [], recs := none }
def sTrav : State := { dwordsAt (dwordsAt sM 0x200000 (recWords 0x40210000)) 0x200100 (recWords 0x40210080) with travs := [travOne] }

/-- The bytes of a record found. -/
def recGot (x : State × RecRead) : List Byte := match x.2 with | .got b => b | _ => []

theorem witness_traverse : sTrav.travs.find? (fun x => x.id == 5 && x.recs.isNone) = some travOne ∧ travOne.gates = [] ∧
    (let x := sTrav.readRec 0 0 travOne.src; let y := x.1.readRec 0 0 travOne.dst;
      (match x.2, y.2 with | .got _, .got _ => true | _, _ => false) = true ∧ travCheck travOne.dmw (recGot x) (recGot y) = none ∧ travCheck 0 (recGot x) (recGot y) = some (.elemSize, false) ∧
      elemPairs travOne.dmw (shapeOf (recGot x)) (shapeOf (recGot y)) ((mappingOf travOne.dmw (shapeOf (recGot x)) (shapeOf (recGot y))).getD []) = [(0x40210000, 0x40210080)] ∧
      sTrav.dataPlace 0 0 0x40210000 4 needR = .mem 0 0x210000 ∧ sTrav.dataPlace 0 0 0x40210080 4 needW = .mem 0 0x210080 ∧
      (sTrav.engSeen 0 0 0x40210000 needR).dataPlace 0 0 0x40210000 4 needR = .mem 0 0x210000 ∧
      ((sTrav.engSeen 0 0 0x40210000 needR).engSeen 0 0 0x40210080 needW).dataPlace 0 0 0x40210080 4 needW = .mem 0 0x210080 ∧ sTrav.checks.contains (.trav 5, 0) = false ∧ ({ sTrav with checks := [(.trav 5, 0)] } : State).checks.contains (.trav 5, 0) = true ∧ placesMeet (.mem 0 0x210000) 4 (.mem 0 0x210080) 4 = false) := by
  decide +kernel

/-- A transfer record at 0x40200000 whose OWN is as given, of 64 bytes, the last of its chain or not (R265). -/
def sXfer (own next : Nat) : State :=
  (dwordsAt sM 0x200000 [0x40210000, 0x40220000, 64, 0, next, own, 0, 0]).putChannel { sM.channel 0 2 with chains := [{ gid := 0, part := 0, core := 0, head := 0x40200000 }] }

theorem witness_copyChannels : (∀ own < 2, ∀ next ∈ [0, 0x40200040], let x := (sXfer own next).channel 0 2; let s := (sXfer own next).engSeen 0 0 0x40200028 needRW
      x.chains.map (·.head) = [0x40200000] ∧ x.parked = none ∧ x.cur = none ∧ s.dataPlace 0 0 0x40200028 8 needRW = .mem 0 0x200028 ∧ ((s.recallAt 0 1 0x200028 8).placeRead 1 8 (.mem 0 0x200028)).2 = false ∧
      (s.homeDword 0 1 0x200028).getLsbD 0 = (own == 1) ∧ (s.recallAt 0 1 0x200028 8).monRoom .global 0x200028 = true ∧
      (let r := (s.recallAt 0 1 0x200028 8).readRec 0 0 0x40200000; let f := xferOf ((s.recallAt 0 1 0x200028 8).homeDword 0 1 0x200028) (recGot r); let pieces := copyPieces f.src f.dst (f.len / 32 + 3) f.len;
        f.bad = false ∧ f.tbar = 0 ∧ f.next = BitVec.ofNat 64 next ∧ pieces.length = 1 ∧ (r.1.copyMove (.copy 0 2) 0 0 0 1 0 pieces).2.isNone = true ∧
        (∀ p ∈ pieces, r.1.dataPlace 0 0 p.1 p.2.2 needR = .mem 0 0x210000 ∧ r.1.dataPlace 0 0 p.2.1 p.2.2 needW = .mem 0 0x220000) ∧ placesMeet (.mem 0 0x210000) 64 (.mem 0 0x220000) 64 = false)) ∧
    (let m : Mon := { id := 5, space := .global, addr := 0x200028, part := 0, gen := 1, test := .ownSet, who := .channel 0 2, hit := some 1 }
      let s : State := { (sXfer 0 0).putChannel { (sXfer 0 0).channel 0 2 with parked := some 5 } with mons := [m] }
      (s.channel 0 2).parked = some 5 ∧ (s.mons.find? fun y => y.id == 5) = some m ∧ (s.hitOf m).isSome = true) ∧
    (let s := (dwordsAt (sXfer 1 0) 0x200018 [1]).engSeen 0 0 0x40200028 needRW; let r := (s.recallAt 0 1 0x200028 8).readRec 0 0 0x40200000;
      (match r.2 with | .got _ => true | _ => false) = true ∧ (xferOf ((s.recallAt 0 1 0x200028 8).homeDword 0 1 0x200028) (recGot r)).bad = false) ∧
    (let s := (dwordsAt (sXfer 3 0) 0x200018 [0]).engSeen 0 0 0x40200028 needRW; let r := (s.recallAt 0 1 0x200028 8).readRec 0 0 0x40200000;
      (match r.2 with | .got _ => true | _ => false) = true ∧ (xferOf ((s.recallAt 0 1 0x200028 8).homeDword 0 1 0x200028) (recGot r)).bad = true) := by decide +kernel

/-- A quantisation of one block of FP32 zeros from 0x40210000. -/
def qntOne : QntCmd := { id := 5, gid := 0, part := 0, die := 0, core := 0, addr := 0x40200000 }
def sQnt (src nblk : Nat) : State := { dwordsAt sM 0x200000 [src, 0x40220000, 0x40230000, nblk, 0, 0, 0, 0] with qnts := [qntOne] }

theorem witness_quantisation : (∀ c ∈ [(0x40210000, 1), (0x40210004, 1), (0x40210000, 2 ^ 32)], let s := (sQnt c.1 c.2).engSeen 0 0 qntOne.addr needR
      (s.qnts.find? fun x => x.die == 0) = some qntOne ∧ s.dataPlace 0 0 qntOne.addr 64 needR = .mem 0 0x200000 ∧ (s.placeRead 1 64 (.mem 0 0x200000)).2 = false ∧
      (let q := qntOf (s.placeRead 1 64 (.mem 0 0x200000)).1;
        q.bad = (c.2 == 2 ^ 32) ∧ ((q.src.toNat % qntSize q = 0 ∧ q.dst.toNat % 32 = 0) ↔ c.1 = 0x40210000))) ∧
    (let s0 := (sQnt 0x40210000 1).engSeen 0 0 qntOne.addr needR; let q := qntOf (s0.placeRead 1 64 (.mem 0 0x200000)).1;
      let s := (((s0.recallAt 0 1 0x200000 64).engSeen 0 0 q.src needR).engSeen 0 0 q.dst needW).engSeen 0 0 q.scales needW;
      q.nblk = 1 ∧ q.supplied = false ∧ s0.dataPlace 0 0 q.src 128 needR = .mem 0 0x210000 ∧ s0.dataPlace 0 0 q.dst 32 needW = .mem 0 0x220000 ∧ s0.dataPlace 0 0 q.scales 1 needW = .mem 0 0x230000 ∧ s.dataPlace 0 0 q.src 128 needR = .mem 0 0x210000 ∧ s.dataPlace 0 0 q.dst 32 needW = .mem 0 0x220000 ∧ s.dataPlace 0 0 q.scales 1 needW = .mem 0 0x230000 ∧
      (s.placeRead 1 128 (.mem 0 0x210000)).2 = false ∧ Num.d2p8scale (qntValues q (s.placeRead 1 128 (.mem 0 0x210000)).1) ≠ 0xFF) := by decide +kernel

/-- A group in its trap handler, and one with a handler that is not in it. -/
def gHm : Group := { gM with hmode := true, trapbase := 0x40300000, trappc := 0x40100008, traplanes := 3 }
def sHm : State := labOf gHm
theorem sHm_issues : Issues sHm gHm 0 := issues_of _ _ (by decide +kernel)

theorem witness_systemRegisters : Issues sM gM 0 ∧ (∀ sel ∈ [0x000, 0x00C, 0x010, 0x012, 0x013, 0x015, 0x016, 0x020, 0x025, 0x028, 0x02B],
      (Instr.getsr (ri 1 0 (BitVec.ofNat 18 sel) 1)).wellFormed = true ∧ (sel ≠ 0 → (Instr.getsr (ri 7 0 (BitVec.ofNat 18 sel) 0)).wellFormed = true) ∧ (Instr.setsr (ri 0 3 (BitVec.ofNat 18 sel) 0)).wellFormed = true) ∧
    srSel (ri 0 3 0x14 0) = 0x014 ∧ 8 ≤ gM.allot ∧ gM.allot ≤ 512 ∧ gM.trv.count < 4096 ∧ gM.qntq.length < 256 ∧ sM.block? gM.bid = some bootBlock ∧ active gM 0 (ri 1 0 0 1).toHdr ≠ 0 ∧ executesIn gM 0 (ri 1 0 0 1).toHdr = true ∧ WritableRows gM [1] := by
  refine ⟨sM_issues, ?_⟩
  unfold WritableRows
  decide +kernel

theorem witness_breakpoint : Issues sM gM 0 ∧ (Instr.bkpt (ri 0 0 0x20005 0)).wellFormed = true ∧ executesIn gM 0 (ri 0 0 0x20005 0).toHdr = true ∧ ((ri 0 0 0x20005 0).imm.getLsbD 17 && (sM.part 0).dbkpt) = false ∧
    (let s := sM.modPart 0 fun x => { x with dbkpt := true }; s.cur = some (0, 0) ∧ s.group? 0 = some gM ∧ (s.part 0).dbkpt = true) ∧
    (∀ m < 2, (Instr.eret (rr 0 0 0 0 (BitVec.ofNat 6 m))).wellFormed = true) ∧ Issues sHm gHm 0 ∧ gHm.hmode = true ∧ gM.hmode = false := by
  refine ⟨sM_issues, ?_, ?_, ?_, ?_, ?_, sHm_issues, ?_⟩ <;> decide +kernel

/-- A debugger's group with the other group's number in s3, its own in s8, and the number of a group that does not exist in s9. -/
def gDbg : Group := setS (setS { gHm with nblocks := 2 } 3 0x400) 9 0x801
def sDbg (h : Group) : State := twoOf gDbg h
theorem sDbg_issues (h : Group) : Issues (sDbg h) gDbg 0 := by
  refine ⟨⟨rfl, ?_, by decide, by decide +kernel, rfl, rfl⟩, by decide +kernel⟩
  have : gDbg.gid = 0 := rfl
  simp [sDbg, twoOf, State.group?, this]

theorem witness_debugger : (∀ h, Issues (sDbg h) gDbg 0) ∧ (∀ m < 3, (Instr.haltg (rr 7 3 (if m = 2 then 4 else 0) 0 (BitVec.ofNat 6 m))).wellFormed = true) ∧ (Instr.stepg (rr 7 3 8 0 0)).wellFormed = true ∧
    (Instr.watchset (rr 7 2 3 0 3)).wellFormed = true ∧ executesIn gDbg 0 (rr 7 3 0 0 0).toHdr = true ∧ gDbg.hmode = true ∧
    (∀ x ∈ [(3, some 1), (8, some 0), (9, none)], let a := sreg gDbg x.1; (sDbg gB).peerGid gDbg.lid (fieldN a 37 14) (fieldN a 13 10) (fieldN a 9 0) = x.2) ∧
    (sDbg gB).group? 1 = some gB ∧ (let s : State := { sDbg gB with groups := [gDbg], saved := [gB] }; s.group? 1 = none ∧ s.anyGroup? 1 = some gB ∧ s.peerGid gDbg.lid 0 1 0 = some 1) ∧ gB.halt = false ∧ stepReady { gB with halt := true } 0 = true ∧ stepReady { gB with halt := true } 1 = false ∧ stepReady { gB with halt := true } 4 = true ∧
    (sreg gDbg 4).toNat % 128 = 0 ∧ windowOf (sreg gDbg 4) = some .scratch ∧ (sDbg gB).inWindow 0 (sreg gDbg 4) .scratch = true ∧ (sDbg gB).nearBusy 0 (storageKey 0 (sreg gDbg 4) .scratch) = false := by
  refine ⟨sDbg_issues, ?_⟩
  decide +kernel

/-- The state with a debug mailbox of n entries at 0x40210000, `w` of them written. -/
def sMbox (n w : Nat) : State := (dwordsAt sM 0x210000 [w, 0, n, 0, 0, 0, 0, 0]).modPart 0 fun x => { x with mbox := 0x40210000 }

theorem witness_mailbox : Issues sM gM 0 ∧ (Instr.dbgmb (rr 7 2 3 4 0x3F)).wellFormed = true ∧ sM.performedFor gM.gid (some .system) = true ∧ sBusy.performedFor gBusy.gid (some .system) = false ∧ (sM.part 0).mbox = 0 ∧
    (let w : RR := { rr 7 2 3 4 0x3F with pg := 1 }; (Instr.dbgmb w).wellFormed = true ∧ executesIn gM 0 w.toHdr = false ∧ executesIn gBusy 0 w.toHdr = false) ∧ recordAt 0x40210000 ∧
    (∀ c ∈ [(4, 1, true, false), (4, 4, true, true), (3, 0, false, false)], let s := sMbox c.1 c.2.1
      (match (frameOf (.dbgmb (rr 7 2 3 4 0x3F)) (rr 7 2 3 4 0x3F).toHdr s gM 0).homePlace 0x40210000 needRW with
        | .ok (c1, attr, pa) => let x := mailbox c1.s 1 attr pa
          decide (c1.s.group? 0 = some gM) && capOk x.2.2 == c.2.2.1 && (x.1 - x.2.1 == BitVec.ofNat 64 x.2.2) == c.2.2.2 &&
            (match c1.homePlace (0x40210000 + 64 + 64 * BitVec.ofNat 64 (x.1.toNat % x.2.2)) needW with | .ok (c2, _, _) => decide (c2.s.group? 0 = some gM) | _ => false)
        | _ => false) = true) := by
  refine ⟨sM_issues, ?_⟩
  unfold recordAt
  decide +kernel

/-- A launch with a second role of 256 rows and a third of 512. -/
def roleLaunch : Launch := { bootLaunch with params := { bootLaunch.params with roles :=
  bootLaunch.params.roles ++ [{ entry := 0x40100100, prio := 1, movable := false, regs := 256, groups := 0 }, { entry := 0x40100200, prio := 0, movable := false, regs := 520, groups := 0 }] } }
def sRole : State := { sM with launches := [roleLaunch] }

theorem witness_roleSwitches : Issues sRole gM 0 ∧ executesIn gM 0 (ri 7 0 1 0).toHdr = true ∧ (∀ r < 4, (Instr.rolesw (ri 7 0 (BitVec.ofNat 18 r) 0)).wellFormed = true) ∧ sRole.roleOf gM 3 = none ∧
    ((sRole.roleOf gM 1).map (·.regs)) = some 256 ∧ (entry gM 0).rv = false ∧ (∀ j < 4, j ≠ 0 → (entry gM j).state = .free ∧ (entry gM j).wait = .none) ∧ sRole.writesOut gM = false ∧ gM.mmas = [] ∧
    256 ≤ gM.allot + sRole.poolFree gM ∧ { sRole with rets := [retOne] }.writesOut gM = true ∧
    (∀ grow : Bool, let g := waitingFor (.rolesw (some 9) 1 grow); let s := (labOf g); s.group? 0 = some g ∧ (entry g 0).state = .waitPark ∧ (entry g 0).wait = .rolesw (some 9) 1 grow ∧
      (∀ x ∈ s.groupsOf g.bid, growing x = true → linearOf g ≤ linearOf x)) := by
  refine ⟨issues_of _ _ (by decide +kernel), ?_⟩
  decide +kernel

theorem witness_maintenance : Issues sM gM 0 ∧ (∀ l2 < 2, (Instr.cwb { ml 0 6 0 0 with d := BitVec.ofNat 9 l2 }).wellFormed = true ∧ (Instr.cinv { ml 0 6 0 0 with d := BitVec.ofNat 9 l2 }).wellFormed = true) ∧
    active gM 0 (ml 0 6 0 0).toHdr ≠ 0 ∧ Unheld gM ∧ active gM 0 (ml 0 6 0 0).toHdr &&& gM.helpers = 0 ∧ ReadableRows gM (addrRows 6 false) ∧
    (∀ l < 32, (active gM 0 (ml 0 6 0 0).toHdr).getLsbD l = true → windowOf (laneVa gM 6 false 0 l) = some .global) ∧
    (let r := sM.resolve gM ⟨false, false, false⟩ false ((maskLanes (active gM 0 (ml 0 6 0 0).toHdr)).map fun l => (l, laneVa gM 6 false 0 l));
      r.2.2 = none ∧ ∀ a ∈ r.2.1, a.attr ≠ 1 → r.1.pendBusy gM.core (a.addr / 128) = false ∧ r.1.quiet (a.addr / 128) = true) := by
  refine ⟨sM_issues, ?_⟩
  unfold Unheld ReadableRows
  decide +kernel

/-- The state with a page of sidecars (R301). -/
def sSide : State := { sM with dram := [(bootS1 + 8 * 0xF0, bootS1 + 0x10000 + 1), (bootS1 + 0x20000, 0x3F)].foldl bootStore sM.dram }

theorem witness_sitearm : Issues sM gM 0 ∧ Issues sSide gM 0 ∧ (Instr.sitearm (rr 7 2 0 0 0)).wellFormed = true ∧ executesIn gM 0 (rr 7 2 0 0 0).toHdr = true ∧ windowOf (sreg gM 2 &&& ~~~127) = some .global ∧ windowOf (sreg gM 4 &&& ~~~127) ≠ some .global ∧
    (∀ b : Bool, let s := if b then sSide else sM; let x := s.translate 0 0 (sreg gM 2 &&& ~~~127) needX
      (match x.2 with | .ok _ => true | _ => false) = true ∧ (x.1.sidecar 0 (sreg gM 2 &&& ~~~127)).isSome = b ∧
        ∀ y ∈ x.1.sidecar 0 (sreg gM 2 &&& ~~~127), x.1.homeBehind gM y.sideAttr y.side 16 = false ∧ (y.sideAttr ≠ 1 → x.1.cowLine (y.side / 128) = false)) := by
  refine ⟨sM_issues, issues_of _ _ (by decide +kernel), ?_⟩
  decide +kernel

/-- A site step of a code word at 0x100000. -/
def siteOne (widen : Bool) (expect : Dword) : SiteStep := { id := 5, part := 0, gen := 1, pa := 0x100000, side := 0x8020000, expect := expect, new := 0x43C0000000000000, widen := widen, core := 0, rewritten := false }

theorem witness_sites : ∀ widen : Bool, ∀ hit : Bool, let x := siteOne widen (if hit then 0x03C0000000000000 else 1); let s : State := { sSide with sites := [x] }
    let s1 := ((s.dropSite 5).recallURange x.pa 8).blurRange 1 x.pa 8
    (s.sites.find? fun y => y.id == 5 && (y.widen == widen)) = some x ∧ s.siteReady x = true ∧ (s1.codeWord x == x.expect) = hit ∧ x.attr = 0 ∧
      s1.peekPoison 0 1 x.pa 8 = false ∧ (let s' : State := { sSide with sites := [{ x with rewritten := true }] }; s'.siteReady { x with rewritten := true } = true ∧ (((s'.dropSite 5).recallURange x.side 1).blurRange 1 x.side 1).peekPoison 0 1 x.side 1 = false) := by decide +kernel

/-- A group whose p1 holds in lane 0 only; with a full split table; with the resume field taken as well. -/
def gBr : Group := setP gM 1 0xFFFFFFFF 1
@[inherit_doc gBr]
def gFull : Group := [1, 2, 3].foldl (fun g j => setEntry g j { entry gM 0 with ex := 0 }) gBr
@[inherit_doc gBr]
def gFullRv : Group := setEntry gFull 0 { entry gFull 0 with rv := true }
/-- The same with no lane left. -/
def gEx0 : Group := setEntry gBr 0 { entry gBr 0 with ex := 0 }

theorem witness_branches : (∀ g ∈ [gBr, gFull, gFullRv, gEx0], (labOf g).cur = some (g.gid, 0) ∧ (labOf g).group? g.gid = some g ∧ (entry g 0).state = .runnable ∧ stepping g = false ∧ g.hurt = [] ∧ g.rerun = none) ∧
    (let w : WI := { wi 0 5 0 with pg := 1 }; (Instr.bra w).wellFormed = true ∧ active gBr 0 w.toHdr = 1 ∧ (branched gBr 0 w.toHdr 0x40100028).isSome = true ∧ (branched gFull 0 w.toHdr 0x40100028).isSome = true ∧
      (branched gFullRv 0 w.toHdr 0x40100028).isSome = false ∧ active gEx0 0 w.toHdr = 0 ∧ (entry gEx0 0).ex = 0) ∧
    (let w : WI := { wi 0 5 0 with pg := 2 }; (entry gBr 0).ex ≠ 0 ∧ active gBr 0 w.toHdr = 0) ∧
    (∀ m < 2, (Instr.call { wi 0 5 (BitVec.ofNat 5 m) with pg := 1 }).wellFormed = true) ∧
    (∀ m < 2, ∀ pg ∈ [0, 1, 2], let w : WI := { wi 0 5 (BitVec.ofNat 5 m) with pg := pg }; (Instr.call w).wellFormed = true ∧ active gEx0 0 w.toHdr = 0 ∧ (pg = 2 → active gBr 0 w.toHdr = 0)) ∧ WritableRows gBr [0, 1] := by
  unfold WritableRows
  decide +kernel

/-- Rows of branch targets: v14 one target of all lanes, v15 two targets, v17 an address that is misaligned in lane 1. -/
def gTg : Group := [(14, rowOf .raw fun _ => 4), (15, rowOf .raw fun l => BitVec.ofNat 32 l), (16, rowOf .raw fun _ => 0x40100000), (18, rowOf .raw fun l => BitVec.ofNat 32 (0x40100000 + l))].foldl (fun g x => setRow g x.1 x.2) gM

theorem witness_targets : (labOf gTg).group? 0 = some gTg ∧ (Instr.brx (rr 0 2 14 0 0)).wellFormed = true ∧ (Instr.brx (rr 0 2 15 0 0)).wellFormed = true ∧ (Instr.ret (rr 0 16 0 0 0)).wellFormed = true ∧
    (Instr.ret (rr 0 18 0 0 0)).wellFormed = true ∧ active gTg 0 (rr 0 2 14 0 0).toHdr ≠ 0 ∧ active gTg 0 (rr 0 2 14 0 0).toHdr &&& gTg.helpers = 0 ∧ ReadableRows gTg [14] ∧ ReadableRows gTg [15] ∧
    ReadableRows gTg [16, 17] ∧ ReadableRows gTg [18, 19] ∧ (∀ l < 32, (brxTarget gTg (rr 0 2 15 0 0) l).toNat % 8 = 0 ∧ (retTarget gTg (rr 0 16 0 0 0) l).toNat % 8 = 0 ∧
      brxTarget gTg (rr 0 2 14 0 0) l = 0x40200020) ∧
    (retTarget gTg (rr 0 18 0 0 0) 1).toNat % 8 ≠ 0 ∧ (retTarget gTg (rr 0 18 0 0 0) 0).toNat % 8 = 0 ∧ (branchParts gTg 0 3 0 (brxTarget gTg (rr 0 2 15 0 0))).isSome = true ∧
    leaders 3 (brxTarget gTg (rr 0 2 15 0 0)) (brxTarget gTg (rr 0 2 15 0 0) 0) = [1] ∧ (branchParts gFull 0 3 0 (brxTarget gTg (rr 0 2 15 0 0))).isSome = true ∧
    (branchParts gFullRv 0 3 0 (brxTarget gTg (rr 0 2 15 0 0))).isSome = false ∧ notTaken gTg 0 (rr 0 2 14 0 0).toHdr = 0 := by
  unfold ReadableRows
  decide +kernel

/-- Groups at a join: lanes held for another PC; alone; with another split under way. -/
def gJ (rv : Bool) (other : SplitState) : Group := setEntry (setEntry gM 0 { entry gM 0 with rv := rv, rpc := 0x40100100, rmask := 4 }) 1 { entry gM 0 with state := other, pc := 0x40100200 }

theorem witness_joins : (∀ c ∈ [(true, SplitState.free), (false, .free), (false, .runnable)], let g := gJ c.1 c.2
      (labOf g).group? 0 = some g ∧ (entry g 0).state = .runnable ∧ (atJoin (entry g 0) (entry g 0).pc).rv = c.1 ∧ ((∀ x < 4, x ≠ 0 → (entry g x).state = .free) ↔ c.2 = .free) ∧
      (∀ x < 4, x ≠ 0 → (entry g x).state ≠ .joinPark)) ∧ (Instr.join (rr 0 0 0 0 0)).wellFormed = true ∧ (Instr.joinLabel (wi 0 5 1)).wellFormed = true := by decide +kernel

theorem witness_exits : Issues sM gM 0 ∧ (Instr.exit (rr 0 0 0 0 0)).wellFormed = true ∧ sM.block? gM.bid = some bootBlock ∧ gM.helpers = 0 ∧ (∀ n < 16, (barOf bootBlock n).armed = false) ∧ sM.rends = [] ∧
    (entry gM 0).own &&& ~~~active gM 0 (rr 0 0 0 0 0).toHdr ≠ 0 ∧ (∀ j < 4, (entry gM j).state ≠ .joinPark) ∧
    (entry gA 0).own &&& ~~~active gA 0 (rr 0 0 0 0 0).toHdr = 0 ∧ (entry gA 0).rv = false ∧ (∀ j < 4, j ≠ 0 → (entry gA j).state = .free) := by
  refine ⟨sM_issues, ?_⟩
  decide +kernel

/-- A group whose only lane leaves its split with the resume field taken, by no lane or by one. -/
def gRes (rm : Mask) : Group := setEntry gBr 0 { entry gBr 0 with own := 1, ex := 1, rv := true, rpc := 0x40100100, rmask := rm }
theorem witness_exitResumes : Issues (labOf (gRes 0)) (gRes 0) 0 ∧ Issues (labOf (gRes 0x80000000)) (gRes 0x80000000) 0 ∧ ∀ b : Bool, let rm : Mask := if b then 0x80000000 else 0; (entry (gRes rm) 0).own &&& ~~~active (gRes rm) 0 (rr 0 0 0 0 0).toHdr = 0 ∧ (entry (gRes rm) 0).rv = true ∧
    (entry (gRes rm) 0).rmask &&& active (gRes rm) 0 (rr 0 0 0 0 0).toHdr = 0 ∧ ∀ j < 4, (entry (gRes rm) j).state ≠ .joinPark :=
  ⟨issues_of _ _ (by decide +kernel) (by decide +kernel), issues_of _ _ (by decide +kernel) (by decide +kernel), by decide +kernel⟩

theorem witness_time : Issues sM gM 0 ∧ (Instr.nop { rr 0 0 0 0 0 with pg := 7 }).wellFormed = true ∧ (∀ m < 2, (Instr.yield (rr 0 0 0 0 (BitVec.ofNat 6 m))).wellFormed = true) ∧ sM.stageMove gM = none ∧ (frameOf (.yield (rr 0 0 0 0 1)) (rr 0 0 0 0 1).toHdr sM gM 0).stageWaits = false ∧
    (Instr.sleep (ri 0 0 0 0)).wellFormed = true ∧ (Instr.sleep (ri 0 0 0x3FFFF 0)).wellFormed = true ∧ (Instr.trap (ri 0 0 0x3FFFF 0)).wellFormed = true ∧ executesIn gM 0 (ri 0 0 0 0).toHdr = true := by
  refine ⟨sM_issues, ?_⟩
  decide +kernel

/-- The words of `rr`, `ri`, `ml` and `ms` in another form. -/
def rrF (f : Form) (d a b c : BitVec 9) (m : BitVec 6) : RR := { rr d a b c m with form := f }
@[inherit_doc rrF]
def riF (f : Form) (d a : BitVec 9) (imm : BitVec 18) (m : BitVec 6) : RI := { ri d a imm m with form := f }

theorem witness_genericWords : Issues sM gM 0 ∧ threadsOf gM (active gM 0 (rr 1 4 5 0 0).toHdr) ≠ 0 ∧ WritableRows gM [1] ∧
    (∀ f ∈ [Form.quick, .generic], (∀ p ∈ intOps, let w := rrF f 1 4 5 (if p.2.1 = 3 then 4 else 0) 0; (p.1 w).wellFormed = true ∧ (p.1 (nativeRR w 0)).wellFormed = true ∧ rowsOf (sources p.2.1 w) ⊆ [4, 5]) ∧
      (∀ p ∈ intImmOps, (p.1 (riF f 1 4 7 0)).wellFormed = true ∧ (p.1 (nativeRI (riF f 1 4 7 0) 0)).wellFormed = true) ∧
      (∀ p ∈ floatOps, let w := rrF f 1 8 (if p.2.1 = 1 then 0 else 9) (if p.2.1 = 3 then 8 else 0) 0; (p.1 w).wellFormed = true ∧ (p.1 (nativeRR w 0)).wellFormed = true ∧ rowsOf (sources p.2.1 w) ⊆ [8, 9]) ∧
      (let w : PP := { wCmp0 with form := f }; (Instr.cmp w).wellFormed = true ∧ (Instr.cmp (nativePP w 0)).wellFormed = true) ∧
      (∀ p ∈ loadOps, let w : ML := { ml 0 6 0 0 with form := f }; (p.1 w).wellFormed = true ∧ (p.1 (nativeML w 0)).wellFormed = true) ∧
      (∀ p ∈ storeOps, let w : MS := { ms 0 6 12 0 0 with form := f }; (p.1 w).wellFormed = true ∧ (p.1 (nativeMS w 0)).wellFormed = true)) ∧
    ReadableRows gM [4, 5] ∧ ReadableRows gM [8, 9] ∧ TagsAgree gM (integerTag 0) [4, 5] ∧ TagsAgree gM (floatFormat 0).2 [8, 9] ∧ (row gM 4).tag = .i32 ∧ (row gM 12).tag = .raw ∧
    sM.sidecar 0 (entry gM 0).pc = none := by
  refine ⟨sM_issues, ?_⟩
  unfold WritableRows ReadableRows TagsAgree
  decide +kernel

/-- A `cvt` of FP32 to INT32 in a form. -/
def wCvtF (f : Form) : RR := rrF f 1 8 0 0x40 (match f with | .generic => 0 | _ => 0x10)

theorem witness_genericCvt : ∀ f ∈ [Form.quick, .generic], (Instr.cvt (wCvtF f)).wellFormed = true ∧ (Instr.cvt (nativeCvt (wCvtF f) .f32)).wellFormed = true ∧ (cvtPlan (wCvtF f) .f32).isSome = true ∧
    (row gM 8).tag = .f32 ∧ (cvtPlan (wCvtF f) .f32).map (fun pl => (pl.d, pl.a.rows, rowsOf pl.b)) = some ([1], [8], []) := by decide +kernel

theorem witness_emptySplit : (labOf gEx0).group? 0 = some gEx0 ∧ (entry gEx0 0).ex = 0 ∧ (let w : RR := { rr 0 2 0 0 0 with z := 2 }; (Instr.brx w).wellFormed = true ∧ (rrSrc w .b).z = true) ∧
    (Instr.ret (rr 0 3 0 0 1)).wellFormed = true ∧ (sreg gEx0 2).toNat % 8 = 0 ∧ (sreg gEx0 3).toNat % 8 ≠ 0 ∧
    (let g : Group := { gEx0 with trapbase := 0x40300000 }; g.hmode = false ∧ BitVec.extractLsb' 3 61 g.trapbase ≠ 0 ∧ (labOf g).group? 0 = some g) := by decide +kernel

theorem witness_placement : sM.launch? 0 = some bootLaunch ∧
    (let l : Launch := { bootLaunch with lid := 7, nextSpan := 0 }; let s : State := { sM with launches := [l], groups := [], blocks := [] }
      s.launch? 7 = some l ∧ s.mayPlace l = true ∧ (s.dispatchSpan l).isSome = true) ∧
    (let l : Launch := { bootLaunch with nextSpan := 0, params := { bootLaunch.params with nspans := 2, roles := bootLaunch.params.roles.map fun r => { r with movable := true } } }
      let s : State := { sM with launches := [l] }
      s.launch? 0 = some l ∧ s.mayPlace l = true ∧ l.waved = false) := by decide +kernel

/-- A packet of a type with its fields, each a tag and its value's 64-bit words (R341, R342). -/
def packetOf (type : Nat) (fs : List (Nat × List Nat)) : List Byte :=
  let body := fs.flatMap fun f => (8 * f.2.length + f.1 * 2 ^ 16) :: f.2
  ((type + (body.length + 1) * 2 ^ 16 + 7 * 2 ^ 32) :: body).flatMap (leBytes 8)
/-- Queue 3 of partition 0, its descriptor at 0x40300000 and its ring at 0x40310000. -/
def q3 : Queue := { q := 3, desc := 0x40300000, descPa := none, enabled := true, ring := 0x40310000, log2 := 12, prio := 0, rdidx := 0, readAt := 0, st := .run, park := none, raw := none, nextPk := 0, open_ := [], block := none,
                    waitp := none, skip := 0, loop := none, runs := [] }
/-- The state with that queue. -/
def sQ (x : Queue) : State := sM.modPart 0 fun y => { y with queues := [x] }
/-- Its packet copied. -/
def sPk (raw : List Byte) : State := sQ { q3 with raw := some raw }
/-- A completion signal to 0x40300800, and a watched word at 0x40300900 compared with 0. -/
def sigField : Nat × List Nat := (0x00C, [0x40300800, 5, 0])
@[inherit_doc sigField]
def watchField (cond : Nat) : Nat × List Nat := (0x010, [0x40300900, 0, cond])
/-- One valid packet of each type that starts. -/
def packets : List (List Byte) :=
  [packetOf 1 [(1, [1 + 1 * 2 ^ 32 + 1 * 2 ^ 48, 32]), (2, [0x40100000, 0]), (4, [64])], packetOf 2 [sigField], packetOf 3 [watchField 0], packetOf 3 [watchField 1], packetOf 4 [watchField 1, (0x011, [2])],
   packetOf 5 [watchField 0, (0x012, [1 + 2 * 2 ^ 32])], packetOf 6 [(0x013, [0x40300A00, 1])], packetOf 7 [], packetOf 9 [(0x030, [3, 1])]]

/-- The packet starts when its queue takes its turn (R343, R345). -/
def startsOk (s : State) (p q : Nat) (raw : List Byte) : Bool :=
  match s.takeTurn p q, s.queue? p q, validate raw with
  | some (r, s0), some x, .ok _ => r == raw && (match s0.rejectReason p x raw with | .ok none => true | _ => false)
  | _, _, _ => false

/-- A place translates, and its barrier is well formed or not. -/
def arrives (s : State) (bad : Bool) : Bool :=
  match s.cpPlace 0 0x40300800 needRW with | .ok a => ((s.recallTables 0 0x40300800).tbarUpdate a.1 1 a.2 (.arrive 5)).2.bad == bad | .error _ => false

theorem witness_arrivals : arrives (dwordsAt sM 0x300800 [2 * 2 ^ 40]) false = true ∧ arrives sM true = true := by decide +kernel

theorem witness_packetsStart : (∀ raw ∈ packets, startsOk (sPk raw) 0 3 raw = true) ∧ (match sM.cpRead 0 0x40300900 with | .ok v => v == 0 | _ => false) = true ∧
    (match sM.cpReads 0 0x40300A00 4 with | .ok bs => (match graphNodes [bs] with | .ok ns => ns.length == 1 | _ => false) | _ => false) = true := by decide +kernel

theorem witness_signals : (∀ op ∈ [SigOp.set, .add, .sub, .arrive], sM.badSignal 0 { addr := 0x40300800, operand := 5, op := op } = false) ∧ sM.badSignal 0 { addr := 0x40300808, operand := 5, op := .set } = true ∧
    (∀ n ∈ [needW, needRW], (match sM.cpPlace 0 0x40300808 n with | .ok (a, _) => a == 0 | _ => false) = true ∧ (match sM.cpPlace 0 0x40300800 n with | .ok (a, _) => a == 0 | _ => false) = true) ∧
    (sM.recallURange 0x300800 8).cohPoison 1 0x300800 8 = false := by decide +kernel

/-- Descriptor words (R337): ring, LOG2, WRIDX, RDIDX, STATUS, STATE. -/
def sDesc (enable wr : Nat) : State :=
  (dwordsAt (dwordsAt (dwordsAt sM 0x2FF000 [enable]) (0x2FF000 + 64 + 64 * 3) [0x40310000, 12, wr, 0, 0, 0, 0, 0]) 0x310000 [7 + 1 * 2 ^ 16 + 7 * 2 ^ 32]).modPart 0 fun x => { x with qtable := 0x402FF000, qtabUsed := 0x402FF000 }
/-- The queue of that descriptor. -/
def q4 : Queue := { q3 with desc := 0x402FF000 + 64 + 64 * 3 }

theorem witness_queues : (let s := sDesc 8 8; (s.part 0).state = .run ∧ (s.part 0).qtabUsed ≠ 0 ∧ s.queue? 0 3 = none ∧
      (match s.cpPlace 0 (s.part 0).qtabUsed needR with | .ok (a, pa) => a == 0 && (s.agentDword 0 1 pa).getLsbD 3 && (let s1 := (s.enableMon 0 pa (s.agentDword 0 1 pa)).cpSeen 0 (s.part 0).qtabUsed 1
          (match s1.cpPlace 0 q4.desc needR, s1.cpReads 0 q4.desc 8 with | .ok (b, _), .ok bs => b == 0 && !badDescriptor (fun i => dwordAt bs (8 * i)) | _, _ => false)) | _ => false) = true) ∧
    (∀ wr ∈ [0, 8, 4104], let s := (sDesc 8 wr).modPart 0 fun y => { y with queues := [q4] }
      ReadyQueue s 0 q4 ∧ q4.park = none ∧ q4.skip = 0 ∧ (match s.cpRead 0 (q4.desc + 16) with | .ok v => v == BitVec.ofNat 64 wr | _ => false) = true ∧
        (match s.cpRead 0 (ringAt q4 0) with | .ok h => fieldN h 31 16 == 1 | _ => false) = true ∧ (match s.cpPlace 0 (q4.desc + 24) needW with | .ok _ => true | _ => false) = true) ∧
    (let raw := packetOf 10 []; let s := sPk raw
      (match s.takeTurn 0 3, s.queue? 0 3 with | some (_, s1), some x => (match s1.rejectReason 0 x raw with | .ok (some (.unknownType, 0)) => true | _ => false) | _, _ => false) = true) ∧
    (let w : WaitRun := { pk := 0, seq := 7, signal := none, watch := { addr := 0x40300900, operand := 0, cond := .eq, uns := false, timeout := 1 }, on := { mon := none, deadline := some 0, reread := some 0 } }
      let x : Queue := { q3 with waitp := some w, open_ := [0], block := some 0 }
      (sQ x).queue? 0 3 = some x ∧ w.signal = none ∧ (sQ x).passedBy w.on = true ∧
      (match (((sQ x).freeCp w.on).modQueue 0 3 fun y => { y with waitp := none, block := none, open_ := y.open_.filter (· != w.pk) }).queueError 0 3 w.seq .timeout with | .ok _ => true | _ => false) = true ∧ (sQ x).mayReread w.on true = true) ∧
    (let l : Launch := { bootLaunch with lid := 9, gids := [], nextSpan := 1 }; let s : State := { sM with launches := [bootLaunch, l] }
      s.launch? 9 = some l ∧ l.node = none ∧ l.signal = none ∧ s.launchOver l = true) := by
  unfold ReadyQueue
  decide +kernel

/-- A node of a kind, on the word at 0x40300900. -/
def nodeOf (k : Nat) : GNode := { count := 3, link := 1, uns := false, code := 0, after := false, kind := k, addr := 0x40300900, operand := 0 }
/-- A run at that node, in queue 3. -/
def runAt (k : Nat) (waiting : Option CpWait) : GRun :=
  { r := 0, seq := 7, signal := none, nodes := [nodeOf k, { count := 0, link := 0, uns := false, code := 0, after := false, kind := 0, addr := 0, operand := 0 }],
    pos := 0, runs := [0, 0], open_ := [], waiting := waiting, result := none }
def sRun (g : GRun) : State := sQ { q3 with runs := [g], open_ := [0] }

theorem witness_graphs : (∀ k < 6, (sRun (runAt k none)).run? 0 3 0 = some (runAt k none)) ∧ (∀ k ∈ [1, 2, 3, 4, 5], (sRun (runAt k none)).nodeAt 0 3 0 k = some (runAt k none, nodeOf k)) ∧
    (match (sRun (runAt 3 none)).cpRead 0 0x40300900 with | .ok v => wordTest (nodeWatch (nodeOf 3)) v | _ => false) = true ∧
    (let g := runAt 3 (some { mon := none, deadline := some 0, reread := none }); (sRun g).run? 0 3 0 = some g ∧ (sRun { g with open_ := [0] }).run? 0 3 0 = some { g with open_ := [0] } ∧ (sRun g).passedBy { mon := none, deadline := some 0, reread := none } = true) ∧
    (sRun (runAt 0 none)).nodePlacing 0 3 0 = false := by decide +kernel

/-- A request of L1 0 for line 0x4000 (byte 0x200000), at the home. -/
def reqOf (k : ReqKind) : Req := { id := 900, gid := 0, line := 0x4000, src := .l1 0, node := .home, gen := 1, part := 0, prio := 0, kind := k }
/-- An atomic with a return. -/
def atomOf : AtomOp := { lane := 0, ret := some 5, w64 := false, cas := false, op := some .add, fmt := .i32, b := 1, c := 0 }
/-- One request of each kind. -/
def reqKinds : List ReqKind := [.getS, .getM, .getU .add .i32, .store 4 [1, 2], .atom 8 atomOf]

/-- The home has it before it, and no cache holds its line. -/
theorem witness_homeRequests : ∀ stub : Bool, ∀ k ∈ reqKinds, let s : State := { sM with reqs := [reqOf k], rets := [retOne], nextId := 901, dev := { sM.dev with stubs := if stub then [{ line := 0x4000, node := 1, target := 0x8000 }] else [] } }
    s.reqs.find? (fun x => x.id == (reqOf k).id) = some (reqOf k) ∧ (reqOf k).node = .home ∧ s.reqBehind (reqOf k) = false ∧ (reqOf k).id < s.nextId ∧ s.cowLine 0x4000 = false ∧ s.mappedTwice 0x4000 = false ∧ (s.stubOf 0x4000).isSome = stub ∧ s.keepsLine 0x4000 = stub ∧ s.failsBehind (reqOf k) 8 atomOf = false ∧ Claims.Uncached s (reqOf k).line ∧ Roomy s (reqOf k).line ∧
    (s.defines (0x4000 * 128 + 4) 2 = true ∧ s.defines (0x4000 * 128 + 8) 4 = true ∧ s.dram.anyPoison 1 (0x4000 * 128 + 8) 4 = false ∧ ({ s with dram := s.dram.write 1 0x200000 (List.replicate 32 7) true } : State).dram.anyPoison 1 (0x4000 * 128 + 8) 4 = true) := by
  unfold Claims.Uncached Roomy
  decide +kernel

theorem witness_homeReadsBack : sM.memWf = true ∧ (∀ l, sM.stubOf l = none) ∧ ∃ bs : List Byte, bs ≠ [] ∧ bs.length % 32 = 0 ∧ peerBase - 32 + bs.length ≤ peerBase :=
  ⟨by decide +kernel, fun l => rfl, List.replicate 32 1, by decide⟩

/-- A line's value, a line of L1 0, a probe of it, its answer and its fill. -/
def valOf : LineVal := { bytes := List.replicate 128 3, gen := 1, pois := 0 }
@[inherit_doc valOf]
def lineOf (st : CState) : L1Line := { core := 0, line := 0x4000, st := st, val := valOf, prio := 0 }
@[inherit_doc valOf]
def probeOf (inval : Bool) : Probe := { id := 901, line := 0x4000, node := .home, dest := .l1 0, inval := inval, held := false }
@[inherit_doc valOf]
def answerOf (wb : Bool) : Answer := { id := 902, line := 0x4000, node := .home, src := .l1 0, val := some valOf, kept := false, wb := wb }
@[inherit_doc valOf]
def fillOf (st : CState) : Fill := { id := 903, line := 0x4000, node := .home, dest := .l1 0, st := st, val := valOf }
/-- A write request of L1 1 that waits for the answer of L1 0. -/
def txnOf : Txn := { node := .home, req := { reqOf .getM with src := .l1 1 }, left := [.l1 0], wantUp := false }

theorem witness_probes : ∀ b ∈ [true, false], ∀ st ∈ [CState.m, .o, .e, .s], let s : State := { sM with probes := [probeOf b], l1 := [lineOf st] }
    s.probes.find? (fun x => x.id == (probeOf b).id && !x.held) = some (probeOf b) ∧ (probeOf b).dest = .l1 0 ∧ s.fills = [] ∧ s.probeBehind (probeOf b) = false ∧ s.l1Line? 0 (probeOf b).line = some (lineOf st) ∧
    (let t : State := { s with l1 := [], answers := [answerOf true] }; t.l1Line? 0 (probeOf b).line = none ∧
      t.answers.find? (fun x => x.wb && x.line == (probeOf b).line && x.node == (probeOf b).node && x.src == (probeOf b).dest) = some (answerOf true)) := by decide +kernel
theorem witness_probeHeld : (fillOf .s).line = (probeOf true).line ∧ (fillOf .s).dest = (probeOf true).dest ∧ (fillOf .s).node = (probeOf true).node := by decide
theorem witness_answers : ∀ wb ∈ [true, false], let s : State := { sM with answers := [answerOf wb], txns := [txnOf], nextId := 903 }
    s.answers.find? (fun x => x.id == (answerOf wb).id) = some (answerOf wb) ∧ (answerOf wb).node = .home ∧ (answerOf wb).id < s.nextId ∧
      s.replyBehind (answerOf wb).id (agentEnd (answerOf wb).src (answerOf wb).line) (nodeEnd (answerOf wb).node (answerOf wb).line) = false ∧ (answerOf wb).val = some valOf ∧
      s.txns.find? (fun y => y.node == Node.home && y.req.line == (answerOf wb).line && !y.wantUp) = some txnOf ∧ txnOf.left = [(answerOf wb).src] ∧ txnOf.req.kind = .getM ∧
      txnOf.req.node = .home ∧ (s.txns.filter fun y => y == txnOf).length = 1 := by decide +kernel
theorem witness_fills : ∀ st ∈ [CState.m, .e, .s], let s : State := { sM with fills := [fillOf st] }
    s.fills.find? (fun x => x.id == (fillOf st).id) = some (fillOf st) ∧ (fillOf st).dest = .l1 0 ∧ (fillOf st).st ≠ .i ∧ s.replyBehind (fillOf st).id (nodeEnd (fillOf st).node (fillOf st).line) (agentEnd (fillOf st).dest (fillOf st).line) = false ∧ s.pends = [] ∧ s.probes = [] ∧
      (s.l1.filter fun l => l.core == 0).length < Config.l1Lines := by decide +kernel
theorem witness_evicted : let u : UEvict := { id := 904, core := 0, line := 0x4000, op := .add, fmt := .i32, val := valOf }
    let s : State := { sM with uevicts := [u] }; s.uevicts.find? (fun x => x.id == u.id) = some u ∧ s.replyBehind u.id (.core u.core) (nodeEnd .home u.line) = false := by decide +kernel

theorem witness_loadsAreServed : let p : Pend := { core := 0, line := 0x4000, gid := 0, seen := [], gen := 1, part := 0, prio := 0, act := .load 5 0 4 4 false }
    let s : State := { sM with fills := [fillOf .s], pends := [p], rets := [retOne] }
    s.twice 0x4000 = false ∧ s.replyBehind (fillOf .s).id (nodeEnd (fillOf .s).node (fillOf .s).line) (agentEnd (fillOf .s).dest (fillOf .s).line) = false ∧ s.asyHolds p.gid p.line = false ∧
      s.fills.find? (fun x => x.id == (fillOf .s).id) = some (fillOf .s) ∧ (fillOf .s).dest = .l1 p.core ∧ (fillOf .s).line = p.line ∧ readable (fillOf .s).st = true ∧
      (s.pends.filter fun x => x.core == p.core && x.line == p.line) = [p] ∧ p.act = .load 5 0 4 4 false ∧ (∀ q ∈ s.probes, q.dest = (fillOf .s).dest → q.line = (fillOf .s).line → q.held = false) ∧
      (s.l1.filter fun l => l.core == p.core).length < Config.l1Lines ∧ (∀ x ∈ s.fills, x.id ≠ (fillOf .s).id → ¬ (x.dest = (fillOf .s).dest ∧ x.line = (fillOf .s).line)) ∧
      (∀ r ∈ s.reqs, ¬ (r.src = (fillOf .s).dest ∧ r.line = (fillOf .s).line)) ∧ ∀ t ∈ s.txns, ¬ (t.req.src = (fillOf .s).dest ∧ t.req.line = (fillOf .s).line) := by decide +kernel

/-- A launch of one span with nothing placed, in a partition whose cores are free, and one for which no core has room. -/
def l2 : Launch := { bootLaunch with lid := 7, nextSpan := 0, gids := [] }
@[inherit_doc l2]
def sFree : State := { sM with groups := [], blocks := [], launches := [l2] }
@[inherit_doc l2]
def sFull : State := { sM with launches := [bootLaunch, l2] }.modPart 0 fun x => { x with place := 1 }

theorem witness_launches : sFree.launch? l2.lid = some l2 ∧ sFree.mayPlace l2 = true ∧ (sFree.dispatchSpan l2).isSome = true ∧ (∀ d < 4, (sFree.placeSpan l2 d l2.nextSpan).isSome = true ∨ (sFree.waveSpan l2 d).isNone = true) ∧
    (let l : Launch := { l2 with params := { l2.params with nblocks := 256 } }; let s := sM.modPart 0 (fun x => { x with place := 1 })
      let s : State := { s with launches := [bootLaunch, l] }
      s.launch? l.lid = some l ∧ s.mayPlace l = true ∧ l.waved = false ∧ (∀ d < 4, s.placeSpan l d l.nextSpan = none) ∧ (∀ g ∈ s.group? 0, s.mayMove g = true) ∧ (s.moveGroup 0 ⟨0, 1, 0⟩).isSome = true) := by decide +kernel

theorem witness_commands : (∀ c ∈ Claims.pcmdTable, ∃ st ∈ [PState.free, .config, .run, .halted, .saved], st ∉ c.2.1) ∧
    (∀ st ∈ [PState.free, .config, .run, .halted, .saved], Claims.Taken (sM.modPart 0 fun x => { x with state := st }) 0 [st]) ∧
    (let s := (sM.modPart 0 fun x => { x with place := 1 }).modPart 1 fun x => { x with state := .config, place := 2, quota := 0x40040 };
      badRange (s.part 1) = false ∧ s.overlaps 1 = false ∧ 2 ∈ s.dev.freeGens ∧ (∀ x ∈ s.dev.freeGens, 2 ≤ x) ∧
      badRange ((s.modPart 1 fun x => { x with cisrange := 0xFFFFFFFF }).part 1) = true ∧ (s.modPart 1 fun x => { x with place := 1, quota := (sM.part 0).quota }).overlaps 1 = true ∧
      badRange ((s.modPart 1 fun x => { x with place := 1, quota := (sM.part 0).quota }).part 1) = false ∧
      ({ s with dev := { s.dev with freeGens := [] } } : State).lowestGen = none) ∧
    (sM.part 0).queues = [] ∧ (sM.part 0).fixes = [] ∧ (∀ l ∈ sM.launches, l.part = 0 → l.signal = none) ∧ sM.pendsOf 0 = [] ∧ sM.accessesOf 0 = [] ∧ ({ sM with sites := [siteOne true 0] } : State).accessesOf 0 = [5] ∧
    (match ({ sQ q3 with txns := [{ txnOf with req := { txnOf.req with line := 0x300000 / 128 } }] } : State).perform? 0 .halt with | .error _ => true | .ok _ => false) = true ∧ sM.dev.ready = false ∧ sM.queue? 0 0 = none ∧
    sM.inProgress bootLaunch = true ∧ (∀ x ∈ [PState.free, .config], x ∉ [PState.run, .halted, .saved]) ∧ (sM.part 0).parg.getLsbD 1 = false ∧ sM.endsPending 0 = false := by
  unfold Claims.Taken
  decide +kernel

/-- The group halted. -/
def gHalt : Group := { gM with halt := true }

theorem witness_gstep : let s := (labOf gHalt).modPart 0 fun x => { x with parg := 0x0000010000000000 }
    s.ringOrder 0 (fieldN (s.part 0).parg 46 41) = [bootLaunch] ∧ s.peerGid bootLaunch.lid (fieldN (s.part 0).parg 37 14) (fieldN (s.part 0).parg 13 10) (fieldN (s.part 0).parg 9 0) = some gHalt.gid ∧
      s.group? gHalt.gid = some gHalt ∧ gHalt.halt = true ∧ gHalt.halt280 = false ∧ stepReady gHalt (fieldN (s.part 0).parg 40 38) = true ∧ gHalt.stepReq = none := by decide +kernel

theorem witness_driver : (let s := sM.modPart 0 fun x => { x with walk := vset x.walk 0 true, waymask := vset x.waymask 0 0xFFFFFE }
      let s : State := { s with ways := [{ die := 0, line := 0x4000, way := 0, dirty := false, prio := 0, part := 0 }] }
      vget (s.part 0).walk 0 false = true ∧ (s.walked 0 0).map (·.line) = [0x4000] ∧ ∀ w ∈ s.walked 0 0, s.wayIdle w = true) ∧ vget (sM.part 0).walk 0 false = false ∧ (sM.part 0).state ≠ .config ∧
    ((sM.modPart 0 fun x => { x with state := .config }).part 0).state = .config ∧
    (let s : State := { sM with dev := { sM.dev with scrub := [9] } }; s.memWf = true ∧ 9 ∈ s.dev.scrub ∧ s.genInFlight 9 = false) := by decide +kernel
/-- A FIX packet of one page at 0x600000, whose list is at 0x40300C00; the fix it starts; a MIGRATE packet. -/
def fixOf (byTime : Bool) (n : Nat) (t : Option Nat) : FixParams :=
  { n := BitVec.ofNat 64 n, byTime := byTime, when_ := t.map (BitVec.ofNat 64), list := 0x300C00, ranges := 1, node := 1, offset := 0, rate := 0 }
@[inherit_doc fixOf]
def pageOf (page : Nat) : CowPage := { page := page, leaf := page, size := 65536, base := page }
@[inherit_doc fixOf]
def runOf (byTime : Bool) (cut : Option Dword) (left : List CowPage) : FixRun :=
  { q := 3, seq := 7, pk := 0, signal := none, params := fixOf byTime 5 (some 0), pages := [0x600000, 0x610000], cut := cut, left := left, wanted := [] }
@[inherit_doc fixOf]
def sFix (r : FixRun) : State := (sQ { q3 with open_ := [0], block := some 0 }).modPart 0 fun x => { x with fixes := [r] }

/-- The group of two rows and no tiles, in `waitc`, in a partition with a pinned save area at 0x500000. -/
def gI : Group := { waitingFor (.waitc .asy 0) with allot := 2, rows := [], tileCnt := 0 }
@[inherit_doc gI]
def bI : Block := { bootBlock with poolRows := [2], tilesPer := 0 }
@[inherit_doc gI]
def sSave (size : Nat) (st : PState) (f : Part → Part) : State :=
  (dwordsAt { labOf gI with groups := [gI], blocks := [bI] } 0x60000 [0x5F]).modPart 0 fun x =>
    f { x with state := st, savebase := 0x500000, savesize := BitVec.ofNat 64 size, swap := true, place := 1 }
/-- SAVEFULL or SAVEBACK under way. -/
def sSaving : State := sSave 0x10000 .halted fun x => { x with saving := .full, busy := true }

theorem witness_saves : Claims.Taken (sSave 0x10000 .halted id) 0 [.halted] ∧ (sSave 0x10000 .halted id).saveBytes 0 false ≤ ((sSave 0x10000 .halted id).part 0).savesize.toNat ∧
    (sSave 0x10000 .halted id).badSavePage 0 = none ∧ ((sSave 64 .halted id).part 0).savesize.toNat < (sSave 64 .halted id).saveBytes 0 false ∧
    ((sSave 0x10000 .halted fun x => { x with savebase := 0x40000000 }).badSavePage 0).isSome = true ∧
    (sSaving.part 0).saving = .full ∧ sSaving.saveWaits 0 false = false ∧ sSaving.cowPages 0 0x500000 64 = [] ∧ (let s : State := { dwordsAt sSaving 0x60000 [0x5F + 2 ^ 62] with groups := [], blocks := [], launches := [] }; s.partBlocks 0 = [] ∧ s.saveWaits 0 false = false ∧ s.areaQuiet 0 64 = true ∧ s.cowPages 0 0x500000 64 ≠ []) ∧ sSaving.partBlocks 0 = [bI] ∧ sSaving.block? bI.bid = some bI ∧ resident bI = true ∧
    (let m := sSaving.blockImage false bI; let base := (sSaving.part 0).savebase.toNat
      sSaving.areaQuiet 0 (64 + m.bytes.length) = true ∧ sSaving.cowPages 0 base (64 + m.bytes.length) = [] ∧
        (match ((sSaving.modPart 0 fun x => { x with saveAt := base }).writeImage 0 base { bytes := (sSaving.modPart 0 fun x => { x with saveAt := base }).saveHeader 0 false 0 1 (64 + m.bytes.length) 0, pois := [] }).bind (fun s => s.writeImage 0 (base + 64) m) with | .ok _ => true | .error _ => false) = true) := by
  unfold Claims.Taken
  decide +kernel

/-- The block saved, with an image that lists no group. -/
def bAway (swapped : Bool) : Block := { bI with image := some 0x500040, swapped := swapped, gids := [(0, 0)] }
@[inherit_doc bAway]
def sAway (swapped : Bool) (st : PState) : State := { dwordsAt (sSave 0x10000 st fun x => { x with saveAt := 0x500000 }) 0x500040 [0, 0, 128] with groups := [], saved := [gI], blocks := [bAway swapped] }

theorem witness_restores : Claims.Taken (sAway false .saved) 0 [.saved] ∧ (sAway false .saved).partBlocks 0 = [bAway false] ∧ (sAway false .saved).roomBack (bAway false) = true ∧
    (match (sAway false .saved).savedArea 0 with | some (gen, [(b, m, at_)]) => b == bAway false && at_ == 0x500040 && m.bytes.length == 128 && gen == 0 | _ => false) = true ∧ ({ sAway false .saved with groups := [{ gI with gid := 9 }] } : State).roomBack (bAway false) = false ∧
    (sAway true .run).block? 0 = some (bAway true) ∧ (∃ g ∈ (sAway true .run).blockGroups (bAway true), (sAway true .run).wakes g = true) ∧ (sAway true .run).roomBack (bAway true) = true ∧
    ((sAway true .run).keptImage 0 (bAway true)).isSome = true ∧ (sAway true .run).blockKilled (bAway true) = false ∧
    (let s : State := { sAway true .run with launches := [{ bootLaunch with killed := true }] }; s.blockKilled (bAway true) = true ∧ (s.keptImage 0 (bAway true)).isSome = true ∧ s.roomBack (bAway true) = true) := by
  unfold Claims.Taken
  decide +kernel

/-- A launch that waits for a core with room. -/
def sWants : State := { sSave 0x10000 .run id with launches := [bootLaunch, { l2 with params := { l2.params with nblocks := 256 } }] }

theorem witness_swap : sWants.block? bI.bid = some bI ∧ bI.gids ≠ [] ∧ (∀ g ∈ sWants.groupsOf bI.bid, sWants.idleGroup g = true) ∧ sWants.wantsRoom 0 = true ∧ (sWants.part 0).swap = true ∧
    (let m := sWants.blockImage false bI; sWants.swapPlace 0 + m.bytes.length ≤ (sWants.part 0).savebase.toNat + (sWants.part 0).savesize.toNat ∧
      sWants.areaQuiet 0 (sWants.swapPlace 0 - (sWants.part 0).savebase.toNat + m.bytes.length) = true ∧ sWants.cowPages 0 (sWants.swapPlace 0) m.bytes.length = [] ∧ (dwordsAt sWants 0x60000 [0x5F + 2 ^ 62]).cowPages 0 (sWants.swapPlace 0) m.bytes.length ≠ [] ∧ (match sWants.writeImage 0 (sWants.swapPlace 0) m with | .ok _ => true | .error _ => false) = true) := by
  decide +kernel

/-- The device at a stage of power-up. -/
def sStage (n : Nat) : State := { State.reset with dev := { Dev.reset with stage := BitVec.ofNat 4 n } }

theorem witness_power : State.reset.dev.follows = none ∧ (∀ f, ({ Dev.reset with follows := some 2 } : Dev).follows = some f → 1 ≤ f ∧ f < 3) ∧ (sStage 1).dev.stage = 1 ∧ (sStage 2).dev.stage = 2 ∧ (sStage 3).dev.stage = 3 ∧ (sStage 1).dev.err = 0 ∧ (sStage 1).dev.opened = false := by decide

theorem witness_errors : (populated (32 * 0x10000) = true ∧ mapGet false sM.dram.pois 0x10000 = false ∧ mapGet false sM.scratch.pois 5 = false ∧ ({ sM with l1 := [lineOf .s] } : State).l1Line? 0 0x4000 = some (lineOf .s) ∧ (lineOf .s).val.pois.getLsbD 3 = false ∧
      sTrav.working (.trav 5) = true ∧ (.trav 5, 0) ∉ sTrav.checks ∧ sM.group? gM.gid = some gM ∧ 4 < gM.allot ∧ (row gM 4).poison = false ∧ ownReg (8192 + 63) = true ∧ 8192 + 63 ∉ gM.hurt) ∧
    (clusterOf 3 < 64 ∧ (sM.dev.spares.filter fun x => x.1 == clusterOf 3).length < 8) ∧ sM.dev.l2spare = [] ∧ sM.ways = [] ∧
    (let x : DramPart := { die := 0, channel := 1, bank := 2, row := some 3 }; spareFor sM.dev x = true ∧ x ∈ ({ sM.dev with dramCopy := [x] } : Dev).dramCopy) ∧ sM.dev.laneSpared = [] ∧ sM.dev.lanesDown = [] ∧
    (3, 1) ∈ ({ sM.dev with lanesDown := [(3, 1)] } : Dev).lanesDown ∧ (List.replicate 32 (0 : Byte)).length = 32 ∧
    (let w : Inbound := .write [1, 2] false; ({ sM with dev := { sM.dev with stubQ := [(0x200004, w)] } } : State).dev.stubQ = [(0x200004, w)] ∧ sM.quietRange (peerBase + 0x200004) (inboundSize w) = true) := by decide +kernel

theorem witness_fixes : (∀ b ∈ [true, false], let s := sFix (runOf b none []); s.fixOf 0 3 false = some (runOf b none []) ∧ (0 : Dword).toNat ≤ s.nowNs) ∧
    (let f := runOf true (some 1) [pageOf 0x600000, pageOf 0x610000]; let s := sFix f;
      s.fixOf 0 3 true = some f ∧ s.nextPage 0 f = some (pageOf 0x600000) ∧ s.pageQuiet 0 0x600000 = true ∧ f.left.erase (pageOf 0x600000) = [pageOf 0x610000] ∧ (pageOf 0x610000).leaf ≠ (pageOf 0x600000).leaf) ∧
    (let f := runOf true (some 1) []; (sFix f).fixOf 0 3 true = some f ∧ (sFix f).nextPage 0 f = none) := by decide +kernel

/-- What a partition of no memory and an empty image arrives with, and the answer of a destination that has room for it. -/
def arriving : MigrationArrival :=
  { pages := 0, memory := [], pois := [], imagePois := [], image := List.replicate 64 0, blocks := [], groups := [], launches := [], monitors := [], source := { sM.part 1 with quota := 0x40040 }, faults := [] }
@[inherit_doc arriving]
def reply (ok : Bool) : MigrateReply := { config := ok, quota := (sM.part 0).quota, cisrange := (sM.part 0).cisrange, pages := 2 ^ 40, savesize := 2 ^ 40, created := ok, lines := [] }

/-- A partition without blocks whose stage-2 root names no memory, so that it maps none. -/
def sThere : State := { sM with groups := [], blocks := [] }.modPart 0 fun x => { x with s2root := 0x1000000000000000 }

theorem witness_replies : sThere.fitsThere 0 (reply true) = true ∧ sThere.fitsThere 0 (reply false) = false ∧ sThere.monLines 0 = [] := by decide +kernel

/-- A partition in CONFIG that an arrival fits. -/
def sArrives : State :=
  dwordsAt ((sM.modPart 0 fun x => { x with place := 1 }).modPart 1 fun x => { x with state := .config, place := 2, quota := 0x40040, savebase := 0x500000, savesize := 64, s2root := (sM.part 0).s2root })
    0x60000 [0x5F]

theorem witness_arrivalFits : sArrives.fitsHere 1 arriving = true := by
  unfold State.fitsHere
  simp only [Bool.and_eq_true, decide_eq_true_eq]
  exact ⟨⟨by decide +kernel, Nat.zero_le _⟩, by decide +kernel⟩

theorem witness_arrival : let s := sArrives
    (s.part 1).state = .config ∧ (s.part 1).busy = false ∧ badRange (s.part 1) = false ∧ s.overlaps 1 = false ∧ s.lowestGen = some 2 ∧ (∀ g ∈ s.groups, g.part ≠ 1) ∧ arriving.source.queues = [] ∧
    (let image := spliceBytes arriving.image 24 (leBytes 8 2);
      (match ({ s with nextId := nextNumber s.nextId arriving, dev := { s.dev with freeGens := s.dev.freeGens.erase 2 } }.modPart 1 fun x => { x with state := .run, gen := 2 }).writeImage 1 (s.part 1).savebase.toNat { bytes := image, pois := arriving.imagePois } with
        | .ok _ => true | .error _ => false) = true) := by decide +kernel

/-- R337: a software write to RDIDX of an enabled queue leaves the bytes it writes there undefined; one beside it does not. -/
theorem test_queueWordsUndefined : let s := sQ { q3 with descPa := some 0x300000 }
    s.defines 0x300018 8 = false ∧ (s.softBytes 0x300018 [1]).2.freeCtr = s.freeCtr + 1 ∧ s.defines 0x300000 24 = true ∧ s.defines 0x300030 8 = true := by decide +kernel
/-- R313: a write to a site's sidecar byte while a step of its line is in flight leaves FLIPS and PIN undefined; one to the byte of a word that is no site does not. -/
theorem test_sidecarUndefined : let s : State := { dwordsAt sM 0x100018 [1 * 2 ^ 62] with sites := [siteOne true 0] }
    s.openBits [] 0x8020003 = 7 ∧ s.openBits [] 0x8020004 = 0 ∧ s.openBits [] 0x8020010 = 0 := by decide +kernel
/-- R230: a write inside the region of an object with an operation in flight leaves its whole region undefined. -/
theorem test_weirRegionUndefined : let s : State := { sM with dram := sM.dram.write 1 0x200000 (leBytes 8 (1 * 2 ^ 56 + 4)) false, weir := [{ weirAt 1 true .stack [] none with pa := 0x200000, limit := 4096, attr := 0, gen := 1 }] }
    s.weirRegions 0x20007F 1 = [(1, 0x200000, 128)] ∧ s.weirRegions 0x200080 8 = [] := by decide +kernel

end Sys2Proof.Tests
end

section

/-! The operations of the memory system leave what stands outside it as it was. -/

namespace Sys2Proof.Machine

/-- What stands outside the memory system is as it was: the resident groups, the selected split, the partitions' registers and the quantisation engine's submissions. -/
@[simp] abbrev SameOutside (s t : State) : Prop := t.groups = s.groups ∧ t.cur = s.cur ∧ t.parts = s.parts ∧ t.qnts = s.qnts

theorem SameOutside.trans {s t u : State} (h : SameOutside s t) (h' : SameOutside t u) : SameOutside s u := by
  obtain ⟨hg, hc, hp, hq⟩ := h
  obtain ⟨hg', hc', hp', hq'⟩ := h'
  exact ⟨hg'.trans hg, hc'.trans hc, hp'.trans hp, hq'.trans hq⟩

theorem foldl_sameOutside {β : Type} {f : State → β → State} (hf : ∀ s b, SameOutside s (f s b)) :
    ∀ (l : List β) (s : State), SameOutside s (l.foldl f s)
  | [], _ => ⟨rfl, rfl, rfl, rfl⟩
  | b :: l, s => (hf s b).trans (foldl_sameOutside hf l (f s b))

section
variable (s : State)

@[simp] theorem setHomeMem_sameOutside (pa : Nat) (m : Memory) : SameOutside s (s.setHomeMem pa m) := by
  unfold State.setHomeMem
  split <;> simp

@[simp] theorem putHome_sameOutside (line : Nat) (v : LineVal) : SameOutside s (s.putHome line v) := by
  simp [State.putHome, State.evalMons, State.dropCode]

@[simp] theorem putDir_sameOutside (d : DirEntry) : SameOutside s (s.putDir d) := ⟨rfl, rfl, rfl, rfl⟩

@[simp] theorem noteShared_sameOutside (n : Node) (line : Nat) (a : Agent) (dirty : Bool) :
    SameOutside s (s.noteShared n line a dirty) := by
  unfold State.noteShared
  repeat' split
  all_goals simp

@[simp] theorem noteGone_sameOutside (n : Node) (line : Nat) (a : Agent) : SameOutside s (s.noteGone n line a) := by
  unfold State.noteGone
  split
  · simp
  · cases a <;> simp

@[simp] theorem noteGrant_sameOutside (n : Node) (line : Nat) (a : Agent) (st : CState) :
    SameOutside s (s.noteGrant n line a st) := by
  unfold State.noteGrant
  split
  · simp
  · dsimp only; split <;> simp

@[simp] theorem sendAnswer_sameOutside (n : Node) (src : Agent) (line : Nat) (v : Option LineVal) (kept wb : Bool) :
    SameOutside s (s.sendAnswer n src line v kept wb) := ⟨rfl, rfl, rfl, rfl⟩

@[simp] theorem putSlice_sameOutside (l : SliceLine) : SameOutside s (s.putSlice l) := ⟨rfl, rfl, rfl, rfl⟩
@[simp] theorem dropSlice_sameOutside (d line : Nat) : SameOutside s (s.dropSlice d line) := ⟨rfl, rfl, rfl, rfl⟩
@[simp] theorem noteHome_sameOutside (n : Node) (line : Nat) : SameOutside s (s.noteHome n line) := ⟨rfl, rfl, rfl, rfl⟩

@[simp] theorem takeWb_sameOutside (a : Answer) : SameOutside s (s.takeWb a) := by
  unfold State.takeWb
  dsimp only
  repeat' split
  all_goals simp

@[simp] theorem absorbAt_sameOutside (line : Nat) (at_ : Node → Bool) : SameOutside s (s.absorbAt line at_) := by
  simp [State.absorbAt, foldl_sameOutside takeWb_sameOutside]

@[simp] theorem absorb_sameOutside (line : Nat) : SameOutside s (s.absorb line) := by
  simp [State.absorb]

@[simp] theorem recallU_sameOutside (line : Nat) : SameOutside s (s.recallU line) := by
  unfold State.recallU
  dsimp only
  split <;> simp

@[simp] theorem recallAll_sameOutside (line : Nat) : SameOutside s (s.recallAll line) := by
  unfold State.recallAll
  dsimp only
  split <;> simp

@[simp] theorem shareLine_sameOutside (line : Nat) : SameOutside s (s.shareLine line) := by
  unfold State.shareLine
  dsimp only
  split <;> simp

@[simp] theorem evictSlice_sameOutside (d line : Nat) : SameOutside s (s.evictSlice d line) := by
  unfold State.evictSlice
  dsimp only
  split
  · simp
  · repeat' split
    all_goals simp (disch := intro s x; split <;> simp) [foldl_sameOutside]

@[simp] theorem touchL2_sameOutside (d line p prio : Nat) (dirty : Bool) : SameOutside s (s.touchL2 d line p prio dirty) := by
  unfold State.touchL2
  dsimp only
  repeat' split
  all_goals simp

@[simp] theorem recallURange_sameOutside (pa n : Nat) : SameOutside s (s.recallURange pa n) :=
  foldl_sameOutside (fun s l => by simp) _ s

@[simp] theorem touchEn_sameOutside (gen : Nat) (lines : List Nat) (dirty : Bool) : SameOutside s (s.touchEn gen lines dirty) := by
  unfold State.touchEn
  split
  · exact foldl_sameOutside (fun s l => by simp) _ s
  · simp

@[simp] theorem homeBytes_sameOutside (pa : Nat) (bs : List Byte) (f : Memory → Nat → Nat → List Byte → Memory) (gen : Nat) :
    SameOutside s (s.homeBytes pa bs f gen) := by
  unfold State.homeBytes
  split
  · simp
  · exact foldl_sameOutside (fun s x => by simp) _ s

@[simp] theorem spoilRange_sameOutside (gen pa len : Nat) : SameOutside s (s.spoilRange gen pa len) := by
  simp [State.spoilRange]

@[simp] theorem blur_sameOutside (gen line : Nat) : SameOutside s (s.blur gen line) := by
  unfold State.blur
  repeat' split
  all_goals simp [State.retag]

@[simp] theorem blurRange_sameOutside (gen pa n : Nat) : SameOutside s (s.blurRange gen pa n) :=
  foldl_sameOutside (fun s l => by simp) _ s

@[simp] theorem recallEntries_sameOutside (es : Unit → List Nat) : SameOutside s (s.recallEntries es) := by
  unfold State.recallEntries
  split
  · simp
  · exact foldl_sameOutside (fun s l => by simp) _ s

@[simp] theorem blurTables_sameOutside (second : Nat → Need → Except WalkFault PteLeaf) (p a : Nat) : SameOutside s (s.blurTables second p a) := by
  unfold State.blurTables
  split
  · simp
  · exact foldl_sameOutside (fun s l => by simp) _ s

@[simp] theorem recallWalk_sameOutside (core p a : Nat) (n : Need) : SameOutside s (s.recallWalk core p a n) := by
  unfold State.recallWalk
  dsimp only
  split <;> simp

@[simp] theorem translate_sameOutside (core p : Nat) (va : Dword) (n : Need) : SameOutside s (s.translate core p va n).1 := by
  unfold State.translate
  dsimp only
  repeat' split
  all_goals simp [State.tlbFill]

@[simp] theorem takeCode_sameOutside (core p line : Nat) : SameOutside s (s.takeCode core p line) := by
  unfold State.takeCode
  dsimp only
  repeat' split
  all_goals simp [State.putCode]

theorem fetchWord_sameOutside {s t : State} {g : Group} {pc : Dword} {r : Except WalkFault Dword} (h : s.fetchWord g pc = some (t, r)) :
    SameOutside s t := by
  unfold State.fetchWord at h
  split at h
  · cases h; simp
  · have ht := translate_sameOutside s g.core g.part pc needX
    split at h
    · next s1 f hs1 => rw [hs1] at ht; cases h; exact ht
    · next s1 l hs1 =>
      rw [hs1] at ht
      dsimp only at ht h
      split at h
      · split at h <;> cases h <;> simpa using ht
      · simp only [Option.bind_eq_some_iff, Option.map_eq_some_iff] at h
        obtain ⟨s2, h2, c, -, hw⟩ := h
        have h12 : SameOutside s1 s2 := by
          split at h2
          · cases h2; simp
          · split at h2 <;> cases h2; simp
        split at hw <;> cases hw <;> simp_all
end
end Sys2Proof.Machine

end

section

/-! Instruction words go on in a selected split. -/

namespace Sys2Proof.Machine

/-- An outcome goes on: neither a fault nor a refusal. -/
def Goes (o : Host.Outcome State Fault Refusal) : Prop := ∃ t, o = .next t

@[simp] theorem goes_next (t : State) : Goes (.next t) := ⟨t, rfl⟩

/-- A split of a resident group is selected to issue. -/
def Selected (s : State) : Prop := ∃ gid k g, s.cur = some (gid, k) ∧ s.group? gid = some g

section Words
variable {s : State} (h : Selected s)
include h

theorem runWord_goes (i : Instr) (hd : Hdr) (body : Ctx → Issue) : Goes (runWord i hd s body) := by
  obtain ⟨gid, k, g, hc, hg⟩ := h
  unfold runWord
  simp only [hc, hg]
  split <;> exact goes_next _

theorem runScalar_goes (i : Instr) (hd : Hdr) (body : Ctx → Issue) : Goes (runScalar i hd s body) := by
  unfold runScalar; exact runWord_goes h ..

theorem runScalarG_goes (i : Instr) (hd : Hdr) (f : Ctx → Group) : Goes (runScalarG i hd s f) := by
  unfold runScalarG; exact runScalar_goes h ..

theorem runOrdered_goes (i : Instr) (hd : Hdr) (sc : Option Scope) (body : Ctx → Issue) : Goes (runOrdered i hd sc s body) := by
  unfold runOrdered; exact runWord_goes h ..

/-- EVERY INSTRUCTION WORD goes on in a selected split: its meaning is `runWord` of its body. -/
theorem exec_word_goes (i : Instr) (hw : isWord i = true) : Goes (exec i s) := by
  cases i
  case fadd | fsub | fmul | ffma | fmin | fmax | frcp | frsq | fsqrt | fexp2 | flog2 | fsin | fcos =>
    simp only [exec, execFadd, execFsub, execFmul, execFfma, execFmin, execFmax, execFrcp, execFrsq, execFsqrt, execFexp2, execFlog2, execFsin, execFcos, floatRR, runWord_goes h]
  case faddImm | fmulImm | fminImm | fmaxImm => simp only [exec, execFaddImm, execFmulImm, execFminImm, execFmaxImm, floatRI, runWord_goes h]
  case hadd2 | hmul2 | hfma2 | cvt => simp only [exec, execHadd2, execHmul2, execHfma2, execCvt, packed, runWord_goes h]
  case iadd | isub | imul | imad | min | max | imadw => simp only [exec, execIadd, execIsub, execImul, execImad, execMin, execMax, execImadw, intRR, runWord_goes h]
  case iaddImm | imulImm | minImm | maxImm => simp only [exec, execIaddImm, execImulImm, execMinImm, execMaxImm, intRI, runWord_goes h]
  case and | or | xor | shl | shr | sar | bfe | not | clz | popc | bfi =>
    simp only [exec, execAnd, execOr, execXor, execShl, execShr, execSar, execBfe, execNot, execClz, execPopc, execBfi, bitsRR, bitsR, runWord_goes h]
  case andImm | orImm | xorImm | shlImm | shrImm | sarImm => simp only [exec, execAndImm, execOrImm, execXorImm, execShlImm, execShrImm, execSarImm, bitsRI, runWord_goes h]
  case sel | mov | lea | leaImm | movi | movr | movw | xset | xadd | xmov =>
    simp only [exec, execSel, execMov, execLea, execLeaImm, execMovi, execMovr, execMovw, execXset, execXadd, execXmov, runWord_goes h]
  case cmp | pand | por | pnot | pmov | vote => simp only [exec, execCmp, execPand, execPor, execPnot, execPmov, execVote, predOp, runWord_goes h]
  case sadd | ssub | smul | smin | smax | sand | sor | sxor | snot | sshl | sshr | ssar | sclz | spopc | sbfe | scmp =>
    simp only [exec, execSadd, execSsub, execSmul, execSmin, execSmax, execSand, execSor, execSxor, execSnot, execSshl, execSshr, execSsar, execSclz, execSpopc, execSbfe,
      execScmp, scalar2, runScalarG_goes h]
  case smad | sbfi | ssel | smov | smovi => simp only [exec, execSmad, execSbfi, execSsel, execSmov, execSmovi, scalar3, runScalarG_goes h, runScalar_goes h]
  case bra | brx | call | ret | join | joinLabel | exit | yield | trap | sleep | nop =>
    simp only [exec, execBra, execBrx, execCall, execRet, execJoin, execJoinLabel, execExit, execYield, execTrap, execSleep, execNop, runWord_goes h, runScalar_goes h]
  case qswap | qbcast | qred | shfl | xpair | xshuf => simp only [exec, execQswap, execQbcast, execQred, execShfl, execXpair, execXshuf, quadMove, runWord_goes h, runScalar_goes h]
  case ldB8 | ldS8 | ldB16 | ldS16 | ld | ldB64 | ldB128 => simp only [exec, execLdB8, execLdS8, execLdB16, execLdS16, execLd, execLdB64, execLdB128, loadWith, runWord_goes h]
  case stB8 | stB16 | st | stB64 | stB128 => simp only [exec, execStB8, execStB16, execSt, execStB64, execStB128, storeWith, runWord_goes h]
  case ald | ast | pf | waitc => simp only [exec, execAld, execAst, asyWith, execPf, execWaitc, runWord_goes h, runScalar_goes h]
  case atom | cas | red | cis => simp only [exec, execAtom, execCas, execRed, execCis, atomicWith, runWord_goes h]
  case wpush | wpop => simp only [exec, execWpush, execWpop, weirWith, runWord_goes h]
  case fence | bar | tbar | mwait | waitm | getm | step => simp only [exec, execFence, execBar, execTbar, execMwait, execWaitm, execGetm, execStep, runWord_goes h, runScalar_goes h, runOrdered_goes h]
  case gangset | opfence | mma | mmwait | tld | tst | tzero =>
    simp only [exec, execGangset, execOpfence, execMma, execMmwait, execTld, execTst, tileMove, execTzero, runWord_goes h]
  case trav | rcfence | xchain | qsub | slset | slpulse | slwait =>
    simp only [exec, execTrav, execRcfence, execXchain, execQsub, execSlset, execSlpulse, execSlwait, runWord_goes h, runScalar_goes h]
  case getsr w =>
    simp only [exec, execGetsr]
    split
    · exact runWord_goes h ..
    · exact runScalar_goes h ..
  case setsr | rolesw | sitearm | bkpt | eret => simp only [exec, execSetsr, execRolesw, execSitearm, execBkpt, execEret, runScalar_goes h]
  case dbgmb | haltg | stepg | watchset => simp only [exec, execDbgmb, execHaltg, execStepg, execWatchset, runScalar_goes h, runOrdered_goes h]
  case cwb | cinv => simp only [exec, execCwb, execCinv, maintain, runWord_goes h]
  -- SEAL is the one word left, before the events: its constructor's name is a keyword, so the case is taken by its place.
  next => simp only [exec, execSeal, runScalar_goes h]
  all_goals cases hw

end Words
end Sys2Proof.Machine

end

section

/-! Events go on in every state. -/

namespace Sys2Proof.Machine
section Events
variable (s : State)

theorem goes_ite {c : Prop} [Decidable c] {a b : Host.Outcome State Fault Refusal} (ha : Goes a) (hb : Goes b) : Goes (if c then a else b) := by
  split <;> assumption

@[simp] theorem cpEndSeq_goes (p q : Nat) (seq : Word) (r : Cp State) : Goes (cpEndSeq s p q seq r) := by
  unfold cpEndSeq
  repeat' split
  all_goals exact goes_next _

@[simp] theorem cpEnd_goes (p q : Nat) (r : Cp State) : Goes (cpEnd s p q r) := cpEndSeq_goes ..

@[simp] theorem nodeStep_goes (p q : Nat) (g : GRun) (r : Cp State) : Goes (nodeStep s p q g r) := by
  unfold nodeStep
  split <;> exact cpEnd_goes ..

@[simp] theorem startPacket_goes (p q : Nat) (go : State → Nat → Packet → Option (Cp State)) : Goes (startPacket s p q go) := by
  unfold startPacket
  split
  · split
    · dsimp only
      split <;> simp
    · simp
  · simp

@[simp] theorem endWait_goes (gid k : Nat) (f : Group → Wait → Option Group) : Goes (s.endWait gid k f) := by
  unfold State.endWait
  repeat' split
  all_goals simp

theorem command_goes (p : Nat) (ok : Bool) (allowed : List PState) {go : Part → Host.Outcome State Fault Refusal} (hgo : ∀ x, Goes (go x)) :
    Goes (command s p ok allowed go) := by
  unfold command
  dsimp only
  repeat' split
  all_goals simp [hgo]

theorem execCopyRecord_goes (cl ch : Nat) : Goes (execCopyRecord cl ch s) := by
  unfold execCopyRecord
  extract_lets x
  split
  · exact goes_next _
  · split
    · exact goes_next _
    · extract_lets rec_ s1 gen
      split
      · exact goes_next _
      · split
        · exact goes_next _
        · extract_lets s2 w5
          split
          · exact goes_next _
          · split
            · split <;> exact goes_next _
            · split
              split
              · exact goes_next _
              · exact goes_next _
              · extract_lets f pieces from_ dest tb
                split
                · exact goes_next _
                · split
                  · exact goes_next _
                  · repeat' split
                    all_goals exact goes_next _
        · exact goes_next _
        · exact goes_next _

theorem execMmaProductComplete_goes (core : Nat) (bad1 bad2 : List Nat) : Goes (execMmaProductComplete core bad1 bad2 s) := by
  unfold execMmaProductComplete
  split
  · split <;> exact goes_next _
  · exact goes_next _

theorem execQueueEnable_goes (p q : Nat) : Goes (execQueueEnable p q s) := by
  unfold execQueueEnable
  extract_lets x tab
  split
  · exact goes_next _
  · split
    · exact goes_next _
    · extract_lets v s1 old on s2 desc put
      split
      · exact goes_next _
      · split
        · exact goes_next _
        · split
          · extract_lets w n put'
            split
            · exact cpEnd_goes ..
            · split
              · exact cpEnd_goes ..
              · exact goes_next _
          · exact cpEnd_goes ..
          · exact cpEnd_goes ..
          · exact goes_next _

theorem execQueuePacketRead_goes (p q : Nat) : Goes (execQueuePacketRead p q s) := by
  unfold execQueuePacketRead
  split
  · exact goes_next _
  · split
    · exact goes_next _
    · split
      · split
        · exact goes_next _
        · split
          · exact cpEnd_goes ..
          · exact goes_next _
      · refine goes_ite (goes_next _) (cpEndSeq_goes ..)

theorem execMonitorReread_goes (p q : Nat) : Goes (execMonitorReread p q s) := by
  unfold execMonitorReread
  split
  · exact goes_next _
  · extract_lets due waitp ring
    split
    · exact goes_next _
    · split
      · exact cpEndSeq_goes ..
      · exact cpEndSeq_goes ..
      · split
        · exact nodeStep_goes ..
        · exact goes_next _
      · exact goes_next _

theorem execWait_goes (p q : Nat) : Goes (execWait p q s) := by
  unfold execWait
  split
  · split
    · exact cpEndSeq_goes ..
    · exact goes_next _
  · exact startPacket_goes ..

theorem execWaitTimeout_goes (p q : Nat) : Goes (execWaitTimeout p q s) := by
  unfold execWaitTimeout
  split
  · split
    · exact cpEnd_goes ..
    · exact goes_next _
  · exact goes_next _

theorem execLoop_goes (p q : Nat) : Goes (execLoop p q s) := by
  unfold execLoop
  split
  · exact goes_next _
  · split
    · split
      · exact cpEndSeq_goes ..
      · exact goes_next _
    · exact startPacket_goes ..

theorem execNodeWait_goes (p q r : Nat) : Goes (execNodeWait p q r s) := by
  unfold execNodeWait
  split
  · exact goes_next _
  · split
    · split
      · exact nodeStep_goes ..
      · exact goes_next _
    · split
      · exact goes_next _
      · exact nodeStep_goes ..

theorem cmdOpen_goes (p : Nat) (ok : Bool) : Goes (s.cmdOpen p ok) :=
  command_goes s p ok _ fun _ => goes_ite (goes_next _) (goes_next _)

theorem cmdCreate_goes (p : Nat) (ok : Bool) : Goes (s.cmdCreate p ok) := by
  refine command_goes s p ok _ fun x => goes_ite (goes_next _) (goes_ite (goes_next _) ?_)
  split <;> exact goes_next _

theorem cmdDestroy_goes (p : Nat) (ok : Bool) : Goes (s.cmdDestroy p ok) :=
  command_goes s p ok _ fun _ => goes_ite (goes_next _) (goes_next _)

theorem cmdHalt_goes (p : Nat) (ok : Bool) : Goes (s.cmdHalt p ok) := command_goes s p ok _ fun _ => goes_next _

theorem cmdResume_goes (p : Nat) (ok : Bool) : Goes (s.cmdResume p ok) := command_goes s p ok _ fun _ => goes_next _

theorem cmdSave_goes (p : Nat) (ok back : Bool) : Goes (s.cmdSave p ok back) := by
  refine command_goes s p ok _ fun x => goes_ite (goes_next _) ?_
  split <;> exact goes_next _

theorem cmdRestore_goes (p : Nat) (ok : Bool) : Goes (s.cmdRestore p ok) := by
  refine command_goes s p ok _ fun _ => ?_
  split
  · exact goes_next _
  · exact goes_ite (goes_next _) (goes_next _)

theorem cmdKill_goes (p : Nat) (ok : Bool) : Goes (s.cmdKill p ok) := command_goes s p ok _ fun _ => goes_next _

theorem cmdReplay_goes (p : Nat) (ok : Bool) : Goes (s.cmdReplay p ok) := command_goes s p ok _ fun _ => goes_next _

theorem cmdTlbinv_goes (p : Nat) (vf : Bool) : Goes (s.cmdTlbinv p vf) := command_goes s p _ _ fun _ => goes_next _

theorem cmdGstep_goes (p : Nat) (ok : Bool) : Goes (s.cmdGstep p ok) := by
  refine command_goes s p ok _ fun x => ?_
  extract_lets a sel gid
  split
  · exact goes_next _
  · exact goes_ite (goes_next _) (goes_next _)

theorem pcmd_goes (p op : Nat) (vf : Bool) : Goes (s.pcmd p op vf) := by
  unfold State.pcmd
  split
  · exact cmdOpen_goes ..
  · exact cmdCreate_goes ..
  · exact cmdDestroy_goes ..
  · exact cmdHalt_goes ..
  · exact cmdResume_goes ..
  · exact cmdSave_goes ..
  · exact cmdSave_goes ..
  · exact cmdRestore_goes ..
  · exact cmdKill_goes ..
  · exact cmdReplay_goes ..
  · exact cmdTlbinv_goes ..
  · exact cmdGstep_goes ..
  · exact goes_next _

theorem execRegisterWrite_goes (offset : Nat) (value : Dword) (bytes : Nat) (vf : Bool) : Goes (execRegisterWrite offset value bytes vf s) := by
  unfold execRegisterWrite
  refine goes_ite (goes_next _) (goes_ite ?_ ?_)
  · exact goes_ite (goes_next _) (goes_ite (goes_next _) (goes_ite (goes_next _) (goes_next _)))
  · refine goes_ite (goes_next _) (goes_ite (pcmd_goes ..) (goes_ite (goes_next _) ?_))
    split <;> exact goes_next _

theorem execSaveImageWrite_goes (p : Nat) (bad : List Nat) : Goes (execSaveImageWrite p bad s) := by
  unfold execSaveImageWrite
  refine goes_ite (goes_next _) ?_
  obtain ⟨imgs, last⟩ := s.layout p _
  refine goes_ite (goes_next _) (goes_ite (goes_next _) ?_)
  dsimp only
  generalize (List.foldl _ _ _ : Except (Nat × Option WalkFault) State) = written
  cases written with
  | error a => exact goes_ite (goes_next _) (goes_ite (goes_next _) (goes_next _))
  | ok t => exact goes_next _

theorem execBlockSwapOut_goes (bid : Nat) : Goes (execBlockSwapOut bid s) := by
  unfold execBlockSwapOut
  split
  · exact goes_next _
  · refine goes_ite (goes_next _) (goes_ite (goes_next _) ?_)
    split <;> exact goes_next _

theorem execBlockSwapIn_goes (bid : Nat) : Goes (execBlockSwapIn bid s) := by
  unfold execBlockSwapIn
  split
  · exact goes_next _
  · refine goes_ite (goes_next _) ?_
    split <;> exact goes_next _

theorem execMigrationDestination_goes (p : Nat) (a : MigrationArrival) : Goes (execMigrationDestination p a s) := by
  unfold execMigrationDestination
  refine goes_ite (goes_next _) (goes_ite (goes_next _) (goes_ite (goes_next _) ?_))
  split
  · exact goes_next _
  · next gen =>
    extract_lets s1 s2 s3 s4 image
    split
    · exact goes_next _
    · next s2 =>
      extract_lets src s5 blocks
      split
      · exact goes_next _
      · next ims =>
        extract_lets s8 s9
        split <;> exact goes_next _

/-- EVERY EVENT goes on, whatever the state: none of its branches answers a fault or a refusal. -/
theorem exec_event_goes (i : Instr) (hw : isWord i = false) : Goes (exec i s) := by
  cases i
  case scratchpadAccess | cisBankOperation | returnLands | cisReturn | asyncCopyPerformed | batchComplete =>
    simp only [exec, execScratchpadAccess, execCisBankOperation, State.nearStep, execReturnLands, execCisReturn, State.retStep, execAsyncCopyPerformed, execBatchComplete]
    repeat' split
    all_goals simp only [goes_next]
  case weirPortArrival | weirWindowExpiry | weirHomeExecute =>
    simp only [exec, execWeirPortArrival, execWeirWindowExpiry, execWeirHomeExecute]
    repeat' split
    all_goals simp only [goes_next]
  case monitorMatch | tbarTimeout | mwaitTimeout | waitmDeadline | sleepExpiry | xpairTimeout | roleSwitch | roleswGrowResume | barstall =>
    simp only [exec, execMonitorMatch, execTbarTimeout, execMwaitTimeout, execWaitmDeadline, execSleepExpiry, execXpairTimeout, execRoleSwitch, execRoleswGrowResume, execBarstall,
      endWait_goes]
    repeat' split
    all_goals simp only [goes_next]
  case probeArrival | fillArrival | homeRequest | atomicAtHome | uLineEviction | probeAnswerArrival =>
    simp only [exec, execProbeArrival, execFillArrival, execHomeRequest, execAtomicAtHome, execULineEviction, execProbeAnswerArrival]
    repeat' split
    all_goals simp only [goes_next]
  case siteStepQuicken | siteStepWiden | sluiceGateRelease =>
    simp only [exec, execSiteStepQuicken, execSiteStepWiden, execSluiceGateRelease]
    repeat' split
    all_goals simp only [goes_next]
  case travCommandBegin | travCommandPerformed =>
    simp only [exec, execTravCommandBegin, execTravCommandPerformed]
    repeat' split
    all_goals simp only [goes_next]
  case quantisationCommand =>
    simp only [exec, execQuantisationCommand]
    repeat' split
    all_goals simp only [goes_next]
  case spanDispatch | migrationWave | launchStartTime | launchComplete =>
    simp only [exec, execSpanDispatch, execMigrationWave, execLaunchStartTime, execLaunchComplete]
    repeat' split
    all_goals simp only [goes_next, cpEnd_goes]
  case launch | signal | cond | graph | fencePacket | fix | migrate =>
    simp only [exec, execLaunch, execSignal, execCond, execGraph, execFencePacket, execFix, execMigrate, startPacket_goes]
  case copyRecord cl ch => exact execCopyRecord_goes ..
  case copyOwnWake =>
    simp only [exec, execCopyOwnWake]
    repeat' split
    all_goals simp only [goes_next]
  case mmaProductComplete => exact execMmaProductComplete_goes ..
  case queueEnable => exact execQueueEnable_goes ..
  case queuePacketRead => exact execQueuePacketRead_goes ..
  case monitorReread => exact execMonitorReread_goes ..
  case wait => exact execWait_goes ..
  case waitTimeout => exact execWaitTimeout_goes ..
  case loop => exact execLoop_goes ..
  case nodeWait => exact execNodeWait_goes ..
  case nodeLaunch | nodeSignal | nodeCond | nodeLoop =>
    simp only [exec, execNodeLaunch, execNodeSignal, execNodeCond, execNodeLoop]
    split
    · exact goes_next _
    · exact nodeStep_goes ..
  case nodeWaitTimeout | nodeEnd =>
    simp only [exec, execNodeWaitTimeout, execNodeEnd]
    repeat' split
    all_goals simp only [goes_next, nodeStep_goes, cpEnd_goes]
  case openPart | create | destroy | halt | resume | savefull | saveback | restore | kill | replay | tlbinv | gstep =>
    simp only [exec, execOpenPart, execCreate, execDestroy, execHalt, execResume, execSavefull, execSaveback, execRestore, execKill, execReplay, execTlbinv, execGstep,
      cmdOpen_goes, cmdCreate_goes, cmdDestroy_goes, cmdHalt_goes, cmdResume_goes, cmdSave_goes, cmdRestore_goes, cmdKill_goes, cmdReplay_goes, cmdTlbinv_goes, cmdGstep_goes]
  case saveImageWrite => exact execSaveImageWrite_goes ..
  case waymaskWrite | wayWalkEnd | fqctlWrite | fwdclr | generationScrub =>
    simp only [exec, execWaymaskWrite, execWayWalkEnd, execFqctlWrite, execFwdclr, execGenerationScrub, goes_next]
    repeat' split
    all_goals simp only [goes_next]
  case registerWrite => exact execRegisterWrite_goes ..
  case blockSwapOut => exact execBlockSwapOut_goes ..
  case blockSwapIn => exact execBlockSwapIn_goes ..
  case powerGood | imageVerify | selfCalibration | memoryInit | ferzuLinkUp | powerWindow =>
    simp only [exec, execPowerGood, execImageVerify, execSelfCalibration, execMemoryInit, execFerzuLinkUp, execPowerWindow]
    repeat' split
    all_goals simp only [goes_next]
  case correctableError | uncorrectableError | coreRepair | l2WayRepair | dramRepair | ferzuLaneRepair | spareLaneTrained | dramSpareCopyDone =>
    simp only [exec, execCorrectableError, execUncorrectableError, execCoreRepair, execL2WayRepair, execDramRepair, execFerzuLaneRepair, execSpareLaneTrained, execDramSpareCopyDone]
    repeat' split
    all_goals simp only [goes_next]
  case measurementExtend | quoteRequest | stubForwardWrite =>
    simp only [exec, execMeasurementExtend, execQuoteRequest, execStubForwardWrite]
    repeat' split
    all_goals simp only [goes_next]
  case fixCutTime | fixDeadline | fixDrainPage | fixDrainFault =>
    simp only [exec, execFixCutTime, execFixDeadline, execFixDrainPage, execFixDrainFault]
    repeat' split
    all_goals simp only [goes_next, cpEnd_goes]
  case migrationDestination => exact execMigrationDestination_goes ..
  all_goals cases hw
end Events
end Sys2Proof.Machine

end

section

/-! A word executes only in a selected split, so every step goes on. -/

namespace Sys2Proof.Machine

/-- EVERY MEANING goes on in a selected split. -/
theorem exec_goes {s : State} (h : Selected s) (i : Instr) : Goes (exec i s) := by
  by_cases hw : isWord i = true
  · exact exec_word_goes h i hw
  · exact exec_event_goes s i (by simpa using hw)

/-- The numbers of the resident groups and the selected split are as they were. -/
@[simp] abbrev SameGids (s t : State) : Prop := t.groups.map (·.gid) = s.groups.map (·.gid) ∧ t.cur = s.cur

theorem SameGids.trans {s t u : State} (h : SameGids s t) (h' : SameGids t u) : SameGids s u :=
  ⟨h'.1.trans h.1, h'.2.trans h.2⟩

theorem SameOutside.gids {s t : State} (h : SameOutside s t) : SameGids s t := ⟨congrArg _ h.1, h.2.1⟩

theorem foldl_sameGids {β : Type} {f : State → β → State} (hf : ∀ s b, SameGids s (f s b)) : ∀ (l : List β) (s : State), SameGids s (l.foldl f s)
  | [], _ => ⟨rfl, rfl⟩
  | b :: l, s => (hf s b).trans (foldl_sameGids hf l (f s b))

theorem modGroup_sameGids (s : State) {i : Nat} {f : Group → Group} (hf : ∀ g, g.gid = i → (f g).gid = i) : SameGids s (s.modGroup i f) := by
  refine ⟨?_, rfl⟩
  simp only [State.modGroup, List.map_map]
  refine List.map_congr_left fun g _ => ?_
  by_cases hg : g.gid = i
  · simp [hg, hf g hg]
  · simp [hg]

theorem freeReg_sameGids (s : State) (gid code : Nat) (m : Mask) : SameGids s (s.freeReg gid code m) := by
  unfold State.freeReg
  exact .trans (t := (s.freeWords 32).2) ⟨rfl, rfl⟩ (modGroup_sameGids _ fun g hg => by split <;> simp [hg])

theorem freeLate_sameGids (s : State) (gid : Nat) : SameGids s (s.freeLate gid) := by
  unfold State.freeLate
  split
  · exact ⟨rfl, rfl⟩
  · split
    · exact ⟨rfl, rfl⟩
    · extract_lets ended
      split
      · exact ⟨rfl, rfl⟩
      · refine .trans ?_ (modGroup_sameGids _ fun g hg => hg)
        split
        · exact foldl_sameGids (fun s _ => freeReg_sameGids s ..) _ _
        · exact ⟨rfl, rfl⟩

/-- A resident group is found by its number exactly when one has it. -/
theorem group?_isSome_iff {s : State} {gid : Nat} : (s.group? gid).isSome = true ↔ gid ∈ s.groups.map (·.gid) := by
  simp [State.group?, List.find?_isSome]

theorem selected_iff {s : State} : Selected s ↔ ∃ gid k, s.cur = some (gid, k) ∧ gid ∈ s.groups.map (·.gid) := by
  simp only [← group?_isSome_iff, Option.isSome_iff_exists, Selected, exists_and_left]

theorem Selected.of_sameGids {s t : State} (h : Selected s) (hst : SameGids s t) : Selected t := by
  rw [selected_iff] at h ⊢
  rwa [hst.1, hst.2]

/-- Merging keeps the number of the group. -/
theorem mergeInto_gid (g : Group) (k : Nat) (st : SplitState) : (mergeInto g k st).1.gid = g.gid := by
  unfold mergeInto
  refine List.foldlRecOn (motive := fun acc : Group × Nat => acc.1.gid = g.gid) entries _ rfl fun acc h j _ => ?_
  obtain ⟨g1, k1⟩ := acc
  dsimp only at h ⊢
  repeat' split
  all_goals simpa using h

theorem execWord_goes {s : State} (h : Selected s) (g : Group) (k : Nat) (w : Dword) : Goes (s.execWord g k w) := by
  unfold State.execWord
  split
  · exact exec_goes h _
  · exact goes_next _

/-- A resident group, stored back with one of its splits selected, is selected still when its late writes are free (R328). -/
theorem selected_freeLate {s : State} {g g0 : Group} (k : Nat) (h : s.group? g.gid = some g0) :
    Selected (State.freeLate { s.setGroup g with cur := some (g.gid, k) } g.gid) := by
  refine Selected.of_sameGids (selected_iff.mpr ⟨g.gid, k, rfl, ?_⟩) (freeLate_sameGids _ _)
  show g.gid ∈ (s.modGroup g.gid fun _ => g).groups.map (·.gid)
  rw [(modGroup_sameGids s fun _ _ => rfl).1]
  exact group?_isSome_iff.mp (by simp [h])

/-- What a split's attempt to issue comes to goes on: its group is selected before its word executes. -/
theorem attempt_goes {s : State} {gid k : Nat} {a : Attempt} (h : s.attempt gid k = some a) : Goes a.out := by
  unfold State.attempt at h
  split at h
  · cases h
  · next g0 hg0 =>
    have hid : g0.gid = gid := by simpa using List.find?_some hg0
    have hm := mergeInto_gid g0 k .runnable
    generalize mergeInto g0 k .runnable = merged at h hm
    obtain ⟨g, k1⟩ := merged
    obtain rfl : g.gid = gid := hm.trans hid
    dsimp only at h
    have hsel := selected_freeLate (g := setEntry g k1 { entry g k1 with passed := false }) k1 hg0
    rw [setEntry_gid] at hsel
    generalize State.freeLate _ g.gid = s1 at h hsel
    split at h
    · cases h; exact goes_next _
    · split at h
      · cases h
      · cases h; exact goes_next _
      · next s2 w hgot =>
        have h2 : Selected s2 := by
          split at hgot
          · cases hgot; exact hsel
          · exact hsel.of_sameGids (SameOutside.gids (fetchWord_sameOutside hgot))
        split at h
        · split at h <;> cases h
          exact goes_next _
        · cases h
          exact execWord_goes h2 ..

theorem afterStep_goes {f : State → State} {o : Host.Outcome State Fault Refusal} (h : Goes o) : Goes (afterStep f o) := by
  obtain ⟨t, rfl⟩ := h
  exact goes_next _

theorem firstReady_goes {s : State} {cs : List Cand} {c : Cand} {a : Attempt} (h : s.firstReady cs = some (c, a)) : Goes a.out := by
  induction cs with
  | nil => cases h
  | cons x xs ih =>
    unfold State.firstReady at h
    split at h
    · next ha => cases h; exact attempt_goes ha
    · exact ih h

theorem stepIssue_goes {s : State} {g : Group} {r : StepReq} {o : Host.Outcome State Fault Refusal} (h : s.stepIssue g r = some o) : Goes o := by
  obtain ⟨⟨c, a⟩, hc, rfl⟩ := Option.map_eq_some_iff.mp h
  exact afterStep_goes (firstReady_goes hc)

theorem readyParts_goes {s : State} {core : Nat} {x : Nat × Cand × Attempt} (h : x ∈ s.readyParts core) : Goes x.2.2.out := by
  obtain ⟨p, -, hp⟩ := List.mem_filterMap.mp h
  obtain ⟨⟨c, a⟩, hc, rfl⟩ := Option.map_eq_some_iff.mp hp
  exact firstReady_goes hc

theorem turnOn_goes (s : State) (core : Nat) : Goes (s.turnOn core) := by
  unfold State.turnOn
  split
  · next o ho =>
    obtain ⟨x, -, hx⟩ := List.exists_of_findSome?_eq_some ho
    exact afterStep_goes (stepIssue_goes hx)
  · extract_lets cs
    split
    · exact goes_next _
    · split
      · exact goes_next _
      · next hf => exact afterStep_goes (readyParts_goes (List.mem_of_find?_eq_some hf))

theorem issueOn_goes (s : State) (core : Nat) : Goes (s.issueOn core) := goes_ite (goes_next _) (turnOn_goes ..)

theorem move_goes (s : State) (m : Move) : Goes (s.move m) := by
  cases m with
  | event i =>
    show Goes (if isWord i then .next s else afterStep State.settled (exec i s))
    split
    · exact goes_next _
    · next hw => exact afterStep_goes (exec_event_goes s i (by simpa using hw))
  | issue core => exact issueOn_goes s core
  | tick | fetch | evict | evictTlb | inbound | inboundRead | hostMem | peerMem => exact goes_next _

/-- Settles O5: no event answers a fault, and the one fault of a word (no resident split is selected) is out of reach, since every
way in which `step` comes to execute a word selects a resident split first. -/
theorem stepGoesOn : Obligations.StepGoesOn := by
  intro s
  show Goes (step s)
  unfold step
  split
  · exact afterStep_goes (issueOn_goes ..)
  · exact move_goes ..

end Sys2Proof.Machine

end

section

/-! GETSR and SETSR as scalar and row words. -/

namespace Sys2Proof.Machine

open Sys2Proof.Claims

/-- A scalar or group-level word that executes and whose effect is on its own group, beside other parts of the state in `s1`; it may change EX of its split. -/
theorem runScalar_done {s s1 : State} {g g2 g0 : Group} {k : Nat} (hs : Issuing s g k) (i : Instr) (h : Hdr) (body : Ctx → Issue)
    (hw : i.wellFormed = true) (hss : stepping g = false) (hx : executesIn g k h = true) (hg : s1.group? g.gid = some g0) (hid : g2.gid = g.gid)
    {m : Mask} (he : entry g2 k = { entry g k with ex := m })
    (hb : body (frameOf i h s g k) = .done (s1.setGroup (setEntry g2 k { entry g2 k with pc := (entry g k).pc + 8 }))) :
    runScalar i h s body = .next (landed s1 g2 k ((entry g k).pc + 8)) := by
  have hex : (frameOf i h s g k).executes = true := hx
  unfold runScalar
  rw [runWord_eq hs, hw, if_pos rfl, if_pos hex, hb]
  have hk (e : Entry) : entry (setEntry g2 k e) (frameOf i h s g k).k = e := entry_setEntry _ _ hs.slot
  have hi := issued_setGroup (frameOf i h s g k) s1 (setEntry g2 k { entry g2 k with pc := (entry g k).pc + 8 }) hg hid
    (by rw [hk]; simp [he, hs.state]) (by rw [hk]; simp [he, frameOf]) (by rw [hk]; simp [he, frameOf]) hss
  refine congrArg (fun x => Host.Outcome.next (State.turnOver x)) (hi.trans ?_)
  rw [hk, show (frameOf i h s g k).k = k from rfl, setEntry_setEntry]

section SysRegs
variable (g : Group) (k sel : Nat) (v : Dword)

theorem writeExmask_entry (hk : k < 4) : entry (writeExmask g k v) k = { entry g k with ex := v.truncate 32 &&& (entry g k).own } := by
  rw [writeExmask, entry_setEntry _ _ hk]
  rfl

/-- SETSR keeps the number of its group and changes no more of its split's entry than EX. -/
theorem writeSysReg_keeps (hk : k < 4) : (writeSysReg g k sel v).gid = g.gid ∧ ∃ m, entry (writeSysReg g k sel v) k = { entry g k with ex := m } := by
  unfold writeSysReg
  extract_lets inHandler
  have hin (f : Group) (hf : f.gid = g.gid ∧ entry f k = entry g k) : (inHandler f).gid = g.gid ∧ ∃ m, entry (inHandler f) k = { entry g k with ex := m } := by
    simp only [inHandler]
    split
    · exact ⟨hf.1, _, hf.2⟩
    · exact ⟨rfl, _, rfl⟩
  split
  case h_1 => exact ⟨setEntry_gid .., _, writeExmask_entry g k v hk⟩
  case h_6 | h_7 | h_8 | h_9 | h_10 | h_11 | h_12 | h_13 => exact hin _ ⟨rfl, rfl⟩
  all_goals exact ⟨rfl, _, rfl⟩
end SysRegs

theorem getsr_scalar {w : RI} {s : State} {g : Group} {k : Nat} (hi : Issues s g k) (hw : (Instr.getsr w).wellFormed = true) (hm : w.m.getLsbD 0 = false)
    (hx : executesIn g k w.toHdr = true) : Lands (.getsr w) s g k (setS g w.d.toNat (sysReg s g k (srSel w) 0)) := by
  have hb : bitAt w.m 0 = false := hm
  simp only [Lands, exec, execGetsr, hb, Bool.false_eq_true, if_false]
  exact runScalarG_eq hi.1 _ _ _ hw hi.2 hx (by simp [frameOf]) (by simp [frameOf])

theorem getsr_row {w : RI} {s : State} {g : Group} {k : Nat} (hi : Issues s g k) (hw : (Instr.getsr w).wellFormed = true) (hm : w.m.getLsbD 0 = true)
    (ha : active g k w.toHdr ≠ 0) (hd : WritableRows g [w.d.toNat]) :
    Lands (.getsr w) s g k (writesRow g k w.toHdr w.d.toNat .i32 fun l => (sysReg s g k (srSel w) l).truncate 32) := by
  have hb : bitAt w.m 0 = true := hm
  simp only [Lands, exec, execGetsr, hb, if_true]
  rw [runWord_vector hi.1 hi.2 _ _ hw _ rfl ha hd (by simp) (by simp), writeRows_one]
  rfl

theorem setsr_group {w : RI} {s : State} {g : Group} {k : Nat} (hi : Issues s g k) (hw : (Instr.setsr w).wellFormed = true)
    (hx : executesIn g k w.toHdr = true) (hsel : srSel w ≠ 0x014) : Lands (.setsr w) s g k (writeSysReg g k (srSel w) (sreg g w.a.toNat)) := by
  obtain ⟨hid, m, he⟩ := writeSysReg_keeps g k (srSel w) (sreg g w.a.toNat) hi.1.slot
  simp only [Lands, exec, execSetsr, hsel, if_false]
  exact runScalar_done hi.1 _ _ _ hw hi.2 hx hi.1.group hid he rfl

theorem setsr_barlimit {w : RI} {s : State} {g : Group} {k : Nat} (hi : Issues s g k) (hw : (Instr.setsr w).wellFormed = true)
    (hx : executesIn g k w.toHdr = true) (hsel : srSel w = 0x014) :
    exec (.setsr w) s = .next (landed (s.modBlock g.bid fun b => { b with barlimit := (sreg g w.a.toNat).truncate 32 }) g k ((entry g k).pc + 8)) := by
  simp only [exec, execSetsr, hsel, if_true]
  exact runScalar_done (s1 := s.modBlock g.bid _) (m := (entry g k).ex) hi.1 _ _ _ hw hi.2 hx hi.1.group rfl rfl rfl

theorem block?_modBlock {s : State} {bid : Nat} {b : Block} {f : Block → Block} (hb : s.block? bid = some b) (hf : ∀ b, (f b).bid = b.bid) :
    (s.modBlock bid f).block? bid = some (f b) := by
  have hp : (fun x : Block => x.bid == bid) ∘ (fun b => if b.bid = bid then f b else b) = fun x => x.bid == bid := by
    funext x
    by_cases hx : x.bid = bid <;> simp [hx, hf]
  have hid : b.bid = bid := by simpa using List.find?_some hb
  unfold State.block? at hb
  simp only [State.block?, State.modBlock, List.find?_map, hp, hb, Option.map_some, hid, if_true]

end Sys2Proof.Machine

end

section

/-! The system registers as they read and as they are written. -/

namespace Sys2Proof.Machine

open Sys2Proof.Claims

/-- Bits `hi` to `lo` of a double word made of a number. -/
theorem fieldN_ofNat (n hi lo : Nat) : fieldN (BitVec.ofNat 64 n) hi lo = n % 2 ^ 64 / 2 ^ lo % 2 ^ (hi - lo + 1) := by
  simp [fieldN, Nat.shiftRight_eq_div_pow]

theorem getLsbD_ofNat_div (n i : Nat) (hi : i < 64) : (BitVec.ofNat 64 n).getLsbD i = decide (n / 2 ^ i % 2 = 1) := by
  simp only [BitVec.getLsbD_ofNat, hi, decide_true, Bool.true_and, Nat.testBit_eq_decide_div_mod_eq]

/-- ROLE: GRP_REGS, PRIO and ROLE, reserved bits zero (R33). -/
theorem roleReg_fields {g : Group} (h8 : 8 ≤ g.allot) (h512 : g.allot ≤ 512) (hp : g.prio < 4) (hr : g.role < 4) :
    fieldN (roleReg g) 10 4 = g.allot / 8 - 1 ∧ fieldN (roleReg g) 3 2 = g.prio ∧ fieldN (roleReg g) 1 0 = g.role ∧ fieldN (roleReg g) 63 11 = 0 := by
  simp only [roleReg, fieldN_ofNat, at_]
  omega

theorem bitIf_eq (b : Bool) (n : Nat) : bitIf b n = b.toNat * 2 ^ n := by
  cases b <;> simp [bitIf]

/-- INFLIGHT: the error bits and the counts of the paths, reserved bits zero (R82). -/
theorem inflightReg_fields {g : Group} (ht : g.trv.count < 4096) (ha : g.asy.count < 4096) (hq : g.qntq.length < 256) (hc : g.cisq.length < 256)
    (htc : g.trv.closed.length < 256) (hac : g.asy.closed.length < 256) :
    fieldN (inflightReg g) 63 60 = 0 ∧ (inflightReg g).getLsbD 59 = g.errQnt ∧ (inflightReg g).getLsbD 58 = g.errCis ∧ (inflightReg g).getLsbD 57 = g.errTrv ∧
      (inflightReg g).getLsbD 56 = g.errAsy ∧ fieldN (inflightReg g) 55 44 = g.trv.count ∧ fieldN (inflightReg g) 43 32 = g.asy.count ∧
      fieldN (inflightReg g) 31 24 = g.qntq.length ∧ fieldN (inflightReg g) 23 16 = g.cisq.length ∧ fieldN (inflightReg g) 15 8 = g.trv.closed.length ∧
      fieldN (inflightReg g) 7 0 = g.asy.closed.length := by
  have hb (b : Bool) : b = decide (b.toNat = 1) ∧ b.toNat < 2 := by cases b <;> decide
  obtain ⟨hbq, hq2⟩ := hb g.errQnt
  obtain ⟨hbc, hc2⟩ := hb g.errCis
  obtain ⟨hbt, ht2⟩ := hb g.errTrv
  obtain ⟨hba, ha2⟩ := hb g.errAsy
  rw [hbq, hbc, hbt, hba]
  simp only [inflightReg, fieldN_ofNat, at_, bitIf_eq, getLsbD_ofNat_div _ _ (show 59 < 64 by decide), getLsbD_ofNat_div _ _ (show 58 < 64 by decide),
    getLsbD_ofNat_div _ _ (show 57 < 64 by decide), getLsbD_ofNat_div _ _ (show 56 < 64 by decide), decide_eq_decide]
  generalize g.errQnt.toNat = q at *
  generalize g.errCis.toNat = c at *
  generalize g.errTrv.toNat = t at *
  generalize g.errAsy.toNat = a at *
  omega

/-- A trap register but for TRAPBASE and TRAPCTL.SS ignores a write outside handler mode (R277). -/
theorem writeSysReg_outsideHandler {g : Group} (k : Nat) (v : Dword) (hm : g.hmode = false) :
    ∀ r ∈ [0x022, 0x023, 0x024, 0x025, 0x028, 0x029, 0x02A, 0x02B], writeSysReg g k r v = g := by
  simp [writeSysReg, hm]

/-- In handler mode a trap register reads back what was written to it, reserved bits zero (R277). -/
theorem sysReg_writeSysReg_inHandler (s : State) {g : Group} (k : Nat) (v : Dword) (hm : g.hmode = true) :
    sysReg s (writeSysReg g k 0x022 v) k 0x022 0 = v &&& 0x3FFF ∧ sysReg s (writeSysReg g k 0x023 v) k 0x023 0 = v ∧
      sysReg s (writeSysReg g k 0x024 v) k 0x024 0 = v &&& ~~~7 ∧ sysReg s (writeSysReg g k 0x025 v) k 0x025 0 = v ∧
      ∀ r ∈ [0x028, 0x029, 0x02A, 0x02B], sysReg s (writeSysReg g k r v) k r 0 = v := by
  simp [writeSysReg, sysReg, hm, vget_vset_same]

/-- A read-only register ignores a write (R5). -/
theorem writeSysReg_readOnly (g : Group) (k : Nat) (v : Dword) :
    ∀ r ∈ [0x000, 0x001, 0x002, 0x003, 0x004, 0x005, 0x006, 0x007, 0x008, 0x009, 0x00A, 0x00B, 0x00C, 0x011, 0x012, 0x013], writeSysReg g k r v = g := by
  simp [writeSysReg]

/-- Settles O23: the words land by the laws of scalar and row words, and each register is read and written as its own equation of `sysReg` and `writeSysReg` says. -/
theorem systemRegisters : Obligations.SystemRegisters := by
  intro w s g k hi sel
  refine ⟨fun hw hm hx => getsr_scalar hi hw hm hx, fun hw hm ha hd => getsr_row hi hw hm ha hd,
    fun hw hx => ⟨fun hsel => setsr_group hi hw hx hsel, fun b hsel hb => ?_⟩, fun v lane => ?_⟩
  · exact ⟨_, setsr_barlimit hi hw hx hsel, rfl, ⟨rfl, rfl, rfl, rfl, rfl⟩, group?_setGroup s (advanced g k (entry g k).pc) hi.1.group, block?_modBlock hb fun _ => rfl⟩
  · exact ⟨rfl, rfl, rfl, rfl, rfl, rfl, rfl, rfl, rfl, rfl, rfl, rfl, roleReg_fields, rfl, inflightReg_fields, rfl, rfl, rfl, rfl, rfl, rfl,
      fun hk => congrArg Entry.ex (writeExmask_entry g k v hk), rfl, rfl, rfl, fun r hr hm => writeSysReg_outsideHandler k v hm r hr,
      sysReg_writeSysReg_inHandler s k v, writeSysReg_readOnly g k v⟩
end Sys2Proof.Machine

end

section

/-! A register of a partition's block as it is written and read. -/

namespace Sys2Proof.Machine

open Sys2Proof.Claims

section Registers
variable {s : State} {p r : Nat}

theorem blockReg_split (hr : r < 0x1000) : 0x100000 ≤ blockReg p r ∧ (blockReg p r - 0x100000) / 0x1000 = p ∧ (blockReg p r - 0x100000) % 0x1000 = r := by
  unfold blockReg
  omega

@[simp] theorem part_modPart_same (f : Part → Part) (hp : p < 40) : (s.modPart p f).part p = f (s.part p) := vget_vset_same _ _ _ hp

theorem part_modPart_other {q : Nat} (f : Part → Part) (hq : q ≠ p) : (s.modPart p f).part q = s.part q := vget_vset_other _ _ _ hq

variable (hp : p < 40) (hr : r < 0x1000)
include hp hr

/-- A double word written to a register of a partition's block that is neither PCMD nor a WAYMASK. -/
theorem registerWrite_block {v : Dword} {vf : Bool} (hc : r ≠ 0x008) (hw : ¬ (0x030 ≤ r ∧ r ≤ 0x048 ∧ r % 8 = 0)) :
    exec (.registerWrite (blockReg p r) v 8 vf) s = .next (((putReg r v vf (s.part p)).map fun x => s.modPart p fun _ => x).getD s) := by
  obtain ⟨hge, hdiv, hmod⟩ := blockReg_split (p := p) hr
  simp only [exec, execRegisterWrite, ne_eq, not_true_eq_false, if_false, hdiv, hmod, if_neg (Nat.not_lt.mpr hge), if_neg (Nat.not_le.mpr hp), if_neg hc, if_neg hw]
  cases putReg r v vf (s.part p) <;> rfl

theorem registerWrite_stored {v : Dword} {vf : Bool} {x : Part} (hx : putReg r v vf (s.part p) = some x)
    (hc : r ≠ 0x008 := by decide) (hw : ¬ (0x030 ≤ r ∧ r ≤ 0x048 ∧ r % 8 = 0) := by decide) :
    exec (.registerWrite (blockReg p r) v 8 vf) s = .next (s.modPart p fun _ => x) := by
  rw [registerWrite_block hp hr hc hw, hx]
  rfl

/-- A write that the register's access does not allow changes nothing (R5, R360, R364). -/
theorem registerWrite_ignored {v : Dword} {vf : Bool} (hn : putReg r v vf (s.part p) = none)
    (hc : r ≠ 0x008 := by decide) (hw : ¬ (0x030 ≤ r ∧ r ≤ 0x048 ∧ r % 8 = 0) := by decide) :
    exec (.registerWrite (blockReg p r) v 8 vf) s = .next s := by
  rw [registerWrite_block hp hr hc hw, hn]
  rfl

end Registers

/-- PARG, PLACE, S2ROOT, QTABLE, FQRD and MBOX read as they stand in the partition (R360). -/
theorem readReg_block {s : State} {p : Nat} (hp : p < 40) (vf : Bool) :
    s.readReg (blockReg p 0x010) 8 vf = (s.part p).parg ∧ s.readReg (blockReg p 0x018) 8 vf = (s.part p).place ∧ s.readReg (blockReg p 0x050) 8 vf = (s.part p).s2root ∧
      s.readReg (blockReg p 0x060) 8 vf = (s.part p).qtable ∧ s.readReg (blockReg p 0x080) 8 vf = (s.part p).fqrd ∧ s.readReg (blockReg p 0x088) 8 vf = (s.part p).mbox := by
  have hread (r : Nat) (hr : r < 0x1000) : ¬ blockReg p r < 0x100000 ∧ (blockReg p r - 0x100000) / 0x1000 = p ∧ (blockReg p r - 0x100000) % 0x1000 = r :=
    (blockReg_split hr).imp_left Nat.not_lt.mpr
  simp [State.readReg, hread, Nat.not_le.mpr hp]

/-- A register that holds what is written to it reads back (R360). -/
theorem registerWrite_readsBack {s : State} {p : Nat} (hp : p < 40) (v : Dword) (vf : Bool) : ∀ r ∈ [0x010, 0x060, 0x080, 0x088],
    ∃ t, exec (.registerWrite (blockReg p r) v 8 vf) s = .next t ∧ SameMemory s t ∧ t.groups = s.groups ∧ t.readReg (blockReg p r) 8 vf = v ∧ ∀ q, q ≠ p → t.part q = s.part q := by
  simp only [List.forall_mem_cons, List.not_mem_nil, false_imp_iff, implies_true, and_true]
  refine ⟨?_, ?_, ?_, ?_⟩
  all_goals
    refine ⟨_, registerWrite_stored hp (by decide) rfl, ⟨rfl, rfl, rfl, rfl, rfl⟩, rfl, ?_, fun q hq => part_modPart_other _ hq⟩
    simp only [readReg_block hp vf, part_modPart_same _ hp]

/-- S2ROOT keeps its reserved low bits zero (log 39). -/
theorem registerWrite_s2root {s : State} {p : Nat} (hp : p < 40) (v : Dword) :
    ∃ t, exec (.registerWrite (blockReg p 0x050) v 8 false) s = .next t ∧ t.readReg (blockReg p 0x050) 8 false = v &&& ~~~0x7FF :=
  ⟨_, registerWrite_stored hp (by decide) rfl, by simp only [readReg_block hp, part_modPart_same _ hp]⟩

/-- PLACE takes a write in CONFIG (R364). -/
theorem registerWrite_place {s : State} {p : Nat} (hp : p < 40) (v : Dword) (hc : (s.part p).state = .config) :
    ∃ t, exec (.registerWrite (blockReg p 0x018) v 8 false) s = .next t ∧ t.readReg (blockReg p 0x018) 8 false = v :=
  ⟨_, registerWrite_stored hp (by decide) (if_neg (by simp [hc])), by simp only [readReg_block hp, part_modPart_same _ hp]⟩

/-- WAYMASK (R375, R376): ignored through a virtual function and during a walk; otherwise it takes its value, and removed ways begin a walk. -/
theorem waymaskWrite_eq {s : State} {p d : Nat} (hp : p < 40) (hd : d < 4) (v : Dword) :
    let old := vget (s.part p).waymask d 0
    (vget (s.part p).walk d false = true → exec (.waymaskWrite p d v false) s = .next s) ∧ exec (.waymaskWrite p d v true) s = .next s ∧
      (vget (s.part p).walk d false = false → exec (.waymaskWrite p d v false) s = .next (s.modPart p fun x =>
        { x with waymask := vset x.waymask d (v.truncate 24), walk := vset x.walk d (old &&& ~~~(v.truncate 24) != 0) })) := by
  refine ⟨fun h => ?_, rfl, fun h => ?_⟩
  · simp [exec, execWaymaskWrite, State.putWaymask, h]
  · simp only [exec, execWaymaskWrite, State.putWaymask, h, Nat.not_le.mpr hp, Nat.not_le.mpr hd, Bool.false_eq_true, or_self, if_false]
    rfl

end Sys2Proof.Machine

end

section

/-! A walk of L2 ways gives up every line it has walked: no operation of it puts a new copy into a cache. -/

namespace Sys2Proof.Machine

/-- An operation has put no new copy of a line into an L1 or a slice. -/
def NoNewCopies (s t : State) : Prop :=
  (∀ l ∈ t.l1, l ∈ s.l1) ∧ ∀ c ∈ t.slices, ∃ c' ∈ s.slices, c'.die = c.die ∧ c'.line = c.line

theorem NoNewCopies.trans {s t u : State} (h : NoNewCopies s t) (h' : NoNewCopies t u) : NoNewCopies s u := by
  refine ⟨fun l hl => h.1 l (h'.1 l hl), fun c hc => ?_⟩
  obtain ⟨c', hc', hd', hl'⟩ := h'.2 c hc
  obtain ⟨c'', hc'', hd'', hl''⟩ := h.2 c' hc'
  exact ⟨c'', hc'', hd''.trans hd', hl''.trans hl'⟩

theorem noNewCopies_of_subset {s t : State} (hl : ∀ l ∈ t.l1, l ∈ s.l1) (hc : ∀ c ∈ t.slices, c ∈ s.slices) : NoNewCopies s t :=
  ⟨hl, fun c h => ⟨c, hc c h, rfl, rfl⟩⟩

theorem noNewCopies_of_eq {s t : State} (h : t.l1 = s.l1 ∧ t.slices = s.slices) : NoNewCopies s t :=
  noNewCopies_of_subset (by simp [h.1]) (by simp [h.2])

theorem foldl_noNewCopies {β : Type} {f : State → β → State} (hf : ∀ s b, NoNewCopies s (f s b)) : ∀ (l : List β) (s : State), NoNewCopies s (l.foldl f s)
  | [], _ => noNewCopies_of_eq ⟨rfl, rfl⟩
  | b :: l, s => (hf s b).trans (foldl_noNewCopies hf l (f s b))

/-- No L1 keeps the line, nor any slice, and where that is so it stays so. -/
theorem NoNewCopies.l1_free {s t : State} (h : NoNewCopies s t) {line : Nat} (hs : ∀ l ∈ s.l1, l.line ≠ line) : ∀ l ∈ t.l1, l.line ≠ line :=
  fun l hl => hs l (h.1 l hl)

theorem NoNewCopies.slice_free {s t : State} (h : NoNewCopies s t) {P : Nat → Nat → Prop} (hs : ∀ c ∈ s.slices, ¬ P c.die c.line) : ∀ c ∈ t.slices, ¬ P c.die c.line := by
  intro c hc
  obtain ⟨c', hc', hd, hl⟩ := h.2 c hc
  rw [← hd, ← hl]
  exact hs c' hc'

section
variable (s : State)

theorem putHome_copies (line : Nat) (v : LineVal) : (s.putHome line v).l1 = s.l1 ∧ (s.putHome line v).slices = s.slices := by
  unfold State.putHome State.setHomeMem
  extract_lets a v
  split <;> exact ⟨rfl, rfl⟩

theorem noteShared_copies (n : Node) (line : Nat) (a : Agent) (dirty : Bool) :
    (s.noteShared n line a dirty).l1 = s.l1 ∧ (s.noteShared n line a dirty).slices = s.slices := by
  unfold State.noteShared
  repeat' split
  all_goals exact ⟨rfl, rfl⟩

theorem noteGone_copies (n : Node) (line : Nat) (a : Agent) : (s.noteGone n line a).l1 = s.l1 ∧ (s.noteGone n line a).slices = s.slices := by
  unfold State.noteGone
  split
  · exact ⟨rfl, rfl⟩
  · cases a <;> exact ⟨rfl, rfl⟩

/-- A slice that keeps a line takes a new value for it. -/
theorem putSlice_noNewCopies {l l' : SliceLine} (hl : l ∈ s.slices) (hd : l'.die = l.die) (hn : l'.line = l.line) : NoNewCopies s (s.putSlice l') := by
  refine ⟨fun x hx => hx, fun c hc => ?_⟩
  simp only [State.putSlice, List.mem_append, List.mem_filter, List.mem_singleton] at hc
  obtain hc | rfl := hc
  · exact ⟨c, hc.1, rfl, rfl⟩
  · exact ⟨l, hl, hd.symm, hn.symm⟩

theorem dropSlice_noNewCopies (d line : Nat) : NoNewCopies s (s.dropSlice d line) :=
  noNewCopies_of_subset (fun _ h => h) fun _ hc => (List.mem_filter.mp hc).1

theorem takeWb_noNewCopies (a : Answer) : NoNewCopies s (s.takeWb a) := by
  unfold State.takeWb
  extract_lets s1
  have h1 : NoNewCopies s s1 := by
    simp only [s1]
    split
    · exact noNewCopies_of_eq (noteShared_copies ..)
    · exact noNewCopies_of_eq (noteGone_copies ..)
  refine h1.trans ?_
  split
  · exact noNewCopies_of_eq ⟨rfl, rfl⟩
  · exact noNewCopies_of_eq (putHome_copies ..)
  · split
    · next l hl =>
      have hm : l ∈ s1.slices := List.mem_of_find?_eq_some hl
      split
      · exact putSlice_noNewCopies s1 hm rfl rfl
      · extract_lets kept
        refine NoNewCopies.trans (t := if kept then s1.putSlice _ else s1.dropSlice _ _) ?_ (noNewCopies_of_eq ⟨rfl, rfl⟩)
        split
        · exact putSlice_noNewCopies s1 hm rfl rfl
        · exact dropSlice_noNewCopies s1 ..
    · exact noNewCopies_of_eq (putHome_copies ..)

theorem absorbAt_noNewCopies (line : Nat) (at_ : Node → Bool) : NoNewCopies s (s.absorbAt line at_) :=
  .trans (noNewCopies_of_eq ⟨rfl, rfl⟩) (foldl_noNewCopies takeWb_noNewCopies _ _)

theorem absorb_noNewCopies (line : Nat) : NoNewCopies s (s.absorb line) := (absorbAt_noNewCopies ..).trans (absorbAt_noNewCopies ..)

theorem recallU_noNewCopies (line : Nat) : NoNewCopies s (s.recallU line) := by
  unfold State.recallU
  extract_lets ps s1 home near far s2
  have h2 : NoNewCopies s s2 := (absorb_noNewCopies s line).trans (t := s1)
    (noNewCopies_of_subset (fun _ h => (List.mem_filter.mp h).1) fun _ h => (List.mem_filter.mp h).1)
  clear_value ps s2
  cases ps with
  | nil => exact noNewCopies_of_eq ⟨rfl, rfl⟩
  | cons p ps => exact h2.trans (noNewCopies_of_eq (putHome_copies ..))

/-- Recalling a line puts no new copy anywhere and leaves none of the line. -/
theorem recallAll_copies (line : Nat) :
    NoNewCopies s (s.recallAll line) ∧ (∀ l ∈ (s.recallAll line).l1, l.line ≠ line) ∧ ∀ c ∈ (s.recallAll line).slices, c.line ≠ line := by
  unfold State.recallAll
  extract_lets s1 v stale s2
  have h1 : NoNewCopies s s1 := (absorb_noNewCopies s line).trans (recallU_noNewCopies _ line)
  have h2 : NoNewCopies s s2 := h1.trans (noNewCopies_of_subset (fun _ h => (List.mem_filter.mp h).1) fun _ h => (List.mem_filter.mp h).1)
  have hf : (∀ l ∈ s2.l1, l.line ≠ line) ∧ ∀ c ∈ s2.slices, c.line ≠ line := by
    constructor
    all_goals
      intro x hx
      simpa using (List.mem_filter.mp hx).2
  have h3 : NoNewCopies s2 (if stale then s2.putHome line v else s2) := by
    split
    · exact noNewCopies_of_eq (putHome_copies ..)
    · exact noNewCopies_of_eq ⟨rfl, rfl⟩
  exact ⟨h2.trans h3, h3.l1_free hf.1, h3.slice_free (P := fun _ n => n = line) hf.2⟩

/-- A slice that gives up a line keeps none of it, and no new copy stands anywhere. -/
theorem evictSlice_copies (d line : Nat) :
    NoNewCopies s (s.evictSlice d line) ∧ ∀ c ∈ (s.evictSlice d line).slices, ¬ (c.die = d ∧ c.line = line) := by
  unfold State.evictSlice
  extract_lets s1 mine dirty s2 s3
  have h1 : NoNewCopies s s1 := absorbAt_noNewCopies ..
  split
  · next hn =>
    refine ⟨h1, fun c hc => ?_⟩
    have := List.find?_eq_none.mp hn c hc
    simpa using this
  · next l hl =>
    have h2 : NoNewCopies s1 s2 := foldl_noNewCopies (fun s x => by split <;> exact noNewCopies_of_eq ⟨rfl, rfl⟩) _ _
    have h3 : NoNewCopies s2 s3 := noNewCopies_of_subset (fun _ h => (List.mem_filter.mp h).1) fun _ h => (List.mem_filter.mp h).1
    have hf : ∀ c ∈ s3.slices, ¬ (c.die = d ∧ c.line = line) := by
      intro c hc
      simpa [Decidable.imp_iff_not_or] using (List.mem_filter.mp hc).2
    have h13 : NoNewCopies s s3 := (h1.trans h2).trans h3
    clear_value dirty s3
    cases dirty with
    | some x => exact ⟨h13, hf⟩
    | none =>
      dsimp only
      split <;> exact ⟨h13, hf⟩

end

/-- The line of a way has been given up (R376): its slice holds it no more, and a line at its home stands in no cache. -/
def WayGone (w : L2Way) (s : State) : Prop :=
  (∀ c ∈ s.slices, ¬ (c.die = w.die ∧ c.line = w.line)) ∧ (w.die = homeDie w.line → (∀ c ∈ s.l1, c.line ≠ w.line) ∧ ∀ c ∈ s.slices, c.line ≠ w.line)

theorem WayGone.of_noNewCopies {w : L2Way} {s t : State} (hw : WayGone w s) (h : NoNewCopies s t) : WayGone w t :=
  ⟨h.slice_free (P := fun d n => d = w.die ∧ n = w.line) hw.1, fun hd => ⟨h.l1_free (hw.2 hd).1, h.slice_free (P := fun _ n => n = w.line) (hw.2 hd).2⟩⟩

/-- One way walked out. -/
def State.clearWay (s : State) (w : L2Way) : State := if w.die = homeDie w.line then s.recallAll w.line else s.evictSlice w.die w.line

theorem clearWays_eq (s : State) (ws : List L2Way) : s.clearWays ws =
    { ws.foldl State.clearWay s with ways := (ws.foldl State.clearWay s).ways.filter fun w => !(ws.any fun x => x.die == w.die && x.line == w.line) } := rfl

theorem clearWay_gone (s : State) (w : L2Way) : NoNewCopies s (s.clearWay w) ∧ WayGone w (s.clearWay w) := by
  unfold State.clearWay
  split
  · obtain ⟨h, hl, hc⟩ := recallAll_copies s w.line
    exact ⟨h, fun c hm e => hc c hm e.2, fun _ => ⟨hl, hc⟩⟩
  · next hd =>
    obtain ⟨h, hc⟩ := evictSlice_copies s w.die w.line
    exact ⟨h, hc, fun e => absurd e hd⟩

theorem foldl_clearWay_gone : ∀ (ws : List L2Way) (s : State), ∀ w ∈ ws, WayGone w (ws.foldl State.clearWay s)
  | x :: ws, s, w, hw => by
    obtain rfl | hw := List.mem_cons.mp hw
    · exact (clearWay_gone s w).2.of_noNewCopies (foldl_noNewCopies (fun s w => (clearWay_gone s w).1) ws _)
    · exact foldl_clearWay_gone ws _ w hw

theorem clearWays_sameOutside (s : State) (ws : List L2Way) : SameOutside s (s.clearWays ws) :=
  foldl_sameOutside (f := State.clearWay) (fun s w => by unfold State.clearWay; split <;> simp) ws s

/-- WAY_WALK_END (R376): the walk is over, and every line walked out is gone. -/
theorem wayWalkEnd_gone {s : State} {p d : Nat} (hp : p < 40) (hd : d < 4) (hw : vget (s.part p).walk d false = true) (hi : ∀ w ∈ s.walked p d, s.wayIdle w = true) :
    ∃ t, exec (.wayWalkEnd p d) s = .next t ∧ t.groups = s.groups ∧ vget (t.part p).walk d false = false ∧
      ∀ w ∈ s.walked p d, (∀ x ∈ t.ways, ¬ (x.die = w.die ∧ x.line = w.line)) ∧ WayGone w t := by
  refine ⟨(s.clearWays (s.walked p d)).modPart p fun x => { x with walk := vset x.walk d false }, ?_, (clearWays_sameOutside ..).1, ?_, fun w hm => ⟨fun x hx => ?_, ?_⟩⟩
  · have hb : (s.walked p d).any (fun w => !s.wayIdle w) = false := by simpa using hi
    simp only [exec, execWayWalkEnd, hw, hb]
    rfl
  · simp only [part_modPart_same _ hp, vget_vset_same _ _ _ hd]
  · rintro ⟨h1, h2⟩
    have := (List.mem_filter.mp hx).2
    simp only [Bool.not_eq_true', List.any_eq_false] at this
    exact this w hm (by simp [h1, h2])
  · exact foldl_clearWay_gone _ s w hm
end Sys2Proof.Machine

end

section

/-! The scrub of a released generation. -/

namespace Sys2Proof.Machine

open Sys2Proof.Claims

section Maps
variable {α : Type} (d : α)

/-- A map without the entries of some keys reads as before at the others. -/
theorem mapGet_filter_key (keep : Nat → Bool) {a : Nat} (ha : keep a = true) : ∀ m : List (Nat × α), mapGet d (m.filter fun e => keep e.1) a = mapGet d m a
  | [] => rfl
  | (k, v) :: r => by
    have ih := mapGet_filter_key keep ha r
    by_cases hk : k = a
    · simp [hk, ha, mapGet]
    · cases hkeep : keep k <;> simp [hkeep, mapGet, hk, ih]

/-- A canonical map without the entries that hold `x` reads the default where it read `x`, and as before elsewhere. -/
theorem mapGet_filter_value [DecidableEq α] (x : α) (a : Nat) : ∀ {lo : Nat} {m : List (Nat × α)}, mapWfFrom d lo m = true →
    mapGet d (m.filter fun e => e.2 != x) a = if mapGet d m a = x then d else mapGet d m a
  | _, [], _ => (ite_self (c := d = x) d).symm
  | lo, (k, v) :: r, hm => by
    simp only [mapWfFrom, Bool.and_eq_true, decide_eq_true_eq] at hm
    obtain ⟨-, hr⟩ := hm
    have ih := mapGet_filter_value x a hr
    by_cases hk : k = a
    · by_cases hv : v = x
      · have hbelow : mapGet d r a = d := mapGet_below d hr (by omega)
        simp [mapGet, hk, hv, ih, hbelow]
      · simp [mapGet, hk, hv]
    · by_cases hv : v = x <;> simp [mapGet, hk, hv, ih]
end Maps

section Scrub
variable {m : Memory} {gen : Nat} (hw : m.wf = true)
include hw

/-- The generation of a unit after the scrub of a generation (R370). -/
theorem genOf_scrubbed (a : Nat) : (scrubbed m gen).genOf a = if m.genOf a = gen then 0 else m.genOf a :=
  mapGet_filter_value 0 gen (a / genUnit) ((Memory.wf_iff m).mp hw).2.1

/-- A scrubbed generation reads zero everywhere (R370). -/
theorem byte_scrubbed_same (hg : gen ≠ 0) (a : Nat) : (scrubbed m gen).byte gen a = 0 := by
  unfold Memory.byte
  rw [if_neg]
  rw [genOf_scrubbed hw]
  split
  · exact hg.symm
  · assumption

/-- The other generations keep their bytes. -/
theorem byte_scrubbed_other {other : Nat} (hne : other ≠ gen) (h0 : other ≠ 0) (a : Nat) : (scrubbed m gen).byte other a = m.byte other a := by
  unfold Memory.byte
  rw [genOf_scrubbed hw]
  by_cases hg : m.genOf a = gen
  · simp [hg, h0.symm, hne.symm]
  · rw [if_neg hg]
    have : (scrubbed m gen).rawByte a = m.rawByte a := mapGet_filter_key 0 (fun k => m.genOf k != gen) (by simpa using hg) m.bytes
    rw [this]
end Scrub

/-- No line of the generation stands in a cache that has been scrubbed of it. -/
theorem scrubbedLine_gen {gen : Nat} (hg : gen ≠ 0) (v : LineVal) : (scrubbedLine gen v).gen ≠ gen := by
  unfold scrubbedLine
  split
  · exact hg.symm
  · assumption

/-- GENERATION_SCRUB of a released generation that nothing carries (R370). -/
theorem generationScrub_frees {s : State} {gen : Nat} (hw : s.memWf = true) (hm : gen ∈ s.dev.scrub) (hf : s.genInFlight gen = false) :
    ∃ t, exec (.generationScrub gen) s = .next t ∧ t.dev.freeGens = s.dev.freeGens ++ [gen] ∧ t.dev.scrub = s.dev.scrub.erase gen ∧
      (∀ a other, other ≠ gen → other ≠ 0 → s.dram.byte other a = t.dram.byte other a ∧ s.scratch.byte other a = t.scratch.byte other a) ∧
      (gen ≠ 0 → (∀ l ∈ t.icache, l.val.gen ≠ gen) ∧ (∀ l ∈ t.l1, l.val.gen ≠ gen) ∧ ∀ l ∈ t.slices, l.val.gen ≠ gen) ∧
      ∀ a, gen ≠ 0 → t.dram.byte gen a = 0 ∧ t.scratch.byte gen a = 0 ∧ t.cistern.byte gen a = 0 := by
  simp only [State.memWf, Bool.and_eq_true] at hw
  obtain ⟨⟨⟨⟨hd, hs⟩, hc⟩, -⟩, -⟩ := hw
  refine ⟨_, if_neg (by simp [hm, hf]), rfl, rfl, fun a o hne h0 => ?_, fun hg => ?_, fun a hg => ?_⟩
  · exact ⟨(byte_scrubbed_other hd hne h0 a).symm, (byte_scrubbed_other hs hne h0 a).symm⟩
  · simp only [List.forall_mem_map]
    exact ⟨fun _ _ => scrubbedLine_gen hg _, fun _ _ => scrubbedLine_gen hg _, fun _ _ => scrubbedLine_gen hg _⟩
  · exact ⟨byte_scrubbed_same hd hg a, byte_scrubbed_same hs hg a, byte_scrubbed_same hc hg a⟩

/-- Settles O32: a write to a partition's block acts as the register's arm of `putReg` says and reads back, a walk gives up every line it has walked, since no operation of the walk puts a new copy anywhere, and
a scrub leaves no unit of its generation. -/
theorem driverRegisters : Obligations.DriverRegisters := by
  intro s p v hp
  refine ⟨fun o n vf hn => if_pos hn, fun vf => registerWrite_ignored hp (by decide) rfl, fun r hr vf => registerWrite_readsBack hp v vf r hr, registerWrite_s2root hp v,
    registerWrite_ignored hp (by decide) rfl, fun hc => ⟨registerWrite_ignored hp (by decide) (if_pos (by simp [hc])), registerWrite_ignored hp (by decide) (if_pos (by simp [hc]))⟩,
    registerWrite_place hp v, rfl, registerWrite_stored hp (by decide) rfl, rfl, rfl, rfl, fun d hd => ?_, fun gen => generationScrub_frees⟩
  obtain ⟨hbusy, hvf, hput⟩ := waymaskWrite_eq hp hd v
  exact ⟨hbusy, hvf, hput, fun hw hi => wayWalkEnd_gone hp hd hw hi⟩
end Sys2Proof.Machine

end

section

/-! What is settled after a step leaves the quantisation engine's submissions as they were. -/

namespace Sys2Proof.Machine

theorem foldl_qnts {β : Type} {f : State → β → State} (hf : ∀ s b, (f s b).qnts = s.qnts) : ∀ (l : List β) (s : State), (l.foldl f s).qnts = s.qnts
  | [], _ => rfl
  | b :: l, s => (foldl_qnts hf l (f s b)).trans (hf s b)

section
variable (s : State)

@[simp] theorem takeIn_qnts (gen pa n : Nat) : (s.takeIn gen pa n).qnts = s.qnts :=
  foldl_qnts (fun s l => by split <;> rfl) _ s

@[simp] theorem countPoison_qnts (gen : Nat) : (s.countPoison gen).qnts = s.qnts := by
  unfold State.countPoison
  dsimp only
  split <;> rfl

@[simp] theorem firstPoison_qnts (pa : Nat) : (s.firstPoison pa).qnts = s.qnts := by
  unfold State.firstPoison
  dsimp only
  split <;> rfl

@[simp] theorem countHome_qnts (gen pa n : Nat) : (s.countHome gen pa n).qnts = s.qnts :=
  foldl_qnts (fun s u => by simp) _ s

@[simp] theorem writeHome_qnts (gen pa : Nat) (bs : List Byte) (pois : Bool) : (s.writeHome gen pa bs pois).qnts = s.qnts := by
  unfold State.writeHome
  refine (foldl_qnts (fun s i => ?_) _ _).trans (homeBytes_sameOutside ..).2.2.2
  rfl

@[simp] theorem cohPut_qnts (gen pa : Nat) (bs : List Byte) (pois : Bool) : (s.cohPut gen pa bs pois).qnts = s.qnts := by
  have h : ((linesOf pa bs.length).foldl (fun s l => s.recallAll l) s).qnts = s.qnts := foldl_qnts (fun s l => by simp) _ s
  unfold State.cohPut
  dsimp only
  split <;> simp [h]

@[simp] theorem cohWrite_qnts (gen pa : Nat) (bs : List Byte) (pois : Bool) : (s.cohWrite gen pa bs pois).qnts = s.qnts := by
  simp [State.cohWrite]

@[simp] theorem poke_qnts (attr gen pa : Nat) (bs : List Byte) (pois : Bool) : (s.poke attr gen pa bs pois).qnts = s.qnts := by
  unfold State.poke
  split <;> simp

@[simp] theorem wantPage_qnts (p page : Nat) : (s.wantPage p page).qnts = s.qnts := rfl

theorem ringPut_qnts {p : Nat} {bs : List Byte} {t : State} (h : s.ringPut p bs = .ok t) : t.qnts = s.qnts := by
  unfold State.ringPut at h
  dsimp only at h
  split at h
  · cases h; rfl
  · split at h
    · cases h; simp [State.recallTables2]
    · split at h
      · cases h; simp [State.recallTables2]
      · split at h <;> cases h
        simp [State.recallTables2]

@[simp] theorem pushFault_qnts (p : Nat) (w0 w1 w2 w3 : Dword) : (s.pushFault p w0 w1 w2 w3).qnts = s.qnts := by
  unfold State.pushFault
  extract_lets bs
  split
  · split
    · next h => exact ringPut_qnts s h
    · rfl
  · rfl

@[simp] theorem takeTrap_qnts (gid k : Nat) (act : Mask) (cause : Cause) (lane : Option Nat) (info : Dword) (nh : Bool) :
    (s.takeTrap gid k act cause lane info nh).qnts = s.qnts := by
  unfold State.takeTrap
  split
  · rfl
  · dsimp only
    split <;> simp [State.trapHaltRecord]

@[simp] theorem plant_qnts (pa : Nat) (bs : List Byte) : (s.plant pa bs).qnts = s.qnts := by
  simp [State.plant]

@[simp] theorem setCow_qnts (p page : Nat) (on : Bool) : (s.setCow p page on).qnts = s.qnts := by
  unfold State.setCow
  split
  · rfl
  · dsimp only
    simp

@[simp] theorem cutFix_qnts (p : Nat) (f : FixRun) : (s.cutFix p f).qnts = s.qnts := by
  unfold State.cutFix
  dsimp only
  rw [modPart_qnts]
  exact foldl_qnts (fun s a => by simp) _ s

@[simp] theorem stepAdvance_qnts (p : Nat) (n : Dword) : (s.stepAdvance p n).1.qnts = s.qnts := by
  unfold State.stepAdvance
  exact (foldl_qnts (fun s f => by simp) _ _).trans rfl

@[simp] theorem cleanLine_qnts (l : L1Line) : (s.cleanLine l).qnts = s.qnts := by
  have note (b : Bool) (s : State) (n : Node) (a : Agent) : (if b then s else s.noteShared n l.line a false).qnts = s.qnts := by cases b <;> simp
  unfold State.cleanLine
  split
  · extract_lets sole s1 note' s2
    have h2 : s2.qnts = s.qnts := by
      simp only [s2]
      split
      · split
        · simp [note', note, s1, State.putL1]
        · rfl
      · simp [note', note, s1, State.putL1]
    simp [h2]
  · rfl

@[simp] theorem cleanCore_qnts (core : Nat) : (s.cleanCore core).qnts = s.qnts := foldl_qnts (fun s l => by simp) _ s

@[simp] theorem perform_qnts (core : Nat) (sc : Option Scope) : (s.perform core sc).qnts = s.qnts := by
  unfold State.perform
  split <;> simp

@[simp] theorem spoilTiles_qnts (p : Product) : (s.spoilTiles p).qnts = s.qnts :=
  foldl_qnts (fun s x => by
    split
    · split <;> rfl
    · rfl) _ s

@[simp] theorem coverProducts_qnts (gid : Nat) : (s.coverProducts gid).qnts = s.qnts := by
  unfold State.coverProducts
  exact foldl_qnts (fun s p => by rw [apply_ite State.qnts, spoilTiles_qnts, ite_self]) _ s

@[simp] theorem settleEntry_qnts (gid k : Nat) : (s.settleEntry gid k).qnts = s.qnts := by
  unfold State.settleEntry
  split
  · rfl
  · split
    case h_3 =>
      split
      · split
        next t v ht =>
        rw [modGroup_qnts, show t = (t, v).1 from rfl, ← ht]
        simp
      · rfl
    all_goals
      repeat' split
      all_goals simp

@[simp] theorem settleGroup_qnts (gid : Nat) : (s.settleGroup gid).qnts = s.qnts := foldl_qnts (fun s k => by simp) _ s

@[simp] theorem endPhase_qnts (b : Block) (n : Nat) : (s.endPhase b n).qnts = s.qnts := foldl_qnts (fun s g => by simp) _ s

@[simp] theorem settleBars_qnts (bid : Nat) : (s.settleBars bid).qnts = s.qnts :=
  foldl_qnts (fun s n => by repeat' split
                            all_goals simp) _ s

@[simp] theorem settle_qnts : s.settle.qnts = s.qnts := by
  unfold State.settle
  exact (foldl_qnts (fun s bid => by simp) _ _).trans (foldl_qnts (fun s gid => by simp) _ s)

/-- The submission of a quantisation command that is over is no longer in flight (R83). -/
theorem endQnt_qnts (c : QntCmd) (e : Option (EngCause × Nat)) : (s.endQnt c e).qnts = s.qnts.filter fun x => !(x.id == c.id) := by
  unfold State.endQnt
  cases e <;> simp [State.engineError]
end
end Sys2Proof.Machine

end

section

/-! The traverse engine. -/

namespace Sys2Proof.Machine

open Sys2Proof.Claims

/-- An engine's translation of a data address changes nothing outside the memory system. -/
@[simp] theorem engSeen_sameOutside (s : State) (core p : Nat) (va : Dword) (n : Need) : SameOutside s (s.engSeen core p va n) := by
  unfold State.engSeen
  split <;> simp

@[simp] theorem engSeen_genOf (s : State) (core p : Nat) (va : Dword) (n : Need) (q : Nat) : (s.engSeen core p va n).genOf q = s.genOf q := by
  simp only [State.genOf, State.part, (engSeen_sameOutside s core p va n).2.2.1]

/-- A place an engine can use at once is memory or near storage. -/
theorem usable_iff {d : DataPlace} : usable d ↔ (∃ attr pa, d = .mem attr pa) ∨ ∃ sp key, d = .near sp key := by
  cases d <;> simp [usable]

/-- TRAV_COMMAND_BEGIN once both records are read (R259 to R263). -/
theorem travCommandBegin_read {s s1 s2 : State} {c : TravCmd} {sb db : List Byte} (hf : s.travs.find? (fun x => x.id == c.id && x.recs.isNone) = some c) (hg : c.gates = [])
    (hfirst : ∀ x ∈ s.travs.takeWhile (fun x => x.id != c.id), clusterOf x.core = clusterOf c.core → x.recs.isSome = true)
    (h1 : s.readRec c.core c.part c.src = (s1, .got sb)) (h2 : s1.readRec c.core c.part c.dst = (s2, .got db)) :
    exec (.travCommandBegin c.id) s = match travCheck c.dmw sb db with
      | some (e, d) => .next (s2.endTrav c (some (e, if d then c.dst.toNat else c.src.toNat)))
      | none => .next { s2 with travs := s2.travs.map fun x => if x.id = c.id then { x with recs := some (sb, db) } else x } := by
  have hall : ((s.travs.takeWhile fun x => x.id != c.id).all fun x => clusterOf x.core != clusterOf c.core || x.recs.isSome) = true := by
    simpa [Decidable.imp_iff_not_or] using hfirst
  simp only [exec, execTravCommandBegin, hf, hall, hg, h1, h2]
  rfl

/-- A move of one element between usable places (R258, R262). -/
theorem moveElems_one {s : State} {w : EngineWork} {gid core p gen size k : Nat} {a b : Dword}
    (hfrom : usable ((s.engSeen core p a needR).dataPlace core p a size needR))
    (hdest : usable (((s.engSeen core p a needR).engSeen core p b needW).dataPlace core p b size needW)) :
    let sb := (s.engSeen core p a needR).engSeen core p b needW
    let from_ := (s.engSeen core p a needR).dataPlace core p a size needR
    let dest := sb.dataPlace core p b size needW
    let s1 := sb.recallPlace gen size from_
    let v := s1.placeRead gen size from_
    let failed := s1.checks.contains (w, k)
    s.moveElems w gid core p gen size k [(a, b)] = ((s1.placeWrite gen v.1 (v.2 || failed) dest).notePlace gid size dest,
      if v.2 then some (.poisoned, a.toNat) else if failed then some (.check, a.toNat) else none) := by
  extract_lets sb from_ dest s1 v failed
  unfold State.moveElems
  extract_lets s2
  split
  · next c hc => exact absurd hc (hfrom.2 c)
  · split
    · next c hc => exact absurd hc (hdest.2 c)
    · change (if v.2 then _ else if failed then _ else _) = (_, if v.2 then _ else if failed then _ else _)
      by_cases hv : v.2 = true
      · exact (if_pos hv).trans (congrArg (Prod.mk _) (if_pos hv).symm)
      · by_cases hc : failed = true
        · exact ((if_neg hv).trans (if_pos hc)).trans (congrArg (Prod.mk _) ((if_neg hv).trans (if_pos hc)).symm)
        · exact ((if_neg hv).trans (if_neg hc)).trans (congrArg (Prod.mk _) ((if_neg hv).trans (if_neg hc)).symm)

/-- TRAV_COMMAND_PERFORMED of one element whose places are neither pages to wait for nor the same memory (R262). -/
theorem travCommandPerformed_one {s s' : State} {c : TravCmd} {rsrc rdst : List Byte} {a b : Dword} {err : Option (EngCause × Nat)}
    (hf : s.travs.find? (fun x => x.id == c.id) = some c) (hr : c.recs = some (rsrc, rdst))
    (hpairs : elemPairs c.dmw (shapeOf rsrc) (shapeOf rdst) ((mappingOf c.dmw (shapeOf rsrc) (shapeOf rdst)).getD []) = [(a, b)])
    (hwa : s.dataPlace c.core c.part a (2 ^ (shapeOf rsrc).esz) needR ≠ .wait) (hwb : s.dataPlace c.core c.part b (2 ^ (shapeOf rsrc).esz) needW ≠ .wait)
    (hmeet : placesMeet (s.dataPlace c.core c.part a (2 ^ (shapeOf rsrc).esz) needR) (2 ^ (shapeOf rsrc).esz)
      (s.dataPlace c.core c.part b (2 ^ (shapeOf rsrc).esz) needW) (2 ^ (shapeOf rsrc).esz) = false)
    (hmove : s.moveElems (.trav c.id) c.gid c.core c.part (s.genOf c.part) (2 ^ (shapeOf rsrc).esz) 0 [(a, b)] = (s', err)) :
    exec (.travCommandPerformed c.id) s = .next ((s'.dropChecks (.trav c.id)).endTrav c err) := by
  simp [exec, execTravCommandPerformed, hf, hr, hpairs, hwa.symm, hwb.symm, hmeet, hmove]

/-- The traverse engine at work (R258 to R263). -/
theorem traverseEngine_holds : TraverseEngine := by
  refine ⟨fun s s1 s2 c sb db hf hg hfirst h1 h2 => ⟨fun hn => ?_, fun e d hd => ?_⟩, ?_⟩
  · rw [travCommandBegin_read hf hg hfirst h1 h2, hn]
  · rw [travCommandBegin_read hf hg hfirst h1 h2, hd]
    rfl
  · intro s c rsrc rdst a b hf hr size hpairs sa sb from_ dest hufrom hudest hwa hwb hmeet s1 v failed s2 s3
    rw [travCommandPerformed_one hf hr hpairs hwa hwb hmeet (moveElems_one hufrom hudest)]
    show Host.Outcome.next (s2.endTrav c (if v.2 then _ else if failed then _ else _)) = _
    by_cases hv : v.2 = true
    · rw [if_pos hv, if_pos hv]
      rfl
    · rw [if_neg hv, if_neg hv]
      by_cases hc : failed = true
      · rw [if_pos hc, if_pos hc]
        rfl
      · rw [if_neg hc, if_neg hc]
        rfl
end Sys2Proof.Machine

end

section

/-! The copy channels. -/

namespace Sys2Proof.Machine

open Sys2Proof.Claims

theorem group?_modGroup {s : State} {gid : Nat} {g : Group} {f : Group → Group} (hg : s.group? gid = some g) (hf : ∀ g, (f g).gid = g.gid) :
    (s.modGroup gid f).group? gid = some (f g) := by
  have hp : (fun x : Group => x.gid == gid) ∘ (fun g => if g.gid = gid then f g else g) = fun x => x.gid == gid := by
    funext x
    by_cases hx : x.gid = gid <;> simp [hx, hf]
  have hid : g.gid = gid := by simpa using List.find?_some hg
  unfold State.group? at hg
  simp only [State.group?, State.modGroup, List.find?_map, hp, hg, Option.map_some, hid, if_true]

theorem anyGroup?_of_group? {s : State} {gid : Nat} {g : Group} (hg : s.group? gid = some g) : s.anyGroup? gid = some g := by
  unfold State.group? at hg
  simp [State.anyGroup?, List.find?_append, hg]

/-- The cause of a chain stands in the ENGERR of the group that issued it, with the record's address (R6, R258). -/
theorem chainCause_engerr {s : State} {g : Group} {h : ChainHead} (e : EngCause) (a : Dword) (hg : s.group? g.gid = some g) (hh : h.gid = g.gid) :
    ∃ g', (s.chainCause h (some e) a).group? g.gid = some g' ∧ fieldN g'.engerr 7 0 = engCode e ∧ fieldN g'.engerr 55 8 = a.toNat / 256 % 2 ^ 48 ∧
      g' = { g with engerr := g'.engerr } := by
  refine ⟨{ g with engerr := BitVec.ofNat 64 (fieldN s.free.1 1 0 * 2 ^ 62 + a.toNat / 256 % 2 ^ 48 * 256 + engCode e) }, ?_, ?_, ?_, rfl⟩
  · have hsome : (s.anyGroup? g.gid).isNone = false := by rw [anyGroup?_of_group? hg]; rfl
    simp only [State.chainCause, hh, hsome, Bool.false_eq_true, if_false]
    exact group?_modGroup (s := s.free.2) hg fun _ => rfl
  · have he : engCode e < 16 := by cases e <;> decide
    rw [fieldN_ofNat]
    omega
  · have he : engCode e < 16 := by cases e <;> decide
    rw [fieldN_ofNat]
    omega

/-- A channel stored is the channel read (R266). -/
theorem channel_putChannel {s : State} {cl ch : Nat} {y : Channel} (h1 : y.cluster = cl) (h2 : y.ch = ch) : (s.putChannel y).channel cl ch = y := by
  have hnone : (s.chans.filter fun x => !(x.cluster == y.cluster && x.ch == y.ch)).find? (fun c => c.cluster == cl && c.ch == ch) = none := by
    rw [List.find?_eq_none]
    intro x hx
    simpa [h1, h2, Decidable.imp_iff_not_or] using (List.mem_filter.mp hx).2
  simp only [State.channel, State.putChannel, List.find?_append, hnone, Option.none_or]
  simp [h1, h2]

theorem channel_numbers (s : State) (cl ch : Nat) : (s.channel cl ch).cluster = cl ∧ (s.channel cl ch).ch = ch := by
  unfold State.channel
  cases hf : s.chans.find? fun c => c.cluster == cl && c.ch == ch with
  | none => exact ⟨rfl, rfl⟩
  | some c => simpa using List.find?_some hf

/-- COPY_OWN_WAKE (R89): the monitor entry is freed and the channel goes on. -/
theorem copyOwnWake_frees {s : State} {cl ch id : Nat} {m : Mon} (hp : (s.channel cl ch).parked = some id) (hf : s.mons.find? (fun y => y.id == id) = some m)
    (hh : (s.hitOf m).isSome = true) :
    ∃ t, exec (.copyOwnWake cl ch) s = .next t ∧ SameMemory s t ∧ t.groups = s.groups ∧ t.channel cl ch = { s.channel cl ch with parked := none } ∧ ∀ y ∈ t.mons, y.id ≠ id := by
  have hany : (s.mons.any fun m => m.id == id && (s.hitOf m).isSome) = true :=
    List.any_eq_true.mpr ⟨m, List.mem_of_find?_eq_some hf, by simpa [hh] using List.find?_some hf⟩
  refine ⟨(s.freeMon id).putChannel { s.channel cl ch with parked := none }, ?_, ⟨rfl, rfl, rfl, rfl, rfl⟩, rfl, ?_, fun y hy => ?_⟩
  · simp only [exec, execCopyOwnWake, hp, hany, if_true]
  · exact channel_putChannel (channel_numbers s cl ch).1 (channel_numbers s cl ch).2
  · simpa using (List.mem_filter.mp hy).2

/-- A channel stands at a record whose OWN word it can read: not parked, the record aligned, the word in device memory and not poisoned (R265, R267). -/
structure AtRecord (s : State) (cl ch : Nat) (h : ChainHead) (rest : List ChainHead) (pa : Nat) : Prop where
  chains  : (s.channel cl ch).chains = h :: rest
  parked  : (s.channel cl ch).parked = none
  aligned : ((s.channel cl ch).cur.getD h.head).toNat % 64 = 0
  place   : (s.engSeen h.core h.part ((s.channel cl ch).cur.getD h.head + 40) needRW).dataPlace h.core h.part ((s.channel cl ch).cur.getD h.head + 40) 8 needRW = .mem 0 pa
  clean   : (((s.engSeen h.core h.part ((s.channel cl ch).cur.getD h.head + 40) needRW).recallAt 0 (s.genOf h.part) pa 8).placeRead (s.genOf h.part) 8 (.mem 0 pa)).2 = false

/-- The state in which a channel has read the OWN word of its record. -/
def State.ownSeen (s : State) (cl ch : Nat) (h : ChainHead) (pa : Nat) : State :=
  (s.engSeen h.core h.part ((s.channel cl ch).cur.getD h.head + 40) needRW).recallAt 0 (s.genOf h.part) pa 8

section
variable {s : State} {cl ch pa : Nat} {h : ChainHead} {rest : List ChainHead} (hat : AtRecord s cl ch h rest pa)
include hat

/-- COPY_RECORD at a record that is not yet owned parks the channel (R267). -/
theorem copyRecord_parks (hown : bitAt ((s.ownSeen cl ch h pa).homeDword 0 (s.genOf h.part) pa) 0 = false) (hroom : (s.ownSeen cl ch h pa).monRoom .global pa = true) :
    exec (.copyRecord cl ch) s = .next (((s.ownSeen cl ch h pa).addMon .global pa h.part .ownSet (.channel cl ch)).2.putChannel
      { s.channel cl ch with cur := some ((s.channel cl ch).cur.getD h.head), parked := some ((s.ownSeen cl ch h pa).addMon .global pa h.part .ownSet (.channel cl ch)).1 }) := by
  obtain ⟨hc, hp, ha, hpl, hcl⟩ := hat
  simp only [State.ownSeen] at hown hroom
  simp only [exec, execCopyRecord, hc, hp, ha, hpl, hcl, engSeen_genOf, hown, hroom, State.ownSeen]
  rfl

/-- COPY_RECORD at an owned record that is malformed ends the chain (R6, R267). -/
theorem copyRecord_malformed {s1 : State} {b : List Byte} (hown : bitAt ((s.ownSeen cl ch h pa).homeDword 0 (s.genOf h.part) pa) 0 = true)
    (hread : (s.ownSeen cl ch h pa).readRec h.core h.part ((s.channel cl ch).cur.getD h.head) = (s1, .got b))
    (hbad : (xferOf ((s.ownSeen cl ch h pa).homeDword 0 (s.genOf h.part) pa) b).bad = true) :
    exec (.copyRecord cl ch) s = .next (s1.endChain (s.channel cl ch) h (some (.malformed, (s.channel cl ch).cur.getD h.head))) := by
  obtain ⟨hc, hp, ha, hpl, hcl⟩ := hat
  simp only [State.ownSeen] at hown hread hbad
  simp only [exec, execCopyRecord, hc, hp, ha, hpl, hcl, engSeen_genOf, hown, hread, hbad]
  rfl

/-- COPY_RECORD at an owned record whose copy goes through and that tells no barrier: OWN is cleared with status 0, and the channel goes on to NEXT or the chain ends (R107, R267). -/
theorem copyRecord_copies {s1 s2 : State} {b : List Byte} {f : Xfer} (hown : bitAt ((s.ownSeen cl ch h pa).homeDword 0 (s.genOf h.part) pa) 0 = true)
    (hread : (s.ownSeen cl ch h pa).readRec h.core h.part ((s.channel cl ch).cur.getD h.head) = (s1, .got b))
    (hf : xferOf ((s.ownSeen cl ch h pa).homeDword 0 (s.genOf h.part) pa) b = f) (hbad : f.bad = false) (htb : f.tbar = 0)
    (hwait : ∀ p ∈ copyPieces f.src f.dst (f.len / 32 + 3) f.len,
      s1.dataPlace h.core h.part p.1 p.2.2 needR ≠ .wait ∧ s1.dataPlace h.core h.part p.2.1 p.2.2 needW ≠ .wait)
    (hmeet : ∀ p ∈ copyPieces f.src f.dst (f.len / 32 + 3) f.len, ∀ q ∈ copyPieces f.src f.dst (f.len / 32 + 3) f.len,
      placesMeet (s1.dataPlace h.core h.part p.1 p.2.2 needR) p.2.2 (s1.dataPlace h.core h.part q.2.1 q.2.2 needW) q.2.2 = false)
    (hmove : s1.copyMove (.copy cl ch) h.gid h.core h.part (s.genOf h.part) 0 (copyPieces f.src f.dst (f.len / 32 + 3) f.len) = (s2, none)) :
    exec (.copyRecord cl ch) s =
      let s4 := (s2.dropChecks (.copy cl ch)).poke 0 (s.genOf h.part) pa (leBytes 8 0) false
      if f.next = 0 then .next (s4.endChain (s.channel cl ch) h none)
      else if f.next.toNat % 64 ≠ 0 then .next (s4.endChain (s.channel cl ch) h (some (.misaligned, (s.channel cl ch).cur.getD h.head)))
      else .next (s4.putChannel { s.channel cl ch with cur := some f.next }) := by
  obtain ⟨hc, hp, ha, hpl, hcl⟩ := hat
  simp only [State.ownSeen] at hown hread hf
  generalize hpieces : copyPieces f.src f.dst (f.len / 32 + 3) f.len = pieces at hwait hmeet hmove
  have hnowait : ((pieces.map (fun p => (s1.dataPlace h.core h.part p.1 p.2.2 needR, p.2.2)) ++
      pieces.map fun p => (s1.dataPlace h.core h.part p.2.1 p.2.2 needW, p.2.2)).any fun p => p.1 == .wait) = false := by
    simpa using ⟨fun a b c hm => (hwait _ hm).1, fun a b c hm => (hwait _ hm).2⟩
  have hapart : ((pieces.map fun p => (s1.dataPlace h.core h.part p.1 p.2.2 needR, p.2.2)).any fun a =>
      (pieces.map fun p => (s1.dataPlace h.core h.part p.2.1 p.2.2 needW, p.2.2)).any fun b => placesMeet a.1 a.2 b.1 b.2) = false := by
    simpa using fun a b c hm a' b' c' hm' => hmeet _ hm _ hm'
  have hpost : (s2.dropChecks (.copy cl ch)).postBytes h.core h.part 0 f.len = (s2.dropChecks (.copy cl ch), none) := if_pos rfl
  simp only [exec, execCopyRecord, hc, hp, ha, hpl, hcl, engSeen_genOf, hown, hread, hf, hbad, htb, hpieces, hnowait, hapart, hmove, hpost,
    Option.isSome_none, ne_eq, not_true_eq_false, Bool.false_eq_true, if_false, Bool.not_true, true_or, if_true, or_self, reduceCtorEq, State.chainCause, Nat.zero_mul]
end

/-- The copy channels (R89, R107, R265 to R267). -/
theorem copyChannels_holds : CopyChannels := by
  intro s cl ch x
  refine ⟨fun g h e a hg hh => chainCause_engerr e a hg hh, ?_, fun id m hp hf hh => copyOwnWake_frees hp hf hh⟩
  intro h rest pa hc hp ha sr hpl s0 hcl rec_ w5 own
  have hat : AtRecord s cl ch h rest pa := ⟨hc, hp, ha, hpl, hcl⟩
  refine ⟨fun hown hroom => copyRecord_parks hat hown hroom, fun s1 b hown hread hbad => ?_, ?_⟩
  · rw [copyRecord_malformed hat hown hread hbad]
    simp only [State.endChain, x, rec_, hc, List.drop_one, List.tail_cons]
    rfl
  · intro s1 b s2 hown hread hbad htb f pieces hwait hmeet hmove s4
    have hcopy := copyRecord_copies hat hown hread rfl hbad htb hwait hmeet hmove
    refine ⟨fun hn => ?_, fun hn hal => ?_⟩
    · rw [hcopy]
      refine (if_pos hn).trans ?_
      simp only [State.endChain, x, hc, List.drop_one, List.tail_cons]
      rfl
    · rw [hcopy]
      exact (if_neg hn).trans (if_neg (fun h => h hal))
end Sys2Proof.Machine

end

section

/-! The quantisation engine. -/

namespace Sys2Proof.Machine

open Sys2Proof.Claims

/-- The first block of a quantisation command that finds its own scale (R124, R268). -/
theorem qntBlock_first {s : State} {w : EngineWork} {gid core p gen : Nat} {q : QntRec} (hsup : q.supplied = false) :
    let sb := ((s.engSeen core p q.src needR).engSeen core p q.dst needW).engSeen core p q.scales needW
    let from_ := sb.dataPlace core p q.src (qntSize q) needR
    let dest := sb.dataPlace core p q.dst 32 needW
    let at_ := sb.dataPlace core p q.scales 1 needW
    let s1 := sb.recallPlace gen (qntSize q) from_
    let xs := qntValues q (s1.placeRead gen (qntSize q) from_).1
    let scale := Num.d2p8scale xs
    usable from_ → usable dest → usable at_ → (s1.placeRead gen (qntSize q) from_).2 = false → scale ≠ 0xFF →
    let s2 := (s1.placeWrite gen [scale] false at_).notePlace gid 1 at_
    let failed := s2.checks.contains (w, 0)
    s.qntBlock w gid core p gen q 0 = ((s2.placeWrite gen (xs.map fun x => Num.d2p8q x scale) failed dest).notePlace gid 32 dest,
      if failed then some (.check, q.src.toNat) else none) := by
  intro sb from_ dest at_ s1 xs scale hufrom hudest huat hclean hscale s2 failed
  have h0 (v : Dword) (n : Nat) : v + BitVec.ofNat 64 (0 * n) = v := by simp
  have h1 (v : Dword) : v + BitVec.ofNat 64 0 = v := by simp
  simp only [State.qntBlock, hsup, h0, h1, Bool.false_eq_true, if_false]
  split
  · next c hc => exact absurd hc (hufrom.2 c)
  · next c hc _ => exact absurd hc (hudest.2 c)
  · next c hc _ _ => exact absurd hc (huat.2 c)
  · refine (if_neg fun hp => hp.elim (fun e => Bool.false_ne_true (hclean.symm.trans e)) id).trans ((if_neg hscale).trans ?_)
    rfl

/-- A die's engine has read the record of its oldest submission: the record stands in memory and is not poisoned (R268). -/
structure RecordRead (s : State) (c : QntCmd) (attr pa : Nat) : Prop where
  oldest : s.qnts.find? (fun x => x.die == c.die) = some c
  place  : (s.engSeen c.core c.part c.addr needR).dataPlace c.core c.part c.addr 64 needR = .mem attr pa
  clean  : (((s.engSeen c.core c.part c.addr needR).recallAt attr (s.genOf c.part) pa 64).placeRead (s.genOf c.part) 64 (.mem attr pa)).2 = false

/-- The state in which the engine has read its record, and the record. -/
def State.qntSeen (s : State) (c : QntCmd) (attr pa : Nat) : State := (s.engSeen c.core c.part c.addr needR).recallAt attr (s.genOf c.part) pa 64

@[inherit_doc State.qntSeen]
def State.qntRec (s : State) (c : QntCmd) (attr pa : Nat) : QntRec := qntOf ((s.qntSeen c attr pa).placeRead (s.genOf c.part) 64 (.mem attr pa)).1

section
variable {s : State} {c : QntCmd} {attr pa : Nat} (hread : RecordRead s c attr pa)
include hread

/-- A record out of its limits ends the command (R268). -/
theorem quantisationCommand_malformed (hbad : (s.qntRec c attr pa).bad = true) :
    exec (.quantisationCommand c.die) s = .next ((s.qntSeen c attr pa).endQnt c (some (.malformed, c.addr.toNat))) := by
  obtain ⟨hf, hpl, hcl⟩ := hread
  simp only [State.qntRec, State.qntSeen] at hbad
  simp only [exec, execQuantisationCommand, hf, hpl, engSeen_genOf, hcl, hbad, Bool.false_eq_true, if_false, if_true]
  rfl

/-- A record whose blocks are misaligned ends the command (R268). -/
theorem quantisationCommand_misaligned (hgood : (s.qntRec c attr pa).bad = false)
    (hal : (s.qntRec c attr pa).src.toNat % qntSize (s.qntRec c attr pa) ≠ 0 ∨ (s.qntRec c attr pa).dst.toNat % 32 ≠ 0) :
    exec (.quantisationCommand c.die) s = .next ((s.qntSeen c attr pa).endQnt c (some (.misaligned, c.addr.toNat))) := by
  obtain ⟨hf, hpl, hcl⟩ := hread
  simp only [State.qntRec, State.qntSeen] at hgood hal
  simp only [exec, execQuantisationCommand, hf, hpl, engSeen_genOf, hcl, hgood, Bool.false_eq_true, if_false, if_pos hal]
  rfl

/-- A good record of one block is one block's work, then the end of the command (R268). -/
theorem quantisationCommand_one {q : QntRec} {s' : State} {err : Option (EngCause × Nat)} (hq : s.qntRec c attr pa = q) (hgood : q.bad = false)
    (hal : q.src.toNat % qntSize q = 0 ∧ q.dst.toNat % 32 = 0) (hn : q.nblk = 1) (hsup : q.supplied = false)
    (hsrc : (s.qntSeen c attr pa).dataPlace c.core c.part q.src (qntSize q) needR ≠ .wait) (hdst : (s.qntSeen c attr pa).dataPlace c.core c.part q.dst 32 needW ≠ .wait)
    (hsc : (s.qntSeen c attr pa).dataPlace c.core c.part q.scales 1 needW ≠ .wait)
    (hblock : (s.qntSeen c attr pa).qntBlock (.qnt c.id) c.gid c.core c.part (s.genOf c.part) q 0 = (s', err)) :
    exec (.quantisationCommand c.die) s = .next ((s'.dropChecks (.qnt c.id)).endQnt c err) := by
  obtain ⟨hf, hpl, hcl⟩ := hread
  have hblocks : (s.qntSeen c attr pa).qntBlocks (.qnt c.id) c.gid c.core c.part (s.genOf c.part) q 1 0 = (s', err) := by
    simp only [State.qntBlocks, hblock]
    cases err <;> rfl
  simp only [State.qntRec, State.qntSeen] at hq hsrc hdst hsc hblocks
  have hal' : ¬ (q.src.toNat % qntSize q ≠ 0 ∨ q.dst.toNat % 32 ≠ 0) := by simp [hal]
  simp only [exec, execQuantisationCommand, hf, hpl, engSeen_genOf, hcl, hq, hgood, hn, hsup, hblocks, Bool.false_eq_true, if_false, if_neg hal']
  simp [hsrc.symm, hdst.symm, hsc.symm]
end

/-- The quantisation engine (R124, R258, R268). -/
theorem quantisationEngine_holds : QuantisationEngine := by
  intro s c attr pa hf sr hpl gen s0 hcl q aligned
  have hread : RecordRead s c attr pa := ⟨hf, hpl, hcl⟩
  refine ⟨fun hbad => quantisationCommand_malformed hread hbad, fun hgood hal => quantisationCommand_misaligned hread hgood (Decidable.not_and_iff_not_or_not.mp hal), ?_,
    fun e => endQnt_qnts s c e⟩
  intro hgood hal hn hsup sb from_ dest at_ hsrc hdst hsc s1 xs scale hufrom hudest huat hclean hscale s2 failed
  exact quantisationCommand_one hread rfl hgood hal hn hsup hsrc hdst hsc (qntBlock_first hsup hufrom hudest huat hclean hscale)

/-- Settles O51: each engine's step is followed along the branch that its conditions choose, with the places, the records and the moves of one element, one piece or one block given by their own equations. -/
theorem engineCommands : Obligations.EngineCommands := ⟨traverseEngine_holds, copyChannels_holds, quantisationEngine_holds⟩
end Sys2Proof.Machine

end

section

/-! Placing spans and moving groups: what stands around the groups, and the groups placed. -/

namespace Sys2Proof.Machine

open Sys2Proof.Claims

/-- The number of each launch with that of its next span. -/
def State.spans (s : State) : List (Nat × Nat) := s.launches.map fun x => (x.lid, x.nextSpan)

/-- Memory, the partitions' registers and every launch's next span are as they were. -/
@[simp] abbrev SameAround (s t : State) : Prop := SameMemory s t ∧ t.parts = s.parts ∧ t.spans = s.spans

theorem SameAround.refl (s : State) : SameAround s s := by simp [SameMemory]

theorem SameAround.trans {s t u : State} (h : SameAround s t) (h' : SameAround t u) : SameAround s u := by
  obtain ⟨⟨hd, hs, hc, hh, hp⟩, hparts, hspans⟩ := h
  obtain ⟨⟨hd', hs', hc', hh', hp'⟩, hparts', hspans'⟩ := h'
  exact ⟨⟨hd'.trans hd, hs'.trans hs, hc'.trans hc, hh'.trans hh, hp'.trans hp⟩, hparts'.trans hparts, hspans'.trans hspans⟩

theorem SameAround.part {s t : State} (h : SameAround s t) (p : Nat) : t.part p = s.part p := by
  simp only [State.part, h.2.1]

theorem foldl_sameAround {β : Type} {f : State → β → State} (hf : ∀ s b, SameAround s (f s b)) (l : List β) (s : State) : SameAround s (l.foldl f s) :=
  List.foldlRecOn (motive := SameAround s) l f (.refl s) fun t ht b _ => ht.trans (hf t b)

/-- A launch changed in place is found changed. -/
theorem launch?_modLaunch (s : State) (lid : Nat) {f : Launch → Launch} (hf : ∀ x, (f x).lid = x.lid) :
    (s.modLaunch lid f).launch? lid = (s.launch? lid).map f := by
  have hp : (fun x : Launch => x.lid == lid) ∘ (fun x => if x.lid = lid then f x else x) = fun x => x.lid == lid := by
    funext x
    by_cases hx : x.lid = lid <;> simp [hx, hf]
  simp only [State.launch?, State.modLaunch, List.find?_map, hp]
  cases hl : s.launches.find? fun x => x.lid == lid with
  | none => rfl
  | some x => simp [show x.lid = lid by simpa using List.find?_some hl]

/-- What is found of a launch's next span hangs on the spans alone. -/
theorem SameAround.nextSpan {s t : State} (h : SameAround s t) (lid : Nat) : (t.launch? lid).map (·.nextSpan) = (s.launch? lid).map (·.nextSpan) := by
  have read (u : State) : (u.launch? lid).map (·.nextSpan) = (u.spans.find? fun x => x.1 == lid).map (·.2) := by
    simp only [State.launch?, State.spans, List.find?_map, Option.map_map]
    rfl
  rw [read, read, h.2.2]

/-- A launch whose number and next span stay. -/
theorem modLaunch_sameAround (s : State) (lid : Nat) {f : Launch → Launch} (hf : ∀ x, (f x).lid = x.lid ∧ (f x).nextSpan = x.nextSpan) :
    SameAround s (s.modLaunch lid f) := by
  refine ⟨⟨rfl, rfl, rfl, rfl, rfl⟩, rfl, ?_⟩
  simp only [State.spans, State.modLaunch, List.map_map]
  refine List.map_congr_left fun x _ => ?_
  by_cases hx : x.lid = lid <;> simp [hx, hf]

section Around
variable (s : State)

theorem placeShare_sameAround (l : Launch) (bid core span block i n : Nat) (begun : Bool) : SameAround s (s.placeShare l bid core span block i n begun) := by
  refine foldl_sameAround (fun s k => ?_) _ s
  split
  · exact .refl s
  · exact .refl s

theorem placeBlock_sameAround (l : Launch) (cluster span block : Nat) (run : Nat × List Nat × Nat) (begun : Bool) :
    SameAround s (s.placeBlock l cluster span block run begun) := by
  obtain ⟨c, sh, scr⟩ := run
  have shares : SameAround s ((runParts sh).foldl (fun s' x => s'.placeShare l s.nextId (cluster * 256 + c + x.1) span block x.2.1 x.2.2 begun) s.fresh.2) :=
    .trans (t := s.fresh.2) (.refl s) (foldl_sameAround (fun s' x => placeShare_sameAround ..) _ _)
  exact shares.trans (modLaunch_sameAround _ _ fun x => ⟨rfl, rfl⟩)

theorem relocate_sameAround (g : Group) (core slot : Nat) : SameAround s (s.relocate g core slot) := .refl s

theorem moveGroup_sameAround {p : Nat} {m : GroupMove} {t : State} (h : s.moveGroup p m = some t) : SameAround s t := by
  unfold State.moveGroup at h
  split at h
  · cases h
  · dsimp only at h
    split at h <;> cases h
    exact relocate_sameAround ..

theorem moveOff_sameAround {p first n : Nat} {g : Group} {t : State} (h : s.moveOff p g first n = some t) : SameAround s t := by
  obtain ⟨k, -, hk⟩ := List.exists_of_findSome?_eq_some h
  dsimp only at hk
  split at hk
  · cases hk
  · obtain ⟨slot, -, hm⟩ := Option.bind_eq_some_iff.mp hk
    exact moveGroup_sameAround s hm

theorem clearCore_sameAround (p : Nat) (l : LaunchParams) (first n : Nat) (x : Nat × Nat × Nat) : SameAround s (s.clearCore p l first n x) := by
  refine foldl_sameAround (fun s g => ?_) _ s
  split
  · exact .refl s
  · cases hm : s.moveOff p g first n with
    | none => exact .refl s
    | some t => exact moveOff_sameAround s hm

theorem waveIn_sameAround {p cluster : Nat} {l : LaunchParams} {t : State} (h : s.waveIn p l cluster = some t) : SameAround s t := by
  unfold State.waveIn at h
  split at h
  · cases h
  · obtain ⟨c, -, hc⟩ := List.exists_of_findSome?_eq_some h
    dsimp only at hc
    split at hc <;> cases hc
    exact foldl_sameAround (fun s x => clearCore_sameAround ..) _ s
end Around

/-- What a span's placement keeps block by block holds of the state before the launch's own record is changed: each block lies on a free run of a cluster of the die and of the partition (R30, R363). -/
theorem placeSpan_induct {P : State → Prop} {s t : State} {l : Launch} {die span : Nat} (h : s.placeSpan l die span = some t) (start : P s)
    (block : ∀ u b cl run, P u → b < l.params.nblocks → cl / 16 = die → placed (u.part l.part) cl = true → u.freeRun l.part l.params cl = some run →
      P (u.placeBlock l cl span b run (s.startCome l.params die))) :
    ∃ (u : State) (late : Launch → Bool), P u ∧ t = u.modLaunch l.lid fun x => { x with nextSpan := x.nextSpan + 1, late := late x } := by
  obtain ⟨⟨u, taken⟩, hu, rfl⟩ := Option.map_eq_some_iff.mp h
  refine ⟨u, _, ?_, rfl⟩
  refine List.foldlRecOn (motive := fun acc : Option (State × List Nat) => ∀ x ∈ acc, P x.1) (List.range l.params.nblocks) _ ?_ ?_ (u, taken) hu
  · rintro x ⟨⟩
    exact start
  · intro acc hacc b hb x hx
    obtain ⟨⟨u, taken⟩, rfl, hx⟩ := Option.bind_eq_some_iff.mp hx
    obtain ⟨⟨cl, run⟩, hfind, rfl⟩ := Option.map_eq_some_iff.mp hx
    obtain ⟨c, hc, hrun⟩ := List.exists_of_findSome?_eq_some hfind
    dsimp only at hrun
    split at hrun
    · cases hrun
    · next hfree =>
      obtain ⟨run, hrun, heq⟩ := Option.map_eq_some_iff.mp hrun
      cases heq
      have hplaced : placed (u.part l.part) (die * 16 + c) = true := Decidable.byContradiction fun hno => hfree (by simp [hno])
      exact block u b _ run (hacc _ rfl) (List.mem_range.mp hb) (by have := List.mem_range.mp hc; omega) hplaced hrun

/-- A placed span changes nothing around the groups but its launch's next span (R335). -/
theorem placeSpan_around {s t : State} {l : Launch} {die span : Nat} (h : s.placeSpan l die span = some t) :
    SameMemory s t ∧ (t.launch? l.lid).map (·.nextSpan) = (s.launch? l.lid).map (·.nextSpan + 1) := by
  obtain ⟨u, late, hu, rfl⟩ := placeSpan_induct (P := SameAround s) h (.refl s) fun u b cl run hu _ _ _ _ => hu.trans (placeBlock_sameAround ..)
  refine ⟨hu.1, ?_⟩
  rw [launch?_modLaunch, Option.map_map]
  · simpa [Function.comp_def] using congrArg (Option.map (· + 1)) (hu.nextSpan l.lid)
  · exact fun _ => rfl

/-! The groups placed stand as at their start. -/

/-- s has become u by the addition of groups of a launch on a die, each as at its start in s. -/
def AddsFresh (s : State) (l : Launch) (die : Nat) (u : State) : Prop :=
  u.parts = s.parts ∧ ∃ new, u.groups = s.groups ++ new ∧ ∀ h ∈ new, Fresh s l die h

theorem slotsFree_range {s : State} {p core slot : Nat} (h : slot ∈ s.slotsFree p core) :
    (quotaOf (s.part p)).slotBase ≤ slot ∧ slot < (quotaOf (s.part p)).slotBase + (quotaOf (s.part p)).slots := by
  obtain ⟨i, hi, hslot⟩ := List.mem_filterMap.mp h
  split at hslot <;> cases hslot
  have := List.mem_range.mp hi
  omega

theorem vget_replicate {α : Type} (n : Nat) (d : α) (i : Nat) : vget (Vector.replicate n d) i d = d := by
  by_cases h : i < n <;> simp [vget, Vector.getD, h]

theorem vget_set_other {α : Type} {n i j : Nat} (v : Vector α n) (x d : α) (hi : i < n) (h : j ≠ i) : vget (v.set i x) j d = vget v j d := by
  by_cases hj : j < n
  · simp [vget, Vector.getD, hj, Ne.symm h]
  · simp [vget, Vector.getD, hj]

/-- A group at its start in a slot of its partition's range, on a core of its placement (R19, R364). -/
theorem newGroup_fresh {s : State} {l : Launch} {die core slot block : Nat} (gid bid i : Nat) (hb : block < l.params.nblocks) (hdie : dieOf core = die)
    (hcl : placed (s.part l.part) (clusterOf core) = true) (hlo : (quotaOf (s.part l.part)).slotBase ≤ slot)
    (hhi : slot < (quotaOf (s.part l.part)).slotBase + (quotaOf (s.part l.part)).slots) :
    Fresh s l die (newGroup l gid bid core slot l.nextSpan block i (s.startCome l.params die)) := by
  refine ⟨rfl, rfl, rfl, hb, hdie, hcl, hlo, hhi, rfl, rfl, rfl, fun j hj => ?_, fun j hj => ?_, rfl, rfl, rfl, rfl, fun k hk => ?_, rfl, rfl, rfl, rfl, rfl⟩
  · exact (vget_set_other _ _ _ (by decide) (by omega)).trans <| (vget_set_other _ _ _ (by decide) (by omega)).trans (vget_replicate ..)
  · exact (if_neg (by omega)).trans (vget_replicate ..)
  · exact congrArg Entry.state ((vget_set_other _ _ _ (by decide) (by omega)).trans (vget_replicate ..))

theorem AddsFresh.placeShare {s u : State} {l : Launch} {die core block : Nat} (h : AddsFresh s l die u) (hb : block < l.params.nblocks) (hdie : dieOf core = die)
    (hcl : placed (s.part l.part) (clusterOf core) = true) (bid i n : Nat) :
    AddsFresh s l die (u.placeShare l bid core l.nextSpan block i n (s.startCome l.params die)) := by
  refine List.foldlRecOn (motive := AddsFresh s l die) _ _ h fun v hv k _ => ?_
  split
  · next slot rest hfree =>
    obtain ⟨hparts, new, hgroups, hnew⟩ := hv
    obtain ⟨hlo, hhi⟩ := slotsFree_range (hfree ▸ List.mem_cons_self : slot ∈ v.slotsFree l.part core)
    rw [show v.part l.part = s.part l.part by simp only [State.part, hparts]] at hlo hhi
    refine ⟨hparts, new ++ [newGroup l v.nextId bid core slot l.nextSpan block (i + k) (s.startCome l.params die)], ?_, ?_⟩
    · simp [State.fresh, hgroups]
    · intro g hg
      rcases List.mem_append.mp hg with hg | hg
      · exact hnew g hg
      · rw [List.mem_singleton.mp hg]
        exact newGroup_fresh _ _ _ hb hdie hcl hlo hhi
  · exact hv

/-- The cores of a run are numbered from 0 on. -/
theorem runParts_lt {sh : List Nat} {x : Nat × Nat × Nat} (hx : x ∈ runParts sh) : x.1 < sh.length := by
  have grow (sh : List Nat) : ∀ acc : List (Nat × Nat × Nat) × Nat × Nat, (∀ x ∈ acc.1, x.1 < acc.2.1) →
      ∀ x ∈ (sh.foldl (fun acc n => (acc.1 ++ [(acc.2.1, acc.2.2, n)], acc.2.1 + 1, acc.2.2 + n)) acc).1, x.1 < acc.2.1 + sh.length := by
    induction sh with
    | nil => exact fun acc hacc => hacc
    | cons n sh ih =>
      intro acc hacc x hx
      have := ih _ (fun y hy => ?_) x hx
      · simp only [List.length_cons] at this ⊢
        omega
      · rcases List.mem_append.mp hy with hy | hy
        · exact Nat.lt_succ_of_lt (hacc y hy)
        · simp [List.mem_singleton.mp hy]
  simpa using grow sh ([], 0, 0) (by simp) x hx

/-- A free run lies in its cluster (R29). -/
theorem freeRun_inCluster {s : State} {p cluster c scr : Nat} {l : LaunchParams} {sh : List Nat} (h : s.freeRun p l cluster = some (c, sh, scr)) : c + sh.length ≤ 256 := by
  unfold State.freeRun at h
  split at h
  · cases h
  · obtain ⟨c', hc, hr⟩ := List.exists_of_findSome?_eq_some h
    dsimp only at hr
    split at hr
    · obtain ⟨r, -, heq⟩ := Option.map_eq_some_iff.mp hr
      cases heq
      have := List.mem_range.mp hc
      omega
    · cases hr

theorem AddsFresh.placeBlock {s u : State} {l : Launch} {die block cl : Nat} {run : Nat × List Nat × Nat} (h : AddsFresh s l die u) (hb : block < l.params.nblocks)
    (hdie : cl / 16 = die) (hcl : placed (s.part l.part) cl = true) (hrun : u.freeRun l.part l.params cl = some run) :
    AddsFresh s l die (u.placeBlock l cl l.nextSpan block run (s.startCome l.params die)) := by
  obtain ⟨c, sh, scr⟩ := run
  have hc := freeRun_inCluster hrun
  refine List.foldlRecOn (motive := AddsFresh s l die) (runParts sh) (fun v x => v.placeShare l u.nextId (cl * 256 + c + x.1) l.nextSpan block x.2.1 x.2.2 (s.startCome l.params die)) (b := u.fresh.2) h fun v hv x hx => ?_
  have hx := runParts_lt hx
  have hcluster : clusterOf (cl * 256 + c + x.1) = cl := by
    unfold clusterOf
    omega
  refine hv.placeShare hb ?_ (by rwa [hcluster]) ..
  unfold dieOf
  omega

/-- The groups of a placed span are added as at their start; no other group changes (R19, R30). -/
theorem placeSpan_groups {s t : State} {l : Launch} {die : Nat} (h : s.placeSpan l die l.nextSpan = some t) :
    ∃ new, t.groups = s.groups ++ new ∧ ∀ g ∈ new, Fresh s l die g := by
  obtain ⟨u, late, ⟨-, hnew⟩, rfl⟩ := placeSpan_induct (P := AddsFresh s l die) h ⟨rfl, [], by simp, by simp⟩ fun u b cl run hu hb hdie hcl hrun =>
    hu.placeBlock hb hdie (by rwa [State.part, ← hu.1]) hrun
  exact hnew

/-! The dispatch of a span. -/

/-- A span dispatched stands on one of the four dies, as things stand or after the launch's wave (R335, R38). -/
theorem dispatchSpan_cases {s t : State} {l : Launch} (h : s.dispatchSpan l = some t) :
    ∃ d < 4, s.placeSpan l d l.nextSpan = some t ∨ s.placeSpan l d l.nextSpan = none ∧ s.waveSpan l d = some t := by
  unfold State.dispatchSpan at h
  dsimp only at h
  split at h
  · cases h
  · next c cs hcands =>
    cases h
    have best : (cs.foldl (fun b x => if s.dieFree l.part b.1 < s.dieFree l.part x.1 then x else b) c) ∈ c :: cs :=
      List.foldlRecOn (motive := (· ∈ c :: cs)) cs _ List.mem_cons_self fun b hb x hx => by
        split
        · exact List.mem_cons_of_mem _ hx
        · exact hb
    generalize cs.foldl _ c = b at best
    rw [← hcands] at best
    obtain ⟨d, hd, hmap⟩ := List.mem_filterMap.mp best
    obtain ⟨t, ht, rfl⟩ := Option.map_eq_some_iff.mp hmap
    refine ⟨d, List.mem_range.mp hd, ?_⟩
    cases hp : s.placeSpan l d l.nextSpan with
    | none => exact .inr ⟨rfl, by simpa [hp] using ht⟩
    | some t' => exact .inl (by simpa [hp] using ht)

/-- Where some die takes the span it is dispatched (R335). -/
theorem dispatchSpan_isSome {s : State} {l : Launch} {d : Nat} (hd : d < 4) (h : (s.placeSpan l d l.nextSpan).isSome = true) : ∃ t, s.dispatchSpan l = some t := by
  obtain ⟨t, ht⟩ := Option.isSome_iff_exists.mp h
  unfold State.dispatchSpan
  dsimp only
  split
  · next hnil =>
    have := List.filterMap_eq_nil_iff.mp hnil d (List.mem_range.mpr hd)
    simp [ht] at this
  · exact ⟨_, rfl⟩

/-- The wave of a launch leaves memory as it was, and the span placed after it is counted (R38). -/
theorem waveSpan_around {s t : State} {l : Launch} {die : Nat} (h : s.waveSpan l die = some t) :
    SameMemory s t ∧ (t.launch? l.lid).map (·.nextSpan) = (s.launch? l.lid).map (·.nextSpan + 1) := by
  unfold State.waveSpan at h
  split at h
  · cases h
  · obtain ⟨c, -, hc⟩ := List.exists_of_findSome?_eq_some h
    dsimp only at hc
    split at hc
    · obtain ⟨u, hu, hplace⟩ := Option.bind_eq_some_iff.mp hc
      have hmoved : SameAround s (u.markWaved l.lid) := (waveIn_sameAround s hu).trans (modLaunch_sameAround _ _ fun _ => ⟨rfl, rfl⟩)
      obtain ⟨⟨hd, hs, hc, hh, hp⟩, hspan⟩ := placeSpan_around hplace
      obtain ⟨hd', hs', hc', hh', hp'⟩ := hmoved.1
      refine ⟨⟨hd.trans hd', hs.trans hs', hc.trans hc', hh.trans hh', hp.trans hp'⟩, hspan.trans ?_⟩
      simpa [Function.comp_def] using congrArg (Option.map (· + 1)) (hmoved.nextSpan l.lid)
    · cases hc

theorem dispatchSpan_around {s t : State} {l : Launch} (h : s.dispatchSpan l = some t) :
    SameMemory s t ∧ (t.launch? l.lid).map (·.nextSpan) = (s.launch? l.lid).map (·.nextSpan + 1) := by
  obtain ⟨d, -, hplace | ⟨-, hwave⟩⟩ := dispatchSpan_cases h
  · exact placeSpan_around hplace
  · exact waveSpan_around hwave

section Launches
variable {s : State} {l : Launch} (hl : s.launch? l.lid = some l)
include hl

/-- SPAN_DISPATCH of a span that is dispatched, and the count of placed spans after it (R335). -/
theorem spanDispatch_eq {t : State} (hm : s.mayPlace l = true) (ht : s.dispatchSpan l = some t) :
    exec (.spanDispatch l.lid) s = .next t ∧ SameMemory s t ∧ ∀ x ∈ t.launch? l.lid, x.nextSpan = l.nextSpan + 1 := by
  obtain ⟨hmem, hspan⟩ := dispatchSpan_around ht
  refine ⟨by simp [exec, execSpanDispatch, hl, hm, ht], hmem, fun x hx => ?_⟩
  simpa [hl, Option.mem_def.mp hx] using hspan

/-- MIGRATION_WAVE of one move, where no die can take the span as things stand (R38). -/
theorem migrationWave_eq {m : GroupMove} {s1 : State} (h1 : s.moveGroup l.part m = some s1) (hm : s.mayPlace l = true) (hw : l.waved = false)
    (hnone : ∀ d < 4, s.placeSpan l d l.nextSpan = none) :
    exec (.migrationWave l.lid [m]) s = .next (((s1.markWaved l.lid).dispatchSpan { l with waved := true }).getD s) := by
  have hany : ((List.range 4).any fun d => (s.placeSpan l d l.nextSpan).isSome) = false := by
    simpa using hnone
  simp only [exec, execMigrationWave, hl, hm, hw, hany]
  simp [h1]
end Launches

/-- A moved group may be moved, and keeps its rows, its scalar, index and predicate registers and its splits on its new core (R39). -/
theorem moveGroup_group {s s1 : State} {p : Nat} {m : GroupMove} {g : Group} (h : s.moveGroup p m = some s1) (hg : s.group? m.gid = some g) :
    s.mayMove g = true ∧ s1.group? m.gid = some { refetch g with core := m.core, slot := m.slot, tileBase := m.slot * 16 } := by
  have hid : g.gid = m.gid := by simpa using List.find?_some hg
  simp only [State.moveGroup, hg] at h
  split at h
  · next hok =>
    cases h
    refine ⟨hok.2.1, ?_⟩
    simp only [State.relocate, hid]
    exact group?_modGroup hg fun _ => rfl
  · cases h

/-- A group that fetches anew keeps its splits but for the words fetched ahead (R394). -/
theorem entry_refetch (g : Group) {k : Nat} (hk : k < 4) : entry (refetch g) k = { entry g k with ibuf := none } := by
  simp [entry, refetch, vget, Vector.getD, hk]

/-- Settles O31: a dispatched span stands on one die, block by block on free runs, so its groups are new ones at their start; a wave moves groups whole. -/
theorem placement : Obligations.Placement := by
  intro s l hl
  refine ⟨fun t hm ht => ?_, fun hm ⟨d, hd, hp⟩ => ?_, ⟨s.beginLaunch l, by simp [exec, execLaunchStartTime, hl], ⟨rfl, rfl, rfl, rfl, rfl⟩, rfl⟩, fun m s1 h1 => ⟨migrationWave_eq hl h1, fun g hg => ?_⟩⟩
  · obtain ⟨hexec, hmem, hspan⟩ := spanDispatch_eq hl hm ht
    refine ⟨hexec, hmem, hspan, fun hnowave => ?_⟩
    obtain ⟨d, hd, hplace | ⟨hnone, hwave⟩⟩ := dispatchSpan_cases ht
    · obtain ⟨new, hgroups, hnew⟩ := placeSpan_groups hplace
      exact ⟨d, new, hd, hgroups, hnew⟩
    · have := hnowave d hd
      simp [hnone, hwave] at this
  · obtain ⟨t, ht⟩ := dispatchSpan_isSome hd hp
    obtain ⟨hexec, -, hspan⟩ := spanDispatch_eq hl hm ht
    exact ⟨t, hexec, hspan⟩
  · obtain ⟨hmay, hmoved⟩ := moveGroup_group h1 hg
    exact ⟨hmay, _, hmoved, rfl, rfl, rfl, rfl, rfl, rfl, fun k hk => entry_refetch g hk⟩

end Sys2Proof.Machine

end

section

/-! Joins of the issuing split. -/

namespace Sys2Proof.Machine

open Sys2Proof.Claims

theorem mem_entries {x : Nat} : x ∈ entries ↔ x < 4 := by
  simp only [entries, List.mem_cons, List.not_mem_nil, or_false]
  omega

/-- The one entry of which something holds is the one found. -/
theorem find?_entries {p : Nat → Bool} {k : Nat} (hk : k < 4) (hp : p k = true) (hother : ∀ x < 4, x ≠ k → p x = false) : entries.find? p = some k := by
  obtain ⟨x, hx⟩ := Option.isSome_iff_exists.mp (List.find?_isSome.mpr ⟨k, mem_entries.mpr hk, hp⟩)
  obtain rfl : x = k := Decidable.byContradiction fun hne => by
    have hpx := List.find?_some hx
    simp [hother x (mem_entries.mp (List.mem_of_find?_eq_some hx)) hne] at hpx
  exact hx

section Lone
variable {g : Group} {k : Nat} (hlone : ∀ x < 4, x ≠ k → (entry g x).state ≠ .joinPark)
include hlone

/-- With no other split at a join nothing merges there (R26). -/
theorem mergeJoined_lone : mergeJoined g k = (g, k) := by
  refine List.foldlRecOn (motive := (· = (g, k))) entries _ rfl ?_
  rintro _ rfl j hj
  exact if_neg fun h => hlone j (mem_entries.mp hj) h.1 h.2.1

theorem find?_joinPark (hk : k < 4) (hpark : (entry g k).state = .joinPark) : entries.find? (fun x => (entry g x).state == .joinPark) = some k :=
  find?_entries hk (by simp [hpark]) fun x hx hne => by simp [hlone x hx hne]

/-- A split alone at its join waits while another is elsewhere (R26). -/
theorem releaseJoin_waits (hk : k < 4) (hpark : (entry g k).state = .joinPark) (hother : ∃ x < 4, x ≠ k ∧ (entry g x).state ≠ .free) : releaseJoin g = g := by
  have hall : (entries.all fun j => j == k || (entry g j).state == .free) = false := by
    obtain ⟨x, hx, hne, hfree⟩ := hother
    exact List.all_eq_false.mpr ⟨x, mem_entries.mpr hx, by simp [hne, hfree]⟩
  simp [releaseJoin, find?_joinPark hlone hk hpark, mergeJoined_lone hlone, hall]
end Lone

/-- The only split of its group goes on behind its join (R26). -/
theorem releaseJoin_only {g : Group} {k : Nat} (hk : k < 4) (hpark : (entry g k).state = .joinPark) (hwait : (entry g k).wait = .none)
    (honly : ∀ x < 4, x ≠ k → (entry g x).state = .free) : releaseJoin g = setEntry g k (wakeAt (entry g k) (pcNext (entry g k))) := by
  have hlone : ∀ x < 4, x ≠ k → (entry g x).state ≠ .joinPark := fun x hx hne => by simp [honly x hx hne]
  have hall : (entries.all fun j => j == k || (entry g j).state == .free) = true := by
    refine List.all_eq_true.mpr fun x hx => ?_
    by_cases hne : x = k
    · simp [hne]
    · simp [honly x (mem_entries.mp hx) hne]
  simp [releaseJoin, find?_joinPark hlone hk hpark, mergeJoined_lone hlone, hall, hwait]

/-- The entry that a swap at a join leaves (R26): the held lanes issue, the others wait for them at the join. -/
def swapped (e : Entry) (j : Dword) : Entry := { e with rpc := j, rmask := e.ex, pc := e.rpc, ex := e.rmask, own := e.rmask ||| (e.own &&& ~~~e.ex) }

/-- The entry parked at a join (R26). -/
def parkedAt (e : Entry) (j : Dword) : Entry := { e with pc := j, state := .joinPark, wait := .none, age := 0, ibuf := none }

/-- Lanes held for another PC stay held at a join (R26). -/
theorem atJoin_held {e : Entry} {j : Dword} (h : (atJoin e j).rv = true) : atJoin e j = e :=
  if_neg fun hj => by simp [atJoin, hj] at h

/-- What a join does to its split, by what it still holds for another PC (R26). -/
theorem joinAt_eq (g : Group) (k : Nat) (j : Dword) :
    joinAt g k j .none = if (atJoin (entry g k) j).rv then setEntry g k (swapped (atJoin (entry g k) j) j)
      else releaseJoin (mergeJoined (setEntry g k (parkedAt (atJoin (entry g k) j) j)) k).1 := by
  have hj : atJoin (entry g k) j = if (entry g k).rv && (entry g k).rpc == j then
      clearResume { entry g k with ex := (entry g k).ex ||| (entry g k).rmask, own := (entry g k).own ||| (entry g k).rmask } else entry g k := by
    simp only [atJoin, Bool.and_eq_true, beq_iff_eq]
    rfl
  rw [hj]
  rfl

theorem joinAt_held {g : Group} {k : Nat} {j : Dword} (h : (atJoin (entry g k) j).rv = true) : joinAt g k j .none = setEntry g k (swapped (atJoin (entry g k) j) j) := by
  rw [joinAt_eq, if_pos h]

theorem joinAt_only {g : Group} {k : Nat} {j : Dword} (hk : k < 4) (h : (atJoin (entry g k) j).rv = false) (honly : ∀ x < 4, x ≠ k → (entry g x).state = .free) :
    joinAt g k j .none = setEntry g k { parkedAt (atJoin (entry g k) j) j with state := .runnable, pc := j + 8 } := by
  have honly' : ∀ x < 4, x ≠ k → (entry (setEntry g k (parkedAt (atJoin (entry g k) j) j)) x).state = .free := fun x hx hne => by
    rw [entry_setEntry_other _ _ hne, honly x hx hne]
  rw [joinAt_eq, if_neg (by simp [h]), mergeJoined_lone fun x hx hne => by simp [honly' x hx hne],
    releaseJoin_only hk (by simp [entry_setEntry _ _ hk, parkedAt]) (by simp [entry_setEntry _ _ hk, parkedAt]) honly', setEntry_setEntry, entry_setEntry _ _ hk]
  rfl

theorem joinAt_parks {g : Group} {k : Nat} {j : Dword} (hk : k < 4) (h : (atJoin (entry g k) j).rv = false) (hother : ∃ x < 4, x ≠ k ∧ (entry g x).state ≠ .free)
    (hlone : ∀ x < 4, x ≠ k → (entry g x).state ≠ .joinPark) : joinAt g k j .none = setEntry g k (parkedAt (atJoin (entry g k) j) j) := by
  have hlone' : ∀ x < 4, x ≠ k → (entry (setEntry g k (parkedAt (atJoin (entry g k) j) j)) x).state ≠ .joinPark := fun x hx hne => by
    rw [entry_setEntry_other _ _ hne]
    exact hlone x hx hne
  obtain ⟨x, hx, hne, hfree⟩ := hother
  rw [joinAt_eq, if_neg (by simp [h]), mergeJoined_lone hlone',
    releaseJoin_waits hlone' hk (by simp [entry_setEntry _ _ hk, parkedAt]) ⟨x, hx, hne, by rwa [entry_setEntry_other _ _ hne]⟩]

/-- The age of a split after its word (R23, R25): cleared, but where it has taken in lanes it did not have. -/
def ageBehind (before after : Entry) : BitVec 16 := if (after.own ||| after.rmask) &&& ~~~(before.own ||| before.rmask) = 0 then 0 else after.age

theorem ageBehind_zero {before after : Entry} (h : after.age = 0) : ageBehind before after = 0 := by
  simp [ageBehind, h]

/-- Every word that leaves its split in its own entry (R23, R25). -/
theorem issued_ageBehind (c : Ctx) {g0 g2 : Group} (hg : c.s.group? c.g.gid = some g0) (hid : g2.gid = c.g.gid) (hf : (entry g2 c.k).state ≠ .free) (hss : stepping c.g = false) :
    c.issued (c.s.setGroup g2) = c.s.setGroup (setEntry g2 c.k { entry g2 c.k with age := ageBehind c.e (entry g2 c.k), ibuf := none, turns := 0 }) := by
  have hg2 : (c.s.setGroup g2).group? c.g.gid = some g2 := hid ▸ group?_setGroup c.s g2 (hid ▸ hg)
  have hss' : (c.g.ss && !c.g.hmode) = false := hss
  have hk : c.survivor g2 = c.k := if_pos hf
  simp only [Ctx.issued, hg2, hk, hss', Bool.false_and, if_neg hf]
  exact setGroup_setGroup _ _ _ rfl

/-- A word that leaves its split in its own entry, in the group g2. -/
theorem runWord_table {s : State} {g g2 : Group} {k : Nat} (hi : Issues s g k) (i : Instr) (h : Hdr) (body : Ctx → Issue) (hw : i.wellFormed = true) (hid : g2.gid = g.gid)
    (hf : (entry g2 k).state ≠ .free) (hb : body (frameOf i h s g k) = .done (s.setGroup g2)) :
    runWord i h s body = .next (s.setGroup (setEntry g2 k { entry g2 k with age := ageBehind (entry g k) (entry g2 k), ibuf := none, turns := 0 })).turnOver := by
  obtain ⟨hs, hss⟩ := hi
  rw [runWord_eq hs, hw, if_pos rfl, hb]
  exact congrArg (fun t => Host.Outcome.next (State.turnOver t)) (issued_ageBehind (frameOf i h s g k) hs.group hid hf hss)

section Joins
variable {s : State} {g : Group} {k : Nat} {i : Instr} {j : Dword} (hi : Issues s g k) (hw : i.wellFormed = true)
  (hij : (∃ w : RR, i = .join w ∧ j = (entry g k).pc) ∨ ∃ w : WI, i = .joinLabel w ∧ j = relTarget g k w.imm)
include hi hw hij

/-- Both words join at their PC (R163); the join leaves their split in its own entry as e. -/
theorem exec_join {e : Entry} (hjoin : joinAt g k j .none = setEntry g k e) (hf : e.state ≠ .free) :
    exec i s = .next (s.setGroup (setEntry g k { e with age := ageBehind (entry g k) e, ibuf := none, turns := 0 })).turnOver := by
  have hk := hi.1.slot
  have hent : entry (setEntry g k e) k = e := entry_setEntry _ _ hk
  rcases hij with ⟨w, rfl, rfl⟩ | ⟨w, rfl, rfl⟩
  · have := runWord_table (g2 := setEntry g k e) hi _ w.toHdr (fun c => .done (c.s.setGroup (joinAt c.g c.k c.e.pc .none))) hw rfl (by rwa [hent]) (by rw [← hjoin]; rfl)
    rwa [hent, setEntry_setEntry] at this
  · have := runWord_table (g2 := setEntry g k e) hi _ w.toHdr (fun c => .done (c.s.setGroup (joinAt c.g c.k (c.relative w.imm) .none))) hw rfl (by rwa [hent]) (by rw [← hjoin]; rfl)
    rwa [hent, setEntry_setEntry] at this

/-- The swap with the held lanes (R26): lanes of EX that the split does not own stand in its resume field afterwards, as lanes it had not had. -/
theorem exec_join_held (hrv : (atJoin (entry g k) j).rv = true) :
    exec i s = .next (s.setGroup (setEntry g k { swapped (entry g k) j with
      age := if (entry g k).ex &&& ~~~((entry g k).own ||| (entry g k).rmask) = 0 then 0 else (entry g k).age, ibuf := none, turns := 0 })).turnOver := by
  have hat := atJoin_held hrv
  have hlanes : ((swapped (entry g k) j).own ||| (swapped (entry g k) j).rmask) &&& ~~~((entry g k).own ||| (entry g k).rmask) =
      (entry g k).ex &&& ~~~((entry g k).own ||| (entry g k).rmask) := by
    have perLane : ∀ x o r : Bool, ((r || (o && !x) || x) && !(o || r)) = (x && !(o || r)) := by decide
    ext l hl
    simp only [swapped, BitVec.getElem_and, BitVec.getElem_or, BitVec.getElem_not]
    exact perLane ..
  rw [exec_join hi hw hij (joinAt_held hrv), hat, ageBehind, hlanes]
  · rfl
  · simp [hat, swapped, hi.1.state]

/-- What O54 says of JOIN and JOIN_LABEL holds where EX lies within OWN, as R23 has it. -/
theorem exec_join_of_exWithinOwn (hex : (entry g k).ex &&& ~~~(entry g k).own = 0) :
    let e := atJoin (entry g k) j
    (e.rv = true → exec i s = .next (tableIs s (setEntry g k (swapped e j)) k)) ∧
    (e.rv = false → (∀ x < 4, x ≠ k → (entry g x).state = .free) → exec i s = .next (tableIs s (setEntry g k { e with pc := j + 8, wait := .none }) k)) ∧
    (e.rv = false → (∃ x < 4, x ≠ k ∧ (entry g x).state ≠ .free ∧ (entry g x).state ≠ .joinPark) → (∀ x < 4, x ≠ k → (entry g x).state ≠ .joinPark) →
      exec i s = .next (tableIs s (setEntry g k { e with pc := j, state := .joinPark, wait := .none }) k)) := by
  have hk := hi.1.slot
  have hrun : (atJoin (entry g k) j).state = .runnable := by
    unfold atJoin
    split <;> exact hi.1.state
  refine ⟨fun hrv => ?_, fun hrv honly => ?_, fun hrv ⟨x, hx, hne, hfree, _⟩ hlone => ?_⟩
  · have hno : (entry g k).ex &&& ~~~((entry g k).own ||| (entry g k).rmask) = 0 := by
      rw [BitVec.not_or, ← BitVec.and_assoc, hex]
      exact BitVec.zero_and
    rw [exec_join_held hi hw hij hrv, if_pos hno, atJoin_held hrv]
    simp only [tableIs, setEntry_setEntry, entry_setEntry _ _ hk]
  · rw [exec_join hi hw hij (joinAt_only hk hrv honly) (by simp), ageBehind_zero rfl]
    simp [tableIs, parkedAt, entry_setEntry _ _ hk, ← hrun]
  · rw [exec_join hi hw hij (joinAt_parks hk hrv ⟨x, hx, hne, hfree⟩ hlone) (by simp [parkedAt]), ageBehind_zero rfl]
    simp [tableIs, parkedAt, entry_setEntry _ _ hk]
end Joins

/-- A group whose split 0 executes in lane 0 without owning it, with its resume field occupied for another PC and AGE 1. -/
def strayGroup : Group := setEntry (newGroup bootLaunch 0 0 0 0 0 0 0 true) 0 { entryFree with state := .runnable, rv := true, rpc := 8, ex := 1, age := 1 }

/-- That group alone on the device, its split selected to issue. -/
def strayState : State := { State.reset with cur := some (0, 0), groups := [strayGroup] }

/-- JOIN under no guard. -/
def joinWord : RR := ⟨⟨.native, 0, false, 0, 0⟩, 0, 0, 0, 0, 0, 0⟩

theorem strayState_issues : Issues strayState strayGroup 0 := ⟨⟨rfl, rfl, by decide, rfl, rfl, rfl⟩, rfl⟩

/-- Refutes O54 in its first clause on joins, which has AGE cleared by every swap. No hypothesis of it says that EX lies within OWN, as R23 does; a lane of EX that its split does not own
counts as one that the split takes in with the swap, and the split keeps its AGE: here 1. -/
theorem not_joinsAndEnds : ¬ Obligations.JoinsAndEnds := by
  intro ⟨hjoins, _⟩
  have hw : (Instr.join joinWord).wellFormed = true := by decide
  have hij : (∃ w : RR, Instr.join joinWord = .join w ∧ (0 : Dword) = (entry strayGroup 0).pc) ∨ ∃ w : WI, Instr.join joinWord = .joinLabel w ∧ 0 = relTarget strayGroup 0 w.imm :=
    .inl ⟨joinWord, rfl, rfl⟩
  have claimed := (hjoins strayState strayGroup 0 _ 0 strayState_issues hw hij).1 rfl
  rw [exec_join_held strayState_issues hw hij rfl] at claimed
  have ages := congrArg (fun t : State => t.groups.map fun g => (entry g 0).age) (Host.Outcome.next.inj claimed)
  exact absurd ages (by decide)

end Sys2Proof.Machine

end

section

/-! Decoding and encoding agree in both directions: the fields of a word, written out again, are the whole word. -/

namespace Sys2Proof

open Sys2Proof.Laws Sys2Proof.Claims

theorem ofBool_getLsbD (w : Dword) (i : Nat) : BitVec.ofBool (w.getLsbD i) = w.extractLsb' i 1 := by
  apply BitVec.eq_of_getLsbD_eq
  intro j hj
  obtain rfl : j = 0 := by omega
  simp

theorem Form.code_of_ofBits {b : BitVec 2} {f : Form} (h : Form.ofBits b = some f) : f.code = b := by
  decide +revert

section Formats
variable {f : Form} {w : Dword} {op : BitVec 8} (hf : f.code = w.extractLsb' 62 2) (hop : opOf w = op)
include hf hop

theorem Hdr.upper_hdrOf : (hdrOf f w).upper op = w.extractLsb' 32 32 := by
  subst hop
  simp only [Hdr.upper, hdrOf, opOf, hf, ofBool_getLsbD, BitVec.extractLsb'_append_extractLsb'_eq_extractLsb']

theorem RR.word_ofWord : (RR.ofWord f w).word op = w := by
  simp only [RR.word, RR.ofWord, Hdr.upper_hdrOf hf hop, BitVec.extractLsb'_append_extractLsb'_eq_extractLsb', BitVec.extractLsb'_eq_self]

theorem RI.word_ofWord : (RI.ofWord f w).word op = w := by
  simp only [RI.word, RI.ofWord, Hdr.upper_hdrOf hf hop, BitVec.extractLsb'_append_extractLsb'_eq_extractLsb', BitVec.extractLsb'_eq_self]

theorem PP.word_ofWord : (PP.ofWord f w).word op = w := by
  simp only [PP.word, PP.ofWord, Hdr.upper_hdrOf hf hop, BitVec.extractLsb'_append_extractLsb'_eq_extractLsb', BitVec.extractLsb'_eq_self]

theorem WI.word_ofWord : (WI.ofWord f w).word op = w := by
  simp only [WI.word, WI.ofWord, Hdr.upper_hdrOf hf hop, BitVec.extractLsb'_append_extractLsb'_eq_extractLsb', BitVec.extractLsb'_eq_self]

theorem ML.word_ofWord : (ML.ofWord f w).word op = w := by
  simp only [ML.word, ML.ofWord, Hdr.upper_hdrOf hf hop, BitVec.extractLsb'_append_extractLsb'_eq_extractLsb', BitVec.extractLsb'_eq_self]

theorem MS.word_ofWord : (MS.ofWord f w).word op = w := by
  simp only [MS.word, MS.ofWord, Hdr.upper_hdrOf hf hop, BitVec.extractLsb'_append_extractLsb'_eq_extractLsb', BitVec.extractLsb'_eq_self]

theorem MA.word_ofWord : (MA.ofWord f w).word op = w := by
  simp only [MA.word, MA.ofWord, Hdr.upper_hdrOf hf hop, BitVec.extractLsb'_append_extractLsb'_eq_extractLsb', BitVec.extractLsb'_eq_self]

end Formats

/-- The opcode of its two digits in the map of R150. -/
theorem opOf_eq (w : Dword) :
    opOf w = BitVec.ofNat 8 (16 * (w.extractLsb' 58 4 : BitVec 4).toNat + (w.extractLsb' 54 4 : BitVec 4).toNat) := by
  have digits : ∀ op : BitVec 8, op = BitVec.ofNat 8 (16 * (op.extractLsb' 4 4 : BitVec 4).toNat + (op.extractLsb' 0 4 : BitVec 4).toNat) := by decide
  rw [opHi_eq, opLo_eq]
  exact digits (opOf w)

/-- Every cell of the opcode map is read in the format and under the opcode that `encode` writes its instruction in (R150), so the laws of the formats give the word back.
The cases are the rows, their cells, and the instructions of a shared cell. -/
theorem encode_of_parse {f : Form} {w : Dword} {i : Instr} (hf : f.code = w.extractLsb' 62 2) (h : parse f w = some i) : encode i = some w := by
  have hop := opOf_eq w
  simp only [parse] at h
  generalize (w.extractLsb' 54 4 : BitVec 4).toNat = lo at h hop
  generalize (w.extractLsb' 58 4 : BitVec 4).toNat = hi at h hop
  simp only [row0, row1, row2, row3, row4, row5, row6, row7, row8, row9, rowA, rowB, rowC, rowD, rowE, rowF] at h
  repeat' split at h
  all_goals cases h
  all_goals refine congrArg some ?_
  all_goals simp [hop, RR.word_ofWord hf, RI.word_ofWord hf, PP.word_ofWord hf, WI.word_ofWord hf, ML.word_ofWord hf, MS.word_ofWord hf, MA.word_ofWord hf]

/-- What a word that decodes has passed (R152). -/
theorem parse_of_decodeWord {w : Dword} {i : Instr} (h : decodeWord w = .ok i) :
    ∃ f, Form.ofBits (w.extractLsb' 62 2) = some f ∧ parse f w = some i ∧ i.wellFormed = true := by
  unfold decodeWord at h
  split at h
  next => cases h
  next f hf =>
    split at h
    next => cases h
    next j hp =>
      split at h
      next hw =>
        cases h
        exact ⟨f, hf, hp, hw⟩
      next => cases h

/-- Settles O3: parsing keeps every bit of the word in a field of its format. -/
theorem decodeEncode : Obligations.DecodeEncode := by
  intro i w h
  obtain ⟨f, hf, hp, hw⟩ := parse_of_decodeWord h
  exact ⟨hw, encode_of_parse (Form.code_of_ofBits hf) hp⟩

theorem roundTrip_correctableError : RoundTrip.Statement .correctableError := fun _ h => by cases h

/-- The round trips of all instructions, in the order of the constructors. -/
theorem roundTrip (i : Instr) : RoundTrip.Statement i :=
  Instr.casesOn (motive := RoundTrip.Statement) i
    -- the instruction words
    RoundTrip.bra RoundTrip.brx RoundTrip.call RoundTrip.ret RoundTrip.join RoundTrip.joinLabel RoundTrip.exit RoundTrip.yield RoundTrip.trap RoundTrip.sleep
    RoundTrip.nop RoundTrip.cmp RoundTrip.pand RoundTrip.por RoundTrip.pnot RoundTrip.pmov RoundTrip.vote RoundTrip.iadd RoundTrip.isub RoundTrip.imul
    RoundTrip.imad RoundTrip.imadw RoundTrip.min RoundTrip.max RoundTrip.and RoundTrip.or RoundTrip.xor RoundTrip.not RoundTrip.shl RoundTrip.shr RoundTrip.sar
    RoundTrip.clz RoundTrip.popc RoundTrip.bfe RoundTrip.bfi RoundTrip.sel RoundTrip.mov RoundTrip.lea RoundTrip.leaImm RoundTrip.movi RoundTrip.movr RoundTrip.movw
    RoundTrip.xset RoundTrip.xadd RoundTrip.xmov RoundTrip.iaddImm RoundTrip.imulImm RoundTrip.andImm RoundTrip.orImm RoundTrip.xorImm RoundTrip.shlImm
    RoundTrip.shrImm RoundTrip.sarImm RoundTrip.minImm RoundTrip.maxImm RoundTrip.sadd RoundTrip.ssub RoundTrip.smul RoundTrip.smad RoundTrip.smin RoundTrip.smax
    RoundTrip.sand RoundTrip.sor RoundTrip.sxor RoundTrip.snot RoundTrip.sshl RoundTrip.sshr RoundTrip.ssar RoundTrip.sclz RoundTrip.spopc RoundTrip.sbfe
    RoundTrip.sbfi RoundTrip.ssel RoundTrip.smov RoundTrip.smovi RoundTrip.scmp RoundTrip.fadd RoundTrip.fsub RoundTrip.fmul RoundTrip.ffma RoundTrip.fmin
    RoundTrip.fmax RoundTrip.frcp RoundTrip.frsq RoundTrip.fsqrt RoundTrip.fexp2 RoundTrip.flog2 RoundTrip.fsin RoundTrip.fcos RoundTrip.faddImm RoundTrip.fmulImm
    RoundTrip.fminImm RoundTrip.fmaxImm RoundTrip.hadd2 RoundTrip.hmul2 RoundTrip.hfma2 RoundTrip.cvt RoundTrip.qswap RoundTrip.qbcast RoundTrip.qred RoundTrip.shfl
    RoundTrip.xpair RoundTrip.xshuf RoundTrip.ldB8 RoundTrip.ldS8 RoundTrip.ldB16 RoundTrip.ldS16 RoundTrip.ld RoundTrip.ldB64 RoundTrip.ldB128 RoundTrip.stB8
    RoundTrip.stB16 RoundTrip.st RoundTrip.stB64 RoundTrip.stB128 RoundTrip.ald RoundTrip.ast RoundTrip.pf RoundTrip.seal RoundTrip.waitc RoundTrip.atom
    RoundTrip.cas RoundTrip.red RoundTrip.wpush RoundTrip.wpop RoundTrip.cis RoundTrip.fence RoundTrip.bar RoundTrip.tbar RoundTrip.mwait RoundTrip.waitm
    RoundTrip.getm RoundTrip.step RoundTrip.gangset RoundTrip.opfence RoundTrip.mma RoundTrip.mmwait RoundTrip.tld RoundTrip.tst RoundTrip.tzero RoundTrip.trav
    RoundTrip.rcfence RoundTrip.xchain RoundTrip.qsub RoundTrip.slset RoundTrip.slpulse RoundTrip.slwait RoundTrip.getsr RoundTrip.setsr RoundTrip.rolesw
    RoundTrip.sitearm RoundTrip.bkpt RoundTrip.dbgmb RoundTrip.haltg RoundTrip.stepg RoundTrip.watchset RoundTrip.eret RoundTrip.cwb RoundTrip.cinv
    -- the events and commands, which have no word
    RoundTrip.weirPortArrival RoundTrip.weirWindowExpiry RoundTrip.weirHomeExecute RoundTrip.cisBankOperation RoundTrip.monitorMatch RoundTrip.travCommandBegin
    RoundTrip.travCommandPerformed RoundTrip.returnLands RoundTrip.cisReturn RoundTrip.asyncCopyPerformed RoundTrip.probeArrival RoundTrip.fillArrival
    RoundTrip.homeRequest RoundTrip.atomicAtHome RoundTrip.uLineEviction RoundTrip.siteStepQuicken RoundTrip.siteStepWiden RoundTrip.scratchpadAccess
    RoundTrip.probeAnswerArrival RoundTrip.tbarTimeout RoundTrip.mwaitTimeout RoundTrip.waitmDeadline RoundTrip.sleepExpiry RoundTrip.xpairTimeout
    RoundTrip.roleSwitch RoundTrip.roleswGrowResume RoundTrip.barstall RoundTrip.mmaProductComplete RoundTrip.copyRecord RoundTrip.copyOwnWake
    RoundTrip.quantisationCommand RoundTrip.sluiceGateRelease RoundTrip.batchComplete RoundTrip.spanDispatch RoundTrip.migrationWave RoundTrip.launchStartTime
    RoundTrip.launchComplete RoundTrip.queueEnable RoundTrip.queuePacketRead RoundTrip.launch RoundTrip.signal RoundTrip.wait RoundTrip.waitTimeout
    RoundTrip.monitorReread RoundTrip.cond RoundTrip.loop RoundTrip.graph RoundTrip.fencePacket RoundTrip.fix RoundTrip.migrate RoundTrip.nodeLaunch
    RoundTrip.nodeSignal RoundTrip.nodeWait RoundTrip.nodeCond RoundTrip.nodeLoop RoundTrip.nodeEnd RoundTrip.nodeWaitTimeout RoundTrip.openPart RoundTrip.create
    RoundTrip.destroy RoundTrip.halt RoundTrip.resume RoundTrip.savefull RoundTrip.saveback RoundTrip.restore RoundTrip.kill RoundTrip.replay RoundTrip.tlbinv
    RoundTrip.gstep RoundTrip.saveImageWrite RoundTrip.waymaskWrite RoundTrip.wayWalkEnd RoundTrip.fqctlWrite RoundTrip.fwdclr RoundTrip.registerWrite
    RoundTrip.generationScrub RoundTrip.blockSwapOut RoundTrip.blockSwapIn RoundTrip.powerGood RoundTrip.imageVerify RoundTrip.selfCalibration RoundTrip.memoryInit
    RoundTrip.ferzuLinkUp RoundTrip.powerWindow roundTrip_correctableError RoundTrip.uncorrectableError RoundTrip.coreRepair RoundTrip.l2WayRepair
    RoundTrip.dramRepair RoundTrip.ferzuLaneRepair RoundTrip.fixCutTime RoundTrip.fixDeadline RoundTrip.fixDrainPage RoundTrip.fixDrainFault
    RoundTrip.stubForwardWrite RoundTrip.measurementExtend RoundTrip.quoteRequest RoundTrip.spareLaneTrained RoundTrip.dramSpareCopyDone
    RoundTrip.migrationDestination

/-- Settles O2 by the round trip of each instruction. -/
theorem encodeDecode : Obligations.EncodeDecode := roundTrip

theorem encode_wordSamples : ∀ x ∈ wordSamples, encode x.2 = some x.1 ∧ x.2.wellFormed = true := by
  decide

/-- Settles O1: each sample is the word its instruction is written as, so O2 gives the decoding; the four refusals are computed. -/
theorem decodeWords : Obligations.DecodeWords := by
  refine ⟨fun x hx => ?_, rfl, rfl, rfl, rfl⟩
  obtain ⟨hword, hwf⟩ := encode_wordSamples x hx
  exact encodeDecode _ _ hword hwf

end Sys2Proof

end
